-- ==== Sys2Proof/Config.lean ====
section
/-!
DEFINITION. Constants of the part: its units of time and the sizes of its stores and queues.
The spec leaves no result of a command undefined, so no free value stands here.
-/

namespace Sys2Proof.Config

/-- tu in one second of the reference input: the nominal rate of the time count (00_scope.md, Time; R18). -/
def tuPerSecond : Nat := 16000000000
/-- tu in one millisecond. -/
def tuPerMs : Nat := 16000000
/-- tu in one microsecond. -/
def tuPerUs : Nat := 16000
/-- tu in one step of a route wait limit or hold timeout: 10 µs (Table 10-3). -/
def tuPerStep : Nat := 160000
/-- The PPS watch: 1.5 s (R21). -/
def ppsWatch : Nat := 24000000000
/-- The greatest value of the time count (R18). -/
def countMax : Nat := 2 ^ 64 - 1
/-- The greatest latency and cost (R46, R87). -/
def latencyMax : Nat := 2 ^ 32 - 1
/-- Bytes in a cell of the staging cell store (R108). -/
def cellBytes : Nat := 44
/-- Cells of the staging cell store (R108). -/
def storeCells : Nat := 2048
/-- Words of the program store (R124). -/
def programWords : Nat := 4096
/-- 64-byte units of the template store (R124, R125). -/
def templateUnits : Nat := 1024
/-- Entries of a lane output queue (R168). -/
def laneEntries : Nat := 64
/-- Bytes in the body of a lane message (R171). -/
def bodyMax : Nat := 1492

end Sys2Proof.Config
end

