-- ==== Sys2Proof/Word.lean ====
section
/-!
DEFINITION. The word types of the Cenjor MR-6 and the indices of its parts (00_scope.md, Conventions and Table 0-1).
-/

namespace Sys2Proof

/-- One byte of a cell, a lane message or a store. -/
abbrev Byte := BitVec 8
/-- A stamp: the low 48 bits of the time count (R30). -/
abbrev Stamp := BitVec 48
/-- A sequence number, compared modulo 2^24 (00_scope.md, Sequence numbers). -/
abbrev Seq := BitVec 24
/-- A 32-bit counter that saturates (00_scope.md, Counters). -/
abbrev Counter := BitVec 32
/-- The epoch (R20). -/
abbrev Epoch := BitVec 8
/-- A start mark or peer mark (R52, R53). -/
abbrev Mark := BitVec 32
/-- A cycle number, compared modulo 2^16. -/
abbrev CycleNo := BitVec 16
/-- The tag of a lane message (R161). -/
abbrev Tag := BitVec 16

/-- A path and the port that serves it, 0 to 5. -/
abbrev PathId := Fin 6
/-- A tenant, 0 to 7. -/
abbrev TenantId := Fin 8
/-- A channel of a tenant, 0 to 3. -/
abbrev ChannelId := Fin 4
/-- A hop of a path, 0 to 11. -/
abbrev HopId := Fin 12
/-- A lane: 0 to 7 the tenants' lanes, 8 the management lane (R172, READ area lane). -/
abbrev LaneId := Fin 9
/-- A slot of a cycle, 0 to 31. -/
abbrev SlotId := Fin 32

/-- Traffic class: U urgent, M market data, B bulk (Table 11-1). -/
inductive TClass where
  | u | m | b
  deriving DecidableEq, Repr

/-- A stream: a tenant and a class. There are 24 (R107). -/
structure StreamId where
  tenant : TenantId
  cls : TClass
  deriving DecidableEq, Repr

/-- The two copies a message may have (Table 7-1). -/
inductive CopyName where
  | a | b
  deriving DecidableEq, Repr

/-- A timer on the reference input: `none` stopped, `some n` with n tu of reference time left,
`some 0` run out with its expiry event not yet taken. -/
abbrev Timer := Option Nat

end Sys2Proof
end

