-- ==== Sys2Proof/Syntax.lean ====
section
/-!
DEFINITION. The commands of the MR-6: one constructor for each row of spec/opcode_table.json, with the row's operands.
A request carries the lane it arrived on, the tag of its header and the bytes of its body (R161, R171, Table 11-4).
An arrival at a port carries the bytes received, the CRC-32 included (Table 11-7, Table 11-8).
-/

namespace Sys2Proof

/-- A command the part takes whole. -/
inductive Instr where
  /-- POWER_ON_RESET -/
  | powerOnReset
  /-- CYCLE_START on a port (R2) -/
  | cycleStart (p : PathId)
  /-- CONTROL_OPPORTUNITY on a port (R7) -/
  | controlOpportunity (p : PathId)
  /-- SLOT_OPPORTUNITY on a port, for the next slot of its cycle (R3, R4) -/
  | slotOpportunity (p : PathId)
  /-- CELL_ARRIVAL: the 62 bytes of a slot cell (R12) -/
  | cellArrival (p : PathId) (cell : List Byte)
  /-- CONTROL_CELL_ARRIVAL: the 32 bytes of a control cell (R13) -/
  | controlCellArrival (p : PathId) (cell : List Byte)
  /-- HOP_REPORT_FRAME: the bytes of a frame (R14) -/
  | hopReportFrame (p : PathId) (frame : List Byte)
  /-- PORT_FAULT (R15) -/
  | portFault (p : PathId)
  /-- PORT_RECOVERED (R16) -/
  | portRecovered (p : PathId)
  /-- PPS_ARRIVAL (R23) -/
  | ppsArrival
  /-- PPS_MISSING (R27) -/
  | ppsMissing
  /-- SLEW_PERIOD_END (R19) -/
  | slewPeriodEnd
  /-- COMPARE_FIRE of a channel's compare entry (R34) -/
  | compareFire (t : TenantId) (c : ChannelId)
  /-- TIMECFG (R22) -/
  | timecfg (lane : LaneId) (tag : Tag) (body : List Byte)
  /-- TIMESET (R28) -/
  | timeset (lane : LaneId) (tag : Tag) (body : List Byte)
  /-- PROBE_TIMER_EXPIRY (R39) -/
  | probeTimerExpiry (p : PathId)
  /-- PROBE_EXPIRY of the outstanding record of a probe number (R41) -/
  | probeExpiry (p : PathId) (number : BitVec 8)
  /-- REPORT_TIMEOUT (R65) -/
  | reportTimeout (p : PathId) (h : HopId)
  /-- DWELL_EXPIRY (R64) -/
  | dwellExpiry (p : PathId) (h : HopId)
  /-- LEAK_PULSE (R67) -/
  | leakPulse
  /-- HOPCLEAR (R68) -/
  | hopclear (lane : LaneId) (tag : Tag) (body : List Byte)
  /-- HOPSET (R69) -/
  | hopset (lane : LaneId) (tag : Tag) (body : List Byte)
  /-- HOPTAG (R70) -/
  | hoptag (lane : LaneId) (tag : Tag) (body : List Byte)
  /-- HOPUNTAG (R70) -/
  | hopuntag (lane : LaneId) (tag : Tag) (body : List Byte)
  /-- PATHSET (R77) -/
  | pathset (lane : LaneId) (tag : Tag) (body : List Byte)
  /-- PATHON (R79) -/
  | pathon (lane : LaneId) (tag : Tag) (body : List Byte)
  /-- PATHOFF (R84) -/
  | pathoff (lane : LaneId) (tag : Tag) (body : List Byte)
  /-- PATHRESTART (R85) -/
  | pathrestart (lane : LaneId) (tag : Tag) (body : List Byte)
  /-- PLANSET (R95) -/
  | planset (lane : LaneId) (tag : Tag) (body : List Byte)
  /-- PLANSWAP (R96) -/
  | planswap (lane : LaneId) (tag : Tag) (body : List Byte)
  /-- BUDGET_WINDOW_EXPIRY (R103) -/
  | budgetWindowExpiry
  /-- CARRY (R109) -/
  | carry (lane : LaneId) (tag : Tag) (body : List Byte)
  /-- CHANNEL_SUBMISSION: SQ takes a channel's submission (R109) -/
  | channelSubmission (t : TenantId) (c : ChannelId)
  /-- SUBMISSION_ANSWER: PE takes SQ's answer (R134) -/
  | submissionAnswer (t : TenantId) (c : ChannelId)
  /-- RESUBMISSION of a channel's held message (R136) -/
  | resubmission (t : TenantId) (c : ChannelId)
  /-- ROUTE_WAIT_EXPIRY of a stream's head (R111) -/
  | routeWaitExpiry (st : StreamId)
  /-- STALL_EXPIRY of a copy of a stream's head (R117) -/
  | stallExpiry (st : StreamId) (copy : CopyName)
  /-- LOADP (R126) -/
  | loadp (lane : LaneId) (tag : Tag) (body : List Byte)
  /-- LOADT (R127) -/
  | loadt (lane : LaneId) (tag : Tag) (body : List Byte)
  /-- FIRE (R131) -/
  | fire (lane : LaneId) (tag : Tag) (body : List Byte)
  /-- TEXT: a channel's TEXT word executes (R133) -/
  | text (t : TenantId) (c : ChannelId)
  /-- PATCH: a channel's PATCH word executes (R133) -/
  | patch (t : TenantId) (c : ChannelId)
  /-- WAIT: a channel's WAIT word executes (R137) -/
  | wait (t : TenantId) (c : ChannelId)
  /-- MARK: a channel's MARK word executes (R137) -/
  | mark (t : TenantId) (c : ChannelId)
  /-- HALT (R141) -/
  | halt (lane : LaneId) (tag : Tag) (body : List Byte)
  /-- REASM_TIMEOUT of the context of a path and stream (R148) -/
  | reasmTimeout (p : PathId) (st : StreamId)
  /-- HOLD_TIMER_EXPIRY of a stream (R156) -/
  | holdTimerExpiry (st : StreamId)
  /-- STREAMSET (R165) -/
  | streamset (lane : LaneId) (tag : Tag) (body : List Byte)
  /-- QUERY (R166) -/
  | query (lane : LaneId) (tag : Tag) (body : List Byte)
  /-- READ (R166) -/
  | read (lane : LaneId) (tag : Tag) (body : List Byte)
  /-- TENANTSET (R163) -/
  | tenantset (lane : LaneId) (tag : Tag) (body : List Byte)
  /-- TENANTON (R164) -/
  | tenanton (lane : LaneId) (tag : Tag) (body : List Byte)
  /-- TENANTOFF (R164) -/
  | tenantoff (lane : LaneId) (tag : Tag) (body : List Byte)
  /-- TENANTRESET (R164) -/
  | tenantreset (lane : LaneId) (tag : Tag) (body : List Byte)
  /-- COUNTCLEAR (R167) -/
  | countclear (lane : LaneId) (tag : Tag) (body : List Byte)
  /-- RESTART (R167) -/
  | restart (lane : LaneId) (tag : Tag) (body : List Byte)
  /-- FRAME_CHECK_ERROR on a lane (R161) -/
  | frameCheckError (lane : LaneId)
  /-- MALFORMED_MESSAGE on a lane (R171) -/
  | malformedMessage (lane : LaneId)
  /-- ENTRY_SENT: the oldest entry of a lane's output queue begins to leave (R168) -/
  | entrySent (lane : LaneId)
  /-- UNDEFINED_OP_WORD: a channel's bad word comes to execute (R132) -/
  | undefinedOpWord (t : TenantId) (c : ChannelId)
  deriving DecidableEq, Repr

end Sys2Proof
end

