-- ==== Sys2Proof/Machine/State.lean ====
section
/-!
DEFINITION. The state of the MR-6, block by block (00_scope.md, Table 0-2), as plain data.
The default value of every field is its value after power-on reset; `State.reset` is the whole part after power-on reset.
A field marked MODEL'S OWN is not named by the spec; its log entry is named beside it.
-/

namespace Sys2Proof.Machine

/-- The part never stops on a fault: every fault of the spec is a state or a count (INVENTORY.md, Faults).
There is no constructor, so no meaning can answer one. -/
inductive Fault where
  deriving DecidableEq, Repr

/-- Why the model gives a command no meaning. -/
inductive Refusal where
  /-- Raised by `exec` for a command that has no meaning yet; safe, because nothing is claimed of the command. -/
  | notModelled (mnemonic : String)
  deriving DecidableEq, Repr

/-! ## Shared data -/

/-- One value for each class U, M, B. -/
structure PerClass (α : Type) where
  u : α
  m : α
  b : α
  deriving DecidableEq, Repr

/-- A memory as (address, byte) pairs: addresses strictly rising, no byte 0 listed; an unlisted byte reads as 0
(R124 for the program and template stores; DESIGN CHOICE for the cell store, log 13). -/
abbrev Memory := List Host.Cell

/-- A capture of the time base: stamp, lock flag and epoch of one instant (R30). -/
structure Capture where
  stamp : Stamp
  lock : Bool
  epoch : Epoch
  deriving DecidableEq, Repr

/-! ## Path Ports (chapter 1) -/

inductive Parity where
  | even | odd
  deriving DecidableEq, Repr

inductive FaultState where
  | working | fault
  deriving DecidableEq, Repr

/-- The next opportunity of the port's cycle (R3). MODEL'S OWN form, log 7. -/
inductive CyclePos where
  /-- No opportunity of a cycle is left: the cycle is complete, or a fault ended it. -/
  | none
  | control
  | slot (k : SlotId)
  deriving DecidableEq, Repr

/-- Table 1-3. -/
structure PortCounters where
  cyclesStarted : Counter := 0
  dataLaunched : Counter := 0
  idleLaunched : Counter := 0
  abortLaunched : Counter := 0
  probeLaunched : Counter := 0
  echoLaunched : Counter := 0
  emptyLaunched : Counter := 0
  cellCrcErrors : Counter := 0
  controlCrcErrors : Counter := 0
  malformedCells : Counter := 0
  dataReceived : Counter := 0
  idleReceived : Counter := 0
  abortReceived : Counter := 0
  probeReceived : Counter := 0
  echoReceived : Counter := 0
  emptyReceived : Counter := 0
  reportFrames : Counter := 0
  reportFrameErrors : Counter := 0
  portFaults : Counter := 0
  deriving DecidableEq, Repr

/-- The state of one path port (R1). -/
structure Port where
  cycle : CycleNo := 65535
  parity : Parity := .odd
  faultState : FaultState := .fault
  position : CyclePos := .none
  counters : PortCounters := {}
  /-- The bytes of the last cell launched. MODEL'S OWN form of the port's output, log 12. -/
  txCell : List Byte := []
  deriving DecidableEq, Repr

/-! ## Time Base (chapter 2) -/

/-- Table 2-1. -/
inductive TimeState where
  | free | acquiring | locked | holdover
  deriving DecidableEq, Repr

/-- Table 2-6. -/
structure TbCounters where
  ppsTaken : Counter := 0
  ppsIgnored : Counter := 0
  ppsMissing : Counter := 0
  steps : Counter := 0
  compareFires : Counter := 0
  deriving DecidableEq, Repr

/-- The four discipline parameters of R21. -/
structure TimeParams where
  stepThreshold : Nat := 16000
  lockWindow : Nat := 1600
  kp : Nat := 2
  ki : Nat := 4
  deriving DecidableEq, Repr

/-- The time base (R18 to R21, R33, R37). -/
structure TimeBase where
  count : BitVec 64 := 0
  /-- The part of a tu not yet counted, in 1/16,000,000,000 tu. MODEL'S OWN form, log 2. -/
  frac : Nat := 0
  trim : Int := 0
  slew : Int := 0
  slewTimer : Timer := none
  epoch : Epoch := 0
  state : TimeState := .free
  refEnable : Bool := false
  inRun : Nat := 0
  outRun : Nat := 0
  watch : Timer := none
  params : TimeParams := {}
  /-- Entry 4 × t + c belongs to channel c of tenant t: `none` disarmed, else the target (R33). -/
  compare : Vector (Option Stamp) 32 := .replicate 32 none
  counters : TbCounters := {}
  deriving DecidableEq, Repr

/-! ## Probe Unit (chapter 3) -/

/-- An outstanding probe (R38, R40). -/
structure ProbeRecord where
  number : BitVec 8
  t1 : Stamp
  epoch : Epoch
  expiry : Timer
  deriving DecidableEq, Repr

/-- An entry of the echo queue (R38, R42). -/
structure EchoEntry where
  number : BitVec 8
  t1 : Stamp
  t2 : Stamp
  farEpoch : Epoch
  deriving DecidableEq, Repr

/-- Table 3-3, the counters of one path. -/
structure PuCounters where
  slips : Counter := 0
  losses : Counter := 0
  whileOff : Counter := 0
  echoOverflows : Counter := 0
  unmatched : Counter := 0
  downRejects : Counter := 0
  markRejects : Counter := 0
  epochRejects : Counter := 0
  arithRejects : Counter := 0
  samples : Counter := 0
  outliers : Counter := 0
  latencySteps : Counter := 0
  deriving DecidableEq, Repr

/-- The probe state of one path (R38). -/
structure PuPath where
  number : BitVec 8 := 0
  due : Bool := false
  timer : Timer := none
  /-- Oldest first, at most 8. -/
  records : List ProbeRecord := []
  /-- Oldest first, at most 4. -/
  echoes : List EchoEntry := []
  counters : PuCounters := {}
  deriving DecidableEq, Repr

structure ProbeUnit where
  paths : Vector PuPath 6 := .replicate 6 {}
  startMark : Option Mark := none
  peerMark : Option Mark := none
  peerRestarts : Counter := 0
  deriving DecidableEq, Repr

/-! ## Hop Supervisor (chapter 4) -/

/-- Table 4-1, best to worst. -/
inductive HopState where
  | clear | watch | fading | lost
  deriving DecidableEq, Repr

/-- The radio's view of the receive branch at fault (R55). -/
inductive Branch where
  | main | diversity | none
  deriving DecidableEq, Repr

/-- The five notice enables of R55. -/
structure Enables where
  watch : Bool := true
  fading : Bool := true
  lost : Bool := true
  recovery : Bool := true
  overEnable : Bool := true
  deriving DecidableEq, Repr

/-- A hop record (R55). -/
structure Hop where
  state : HopState := .lost
  unreported : Bool := true
  /-- Oldest first, at most 8. -/
  ring : List Int := []
  averaged : Option Int := none
  avx : Nat := 2
  offset : Int := 0
  rateStep : Nat := 0
  errorCount : Nat := 0
  errorThreshold : Nat := 1000
  leakDivider : Nat := 0
  secondary : Nat := 0
  overFlag : Bool := false
  blamed : Option Branch := none
  tagged : Bool := false
  reportTimeoutMs : Nat := 500
  reportTimer : Timer := none
  dwellTimer : Timer := none
  enables : Enables := {}
  deriving DecidableEq, Repr

/-- Table 4-4. -/
structure HsCounters where
  taken : Counter := 0
  whileOff : Counter := 0
  badIndex : Counter := 0
  timeouts : Counter := 0
  degradations : Counter := 0
  recoveries : Counter := 0
  overEvents : Counter := 0
  deriving DecidableEq, Repr

structure HopSupervisor where
  hops : Vector (Vector Hop 12) 6 := .replicate 6 (.replicate 12 {})
  leakPeriodMs : Nat := 1000
  leakTimer : Timer := some (1000 * Config.tuPerMs)
  counters : Vector HsCounters 6 := .replicate 6 {}
  deriving DecidableEq, Repr

/-! ## Route Selector (chapter 5) -/

inductive PathKind where
  | microwave | wireline
  deriving DecidableEq, Repr

/-- Section 5.3. -/
inductive PathState where
  | off | proving | clear | watch | fading | down
  deriving DecidableEq, Repr

/-- The hop condition HS hands to RS (R72). -/
structure HopCondition where
  worst : HopState := .lost
  usable : Nat := 0
  inWatch : Nat := 0
  inFading : Nat := 0
  overCount : Nat := 0
  tagged : Nat := 0
  deriving DecidableEq, Repr

/-- The latency fields PU writes (R38, Table 5-1). -/
structure Latency where
  value : Option Nat := none
  fresh : Bool := false
  outlierRun : Nat := 0
  losses : Nat := 0
  deriving DecidableEq, Repr

/-- The settings PATHSET writes (Table 5-1, from kind to dwell). -/
structure PathSettings where
  kind : PathKind := .microwave
  hopCount : Nat := 1
  filterShift : Nat := 3
  outlierGate : Nat := 16000
  asymmetry : Int := 0
  watchPenalty : Nat := 1600
  fadePenalty : Nat := 16000
  suspectPenalty : Nat := 8000
  tagPenalty : Nat := 160000
  wirelineBias : Nat := 0
  probeIntervalMs : Nat := 10
  probeTimeoutMs : Nat := 50
  lossLimit : Nat := 3
  reasmTimeoutUs : Nat := 2000
  watchThreshold : Int := 150
  fadeThreshold : Int := 80
  lostThreshold : Int := 20
  hysteresis : Nat := 20
  dwellMs : Nat := 2000
  deriving DecidableEq, Repr

/-- A path record (Table 5-1). -/
structure PathRecord where
  settings : PathSettings := {}
  /-- Admin: true ON, false OFF. -/
  admin : Bool := false
  state : PathState := .off
  hopCond : HopCondition := {}
  port : FaultState := .fault
  latency : Latency := {}
  cost : Option Nat := none
  deriving DecidableEq, Repr

/-- Table 5-3, the counters of one path. -/
structure RsCounters where
  serviceEntries : Counter := 0
  downHop : Counter := 0
  downProbe : Counter := 0
  downPort : Counter := 0
  firstChoices : Counter := 0
  partnerChoices : Counter := 0
  deriving DecidableEq, Repr

structure RouteSelector where
  paths : Vector PathRecord 6 := .replicate 6 {}
  counters : Vector RsCounters 6 := .replicate 6 {}
  unroutedHeads : Counter := 0
  deriving DecidableEq, Repr

/-! ## Carriage Scheduler (chapter 6) -/

/-- The owner of a slot (Table 6-1). -/
inductive SlotOwner where
  | tenant (t : TenantId)
  | openSlot
  deriving DecidableEq, Repr

/-- A plan bank: the slot owners of each parity. -/
structure Bank where
  even : Vector SlotOwner 32 := .replicate 32 .openSlot
  odd : Vector SlotOwner 32 := .replicate 32 .openSlot
  deriving DecidableEq, Repr

inductive BankName where
  | a | b
  deriving DecidableEq, Repr

/-- Table 6-3, the counters of one path. -/
structure CsCounters where
  ownerGrants : Counter := 0
  lentGrants : Counter := 0
  openGrants : Counter := 0
  shedSlots : Counter := 0
  unclaimedSlots : Counter := 0
  budgetStops : Counter := 0
  planSwaps : Counter := 0
  deriving DecidableEq, Repr

/-- The plan state of one path (Table 6-1). -/
structure Plan where
  bankA : Bank := {}
  bankB : Bank := {}
  active : BankName := .a
  pendingSwap : Option CycleNo := none
  pointer : TenantId := 7
  used : Vector Nat 8 := .replicate 8 0
  counters : CsCounters := {}
  deriving DecidableEq, Repr

structure Scheduler where
  plans : Vector Plan 6 := .replicate 6 {}
  windowPeriodUs : Nat := 100
  windowTimer : Timer := some (100 * Config.tuPerUs)
  windows : Counter := 0
  deriving DecidableEq, Repr

/-! ## Stream Queues (chapter 7) -/

/-- Where a message came from (Table 7-1). -/
inductive Source where
  | carry
  | channel (c : ChannelId)
  deriving DecidableEq, Repr

/-- Table 7-2; a DONE message has no record. -/
inductive Life where
  | queued | headUnrouted | headRouted | launching
  deriving DecidableEq, Repr

/-- The state of a copy; `routed` is a copy of a head that has not started to launch. -/
inductive CopyState where
  | routed | launching | launched | cut
  deriving DecidableEq, Repr

structure Copy where
  path : PathId
  state : CopyState := .routed
  nextFrag : Nat := 0
  stall : Timer := none
  deriving DecidableEq, Repr

/-- A message record (Table 7-1); its stream is the queue that holds it. -/
structure Message where
  length : Nat
  cells : List Nat
  originStamp : Stamp
  originLock : Bool
  source : Source
  seq : Option Seq := none
  life : Life := .queued
  routeWait : Timer := none
  relaunchCount : Nat := 0
  relaunched : Bool := false
  dual : Bool := false
  copyA : Option Copy := none
  copyB : Option Copy := none
  deriving DecidableEq, Repr

/-- Table 7-4, the counters of one stream. -/
structure SqCounters where
  fullRefusals : Counter := 0
  quotaRefusals : Counter := 0
  dropsExpired : Counter := 0
  dropsRelaunch : Counter := 0
  dropsReset : Counter := 0
  launchStarts : Counter := 0
  dualStarts : Counter := 0
  cutsService : Counter := 0
  cutsPathoff : Counter := 0
  cutsStall : Counter := 0
  cutsReset : Counter := 0
  relaunches : Counter := 0
  deriving DecidableEq, Repr

/-- Table 7-4, the counters of one path. -/
structure AbortCounters where
  owed : Counter := 0
  replaced : Counter := 0
  withdrawn : Counter := 0
  deriving DecidableEq, Repr

/-- The state SQ keeps for one stream (R107). -/
structure Stream where
  /-- Oldest first; the first is the head. -/
  queue : List Message := []
  seqCounter : Seq := 0
  lastPath : Option PathId := none
  owed : Vector (Option Seq) 6 := .replicate 6 none
  admitted : Counter := 0
  completed : Counter := 0
  dropped : Counter := 0
  counters : SqCounters := {}
  deriving DecidableEq, Repr

structure StreamQueues where
  /-- Stream 3 × tenant + class (R172). -/
  streams : Vector Stream 24 := .replicate 24 {}
  /-- The staging cell store: cell i is bytes 44 i to 44 i + 43. -/
  store : Memory := []
  aborts : Vector AbortCounters 6 := .replicate 6 {}
  deriving DecidableEq, Repr

/-! ## Program Engine (chapter 8) -/

/-- A send word as fetched: its 8 bytes and the fault note of its parity test (R132). -/
structure FetchedWord where
  bytes : List Byte
  fault : Bool
  deriving DecidableEq, Repr

/-- Table 8-2. -/
inductive ChannelState where
  | idle | running | waitingTime | waitingRoom
  deriving DecidableEq, Repr

/-- A channel's message as submitted to SQ or held (R134, R136). -/
structure Submission where
  cls : TClass
  bytes : List Byte
  originStamp : Stamp
  originLock : Bool
  deriving DecidableEq, Repr

/-- SQ's answer to a submission (R109). -/
inductive SqAnswer where
  | accepted | full | quota
  deriving DecidableEq, Repr

/-- An outstanding submission: the flag of R129 together with the message in transit and, once SQ has
taken it, SQ's answer. MODEL'S OWN form, log 9. -/
structure Outstanding where
  message : Submission
  answer : Option SqAnswer := none
  deriving DecidableEq, Repr

/-- A channel context (R129). -/
structure Channel where
  state : ChannelState := .idle
  index : Nat := 0
  /-- The word at the current index as fetched, from its fetch until the channel goes on or stops.
  MODEL'S OWN form, log 8. -/
  word : Option FetchedWord := none
  /-- The word at the current index is finished, and the channel, which a fire or an accepted resubmission has returned to RUNNING, has
  yet to continue (R136, R137, R142). MODEL'S OWN form, log 41. -/
  finished : Bool := false
  prefetched : Option FetchedWord := none
  buffer : List Byte := []
  held : Option Submission := none
  outstanding : Option Outstanding := none
  /-- Resubmissions of the held message that SQ has not yet taken (R136). MODEL'S OWN form, log 10. -/
  resubmissions : Nat := 0
  patchBlock : List Byte := []
  submitted : Nat := 0
  refused : Nat := 0
  discarded : Nat := 0
  patchShort : Bool := false
  reportPending : Bool := false
  deriving DecidableEq, Repr

/-- Table 8-6, the counters of one tenant. -/
structure PeCounters where
  firesTaken : Counter := 0
  firesRefused : Counter := 0
  submitted : Counter := 0
  refused : Counter := 0
  roomWaits : Counter := 0
  checksRange : Counter := 0
  checksTemplate : Counter := 0
  checksLength : Counter := 0
  checksBadOp : Counter := 0
  checksStore : Counter := 0
  halts : Counter := 0
  deriving DecidableEq, Repr

structure ProgramEngine where
  /-- The program store: word i is bytes 8 i to 8 i + 7. -/
  program : Memory := []
  /-- Addresses of the words with a parity fault, strictly rising (R124). -/
  programFaults : List Nat := []
  template : Memory := []
  /-- Addresses of the template bytes with a parity fault, strictly rising (R124). -/
  templateFaults : List Nat := []
  /-- Channel 4 × tenant + channel. -/
  channels : Vector Channel 32 := .replicate 32 {}
  counters : Vector PeCounters 8 := .replicate 8 {}
  storeFaults : Counter := 0
  deriving DecidableEq, Repr

/-! ## Receive and Delivery (chapter 9) -/

/-- An ASSEMBLING reassembly context (R145); an IDLE one is `none`. -/
structure Context where
  seq : Seq
  fragCount : Nat
  nextFrag : Nat
  bytes : List Byte
  originStamp : Stamp
  originLock : Bool
  dual : Bool
  relaunched : Bool
  timer : Timer
  deriving DecidableEq, Repr

/-- A completed message (R147), as it is held and as it is delivered (R159). -/
structure Completed where
  stream : StreamId
  seq : Seq
  payload : List Byte
  path : PathId
  dual : Bool
  relaunched : Bool
  originStamp : Stamp
  originLock : Bool
  arrivalStamp : Stamp
  arrivalLock : Bool
  deriving DecidableEq, Repr

/-- A receive-stream record (R150). -/
structure RecvRecord where
  fresh : Bool := true
  /-- The highest accepted sequence, meaningful while the fresh flag is clear; its reset value is a DESIGN CHOICE, log 16. -/
  highest : Seq := 0
  /-- Bit i stands for the sequence H − 1 − i. -/
  window : BitVec 64 := 0
  nextSeq : Option Seq := none
  /-- Sorted by sequence ascending from N, at most 16. -/
  hold : List Completed := []
  holdTimer : Timer := none
  deriving DecidableEq, Repr

/-- Table 9-2, the counters of one path. -/
structure RdPathCounters where
  disabledCells : Counter := 0
  completed : Counter := 0
  overrun : Counter := 0
  order : Counter := 0
  timeout : Counter := 0
  abort : Counter := 0
  orphans : Counter := 0
  unmatchedAborts : Counter := 0
  deriving DecidableEq, Repr

/-- Table 9-2, the counters of one stream. -/
structure RdStreamCounters where
  accepted : Counter := 0
  duplicates : Counter := 0
  stale : Counter := 0
  late : Counter := 0
  gaps : Counter := 0
  resyncs : Counter := 0
  skipped : Counter := 0
  holdDiscards : Counter := 0
  delivered : Counter := 0
  disabledDiscards : Counter := 0
  deriving DecidableEq, Repr

structure Receiver where
  /-- Context 24 × path + stream index (R172). -/
  contexts : Vector (Option Context) 144 := .replicate 144 none
  records : Vector RecvRecord 24 := .replicate 24 {}
  pathCounters : Vector RdPathCounters 6 := .replicate 6 {}
  streamCounters : Vector RdStreamCounters 24 := .replicate 24 {}
  deriving DecidableEq, Repr

/-! ## Lane Interface (chapter 10) -/

inductive DualMode where
  | off | onDegrade | always
  deriving DecidableEq, Repr

inductive TiePolicy where
  | fixed | last | spread
  deriving DecidableEq, Repr

inductive DeliveryMode where
  | arrival | ordered
  deriving DecidableEq, Repr

/-- The budgets of a tenant on one path, in cells per window (R102). -/
structure Budget where
  clear : Nat := 0
  watch : Nat := 0
  fading : Nat := 0
  deriving DecidableEq, Repr

/-- The fields of a tenant record that TENANTSET writes (Table 10-3). -/
structure TenantGrant where
  programBase : Nat := 0
  programSize : Nat := 0
  templateBase : Nat := 0
  templateSize : Nat := 0
  quota : Nat := 0
  /-- Bit p for path p. -/
  masks : PerClass (BitVec 6) := { u := 0, m := 0, b := 0 }
  fallbackU : Bool := false
  fallbackM : Bool := false
  /-- Bit p for path p. -/
  openAccess : BitVec 6 := 0
  budgets : Vector Budget 6 := .replicate 6 {}
  deriving DecidableEq, Repr

/-- The fields of a tenant record that STREAMSET writes (Table 10-3). -/
structure StreamSettings where
  dualU : DualMode := .off
  dualM : DualMode := .off
  tie : TiePolicy := .fixed
  routeWait : PerClass Nat := { u := 200, m := 500, b := 10000 }
  delivery : PerClass DeliveryMode := { u := .arrival, m := .arrival, b := .arrival }
  hold : PerClass Nat := { u := 20, m := 20, b := 20 }
  deriving DecidableEq, Repr

/-- A tenant record (Table 10-3). -/
structure Tenant where
  enabled : Bool := false
  grant : TenantGrant := {}
  settings : StreamSettings := {}
  deriving DecidableEq, Repr

/-- The refusal codes of Table 11-5. -/
inductive RefusalCode where
  | badIndex | badValue | busy | full | quota | range | overlap | disabled
  deriving DecidableEq, Repr

/-- What an ANSWER says (Table 11-5). -/
inductive Reply where
  | accepted
  | refused (code : RefusalCode)
  /-- Items of field number and value (R173). -/
  | data (items : List (Nat × List Byte))
  | invalid | pending | idle | stopped
  deriving DecidableEq, Repr

structure Answer where
  kind : Byte
  tag : Tag
  reply : Reply
  deriving DecidableEq, Repr

/-- Table 8-4. -/
inductive ReportKind where
  | fetched | mark | done | halted | range | templateRange | length | badOp | storeCheck
  deriving DecidableEq, Repr

/-- A REPORT of a channel of the lane's tenant (R140). -/
structure Report where
  channel : ChannelId
  kind : ReportKind
  index : Nat
  submitted : Nat
  refused : Nat
  discarded : Nat
  patchShort : Bool
  stamp : Stamp
  lock : Bool
  /-- Its leaving or loss clears its channel's report-pending flag. MODEL'S OWN mark, log 11. -/
  clearsPending : Bool
  deriving DecidableEq, Repr

inductive PathCause where
  | pathon | pathoff | pathrestart | latency | hop | probeLoss | portFault | portRecovered
  deriving DecidableEq, Repr

inductive HopCause where
  | report | dwell | timeout
  deriving DecidableEq, Repr

inductive StepCause where
  | acquire | timeset
  deriving DecidableEq, Repr

inductive DropCause where
  | expired | relaunchLimit | reset
  deriving DecidableEq, Repr

/-- The kinds of NOTICE and their fields (Table 11-6). -/
inductive Notice where
  | pathState (p : PathId) (old new : PathState) (cause : PathCause) (cost : Option Nat) (usable : Nat)
  | hopState (p : PathId) (h : HopId) (old new : HopState) (cause : HopCause) (margin : Option Int)
      (rateStep usable : Nat)
  | overThreshold (p : PathId) (h : HopId) (count threshold : Nat) (blamed : Option Branch)
  | timeState (old new : TimeState) (epoch : Epoch)
  | timeStep (cause : StepCause) (amount : Int) (epoch : Epoch)
  | latencyStep (p : PathId) (old new : Nat)
  | peerRestart (p : PathId) (old : Option Mark) (new : Mark)
  | planSwap (p : PathId) (bank : BankName) (cycle : CycleNo)
  | drop (st : StreamId) (cause : DropCause) (seq : Option Seq) (relaunchCount : Nat) (source : Source)
      (originLock : Bool) (originStamp : Stamp)
  deriving DecidableEq, Repr

/-- An entry of a lane output queue (Table 10-4). -/
inductive Entry where
  | deliver (m : Completed)
  | report (r : Report)
  | notice (stamp : Stamp) (lock : Bool) (n : Notice)
  | answer (a : Answer)
  deriving DecidableEq, Repr

/-- Table 10-6. -/
structure LaneCounters where
  frameErrors : Counter := 0
  malformed : Counter := 0
  requests : Counter := 0
  accessRefusals : Counter := 0
  sent : Counter := 0
  overwrites : Counter := 0
  evictions : Counter := 0
  mbDeliverLost : Counter := 0
  uDeliverLost : Counter := 0
  reportLost : Counter := 0
  noticeLost : Counter := 0
  answerLost : Counter := 0
  deriving DecidableEq, Repr

structure Lane where
  /-- Oldest first, at most 64. -/
  queue : List Entry := []
  counters : LaneCounters := {}
  /-- The bytes of the last frame that began to leave. MODEL'S OWN form of the lane's output, log 12. -/
  txFrame : List Byte := []
  deriving DecidableEq, Repr

structure LaneInterface where
  tenants : Vector Tenant 8 := .replicate 8 {}
  lanes : Vector Lane 9 := .replicate 9 {}
  lossFlags : Vector Bool 8 := .replicate 8 false
  deriving DecidableEq, Repr

/-! ## The part -/

/-- The state of the part and the commands that wait for it. -/
structure State where
  /-- Commands waiting, the next one first. MODEL'S OWN, log 1. -/
  pending : List Instr
  /-- Path Ports -/
  pp : Vector Port 6
  /-- Time Base -/
  tb : TimeBase
  /-- Probe Unit -/
  pu : ProbeUnit
  /-- Hop Supervisor -/
  hs : HopSupervisor
  /-- Route Selector -/
  rs : RouteSelector
  /-- Carriage Scheduler -/
  cs : Scheduler
  /-- Stream Queues -/
  sq : StreamQueues
  /-- Program Engine -/
  pe : ProgramEngine
  /-- Receive and Delivery -/
  rd : Receiver
  /-- Lane Interface -/
  li : LaneInterface
  deriving DecidableEq, Repr

/-- The part after power-on reset: every block as its chapter states (R1, R18, R20, R21, R33, R38, R55, R75, R94, R107,
R124, R129, R145, R150, Table 10-3, R168), with no command waiting. -/
def State.reset : State :=
  { pending := [], pp := .replicate 6 {}, tb := {}, pu := {}, hs := {}, rs := {}, cs := {}, sq := {}, pe := {},
    rd := {}, li := {} }

end Sys2Proof.Machine
end

