-- ==== Sys2Proof/Machine/Bytes.lean ====
section
/-!
DEFINITION. Numbers in ranges and in bytes, and the CRC-32 of section 11.3.
-/

namespace Sys2Proof.Machine

/-- A value clamped to a range (00_scope.md, Clamping and saturation). -/
def clampNat (lo hi x : Nat) : Nat := max lo (min hi x)

/-- A signed value clamped to a range. -/
def clampInt (lo hi x : Int) : Int := max lo (min hi x)

/-- One more, stopping at 2^32 − 1 (00_scope.md, Counters). -/
def satInc (c : Counter) : Counter := if c = BitVec.allOnes 32 then c else c + 1

/-- `n` more, stopping at 2^32 − 1. -/
def satAdd (c : Counter) (n : Nat) : Counter := BitVec.ofNat 32 (min (c.toNat + n) (2 ^ 32 - 1))

/-- Byte i of a layout; a byte that is not there reads as 0. -/
def byteAt (l : List Byte) (i : Nat) : Byte := l.getD i 0

/-- The number that bytes carry, most significant byte first (chapter 11). -/
def beNat (l : List Byte) : Nat := l.foldl (fun acc b => acc * 256 + b.toNat) 0

/-- The unsigned field of `n` bytes at byte `i`. -/
def fieldNat (l : List Byte) (i n : Nat) : Nat := beNat ((l.drop i).take n)

/-- The two's complement field of `n` bytes at byte `i`. -/
def fieldInt (l : List Byte) (i n : Nat) : Int :=
  let v := fieldNat l i n
  if 2 * v < 2 ^ (8 * n) then (v : Int) else (v : Int) - (2 : Int) ^ (8 * n)

/-- A flag byte of a request: 0 clear, any other value set (Table 11-1). -/
def flagAt (l : List Byte) (i : Nat) : Bool := byteAt l i != 0

/-- `v` in `n` bytes, most significant byte first. -/
def toBE : Nat → Nat → List Byte
  | 0, _ => []
  | n + 1, v => BitVec.ofNat 8 (v / 256 ^ n) :: toBE n v

/-- A signed `v` in `n` bytes of two's complement, most significant byte first. -/
def toBEInt (n : Nat) (v : Int) : List Byte := toBE n (v % (2 : Int) ^ (8 * n)).toNat

/-- A flag as a byte. -/
def flagByte (b : Bool) : Byte := if b then 1 else 0

/-- A flag as a given bit of a byte. -/
def flagBit (b : Bool) (i : Nat) : Nat := if b then 2 ^ i else 0

/-- An absent value travels with its present byte clear and its value zero (R173). -/
def optBytes (n : Nat) : Option Nat → List Byte
  | none => 0 :: toBE n 0
  | some v => 1 :: toBE n v

/-- One bit of the reflected CRC-32 register, generator of R174. -/
def crcBit (r : BitVec 32) : BitVec 32 :=
  if r.getLsbD 0 then (r >>> 1) ^^^ 0xEDB88320#32 else r >>> 1

/-- One byte, least significant bit first (R174). -/
def crcByte (r : BitVec 32) (b : Byte) : BitVec 32 :=
  crcBit (crcBit (crcBit (crcBit (crcBit (crcBit (crcBit (crcBit (r ^^^ b.setWidth 32))))))))

/-- The CRC-32 of R174: register from all ones, result reflected and inverted. -/
def crc32 (l : List Byte) : BitVec 32 := ~~~ (l.foldl crcByte (BitVec.allOnes 32))

/-- The bytes before the 4 check bytes at the end. -/
def beforeCheck (l : List Byte) : List Byte := l.take (l.length - 4)

/-- A cell or hop report frame whose last 4 bytes are the CRC-32 of the bytes before them, most significant byte
first (R10, R14, R174). -/
def crcGood (l : List Byte) : Bool :=
  decide (4 ≤ l.length) && decide (l.drop (l.length - 4) = toBE 4 (crc32 (beforeCheck l)).toNat)

/-- A cell's bytes with its CRC-32 after them (R174). -/
def withCrc (l : List Byte) : List Byte := l ++ toBE 4 (crc32 l).toNat

/-- The Ethernet frame check sequence of a lane frame, R161. Its bytes go out in Ethernet's order, least significant
byte first (PRESUMED, log 14). -/
def frameCheck (l : List Byte) : List Byte := (toBE 4 (crc32 l).toNat).reverse

/-- A lane frame whose check is good (R161, section 11.1). -/
def frameGood (l : List Byte) : Bool :=
  decide (4 ≤ l.length) && decide (l.drop (l.length - 4) = frameCheck (beforeCheck l))

/-- `l` filled with zero bytes up to `n`. -/
def padTo (n : Nat) (l : List Byte) : List Byte := l ++ List.replicate (n - l.length) 0

end Sys2Proof.Machine
end

