-- ==== Sys2Proof/Decode.lean ====
section
/-!
DEFINITION. From bits to commands. No row of spec/opcode_table.json gives bits, so no word spells a command; a lane frame
becomes a command by the frame check (R161) and the header tests (R171).
-/

namespace Sys2Proof

/-- The command that a word spells by the table's bits: none, since no row gives bits. -/
def decodeTableWord (_nbits _w : Nat) : Option Instr := none

/-- The request of a message kind (Table 11-3); a kind that the part sends, or any undefined kind, is none. -/
def requestOf (lane : LaneId) (tag : Tag) (body : List Byte) (kind : Nat) : Option Instr :=
  match kind with
  | 0x01 => some (.carry lane tag body)
  | 0x02 => some (.fire lane tag body)
  | 0x03 => some (.halt lane tag body)
  | 0x04 => some (.loadp lane tag body)
  | 0x05 => some (.loadt lane tag body)
  | 0x06 => some (.streamset lane tag body)
  | 0x07 => some (.query lane tag body)
  | 0x10 => some (.pathset lane tag body)
  | 0x11 => some (.hopset lane tag body)
  | 0x12 => some (.pathon lane tag body)
  | 0x13 => some (.pathoff lane tag body)
  | 0x14 => some (.pathrestart lane tag body)
  | 0x15 => some (.hoptag lane tag body)
  | 0x16 => some (.hopuntag lane tag body)
  | 0x17 => some (.hopclear lane tag body)
  | 0x18 => some (.planset lane tag body)
  | 0x19 => some (.planswap lane tag body)
  | 0x1A => some (.tenantset lane tag body)
  | 0x1B => some (.tenanton lane tag body)
  | 0x1C => some (.tenantoff lane tag body)
  | 0x1D => some (.tenantreset lane tag body)
  | 0x1E => some (.timecfg lane tag body)
  | 0x1F => some (.timeset lane tag body)
  | 0x20 => some (.read lane tag body)
  | 0x21 => some (.countclear lane tag body)
  | 0x22 => some (.restart lane tag body)
  | _ => none

/-- The lane message in a frame: its payload, after two addresses and a length field, before the frame check (section 11.1). -/
def framePayload (frame : List Byte) : List Byte := (Machine.beforeCheck frame).drop 14

/-- The header tests of R171 on a payload, in order: version, kind, body length. -/
def decodeMessage (lane : LaneId) (msg : List Byte) : Option Instr :=
  let n := Machine.fieldNat msg 4 2
  if Machine.byteAt msg 0 = 1 then
    match requestOf lane (BitVec.ofNat 16 (Machine.fieldNat msg 2 2)) ((msg.drop 8).take n) (Machine.byteAt msg 1).toNat with
    | none => none
    | some i => if n ≤ Config.bodyMax ∧ n + 8 ≤ msg.length then some i else none
  else none

/-- The command that a frame on a lane is (R161, R171). -/
def decodeFrame (lane : LaneId) (frame : List Byte) : Instr :=
  if Machine.frameGood frame then (decodeMessage lane (framePayload frame)).getD (.malformedMessage lane)
  else .frameCheckError lane

end Sys2Proof
end

