-- ==== Sys2Proof/Machine/Formats.lean ====
section
/-!
DEFINITION. The layouts of chapter 11: shared encodings (Table 11-1), cells and control cells (Table 11-7), hop report
frames (Table 11-8), send words (Table 11-9), and the messages the part sends (Tables 11-2, 11-5, 11-6).
-/

namespace Sys2Proof.Machine

/-! ## Shared encodings (Table 11-1) -/

def classCode : TClass → Nat
  | .u => 0 | .m => 1 | .b => 2

/-- Class 3 names no class. -/
def classOf (n : Nat) : Option TClass :=
  match n with
  | 0 => some .u
  | 1 => some .m
  | 2 => some .b
  | _ => none

/-- Bits 2:0 tenant, bits 4:3 class. -/
def streamByte (st : StreamId) : Byte := BitVec.ofNat 8 (st.tenant.val + 8 * classCode st.cls)

/-- The tenant bits always name a tenant (R11). -/
def tenantBits (b : Byte) : TenantId := ⟨b.toNat % 8, by omega⟩

def streamOf (b : Byte) : Option StreamId :=
  (classOf (b.toNat / 8 % 4)).map fun c => { tenant := tenantBits b, cls := c }

def pathStateCode : PathState → Byte
  | .off => 0 | .proving => 1 | .clear => 2 | .watch => 3 | .fading => 4 | .down => 5

def hopStateCode : HopState → Byte
  | .clear => 0 | .watch => 1 | .fading => 2 | .lost => 3

def timeStateCode : TimeState → Byte
  | .free => 0 | .acquiring => 1 | .locked => 2 | .holdover => 3

def branchCode : Branch → Byte
  | .none => 0 | .main => 1 | .diversity => 2

/-- In a NOTICE, 3 means absent. -/
def blamedCode : Option Branch → Byte
  | none => 3
  | some b => branchCode b

/-- In a hop report item, 3 is taken as NONE. -/
def branchOf (n : Nat) : Branch :=
  match n with
  | 1 => .main
  | 2 => .diversity
  | _ => .none

def dualCode : DualMode → Byte
  | .off => 0 | .onDegrade => 1 | .always => 2

def dualOf (b : Byte) : Option DualMode :=
  match b.toNat with
  | 0 => some .off
  | 1 => some .onDegrade
  | 2 => some .always
  | _ => none

def tieCode : TiePolicy → Byte
  | .fixed => 0 | .last => 1 | .spread => 2

def tieOf (b : Byte) : Option TiePolicy :=
  match b.toNat with
  | 0 => some .fixed
  | 1 => some .last
  | 2 => some .spread
  | _ => none

def deliveryCode : DeliveryMode → Byte
  | .arrival => 0 | .ordered => 1

def deliveryOf (b : Byte) : Option DeliveryMode :=
  match b.toNat with
  | 0 => some .arrival
  | 1 => some .ordered
  | _ => none

def kindCode : PathKind → Byte
  | .microwave => 0 | .wireline => 1

def kindOf (b : Byte) : Option PathKind :=
  match b.toNat with
  | 0 => some .microwave
  | 1 => some .wireline
  | _ => none

def ownerCode : SlotOwner → Byte
  | .tenant t => BitVec.ofNat 8 t.val
  | .openSlot => 255

/-- 8 to 254 name no owner (R95, R172). -/
def ownerOf (b : Byte) : Option SlotOwner :=
  if h : b.toNat < 8 then some (.tenant ⟨b.toNat, h⟩) else if b.toNat = 255 then some .openSlot else none

def sourceCode : Source → Byte
  | .channel c => BitVec.ofNat 8 c.val
  | .carry => 4

/-! ## Slot cells and control cells (Table 11-7) -/

/-- The fields of a DATA cell (Table 1-2). -/
structure DataCell where
  stream : StreamId
  seq : Seq
  frag : Nat
  fragCount : Nat
  byteCount : Nat
  dual : Bool
  relaunched : Bool
  originLock : Bool
  originStamp : Stamp
  payload : List Byte
  deriving DecidableEq, Repr

inductive SlotCell where
  | data (d : DataCell)
  | idle
  | abort (st : StreamId) (seq : Seq)
  deriving DecidableEq, Repr

inductive ControlCell where
  | probe (number : BitVec 8) (t1 : Stamp) (startMark : Mark)
  | echo (number : BitVec 8) (unchanged : Bool) (t1 t2 t3 : Stamp) (farMark : Mark)
  | empty
  deriving DecidableEq, Repr

/-- The byte count test of R11. -/
def byteCountOk (frag fragCount byteCount : Nat) : Bool :=
  if frag + 1 < fragCount then byteCount == 44
  else (decide (1 ≤ byteCount) && decide (byteCount ≤ 44)) || (byteCount == 0 && fragCount == 1)

/-- The DATA tests of R11 on a cell of kind 1. -/
def decodeData (l : List Byte) : Option DataCell :=
  match streamOf (byteAt l 1) with
  | none => none
  | some st =>
    let frag := (byteAt l 5).toNat % 8
    let fragCount := (byteAt l 5).toNat / 8 % 8
    let byteCount := (byteAt l 6).toNat
    if decide (1 ≤ fragCount) && decide (fragCount ≤ 6) && decide (frag < fragCount) && byteCountOk frag fragCount byteCount then
      some { stream := st, seq := BitVec.ofNat 24 (fieldNat l 2 3), frag := frag, fragCount := fragCount,
             byteCount := byteCount, dual := (byteAt l 7).getLsbD 0, relaunched := (byteAt l 7).getLsbD 1,
             originLock := (byteAt l 7).getLsbD 2, originStamp := BitVec.ofNat 48 (fieldNat l 8 6),
             payload := (l.drop 14).take 44 }
    else none

/-- The field tests of R11 on a slot cell; `none` is a malformed cell. -/
def decodeSlotCell (l : List Byte) : Option SlotCell :=
  match (byteAt l 0).toNat with
  | 1 => (decodeData l).map .data
  | 2 => some .idle
  | 3 => (streamOf (byteAt l 1)).map fun st => .abort st (BitVec.ofNat 24 (fieldNat l 2 3))
  | _ => none

/-- The field tests of R11 on a control cell; `none` is a malformed cell. -/
def decodeControlCell (l : List Byte) : Option ControlCell :=
  match (byteAt l 0).toNat with
  | 4 => some (.probe (byteAt l 1) (BitVec.ofNat 48 (fieldNat l 2 6)) (BitVec.ofNat 32 (fieldNat l 9 4)))
  | 5 => some (.echo (byteAt l 1) ((byteAt l 2).getLsbD 0) (BitVec.ofNat 48 (fieldNat l 3 6))
      (BitVec.ofNat 48 (fieldNat l 9 6)) (BitVec.ofNat 48 (fieldNat l 15 6)) (BitVec.ofNat 32 (fieldNat l 21 4)))
  | 6 => some .empty
  | _ => none

/-- The 62 bytes of a slot cell, CRC-32 included (R5, R6, R174). -/
def encodeSlotCell : SlotCell → List Byte
  | .data d => withCrc (padTo 58 ([1, streamByte d.stream] ++ toBE 3 d.seq.toNat ++
      [BitVec.ofNat 8 (d.frag + 8 * d.fragCount), BitVec.ofNat 8 d.byteCount,
        BitVec.ofNat 8 (flagBit d.dual 0 + flagBit d.relaunched 1 + flagBit d.originLock 2)] ++
      toBE 6 d.originStamp.toNat ++ d.payload))
  | .idle => withCrc (padTo 58 [2])
  | .abort st seq => withCrc (padTo 58 ([3, streamByte st] ++ toBE 3 seq.toNat))

/-- The 32 bytes of a control cell, CRC-32 included (R8, R9, R174). -/
def encodeControlCell : ControlCell → List Byte
  | .probe n t1 mk => withCrc (padTo 28 ([4, n] ++ toBE 6 t1.toNat ++ [0] ++ toBE 4 mk.toNat))
  | .echo n unch t1 t2 t3 mk => withCrc (padTo 28 ([5, n, flagByte unch] ++ toBE 6 t1.toNat ++ toBE 6 t2.toNat ++
      toBE 6 t3.toNat ++ toBE 4 mk.toNat))
  | .empty => withCrc (padTo 28 [6])

/-! ## Hop report frames (Table 11-8) -/

structure HopItem where
  index : Nat
  margin : Int
  rateStep : Nat
  branch : Branch
  corrected : Nat
  uncorrectable : Nat
  deriving DecidableEq, Repr

/-- One item of 8 bytes. -/
def decodeHopItem (l : List Byte) : HopItem :=
  { index := (byteAt l 0).toNat, margin := fieldInt l 1 2, rateStep := (byteAt l 3).toNat % 16,
    branch := branchOf ((byteAt l 3).toNat / 16 % 4), corrected := fieldNat l 4 2, uncorrectable := fieldNat l 6 2 }

/-- The first `n` items of bytes that hold items. -/
def decodeHopItems : Nat → List Byte → List HopItem
  | 0, _ => []
  | n + 1, l => decodeHopItem (l.take 8) :: decodeHopItems n (l.drop 8)

/-- PP's tests of a hop report frame, in the order of R14; `none` is a frame discarded whole. -/
def decodeHopFrame (l : List Byte) : Option (List HopItem) :=
  let n := (byteAt l 0).toNat
  if crcGood l && decide (1 ≤ n) && decide (n ≤ 12) && decide (l.length = 1 + 8 * n + 4) then
    some (decodeHopItems n (l.drop 1))
  else none

/-! ## Send words (Table 11-9) -/

/-- The fields of a send word's flags, class, count, offset and target. -/
structure SendWord where
  op : Nat
  cd : Bool
  cc : Bool
  wr : Bool
  sr : Bool
  pf : Bool
  sl : Bool
  cls : Option TClass
  count : Nat
  textOffset : Nat
  patchOffset : Nat
  target : Stamp
  deriving DecidableEq, Repr

/-- R175: a send word decoded from its 8 bytes. -/
def decodeWord (l : List Byte) : SendWord :=
  let f := byteAt l 1
  { op := (byteAt l 0).toNat, cd := f.getLsbD 0, cc := f.getLsbD 1, wr := f.getLsbD 2, sr := f.getLsbD 3,
    pf := f.getLsbD 4, sl := f.getLsbD 5, cls := classOf ((byteAt l 2).toNat % 4), count := fieldNat l 3 2,
    textOffset := fieldNat l 5 2, patchOffset := (byteAt l 6).toNat, target := BitVec.ofNat 48 (fieldNat l 2 6) }

/-! ## Messages the part sends (Tables 11-2, 11-3, 11-5, 11-6) -/

def refusalByte : RefusalCode → Byte
  | .badIndex => 1 | .badValue => 2 | .busy => 3 | .full => 4 | .quota => 5 | .range => 6 | .overlap => 7
  | .disabled => 8

/-- Outcome and refusal code of an ANSWER. -/
def replyBytes : Reply → List Byte
  | .accepted => [0, 0]
  | .refused c => [1, refusalByte c]
  | .data _ => [2, 0]
  | .invalid => [3, 0]
  | .pending => [4, 0]
  | .idle => [5, 0]
  | .stopped => [6, 0]

/-- An item of a DATA answer: field number, value length, value (R173). -/
def itemBytes (i : Nat × List Byte) : List Byte := toBE 2 i.1 ++ toBE 2 i.2.length ++ i.2

def replyItems : Reply → List (Nat × List Byte)
  | .data items => items
  | _ => []

def reportCode : ReportKind → Byte
  | .fetched => 1 | .mark => 2 | .done => 3 | .halted => 4 | .range => 5 | .templateRange => 6 | .length => 7
  | .badOp => 8 | .storeCheck => 9

def pathCauseCode : PathCause → Byte
  | .pathon => 0 | .pathoff => 1 | .pathrestart => 2 | .latency => 3 | .hop => 4 | .probeLoss => 5
  | .portFault => 6 | .portRecovered => 7

def hopCauseCode : HopCause → Byte
  | .report => 0 | .dwell => 1 | .timeout => 2

def pathByte (p : PathId) : Byte := BitVec.ofNat 8 p.val
def hopByte (h : HopId) : Byte := BitVec.ofNat 8 h.val

def bankCode : BankName → Byte
  | .a => 0 | .b => 1

/-- The averaged margin of a HOP_STATE notice: present byte and 2 signed bytes. -/
def marginBytes : Option Int → List Byte
  | none => [0, 0, 0]
  | some v => 1 :: toBEInt 2 v

/-- Notice kind and kind fields (Table 11-6). -/
def noticeBytes : Notice → Byte × List Byte
  | .pathState p o n c cost us =>
    (1, [pathByte p, pathStateCode o, pathStateCode n, pathCauseCode c] ++ optBytes 4 cost ++ [BitVec.ofNat 8 us])
  | .hopState p h o n c mg rs us =>
    (2, [pathByte p, hopByte h, hopStateCode o, hopStateCode n, hopCauseCode c] ++ marginBytes mg ++
      [BitVec.ofNat 8 rs, BitVec.ofNat 8 us])
  | .overThreshold p h cnt th bl =>
    (3, [pathByte p, hopByte h] ++ toBE 2 cnt ++ toBE 2 th ++ [blamedCode bl])
  | .timeState o n e => (4, [timeStateCode o, timeStateCode n, e])
  | .timeStep c amt e => (5, [match c with | .acquire => 0 | .timeset => 1] ++ toBEInt 8 amt ++ [e])
  | .latencyStep p o n => (6, [pathByte p] ++ toBE 4 o ++ toBE 4 n)
  | .peerRestart p o n => (7, [pathByte p] ++ toBE 4 ((o.map BitVec.toNat).getD 0) ++ toBE 4 n.toNat)
  | .planSwap p bk c => (8, [pathByte p, bankCode bk] ++ toBE 2 c.toNat)
  | .drop st c seq rl src ol os =>
    (9, [streamByte st, match c with | .expired => 0 | .relaunchLimit => 1 | .reset => 2] ++
      optBytes 3 (seq.map BitVec.toNat) ++ [BitVec.ofNat 8 rl, sourceCode src, flagByte ol] ++ toBE 6 os.toNat)

/-- The body of a DELIVER with the fields LI inserts as it leaves (Table 11-5, R170). -/
def deliverBytes (m : Completed) (loss : Bool) (delivery : Stamp) (deliveryLock : Bool) : List Byte :=
  [streamByte m.stream] ++ toBE 3 m.seq.toNat ++
    [pathByte m.path, BitVec.ofNat 8 (flagBit m.dual 0 + flagBit m.relaunched 1 + flagBit loss 2 +
      flagBit m.originLock 3 + flagBit m.arrivalLock 4 + flagBit deliveryLock 5)] ++
    toBE 6 m.originStamp.toNat ++ toBE 6 m.arrivalStamp.toNat ++ toBE 6 delivery.toNat ++
    toBE 2 m.payload.length ++ m.payload

/-- Message kind, tag and body of an entry as it leaves (R171, Table 11-5). -/
def entryMessage (loss : Bool) (c : Capture) : Entry → Byte × Tag × List Byte
  | .answer a => (0x40, a.tag, [a.kind] ++ replyBytes a.reply ++ (replyItems a.reply).flatMap itemBytes)
  | .deliver m => (0x41, 0, deliverBytes m loss c.stamp c.lock)
  | .report r => (0x42, 0, [BitVec.ofNat 8 r.channel.val, reportCode r.kind] ++ toBE 2 r.index ++ toBE 2 r.submitted ++
      toBE 2 r.refused ++ toBE 2 r.discarded ++
      [BitVec.ofNat 8 (flagBit r.patchShort 0 + flagBit r.lock 1)] ++ toBE 6 r.stamp.toNat)
  | .notice st lk n => (0x43, 0, [(noticeBytes n).1, flagByte lk] ++ toBE 6 st.toNat ++ (noticeBytes n).2)

/-- A lane message: 8-byte header and body (Table 11-2). -/
def laneMessage (kind : Byte) (tag : Tag) (body : List Byte) : List Byte :=
  [1, kind] ++ toBE 2 tag.toNat ++ toBE 2 body.length ++ [0, 0] ++ body

/-- A lane frame as the part sends it (section 11.1). -/
def laneFrame (msg : List Byte) : List Byte :=
  let f := List.replicate 12 (0 : Byte) ++ toBE 2 msg.length ++ padTo 46 msg
  f ++ frameCheck f

end Sys2Proof.Machine
end

