-- ==== Sys2Proof/Machine/Ops.lean ====
section
/-!
DEFINITION. The operations the blocks share: reading and writing a store, reading and changing one row of a table,
timers, a capture of the time base (R30), and putting an entry on a lane output queue (R168, R169).
-/

namespace Sys2Proof.Machine

/-! ## The stores -/

/-- The byte at an address; an unlisted address reads as 0. -/
def Memory.read : Memory → Nat → Byte
  | [], _ => 0
  | (k, v) :: r, a => if k = a then v else Memory.read r a

/-- Write one byte, keeping the canonical form. -/
def Memory.write : Memory → Nat → Byte → Memory
  | [], a, x => if x = 0 then [] else [(a, x)]
  | (k, v) :: r, a, x =>
    if a < k then (if x = 0 then (k, v) :: r else (a, x) :: (k, v) :: r)
    else if a = k then (if x = 0 then r else (a, x) :: r)
    else (k, v) :: Memory.write r a x

/-- The canonical form above a bound: addresses strictly rising, no byte 0 listed. -/
def Memory.wfAbove : Option Nat → Memory → Bool
  | _, [] => true
  | lo, (k, v) :: r => (match lo with | none => true | some l => decide (l < k)) && v != 0 && Memory.wfAbove (some k) r

/-- The canonical form. -/
def Memory.wf (m : Memory) : Bool := Memory.wfAbove none m

/-- Write bytes at consecutive addresses. -/
def Memory.writeList : Memory → Nat → List Byte → Memory
  | m, _, [] => m
  | m, a, x :: r => Memory.writeList (Memory.write m a x) (a + 1) r

/-- Read `n` bytes at consecutive addresses. -/
def Memory.readList (m : Memory) : Nat → Nat → List Byte
  | _, 0 => []
  | a, n + 1 => Memory.read m a :: Memory.readList m (a + 1) n

/-- Addresses `a` to `a + n − 1` have good parity afterwards (R124). -/
def clearFaults (faults : List Nat) (a n : Nat) : List Nat := faults.filter fun x => decide (x < a) || decide (a + n ≤ x)

/-- Some address of `a` to `a + n − 1` has a parity fault. -/
def anyFault (faults : List Nat) (a n : Nat) : Bool := faults.any fun x => decide (a ≤ x) && decide (x < a + n)

/-! ## Tables -/

/-- Change one row of a table. -/
def upd {α : Type} {n : Nat} (v : Vector α n) (i : Fin n) (f : α → α) : Vector α n := v.set i (f v[i])

/-- Change every row of a table. -/
def mapAll {α β : Type} {n : Nat} (v : Vector α n) (f : Fin n → α → β) : Vector β n := Vector.ofFn fun i => f i v[i]

def allPaths : List PathId := [0, 1, 2, 3, 4, 5]
def allTenants : List TenantId := [0, 1, 2, 3, 4, 5, 6, 7]
def allChannels : List ChannelId := [0, 1, 2, 3]
def allHops : List HopId := [0, 1, 2, 3, 4, 5, 6, 7, 8, 9, 10, 11]
def allSlots : List SlotId :=
  [0, 1, 2, 3, 4, 5, 6, 7, 8, 9, 10, 11, 12, 13, 14, 15, 16, 17, 18, 19, 20, 21, 22, 23, 24, 25, 26, 27, 28, 29, 30, 31]
/-- The classes in the order U, M, B (R113). -/
def allClasses : List TClass := [.u, .m, .b]

/-- A tenant's three streams in class order. -/
def streamsOf (t : TenantId) : List StreamId := allClasses.map fun c => { tenant := t, cls := c }

def allStreams : List StreamId := allTenants.flatMap streamsOf

def PerClass.get {α : Type} (x : PerClass α) : TClass → α
  | .u => x.u
  | .m => x.m
  | .b => x.b

/-- The number of a class (Table 11-1). -/
def classIdx : TClass → Fin 3
  | .u => 0 | .m => 1 | .b => 2

/-- Stream 3 × tenant + class (R172). -/
def streamIdx (st : StreamId) : Fin 24 := ⟨3 * st.tenant.val + (classIdx st.cls).val, by omega⟩

/-- Channel 4 × tenant + channel, which is also its compare entry (R33, R172). -/
def chanIdx (t : TenantId) (c : ChannelId) : Fin 32 := ⟨4 * t.val + c.val, by omega⟩

/-- Reassembly context 24 × path + stream index (R172). -/
def ctxIdx (p : PathId) (st : StreamId) : Fin 144 := ⟨24 * p.val + (streamIdx st).val, by omega⟩

/-- The lane of a tenant. -/
def tenantLane (t : TenantId) : LaneId := ⟨t.val, by omega⟩

/-- The management lane. -/
def mgmtLane : LaneId := 8

/-- The tenant a lane belongs to; the management lane belongs to none. -/
def laneTenant (l : LaneId) : Option TenantId := if h : l.val < 8 then some ⟨l.val, h⟩ else none

/-! ## Reading and changing the rows of the blocks' tables -/

def State.port (s : State) (p : PathId) : Port := s.pp[p]
def State.puPath (s : State) (p : PathId) : PuPath := s.pu.paths[p]
def State.hop (s : State) (p : PathId) (h : HopId) : Hop := s.hs.hops[p][h]
def State.path (s : State) (p : PathId) : PathRecord := s.rs.paths[p]
def State.plan (s : State) (p : PathId) : Plan := s.cs.plans[p]
def State.stream (s : State) (st : StreamId) : Stream := s.sq.streams[streamIdx st]
def State.channel (s : State) (t : TenantId) (c : ChannelId) : Channel := s.pe.channels[chanIdx t c]
def State.context (s : State) (p : PathId) (st : StreamId) : Option Context := s.rd.contexts[ctxIdx p st]
def State.record (s : State) (st : StreamId) : RecvRecord := s.rd.records[streamIdx st]
def State.tenant (s : State) (t : TenantId) : Tenant := s.li.tenants[t]
def State.lane (s : State) (l : LaneId) : Lane := s.li.lanes[l]
def State.target (s : State) (t : TenantId) (c : ChannelId) : Option Stamp := s.tb.compare[chanIdx t c]

def State.modPort (s : State) (p : PathId) (f : Port → Port) : State := { s with pp := upd s.pp p f }
def State.countPort (s : State) (p : PathId) (f : PortCounters → PortCounters) : State :=
  s.modPort p fun x => { x with counters := f x.counters }
def State.modTb (s : State) (f : TimeBase → TimeBase) : State := { s with tb := f s.tb }
def State.countTb (s : State) (f : TbCounters → TbCounters) : State :=
  s.modTb fun x => { x with counters := f x.counters }
def State.modPu (s : State) (p : PathId) (f : PuPath → PuPath) : State :=
  { s with pu := { s.pu with paths := upd s.pu.paths p f } }
def State.countPu (s : State) (p : PathId) (f : PuCounters → PuCounters) : State :=
  s.modPu p fun x => { x with counters := f x.counters }
def State.modHop (s : State) (p : PathId) (h : HopId) (f : Hop → Hop) : State :=
  { s with hs := { s.hs with hops := upd s.hs.hops p fun v => upd v h f } }
def State.countHs (s : State) (p : PathId) (f : HsCounters → HsCounters) : State :=
  { s with hs := { s.hs with counters := upd s.hs.counters p f } }
def State.modPath (s : State) (p : PathId) (f : PathRecord → PathRecord) : State :=
  { s with rs := { s.rs with paths := upd s.rs.paths p f } }
def State.countRs (s : State) (p : PathId) (f : RsCounters → RsCounters) : State :=
  { s with rs := { s.rs with counters := upd s.rs.counters p f } }
def State.modPlan (s : State) (p : PathId) (f : Plan → Plan) : State :=
  { s with cs := { s.cs with plans := upd s.cs.plans p f } }
def State.countCs (s : State) (p : PathId) (f : CsCounters → CsCounters) : State :=
  s.modPlan p fun x => { x with counters := f x.counters }
def State.modStream (s : State) (st : StreamId) (f : Stream → Stream) : State :=
  { s with sq := { s.sq with streams := upd s.sq.streams (streamIdx st) f } }
def State.countSq (s : State) (st : StreamId) (f : SqCounters → SqCounters) : State :=
  s.modStream st fun x => { x with counters := f x.counters }
def State.countAborts (s : State) (p : PathId) (f : AbortCounters → AbortCounters) : State :=
  { s with sq := { s.sq with aborts := upd s.sq.aborts p f } }
def State.modChannel (s : State) (t : TenantId) (c : ChannelId) (f : Channel → Channel) : State :=
  { s with pe := { s.pe with channels := upd s.pe.channels (chanIdx t c) f } }
def State.countPe (s : State) (t : TenantId) (f : PeCounters → PeCounters) : State :=
  { s with pe := { s.pe with counters := upd s.pe.counters t f } }
def State.setContext (s : State) (p : PathId) (st : StreamId) (x : Option Context) : State :=
  { s with rd := { s.rd with contexts := s.rd.contexts.set (ctxIdx p st) x } }
def State.modRecord (s : State) (st : StreamId) (f : RecvRecord → RecvRecord) : State :=
  { s with rd := { s.rd with records := upd s.rd.records (streamIdx st) f } }
def State.countRdPath (s : State) (p : PathId) (f : RdPathCounters → RdPathCounters) : State :=
  { s with rd := { s.rd with pathCounters := upd s.rd.pathCounters p f } }
def State.countRd (s : State) (st : StreamId) (f : RdStreamCounters → RdStreamCounters) : State :=
  { s with rd := { s.rd with streamCounters := upd s.rd.streamCounters (streamIdx st) f } }
def State.modTenant (s : State) (t : TenantId) (f : Tenant → Tenant) : State :=
  { s with li := { s.li with tenants := upd s.li.tenants t f } }
def State.modLane (s : State) (l : LaneId) (f : Lane → Lane) : State :=
  { s with li := { s.li with lanes := upd s.li.lanes l f } }
def State.countLane (s : State) (l : LaneId) (f : LaneCounters → LaneCounters) : State :=
  s.modLane l fun x => { x with counters := f x.counters }
def State.setTarget (s : State) (t : TenantId) (c : ChannelId) (x : Option Stamp) : State :=
  s.modTb fun y => { y with compare := y.compare.set (chanIdx t c) x }
/-- Set a tenant lane's loss flag; the management lane keeps none (R170). -/
def State.setLoss (s : State) (l : LaneId) (b : Bool) : State :=
  match laneTenant l with
  | none => s
  | some t => { s with li := { s.li with lossFlags := s.li.lossFlags.set t b } }

/-! ## Timers -/

/-- The timer has run out and its expiry has not been taken. -/
def expired (t : Timer) : Bool := t == some 0

/-- A running timer after one more tu of reference time. -/
def Timer.tick (t : Timer) : Timer := t.map fun n => n - 1

/-! ## Captures (R30) -/

/-- A capture of the time base as it stands. -/
def capture (s : State) : Capture :=
  { stamp := BitVec.ofNat 48 s.tb.count.toNat, lock := s.tb.state == .locked, epoch := s.tb.epoch }

/-! ## Lane output queues (R168, R169) -/

/-- A DELIVER of class M or B may be overwritten (Table 10-4). -/
def overwritable : Entry → Bool
  | .deliver m => m.stream.cls != .u
  | _ => false

def isDeliver : Entry → Bool
  | .deliver _ => true
  | _ => false

/-- The queue without its oldest overwritable entry, where it has one. -/
def removeOverwritable : List Entry → Option (List Entry)
  | [] => none
  | e :: r => if overwritable e then some r else (removeOverwritable r).map (e :: ·)

/-- The loss counter of a dropped entry's kind (R169). -/
def countLost (e : Entry) (c : LaneCounters) : LaneCounters :=
  match e with
  | .deliver m => if m.stream.cls = .u then { c with uDeliverLost := satInc c.uDeliverLost }
      else { c with mbDeliverLost := satInc c.mbDeliverLost }
  | .report _ => { c with reportLost := satInc c.reportLost }
  | .notice _ _ _ => { c with noticeLost := satInc c.noticeLost }
  | .answer _ => { c with answerLost := satInc c.answerLost }

/-- The report-pending flag of a REPORT's channel clears with it, where the REPORT carries the mark (R140, log 11). -/
def clearPending (l : LaneId) (e : Entry) (s : State) : State :=
  match laneTenant l, e with
  | some t, .report r => if r.clearsPending then s.modChannel t r.channel fun x => { x with reportPending := false } else s
  | _, _ => s

/-- Hand an entry to LI for a lane's output queue (R168, R169). -/
def pushEntry (l : LaneId) (e : Entry) (s : State) : State :=
  let q := (s.lane l).queue
  if q.length < Config.laneEntries then s.modLane l fun x => { x with queue := x.queue ++ [e] }
  else match removeOverwritable q with
    | some rest =>
      let s1 := s.modLane l fun x => { x with queue := rest ++ [e] }
      let s2 := s1.countLane l fun c =>
        if overwritable e then { c with overwrites := satInc c.overwrites } else { c with evictions := satInc c.evictions }
      s2.setLoss l true
    | none =>
      let s1 := s.countLane l (countLost e)
      let s2 := if isDeliver e then s1.setLoss l true else s1
      clearPending l e s2

/-- Queue a notice on a lane with a stamp captured now (R29, R73, R86, R112). -/
def pushNotice (l : LaneId) (n : Notice) (s : State) : State :=
  pushEntry l (.notice (capture s).stamp (capture s).lock n) s

/-- Queue a notice to the operator. -/
def notifyOperator (n : Notice) (s : State) : State := pushNotice mgmtLane n s

/-- Queue a request's answer on the lane it came on (R161). -/
def answer (l : LaneId) (tag : Tag) (kind : Byte) (r : Reply) (s : State) : State :=
  pushEntry l (.answer { kind := kind, tag := tag, reply := r }) s

end Sys2Proof.Machine
end

