-- ==== Sys2Proof/Machine/Flags.lean ====
section
/-!
DEFINITION. Values the blocks derive from their state: path conditions and cost (R71, R72, R87), report levels (R58, R60),
the compare test (R34), the phase error (R23), the kinds of a send word (R132), traffic and capacity (R88, R98).
-/

namespace Sys2Proof.Machine

/-! ## Paths and hops -/

/-- CLEAR, WATCH and FADING together (section 5.3). -/
def inService : PathState → Bool
  | .clear | .watch | .fading => true
  | _ => false

/-- The place of a hop state in Table 4-1: a worse state has a higher rank. -/
def hopRank : HopState → Nat
  | .clear => 0 | .watch => 1 | .fading => 2 | .lost => 3

/-- One state is worse than the other. -/
def worseThan (a b : HopState) : Bool := decide (hopRank b < hopRank a)

/-- The path state equal to a worst hop state (R80); a LOST worst hop is never entered. -/
def serviceState : HopState → PathState
  | .clear => .clear | .watch => .watch | .fading => .fading | .lost => .down

/-- Table 4-3. -/
def usableSlots : Nat → Nat
  | 0 => 0 | 1 => 8 | 2 => 12 | 3 => 16 | 4 => 20 | 5 => 24 | 6 => 28 | _ => 32

/-- A hop's rate step as R71 counts it: an unreported hop counts as 0. -/
def hopRate (h : Hop) : Nat := if h.unreported then 0 else h.rateStep

/-- The worst of a list of hop states, CLEAR for none (R72). -/
def worstOf (l : List Hop) : HopState :=
  l.foldl (fun w h => if worseThan h.state w then h.state else w) .clear

/-- The hops of a path below its hop count. -/
def pathHops (cfg : PathSettings) (hops : Vector Hop 12) : List Hop :=
  (allHops.take cfg.hopCount).map fun i => hops[i]

/-- The usable slot count of R71. -/
def usableOf (cfg : PathSettings) (l : List Hop) : Nat :=
  match cfg.kind with
  | .wireline => 32
  | .microwave => usableSlots (l.foldl (fun r h => min r (hopRate h)) 7)

/-- The hop condition of R72. -/
def deriveCondition (cfg : PathSettings) (hops : Vector Hop 12) : HopCondition :=
  let l := pathHops cfg hops
  { worst := worstOf l, usable := usableOf cfg l, inWatch := l.countP (·.state = .watch),
    inFading := l.countP (·.state = .fading), overCount := l.countP (·.overFlag), tagged := l.countP (·.tagged) }

/-- The condition HS would hand over now for a path. -/
def State.condition (s : State) (p : PathId) : HopCondition := deriveCondition (s.path p).settings s.hs.hops[p]

/-- The cost of R87. -/
def pathCost (r : PathRecord) : Option Nat :=
  match r.latency.value with
  | none => none
  | some l =>
    let sum := match r.settings.kind with
      | .microwave => l + r.settings.watchPenalty * r.hopCond.inWatch + r.settings.fadePenalty * r.hopCond.inFading
          + r.settings.suspectPenalty * r.hopCond.overCount + r.settings.tagPenalty * r.hopCond.tagged
      | .wireline => l + r.settings.wirelineBias
    some (min sum Config.latencyMax)

/-- The averaged margin of R58: the mean of the newest n margins, rounded toward minus infinity, plus the offset,
clamped. Division of integers by a positive number rounds toward minus infinity. -/
def averageOf (h : Hop) : Int :=
  let n := min (2 ^ h.avx) h.ring.length
  let newest := h.ring.drop (h.ring.length - n)
  clampInt (-1000) 1000 (newest.sum / (n : Int) + h.offset)

/-- The report level of R60, Table 4-2. -/
def reportLevel (cfg : PathSettings) (averaged : Int) (rateStep uncorrectable : Nat) : HopState :=
  if averaged < cfg.lostThreshold ∨ rateStep = 0 then .lost
  else if averaged < cfg.fadeThreshold ∨ 1 ≤ uncorrectable then .fading
  else if averaged < cfg.watchThreshold then .watch
  else .clear

/-- The threshold of the state being left (R63); a hop in CLEAR has nothing to recover from. -/
def leavingThreshold (cfg : PathSettings) : HopState → Option Int
  | .lost => some cfg.lostThreshold
  | .fading => some cfg.fadeThreshold
  | .watch => some cfg.watchThreshold
  | .clear => none

/-- A report qualifies for recovery from a state (R63). -/
def qualifies (cfg : PathSettings) (state level : HopState) (averaged : Int) : Bool :=
  match leavingThreshold cfg state with
  | none => false
  | some th => worseThan state level && decide (th + (cfg.hysteresis : Int) ≤ averaged)

/-- One level up (R64). -/
def oneUp : HopState → HopState
  | .lost => .fading | .fading => .watch | .watch => .clear | .clear => .clear

/-- The enable that a move to a worse state needs (R73). -/
def worseEnabled (e : Enables) : HopState → Bool
  | .watch => e.watch | .fading => e.fading | .lost => e.lost | .clear => false

/-! ## Time -/

/-- The count has passed a target (R34). -/
def passed (target now : Stamp) : Bool := decide (2 ^ 47 ≤ (target - now).toNat)

/-- The phase error of R23. -/
def phaseError (count : Nat) : Int :=
  let r := count % Config.tuPerSecond
  if r < 8000000000 then (r : Int) else (r : Int) - (Config.tuPerSecond : Int)

/-! ## Send words (R128, R132) -/

/-- A TEXT or PATCH word whose CD is clear. -/
def closing (w : SendWord) : Bool := (w.op == 1 || w.op == 2) && !w.cd

/-- What a fetched word is when it comes to execute, by the tests of R132 in order. -/
inductive WordKind where
  | text | patch | wait | mark
  /-- A program check of this kind. -/
  | bad (k : ReportKind)
  deriving DecidableEq, Repr

def wordKind (f : FetchedWord) : WordKind :=
  let w := decodeWord f.bytes
  if f.fault then .bad .storeCheck
  else if ((w.op == 3 || w.op == 4) && w.cd) || (w.wr && w.sr) || (closing w && w.cls.isNone) then .bad .badOp
  else match w.op with
    | 1 => .text
    | 2 => .patch
    | 3 => .wait
    | 4 => .mark
    | _ => .bad .badOp

/-! ## Slots (R88, R98 to R102) -/

def activeBank (pl : Plan) : Bank :=
  match pl.active with
  | .a => pl.bankA
  | .b => pl.bankB

/-- The owner of a slot in a bank's plan of a parity. -/
def slotOwner (bk : Bank) (par : Parity) (k : SlotId) : SlotOwner :=
  match par with
  | .even => bk.even[k]
  | .odd => bk.odd[k]

/-- A slot below the count has this owner in either parity. -/
def ownsBelow (bk : Bank) (usable : Nat) (o : SlotOwner) : Bool :=
  allSlots.any fun k => decide (k.val < usable) && (slotOwner bk .even k == o || slotOwner bk .odd k == o)

def maskHas (m : BitVec 6) (p : PathId) : Bool := m.getLsbD p.val

/-- The capacity of a path for a tenant (R88, R105). -/
def hasCapacity (s : State) (t : TenantId) (p : PathId) : Bool :=
  let bk := activeBank (s.plan p)
  let us := (s.path p).hopCond.usable
  ownsBelow bk us (.tenant t) || (maskHas (s.tenant t).grant.openAccess p && ownsBelow bk us .openSlot)

def headOf (s : State) (st : StreamId) : Option Message := (s.stream st).queue.head?

/-- The copy of a message on a path that a grant could serve now: LAUNCHING, or of a routed head. -/
def servableOn (m : Message) (p : PathId) : Option CopyName :=
  let ok (c : Option Copy) : Bool := match c with
    | none => false
    | some x => x.path == p && (match m.life with
      | .launching => x.state == .launching
      | .headRouted => true
      | _ => false)
  if ok m.copyA then some .a else if ok m.copyB then some .b else none

/-- The tenant has a cell of a message for the path (R98, R113 step 2). -/
def streamServable (s : State) (p : PathId) (st : StreamId) : Bool :=
  match headOf s st with
  | none => false
  | some m => (servableOn m p).isSome

/-- A tenant has traffic for a path (R98). -/
def hasTraffic (s : State) (t : TenantId) (p : PathId) : Bool :=
  (s.tenant t).enabled && (((streamsOf t).any fun st => (s.stream st).owed[p].isSome) ||
    (inService (s.path p).state && (streamsOf t).any (streamServable s p)))

/-- The budget for a path state (R102). -/
def budgetFor (b : Budget) : PathState → Nat
  | .clear => b.clear
  | .watch => b.watch
  | .fading => b.fading
  | _ => 0

/-- A tenant's budget-used count on a path is below its budget for the path's state, or no budget applies (R101, R102). -/
def withinBudget (s : State) (t : TenantId) (p : PathId) : Bool :=
  !inService (s.path p).state ||
    decide ((s.plan p).used[t] < budgetFor (s.tenant t).grant.budgets[p] (s.path p).state)

/-- Eligible but for the budget (R101). -/
def wantsOpen (s : State) (t : TenantId) (p : PathId) : Bool :=
  (s.tenant t).enabled && maskHas (s.tenant t).grant.openAccess p && hasTraffic s t p

/-- Eligible for an open or lent slot (R101). -/
def eligible (s : State) (t : TenantId) (p : PathId) : Bool := wantsOpen s t p && withinBudget s t p

/-- The tenants after the pointer, modulo 8, ending with the pointer itself (R101). -/
def roundRobin (pointer : TenantId) : List TenantId :=
  [pointer + 1, pointer + 2, pointer + 3, pointer + 4, pointer + 5, pointer + 6, pointer + 7, pointer]

end Sys2Proof.Machine
end

