-- ==== Sys2Proof/Machine/Routes.lean ====
section
/-!
DEFINITION. Route choice (R88 to R92): candidates, the first path, the dual partner, and the result applied to a head.
-/

namespace Sys2Proof.Machine

/-- The class's fallback permission; class B needs none (R88). -/
def fallback (g : TenantGrant) : TClass → Bool
  | .u => g.fallbackU
  | .m => g.fallbackM
  | .b => true

/-- The class's dual mode; class B has none (R90). -/
def dualMode (x : StreamSettings) : TClass → DualMode
  | .u => x.dualU
  | .m => x.dualM
  | .b => .off

/-- The three conditions of R88: in service, in the route mask, with capacity. -/
def meetsConditions (s : State) (st : StreamId) (p : PathId) : Bool :=
  inService (s.path p).state && maskHas ((s.tenant st.tenant).grant.masks.get st.cls) p && hasCapacity s st.tenant p

def isMicrowave (s : State) (p : PathId) : Bool := (s.path p).settings.kind == .microwave

/-- The candidates for a head, lowest index first (R88). -/
def candidates (s : State) (st : StreamId) : List PathId :=
  let base := allPaths.filter (meetsConditions s st)
  match st.cls with
  | .b => base
  | _ =>
    let mw := base.filter (isMicrowave s)
    if mw.isEmpty then (if fallback (s.tenant st.tenant).grant st.cls then base else []) else mw

/-- A path's cost; a path in service has one (R75). -/
def costOf (s : State) (p : PathId) : Nat := (s.path p).cost.getD Config.latencyMax

/-- The paths of lowest cost. -/
def lowestCost (s : State) (l : List PathId) : List PathId := l.filter fun p => l.all fun q => decide (costOf s p ≤ costOf s q)

/-- The tie policy of R89 over tied paths, lowest index first. -/
def tieBreak (s : State) (st : StreamId) (tied : List PathId) : Option PathId :=
  match (s.tenant st.tenant).settings.tie with
  | .fixed => tied.head?
  | .last =>
    match (s.stream st).lastPath with
    | none => tied.head?
    | some p => if tied.contains p then some p else tied.head?
  | .spread =>
    let start := (s.stream st).admitted.toNat % 6
    match tied.find? fun p => decide (start ≤ p.val) with
    | some p => some p
    | none => tied.head?

/-- The first path of a route (R89). -/
def firstPath (s : State) (st : StreamId) : Option PathId := tieBreak s st (lowestCost s (candidates s st))

/-- A partner is wanted beside a first path (R90). -/
def partnerWanted (s : State) (st : StreamId) (first : PathId) : Bool :=
  match dualMode (s.tenant st.tenant).settings st.cls with
  | .off => false
  | .always => true
  | .onDegrade => (s.path first).state == .watch || (s.path first).state == .fading

/-- The paths a partner is chosen from (R90). -/
def partnerSet (s : State) (st : StreamId) (first : PathId) : List PathId :=
  allPaths.filter fun p => p != first && meetsConditions s st p && (s.path p).hopCond.tagged == 0 &&
    (isMicrowave s p || fallback (s.tenant st.tenant).grant st.cls)

structure Route where
  first : PathId
  partner : Option PathId
  deriving DecidableEq, Repr

/-- The route of a stream's head from the table as it stands (R91). -/
def chooseRoute (s : State) (st : StreamId) : Option Route :=
  (firstPath s st).map fun p =>
    { first := p, partner := if partnerWanted s st p then tieBreak s st (lowestCost s (partnerSet s st p)) else none }

/-- Change the head of a stream queue. -/
def State.modHead (s : State) (st : StreamId) (f : Message → Message) : State :=
  s.modStream st fun x => { x with queue := x.queue.modifyHead f }

/-- The path of a copy. -/
def copyPath (c : Option Copy) : Option PathId := c.map (·.path)

/-- Apply the result of a choice to a head that has not launched (R91, R110), with the counts of Table 5-3.
`fresh` says that the head has just become head or has just relaunched (log 18). -/
def applyRoute (fresh : Bool) (st : StreamId) (m : Message) (r : Option Route) (s : State) : State :=
  match r with
  | none =>
    let s1 := s.modHead st fun x => { x with life := .headUnrouted, copyA := none, copyB := none }
    if fresh || m.life == .headRouted then { s1 with rs := { s1.rs with unroutedHeads := satInc s1.rs.unroutedHeads } } else s1
  | some rt =>
    let s1 := s.modHead st fun x =>
      { x with life := .headRouted, copyA := some { path := rt.first }, copyB := rt.partner.map fun q => { path := q } }
    let s2 := if copyPath m.copyA = some rt.first then s1
      else s1.countRs rt.first fun c => { c with firstChoices := satInc c.firstChoices }
    match rt.partner with
    | none => s2
    | some q => if copyPath m.copyB = some q then s2
      else s2.countRs q fun c => { c with partnerChoices := satInc c.partnerChoices }

/-- RS chooses for a stream's head, where it has one that has not launched (R91). -/
def chooseFor (fresh : Bool) (st : StreamId) (s : State) : State :=
  match headOf s st with
  | none => s
  | some m =>
    match m.life with
    | .headUnrouted => applyRoute fresh st m (chooseRoute s st) s
    | .headRouted => applyRoute fresh st m (chooseRoute s st) s
    | _ => s

/-- A choice for every unlaunched head of some streams (R91). -/
def rechoose (l : List StreamId) (s : State) : State := l.foldl (fun x st => chooseFor false st x) s

/-- A choice for every unlaunched head (R91). -/
def rechooseAll (s : State) : State := rechoose allStreams s

/-- A choice for every unlaunched head of one tenant (R91). -/
def rechooseTenant (t : TenantId) (s : State) : State := rechoose (streamsOf t) s

end Sys2Proof.Machine
end

