-- ==== Sys2Proof/Machine/Queues.lean ====
section
/-!
DEFINITION. The Stream Queues (chapter 7): admission, the head, DONE and drops, starting a head, cuts, relaunch, owed aborts.
-/

namespace Sys2Proof.Machine

/-! ## The cell store (R108) -/

/-- Cells a message of a length occupies (Table 7-3). -/
def cellsFor (n : Nat) : Nat := if n = 0 then 1 else (n + 43) / 44

/-- Cells held by a list of messages. -/
def cellsHeld (l : List Message) : List Nat := l.flatMap (·.cells)

/-- Every allocated cell of the store. -/
def allocatedCells (s : State) : List Nat := allStreams.flatMap fun st => cellsHeld (s.stream st).queue

/-- A tenant's occupancy. -/
def occupancy (s : State) (t : TenantId) : Nat := ((streamsOf t).flatMap fun st => cellsHeld (s.stream st).queue).length

/-- The `n` lowest indices at or above `i`, below `i + fuel`, that are not taken, in ascending order. -/
def lowestFree (taken : List Nat) : Nat → Nat → Nat → List Nat
  | 0, _, _ => []
  | _ + 1, 0, _ => []
  | fuel + 1, n + 1, i =>
    if taken.contains i then lowestFree taken fuel (n + 1) (i + 1) else i :: lowestFree taken fuel n (i + 1)

/-- Copy a payload into cells, 44 bytes to a cell. -/
def fillCells : List Nat → List Byte → Memory → Memory
  | [], _, mem => mem
  | c :: r, bytes, mem => fillCells r (bytes.drop 44) (Memory.writeList mem (44 * c) (bytes.take 44))

/-! ## Telling PE of room (R110, R136) -/

/-- A record of the tenant left one of its queues: every WAITING_ROOM channel of it resubmits. -/
def tellRoom (t : TenantId) (s : State) : State :=
  allChannels.foldl (fun x c => x.modChannel t c fun ch =>
    if ch.state = .waitingRoom then { ch with resubmissions := ch.resubmissions + 1 } else ch) s

/-! ## The head (R110 to R112, R116) -/

/-- The class's route wait limit, in tu (Table 10-3). -/
def routeLimit (s : State) (st : StreamId) : Nat := (s.tenant st.tenant).settings.routeWait.get st.cls * Config.tuPerStep

/-- The oldest message of a queue becomes head (R110). -/
def becomeHead (st : StreamId) (s : State) : State :=
  let lim := routeLimit s st
  chooseFor true st (s.modHead st fun m => { m with life := .headUnrouted, routeWait := some lim })

/-- Remove the head's record; its cells are free and the next message becomes head. -/
def removeHead (st : StreamId) (s : State) : State :=
  becomeHead st (s.modStream st fun x => { x with queue := x.queue.tail })

/-- The head is DONE (R116). -/
def finishHead (st : StreamId) (s : State) : State :=
  tellRoom st.tenant (removeHead st (s.modStream st fun x => { x with completed := satInc x.completed }))

def countDrop (cause : DropCause) (c : SqCounters) : SqCounters :=
  match cause with
  | .expired => { c with dropsExpired := satInc c.dropsExpired }
  | .relaunchLimit => { c with dropsRelaunch := satInc c.dropsRelaunch }
  | .reset => { c with dropsReset := satInc c.dropsReset }

/-- SQ drops a head with cause EXPIRED or RELAUNCH_LIMIT (R112). -/
def dropHead (st : StreamId) (m : Message) (cause : DropCause) (s : State) : State :=
  let s1 := s.modStream st fun x => { x with dropped := satInc x.dropped, counters := countDrop cause x.counters }
  let s2 := removeHead st s1
  let s3 := if st.cls = .u then
      pushNotice (tenantLane st.tenant)
        (.drop st cause m.seq m.relaunchCount m.source m.originLock m.originStamp) s2
    else s2
  tellRoom st.tenant s3

/-! ## Admission (R109) -/

def queueCapacity : TClass → Nat
  | .u => 8 | .m => 32 | .b => 32

/-- SQ tests a submission and admits it or refuses it (R109). -/
def admitMessage (st : StreamId) (bytes : List Byte) (stamp : Stamp) (lock : Bool) (source : Source) (s : State) : State × SqAnswer :=
  let q := (s.stream st).queue
  let n := cellsFor bytes.length
  if queueCapacity st.cls ≤ q.length then
    (s.countSq st (fun c => { c with fullRefusals := satInc c.fullRefusals }), .full)
  else if (s.tenant st.tenant).grant.quota < occupancy s st.tenant + n then
    (s.countSq st (fun c => { c with quotaRefusals := satInc c.quotaRefusals }), .quota)
  else
    let cells := lowestFree (allocatedCells s) Config.storeCells n 0
    let m : Message := { length := bytes.length, cells := cells, originStamp := stamp,
                         originLock := lock, source := source }
    let s1 := { s with sq := { s.sq with store := fillCells cells bytes s.sq.store } }
    let s2 := s1.modStream st fun x => { x with queue := x.queue ++ [m], admitted := satInc x.admitted }
    (if q.isEmpty then becomeHead st s2 else s2, .accepted)

/-! ## Copies -/

def getCopy (m : Message) : CopyName → Option Copy
  | .a => m.copyA
  | .b => m.copyB

def modCopy (name : CopyName) (f : Copy → Copy) (m : Message) : Message :=
  match name with
  | .a => { m with copyA := m.copyA.map f }
  | .b => { m with copyB := m.copyB.map f }

def copyIn (st : CopyState) (c : Option Copy) : Bool :=
  match c with
  | none => false
  | some x => x.state == st

/-- Some copy of the message is in a copy state. -/
def anyCopy (st : CopyState) (m : Message) : Bool := copyIn st m.copyA || copyIn st m.copyB

/-- The test of R116: every copy LAUNCHED or CUT, at least one LAUNCHED. -/
def doneTest (m : Message) : Bool := anyCopy .launched m && !anyCopy .launching m && !anyCopy .routed m

/-! ## Starting a head and launching (R113 to R116) -/

/-- Start a copy: LAUNCHING, next fragment 0, stall timer at the limit. -/
def startCopy (lim : Nat) (c : Copy) : Copy := { c with state := .launching, nextFrag := 0, stall := some lim }

def countStart (dual : Bool) (c : SqCounters) : SqCounters :=
  { c with launchStarts := satInc c.launchStarts, dualStarts := if dual then satInc c.dualStarts else c.dualStarts }

/-- SQ starts a head in HEAD_ROUTED (R114). -/
def startHead (st : StreamId) (m : Message) (s : State) : State :=
  let x := s.stream st
  let seq := m.seq.getD x.seqCounter
  let lim := routeLimit s st
  let s1 := s.modStream st fun y =>
    { y with seqCounter := if m.seq.isNone then y.seqCounter + 1 else y.seqCounter,
             lastPath := if m.copyA.isNone then y.lastPath else copyPath m.copyA,
             counters := countStart m.copyB.isSome y.counters }
  s1.modHead st fun y =>
    { y with seq := some seq, life := .launching, routeWait := none, dual := y.copyB.isSome,
             copyA := y.copyA.map (startCopy lim), copyB := y.copyB.map (startCopy lim) }

/-- The fragment count of a message (R5). -/
def fragCount (m : Message) : Nat := cellsFor m.length

/-- The byte count of a fragment (R5). -/
def fragBytes (m : Message) (frag : Nat) : Nat :=
  if frag + 1 < fragCount m then 44 else m.length - 44 * (fragCount m - 1)

/-- The DATA cell of the next fragment of a copy (R5). -/
def dataCell (s : State) (st : StreamId) (m : Message) (frag : Nat) : DataCell :=
  let n := fragBytes m frag
  { stream := st, seq := m.seq.getD 0, frag := frag, fragCount := fragCount m, byteCount := n, dual := m.dual,
    relaunched := m.relaunched, originLock := m.originLock, originStamp := m.originStamp,
    payload := padTo 44 (Memory.readList s.sq.store (44 * m.cells.getD frag 0) n) }

/-- The port reports that a DATA cell of the head's copy has begun to leave (R115), with the test of R116. -/
def reportLaunch (st : StreamId) (name : CopyName) (s : State) : State :=
  let lim := routeLimit s st
  let s1 := s.modHead st fun m => modCopy name (fun c =>
    if c.nextFrag + 1 = fragCount m then { c with nextFrag := c.nextFrag + 1, state := .launched, stall := none }
    else { c with nextFrag := c.nextFrag + 1, stall := some lim }) m
  match headOf s1 st with
  | none => s1
  | some m => if doneTest m then finishHead st s1 else s1

/-! ## Cuts, owed aborts, relaunch (R117 to R119) -/

inductive CutCause where
  | service | pathoff | stall | reset
  deriving DecidableEq, Repr

def countCut (cause : CutCause) (c : SqCounters) : SqCounters :=
  match cause with
  | .service => { c with cutsService := satInc c.cutsService }
  | .pathoff => { c with cutsPathoff := satInc c.cutsPathoff }
  | .stall => { c with cutsStall := satInc c.cutsStall }
  | .reset => { c with cutsReset := satInc c.cutsReset }

/-- Record an owed abort of a stream on a path (R119). -/
def oweAbort (st : StreamId) (p : PathId) (seq : Seq) (s : State) : State :=
  let old := (s.stream st).owed[p]
  let s1 := s.countAborts p fun c =>
    { c with owed := satInc c.owed, replaced := if old.isSome then satInc c.replaced else c.replaced }
  s1.modStream st fun x => { x with owed := x.owed.set p (some seq) }

/-- Cut a copy of the head that is LAUNCHING; causes PATHOFF and RESET owe an ABORT where the port works and the copy has
launched a cell (R117, R120). -/
def cutCopy (st : StreamId) (name : CopyName) (cause : CutCause) (s : State) : State :=
  match headOf s st with
  | none => s
  | some m =>
    match getCopy m name with
    | none => s
    | some c =>
      if c.state ≠ .launching then s
      else
        let s1 := s.modHead st (modCopy name fun x => { x with state := .cut, stall := none })
        let s2 := s1.countSq st (countCut cause)
        if (cause = .pathoff ∨ cause = .reset) ∧ (s.port c.path).faultState = .working ∧ 0 < c.nextFrag then
          oweAbort st c.path (m.seq.getD 0) s2
        else s2

/-- After a cut, SQ acts on the message according to its copies (R118). -/
def settleCut (st : StreamId) (s : State) : State :=
  match headOf s st with
  | none => s
  | some m =>
    if m.life ≠ .launching ∨ anyCopy .launching m then s
    else if doneTest m then finishHead st s
    else if m.relaunchCount < 2 then
      let lim := routeLimit s st
      let s1 := s.modHead st fun x =>
        { x with relaunchCount := x.relaunchCount + 1, relaunched := true, copyA := none, copyB := none,
                 life := .headUnrouted, routeWait := some lim }
      chooseFor true st (s1.countSq st fun c => { c with relaunches := satInc c.relaunches })
    else dropHead st m .relaunchLimit s

/-- The copy of a stream's head that is LAUNCHING on a path. -/
def launchingOn (s : State) (p : PathId) (st : StreamId) : Option CopyName :=
  match headOf s st with
  | none => none
  | some m => if m.life = .launching then servableOn m p else none

/-- Cut the copy of a stream's head that is LAUNCHING on a path, where it has one. -/
def cutOn (p : PathId) (cause : CutCause) (st : StreamId) (s : State) : State :=
  match launchingOn s p st with
  | none => s
  | some name => cutCopy st name cause s

/-- SQ cuts every copy LAUNCHING on a path, and then settles each message concerned (R117, R118). -/
def cutPath (p : PathId) (cause : CutCause) (s : State) : State :=
  let hit := allStreams.filter fun st => (launchingOn s p st).isSome
  let s1 := hit.foldl (fun x st => cutOn p cause st x) s
  hit.foldl (fun x st => settleCut st x) s1

/-- A port fault withdraws every owed abort on its path (R119). -/
def withdrawAborts (p : PathId) (s : State) : State :=
  allStreams.foldl (fun x st =>
    if (x.stream st).owed[p].isSome then
      (x.modStream st fun y => { y with owed := y.owed.set p none }).countAborts p fun c =>
        { c with withdrawn := satInc c.withdrawn }
    else x) s

/-! ## Spending a grant (R113) -/

/-- What a grant carries. -/
inductive Spend where
  | abort (st : StreamId) (seq : Seq)
  | data (st : StreamId) (name : CopyName)
  deriving DecidableEq, Repr

/-- Step 1 of R113: the first owed ABORT in class order. -/
def owedFirst (s : State) (p : PathId) : List StreamId → Option Spend
  | [] => none
  | st :: r =>
    match (s.stream st).owed[p] with
    | some q => some (.abort st q)
    | none => owedFirst s p r

/-- Step 2 of R113: the first stream in class order whose head has a cell for the path. -/
def servableFirst (s : State) (p : PathId) : List StreamId → Option Spend
  | [] => none
  | st :: r =>
    match (headOf s st).bind (servableOn · p) with
    | some name => some (.data st name)
    | none => servableFirst s p r

/-- The cell a grant to a tenant carries on a path (R113). -/
def spendGrant (s : State) (t : TenantId) (p : PathId) : Option Spend :=
  match owedFirst s p (streamsOf t) with
  | some x => some x
  | none => servableFirst s p (streamsOf t)

/-- Start the head if it is still routed (R113 step 2, R114). -/
def startIfRouted (st : StreamId) (s : State) : State :=
  match headOf s st with
  | none => s
  | some m => if m.life = .headRouted then startHead st m s else s

/-! ## TENANTRESET (R120) -/

/-- Drop every message of a stream's queue with cause RESET, after cutting its launching copies. -/
def resetStream (st : StreamId) (s : State) : State :=
  let s1 := cutCopy st .b .reset (cutCopy st .a .reset s)
  let n := (s1.stream st).queue.length
  s1.modStream st fun x =>
    { x with queue := [], dropped := satAdd x.dropped n,
             counters := { x.counters with dropsReset := satAdd x.counters.dropsReset n } }

end Sys2Proof.Machine
end

