-- ==== Sys2Proof/Machine/Paths.lean ====
section
/-!
DEFINITION. The path record and the path states (R75 to R87): what RS does with each of its inputs (R78), and the parts of
PATHON, PATHOFF, PATHRESTART and RESTART that PU, HS and RD carry out for it (R39, R51, R56).
-/

namespace Sys2Proof.Machine

/-! ## What PU, HS and RD do for RS -/

/-- PU clears L, the fresh flag and both runs (R51); RS makes the cost absent with them. -/
def clearLatency (p : PathId) (s : State) : State := s.modPath p fun r => { r with latency := {}, cost := none }

/-- One probe interval of a path, in tu. -/
def probeInterval (s : State) (p : PathId) : Nat := (s.path p).settings.probeIntervalMs * Config.tuPerMs

/-- PU makes a probe due and starts the probe timer where the port works (R39). -/
def makeDue (p : PathId) (s : State) : State :=
  let n := probeInterval s p
  if (s.port p).faultState = .working then s.modPu p fun x => { x with due := true, timer := some n } else s

/-- PU starts probing on a path: PATHON, PATHRESTART, RESTART (R51). -/
def startProbing (p : PathId) (s : State) : State :=
  makeDue p ((clearLatency p s).modPu p fun x => { x with records := [], echoes := [] })

/-- PU stops probing on a path: PATHOFF (R39, R51). -/
def stopProbing (p : PathId) (s : State) : State :=
  (clearLatency p s).modPu p fun x => { x with records := [], echoes := [], due := false, timer := none }

/-- The low 32 bits of the time count, 0 replaced by 1 (R52). -/
def freshMark (s : State) : Mark :=
  let m : Mark := BitVec.ofNat 32 s.tb.count.toNat
  if m = 0 then 1 else m

/-- PU takes the start mark at the first PATHON, unless it already has one (R52). -/
def takeFirstMark (s : State) : State :=
  if s.pu.startMark.isSome then s else { s with pu := { s.pu with startMark := some (freshMark s) } }

/-- PATHRESTART's reset of a hop record (R56). -/
def restartHop (h : Hop) : Hop :=
  { h with state := .lost, unreported := true, ring := [], averaged := none, rateStep := 0, reportTimer := none, dwellTimer := none }

/-- PATHON's reset of a hop record (R56). -/
def resetHop (h : Hop) : Hop :=
  { restartHop h with errorCount := 0, secondary := 0, overFlag := false, blamed := none }

/-- PATHOFF stops the timers of a hop record (R56). -/
def stopHop (h : Hop) : Hop := { h with reportTimer := none, dwellTimer := none }

/-- Change the twelve hop records of a path. -/
def modHops (p : PathId) (f : Hop → Hop) (s : State) : State :=
  { s with hs := { s.hs with hops := upd s.hs.hops p fun v => mapAll v fun _ h => f h } }

/-- RD empties the 24 reassembly contexts of a path (R85, chapter 9). -/
def emptyContexts (p : PathId) (s : State) : State :=
  { s with rd := { s.rd with contexts := mapAll s.rd.contexts fun i c => if i.val / 24 = p.val then none else c } }

/-! ## Notices, cost, re-choice -/

/-- A path lies in the route mask of some class (R86). -/
def inAnyMask (g : TenantGrant) (p : PathId) : Bool := allClasses.any fun c => maskHas (g.masks.get c) p

/-- A PATH_STATE notice, to the operator and to each enabled tenant whose masks hold the path (R86). -/
def notifyPath (p : PathId) (old new : PathState) (cause : PathCause) (s : State) : State :=
  let n := Notice.pathState p old new cause (s.path p).cost (s.path p).hopCond.usable
  allTenants.foldl (fun x t =>
    if (x.tenant t).enabled && inAnyMask (x.tenant t).grant p then pushNotice (tenantLane t) n x else x)
    (notifyOperator n s)

/-- RS recomputes the cost of a path (R87). -/
def recost (p : PathId) (s : State) : State := s.modPath p fun r => { r with cost := pathCost r }

/-- RS sets a path's state. -/
def setPathState (p : PathId) (x : PathState) (s : State) : State := s.modPath p fun r => { r with state := x }

/-- Re-choose every unlaunched head where a path's state, cost or usable slot count has changed (R91). -/
def rechooseIfChanged (before : PathRecord) (p : PathId) (s : State) : State :=
  let r := s.path p
  if r.state = before.state ∧ r.cost = before.cost ∧ r.hopCond.usable = before.hopCond.usable then s else rechooseAll s

/-! ## State rules (R80 to R83) -/

/-- R83's move from DOWN to PROVING, with the cause of its notice. -/
def leaveDown (p : PathId) (cause : PathCause) (s : State) : State :=
  let r := s.path p
  if r.state = .down ∧ r.hopCond.worst ≠ .lost ∧ r.port = .working then
    rechooseAll (notifyPath p .down .proving cause (setPathState p .proving s))
  else s

def countDown (cause : PathCause) (c : RsCounters) : RsCounters :=
  match cause with
  | .hop => { c with downHop := satInc c.downHop }
  | .probeLoss => { c with downProbe := satInc c.downProbe }
  | .portFault => { c with downPort := satInc c.downPort }
  | _ => c

/-- Entry to DOWN from service, in the order of R82, then R83. -/
def enterDown (p : PathId) (cause : PathCause) (s : State) : State :=
  let old := (s.path p).state
  let s1 := clearLatency p (setPathState p .down s)
  let s2 := s1.countRs p (countDown cause)
  let s3 := notifyPath p old .down cause s2
  leaveDown p cause (rechooseAll (cutPath p .service s3))

/-- Entry into service from PROVING (R80). -/
def enterService (p : PathId) (cause : PathCause) (s : State) : State :=
  let s1 := setPathState p (serviceState (s.path p).hopCond.worst) s
  let s2 := notifyPath p .proving (s1.path p).state cause s1
  rechooseAll (s2.countRs p fun c => { c with serviceEntries := satInc c.serviceEntries })

/-- R80's test. -/
def readyForService (r : PathRecord) : Bool := r.state == .proving && r.latency.fresh && r.hopCond.worst != .lost

/-- RS takes a hop condition from HS (R78, R80 to R83). -/
def rsHop (p : PathId) (cond : HopCondition) (s : State) : State :=
  let before := s.path p
  let s1 := recost p (s.modPath p fun r => { r with hopCond := cond })
  if readyForService (s1.path p) then enterService p .hop s1
  else if inService before.state then
    if cond.worst = .lost then enterDown p .hop s1
    else if serviceState cond.worst ≠ before.state then
      rechooseAll (notifyPath p before.state (serviceState cond.worst) .hop (setPathState p (serviceState cond.worst) s1))
    else rechooseIfChanged before p s1
  else leaveDown p .hop (rechooseIfChanged before p s1)

/-- HS hands RS the condition of a path as it stands (R72). -/
def handCondition (p : PathId) (s : State) : State := rsHop p (s.condition p) s

/-- RS takes a new L from PU (R50, R78, R80). -/
def rsLatency (p : PathId) (lat : Latency) (s : State) : State :=
  let before := s.path p
  let s1 := recost p (s.modPath p fun r => { r with latency := lat })
  if readyForService (s1.path p) then enterService p .latency s1 else rechooseIfChanged before p s1

/-- RS takes a loss limit report from PU (R78, R81). -/
def rsLossLimit (p : PathId) (s : State) : State :=
  if inService (s.path p).state then enterDown p .probeLoss s else s

/-- RS takes a port fault from PP (R78, R80, R81). -/
def rsPortFault (p : PathId) (s : State) : State :=
  let before := s.path p
  let s1 := s.modPath p fun r => { r with port := .fault }
  if inService before.state then enterDown p .portFault s1
  else if before.state = .proving then rechooseIfChanged before p (clearLatency p s1)
  else s1

/-- RS takes a port recovered event from PP (R78, R83). -/
def rsPortRecovered (p : PathId) (s : State) : State :=
  leaveDown p .portRecovered (s.modPath p fun r => { r with port := .working })

/-! ## The operator's path requests (R77, R79, R84, R85) -/

/-- PATHSET on a path whose settings have been clamped (R77). -/
def doPathset (p : PathId) (x : PathSettings) (s : State) : State × Reply :=
  if (s.path p).state ≠ .off then (s, .refused .busy)
  else if x.fadeThreshold < x.watchThreshold ∧ x.lostThreshold < x.fadeThreshold then
    (s.modPath p (fun r => { r with settings := x }), .accepted)
  else (s, .refused .badValue)

/-- PATHON (R79). -/
def doPathon (p : PathId) (s : State) : State × Reply :=
  if (s.path p).admin then (s, .refused .busy)
  else
    let old := (s.path p).state
    let s1 := s.modPath p fun r => { r with admin := true, state := .proving, cost := none }
    let s2 := takeFirstMark (modHops p resetHop s1)
    let s3 := handCondition p (startProbing p s2)
    (rechooseAll (notifyPath p old .proving .pathon s3), .accepted)

/-- PATHOFF (R84). -/
def doPathoff (p : PathId) (s : State) : State × Reply :=
  if (s.path p).admin then
    let old := (s.path p).state
    let s1 := s.modPath p fun r => { r with admin := false, state := .off }
    let s2 := modHops p stopHop (stopProbing p s1)
    let s3 := notifyPath p old .off .pathoff s2
    let s4 := if inService old then cutPath p .pathoff s3 else s3
    (rechooseAll s4, .accepted)
  else (s, .accepted)

/-- PATHRESTART (R85). -/
def doPathrestart (p : PathId) (s : State) : State × Reply :=
  if (s.path p).admin then
    let old := (s.path p).state
    let s1 := startProbing p (setPathState p .proving s)
    let s2 := emptyContexts p (modHops p restartHop s1)
    let s3 := if inService old then cutPath p .service s2 else s2
    let s4 := rechooseAll (notifyPath p old .proving .pathrestart s3)
    (handCondition p s4, .accepted)
  else (s, .refused .disabled)

end Sys2Proof.Machine
end

