-- ==== Sys2Proof/Machine/Delivery.lean ====
section
/-!
DEFINITION. Receive and Delivery (chapter 9): reassembly contexts (R145 to R149), receive-stream records (R150, R151),
duplicate removal (R152), delivery (R153 to R156, R159).
-/

namespace Sys2Proof.Machine

/-! ## Delivery to the lane (R159) -/

/-- RD hands one message to LI (R159). -/
def deliver (m : Completed) (s : State) : State :=
  if (s.tenant m.stream.tenant).enabled then
    pushEntry (tenantLane m.stream.tenant) (.deliver m)
      (s.countRd m.stream fun c => { c with delivered := satInc c.delivered })
  else s.countRd m.stream fun c => { c with disabledDiscards := satInc c.disabledDiscards }

/-- RD hands messages to LI in order. -/
def deliverAll (l : List Completed) (s : State) : State := l.foldl (fun x m => deliver m x) s

/-! ## Making a record fresh (R151) -/

/-- A fresh record; H has no meaning in it (R150). -/
def freshRecord (r : RecvRecord) : RecvRecord :=
  { r with fresh := true, window := 0, nextSeq := none, hold := [], holdTimer := none }

/-- Peer restart and STREAMSET: held messages are delivered first (R151). -/
def freshenDelivering (st : StreamId) (s : State) : State :=
  (deliverAll (s.record st).hold s).modRecord st freshRecord

/-- RESTART and TENANTRESET: held messages are discarded and counted (R151). -/
def freshenDiscarding (st : StreamId) (s : State) : State :=
  let n := (s.record st).hold.length
  (s.countRd st fun c => { c with holdDiscards := satAdd c.holdDiscards n }).modRecord st freshRecord

/-! ## Duplicate removal (R152) -/

inductive Verdict where
  | accept | duplicate | stale
  deriving DecidableEq, Repr

/-- The window after moving up by d with the old H in it (R152). -/
def shiftWindow (w : BitVec 64) (d : Nat) : BitVec 64 := (w <<< d) ||| ((1 : BitVec 64) <<< (d - 1))

/-- R152: the verdict on a sequence and the record after it. -/
def judge (r : RecvRecord) (q : Seq) : Verdict × RecvRecord :=
  if r.fresh then (.accept, { r with fresh := false, highest := q, window := 0 })
  else
    let d := (q - r.highest).toNat
    let b := (r.highest - q).toNat
    if d = 0 then (.duplicate, r)
    else if d < 2 ^ 23 then (.accept, { r with highest := q, window := shiftWindow r.window d })
    else if b ≤ 64 then
      if r.window.getLsbD (b - 1) then (.duplicate, r)
      else (.accept, { r with window := r.window ||| ((1 : BitVec 64) <<< (b - 1)) })
    else (.stale, r)

/-! ## ORDERED delivery (R154 to R156) -/

/-- How far a sequence lies ahead of N. -/
def ahead (n q : Seq) : Nat := (q - n).toNat

/-- The class's hold timeout, in tu (Table 10-3). -/
def holdLimit (s : State) (st : StreamId) : Nat := (s.tenant st.tenant).settings.hold.get st.cls * Config.tuPerStep

/-- The held messages a drain delivers from N, and those it leaves (R156). -/
def drainSplit : Seq → List Completed → List Completed × List Completed
  | _, [] => ([], [])
  | n, m :: r => if m.seq = n then (m :: (drainSplit (n + 1) r).1, (drainSplit (n + 1) r).2) else ([], m :: r)

/-- Drain the hold queue, N being the next expected (R156). -/
def drain (st : StreamId) (n : Seq) (s : State) : State :=
  let parts := drainSplit n (s.record st).hold
  let lim := holdLimit s st
  let s1 := deliverAll parts.1 s
  s1.modRecord st fun r =>
    { r with nextSeq := some (n + BitVec.ofNat 24 parts.1.length), hold := parts.2,
             holdTimer := if parts.2.isEmpty then none else if parts.1.isEmpty then r.holdTimer else some lim }

/-- A held message has this sequence. -/
def isHeld (q : Seq) (l : List Completed) : Bool := l.any fun x => x.seq == q

/-- Insert a message at its place ahead of N (R155). `ordered` has found that its sequence is not held (R150, log 42). -/
def insertHeld (n : Seq) (m : Completed) : List Completed → List Completed
  | [] => [m]
  | x :: r => if ahead n m.seq < ahead n x.seq then m :: x :: r else x :: insertHeld n m r

/-- Hold a message where the hold queue has room (R155). -/
def holdMessage (m : Completed) (n : Seq) (s : State) : State :=
  let lim := holdLimit s m.stream
  s.modRecord m.stream fun r =>
    { r with hold := insertHeld n m r.hold, holdTimer := if r.hold.isEmpty then some lim else r.holdTimer }

def countGap (skipped : Nat) (c : RdStreamCounters) : RdStreamCounters :=
  { c with gaps := satInc c.gaps, skipped := satAdd c.skipped skipped }

/-- Deliver a message, N becoming the sequence after it, and drain (Table 9-1, R155). -/
def deliverAndDrain (m : Completed) (s : State) : State := drain m.stream (m.seq + 1) (deliver m s)

/-- A skip to the hold head and the drain after it (R156). -/
def skip (st : StreamId) (s : State) : State :=
  match (s.record st).hold.head?, (s.record st).nextSeq with
  | some h, some n => drain st h.seq (s.countRd st (countGap (ahead n h.seq)))
  | _, _ => s

/-- A resynchronisation (Table 9-1, fourth case). -/
def resync (m : Completed) (e : Nat) (s : State) : State :=
  let held := (s.record m.stream).hold
  let s1 := deliver m (deliverAll held s)
  let s2 := s1.countRd m.stream fun c => { countGap (e - held.length) c with resyncs := satInc c.resyncs }
  s2.modRecord m.stream fun r => { r with nextSeq := some (m.seq + 1), hold := [], holdTimer := none }

/-- Table 9-1, with room in the hold queue. -/
def orderedRoom (m : Completed) (s : State) : State :=
  match (s.record m.stream).nextSeq with
  | none => (deliver m s).modRecord m.stream fun r => { r with nextSeq := some (m.seq + 1) }
  | some n =>
    let e := ahead n m.seq
    if e = 0 then deliverAndDrain m s
    else if e < 64 then holdMessage m n s
    else if e < 2 ^ 23 - 1 then resync m e s
    else s.countRd m.stream fun c => { c with late := satInc c.late }

/-- The full-queue skip of R155. -/
def fullQueue (m : Completed) (n : Seq) (h : Completed) (s : State) : State :=
  if ahead n m.seq < ahead n h.seq then deliverAndDrain m (s.countRd m.stream (countGap (ahead n m.seq)))
  else orderedRoom m (skip m.stream s)

/-- ORDERED delivery of an accepted message (R154, R155). One whose sequence is held already, which duplicate removal can accept after H
has moved round, is discarded and the held one stays, since a hold queue holds no sequence twice (R150, R152, log 42). -/
def ordered (m : Completed) (s : State) : State :=
  match (s.record m.stream).nextSeq, (s.record m.stream).hold.head? with
  | some n, some h =>
    if 1 ≤ ahead n m.seq ∧ ahead n m.seq < 64 ∧ isHeld m.seq (s.record m.stream).hold then s
    else if 1 ≤ ahead n m.seq ∧ ahead n m.seq < 64 ∧ 16 ≤ (s.record m.stream).hold.length then fullQueue m n h s
    else orderedRoom m s
  | _, _ => orderedRoom m s

/-- A completed message meets its record: duplicate removal, then the class's delivery mode (R152 to R155). -/
def takeCompleted (m : Completed) (s : State) : State :=
  let v := judge (s.record m.stream) m.seq
  let s1 := s.modRecord m.stream fun _ => v.2
  match v.1 with
  | .duplicate => s1.countRd m.stream fun c => { c with duplicates := satInc c.duplicates }
  | .stale => s1.countRd m.stream fun c => { c with stale := satInc c.stale }
  | .accept =>
    let s2 := s1.countRd m.stream fun c => { c with accepted := satInc c.accepted }
    match (s2.tenant m.stream.tenant).settings.delivery.get m.stream.cls with
    | .arrival => deliver m s2
    | .ordered => ordered m s2

/-! ## Reassembly (R146 to R149) -/

/-- A path's reassembly timeout, in tu. -/
def reasmLimit (s : State) (p : PathId) : Nat := (s.path p).settings.reasmTimeoutUs * Config.tuPerUs

/-- The payload bytes a DATA cell carries. -/
def cellBytes (d : DataCell) : List Byte := d.payload.take d.byteCount

/-- The context after fragment 0 (R146). -/
def openContext (d : DataCell) (lim : Nat) : Context :=
  { seq := d.seq, fragCount := d.fragCount, nextFrag := 1, bytes := cellBytes d, originStamp := d.originStamp,
    originLock := d.originLock, dual := d.dual, relaunched := d.relaunched, timer := some lim }

/-- The completed message of a context whose last cell arrived at a capture (R147). -/
def completedOf (st : StreamId) (p : PathId) (c : Context) (arrival : Capture) : Completed :=
  { stream := st, seq := c.seq, payload := c.bytes, path := p, dual := c.dual, relaunched := c.relaunched,
    originStamp := c.originStamp, originLock := c.originLock, arrivalStamp := arrival.stamp, arrivalLock := arrival.lock }

/-- A copy is complete (R147). One of six fragments whose last cell carries 37 to 44 bytes passes R11 and has 257 to 264 bytes, more than
R147 and R159 give a message; it is completed and delivered whole (log 43). -/
def completeCopy (p : PathId) (st : StreamId) (c : Context) (arrival : Capture) (s : State) : State :=
  let s1 := s.countRdPath p fun x => { x with completed := satInc x.completed }
  takeCompleted (completedOf st p c arrival) (s1.setContext p st none)

/-- Fragment 0 opens a copy (R146). -/
def openCopy (p : PathId) (d : DataCell) (arrival : Capture) (s : State) : State :=
  let lim := reasmLimit s p
  let s1 := if (s.context p d.stream).isSome then s.countRdPath p fun x => { x with overrun := satInc x.overrun } else s
  let c := openContext d lim
  if d.fragCount = 1 then completeCopy p d.stream c arrival s1 else s1.setContext p d.stream (some c)

/-- A cell is the one its context expects (R147). -/
def expectedCell (c : Context) (d : DataCell) : Bool :=
  d.seq == c.seq && d.fragCount == c.fragCount && d.frag == c.nextFrag

/-- A fragment above 0 continues a copy (R147). -/
def continueCopy (p : PathId) (d : DataCell) (arrival : Capture) (s : State) : State :=
  match s.context p d.stream with
  | none => s.countRdPath p fun x => { x with orphans := satInc x.orphans }
  | some c =>
    if expectedCell c d then
      let c1 := { c with bytes := c.bytes ++ cellBytes d, nextFrag := c.nextFrag + 1, timer := some (reasmLimit s p) }
      if d.frag + 1 = d.fragCount then completeCopy p d.stream c1 arrival s else s.setContext p d.stream (some c1)
    else (s.setContext p d.stream none).countRdPath p fun x => { x with order := satInc x.order }

/-- RD takes a DATA cell from a port (R146). -/
def takeData (p : PathId) (d : DataCell) (arrival : Capture) (s : State) : State :=
  if (s.tenant d.stream.tenant).enabled then
    if d.frag = 0 then openCopy p d arrival s else continueCopy p d arrival s
  else s.countRdPath p fun x => { x with disabledCells := satInc x.disabledCells }

/-- The ASSEMBLING context that an ABORT names (R149). -/
def abortMatches (s : State) (p : PathId) (st : StreamId) (seq : Seq) : Bool :=
  match s.context p st with
  | none => false
  | some c => c.seq == seq

/-- RD takes an ABORT cell from a port (R149). -/
def takeAbort (p : PathId) (st : StreamId) (seq : Seq) (s : State) : State :=
  if (s.tenant st.tenant).enabled then
    if abortMatches s p st seq then (s.setContext p st none).countRdPath p fun x => { x with abort := satInc x.abort }
    else s.countRdPath p fun x => { x with unmatchedAborts := satInc x.unmatchedAborts }
  else s.countRdPath p fun x => { x with disabledCells := satInc x.disabledCells }

/-- RD empties every context (R53, R145). -/
def emptyAllContexts (s : State) : State := { s with rd := { s.rd with contexts := .replicate 144 none } }

/-- RD empties the 18 contexts of a tenant's streams (R145). -/
def emptyTenantContexts (t : TenantId) (s : State) : State :=
  { s with rd := { s.rd with contexts := mapAll s.rd.contexts fun i c => if i.val % 24 / 3 = t.val then none else c } }

/-! ## The timers of RD -/

/-- REASM_TIMEOUT (R148), taken where the context's timer runs (log 4). -/
def execReasmTimeout (p : PathId) (st : StreamId) (s : State) : Host.Outcome State Fault Refusal :=
  .next (match s.context p st with
    | none => s
    | some _ => (s.setContext p st none).countRdPath p fun x => { x with timeout := satInc x.timeout })

/-- HOLD_TIMER_EXPIRY (R156), taken where the hold timer runs (log 4). -/
def execHoldTimerExpiry (st : StreamId) (s : State) : Host.Outcome State Fault Refusal :=
  .next (if (s.record st).holdTimer.isSome then skip st (s.modRecord st fun r => { r with holdTimer := none }) else s)

end Sys2Proof.Machine
end

