-- ==== Sys2Proof/Machine/Operands.lean ====
section
/-!
DEFINITION. The bodies of the requests (Table 11-4) with the body tests of R172. A parser answers `none` for a body that
fails them: the length the table gives, the enumerated fields, the ranges of count fields. Numeric settings and indices
come out as they stand in the body; their owners clamp or refuse them.
-/

namespace Sys2Proof.Machine

/-- A body of a fixed length. -/
def sized {α : Type} (n : Nat) (l : List Byte) (x : α) : Option α := if l.length = n then some x else none

def nat1 (l : List Byte) (i : Nat) : Nat := (byteAt l i).toNat

structure CarryReq where
  cls : TClass
  payload : List Byte
  deriving DecidableEq, Repr

def parseCarry (l : List Byte) : Option CarryReq :=
  match classOf (nat1 l 0) with
  | none => none
  | some c => if l.length = 3 + fieldNat l 1 2 ∧ fieldNat l 1 2 ≤ 256 then some { cls := c, payload := l.drop 3 } else none

structure FireReq where
  channel : Nat
  start : Nat
  patch : List Byte
  deriving DecidableEq, Repr

def parseFire (l : List Byte) : Option FireReq :=
  if l.length = 4 + nat1 l 3 ∧ nat1 l 3 ≤ 32 then some { channel := nat1 l 0, start := fieldNat l 1 2, patch := l.drop 4 }
  else none

/-- A body of one byte: HALT's channel, a path, a tenant. -/
def parseByte (l : List Byte) : Option Nat := sized 1 l (nat1 l 0)

/-- A body of a path and a hop. -/
def parsePathHop (l : List Byte) : Option (Nat × Nat) := sized 2 l (nat1 l 0, nat1 l 1)

/-- An empty body: COUNTCLEAR, RESTART. -/
def parseEmpty (l : List Byte) : Option Unit := sized 0 l ()

structure LoadReq where
  start : Nat
  bytes : List Byte
  deriving DecidableEq, Repr

/-- LOADP: 1 to 128 words of 8 bytes. -/
def parseLoadp (l : List Byte) : Option LoadReq :=
  if l.length = 3 + 8 * nat1 l 2 ∧ 1 ≤ nat1 l 2 ∧ nat1 l 2 ≤ 128 then some { start := fieldNat l 0 2, bytes := l.drop 3 }
  else none

/-- LOADT: 1 to 1,024 bytes. -/
def parseLoadt (l : List Byte) : Option LoadReq :=
  if l.length = 4 + fieldNat l 2 2 ∧ 1 ≤ fieldNat l 2 2 ∧ fieldNat l 2 2 ≤ 1024 then
    some { start := fieldNat l 0 2, bytes := l.drop 4 }
  else none

/-- Three settings of 2 bytes, for U, M, B. -/
def perClass2 (l : List Byte) (i : Nat) : PerClass Nat :=
  { u := fieldNat l i 2, m := fieldNat l (i + 2) 2, b := fieldNat l (i + 4) 2 }

def parseStreamset (l : List Byte) : Option StreamSettings :=
  match dualOf (byteAt l 0), dualOf (byteAt l 1), tieOf (byteAt l 2), deliveryOf (byteAt l 9), deliveryOf (byteAt l 10),
      deliveryOf (byteAt l 11) with
  | some du, some dm, some tie, some mu, some mm, some mb =>
    sized 18 l { dualU := du, dualM := dm, tie := tie, routeWait := perClass2 l 3, delivery := { u := mu, m := mm, b := mb },
                 hold := perClass2 l 12 }
  | _, _, _, _, _, _ => none

/-- QUERY: the first field number. -/
def parseQuery (l : List Byte) : Option Nat := sized 2 l (fieldNat l 0 2)

structure ReadReq where
  area : Fin 13
  index : Nat
  first : Nat
  deriving DecidableEq, Repr

/-- READ: an area that is not defined fails (R166). -/
def parseRead (l : List Byte) : Option ReadReq :=
  if h : nat1 l 0 < 13 then sized 5 l { area := ⟨nat1 l 0, h⟩, index := fieldNat l 1 2, first := fieldNat l 3 2 } else none

structure PathsetReq where
  path : Nat
  settings : PathSettings
  deriving DecidableEq, Repr

def parsePathset (l : List Byte) : Option PathsetReq :=
  match kindOf (byteAt l 1) with
  | none => none
  | some k => sized 42 l
    { path := nat1 l 0,
      settings :=
        { kind := k, hopCount := nat1 l 2, filterShift := nat1 l 3, outlierGate := fieldNat l 4 3,
          asymmetry := fieldInt l 7 4, watchPenalty := fieldNat l 11 3, fadePenalty := fieldNat l 14 3,
          suspectPenalty := fieldNat l 17 3, tagPenalty := fieldNat l 20 3, wirelineBias := fieldNat l 23 3,
          probeIntervalMs := fieldNat l 26 2, probeTimeoutMs := fieldNat l 28 2, lossLimit := nat1 l 30,
          reasmTimeoutUs := fieldNat l 31 2, watchThreshold := fieldInt l 33 2, fadeThreshold := fieldInt l 35 2,
          lostThreshold := fieldInt l 37 2, hysteresis := nat1 l 39, dwellMs := fieldNat l 40 2 } }

/-- Each numeric field clamped to its range in Table 5-1; a WIRELINE path has hop count 0 (R77). -/
def clampSettings (x : PathSettings) : PathSettings :=
  { x with
    hopCount := match x.kind with | .microwave => clampNat 1 12 x.hopCount | .wireline => 0
    filterShift := clampNat 0 7 x.filterShift
    outlierGate := clampNat 0 (2 ^ 24 - 1) x.outlierGate
    asymmetry := clampInt (-2 ^ 20) (2 ^ 20) x.asymmetry
    watchPenalty := clampNat 0 (2 ^ 24 - 1) x.watchPenalty
    fadePenalty := clampNat 0 (2 ^ 24 - 1) x.fadePenalty
    suspectPenalty := clampNat 0 (2 ^ 24 - 1) x.suspectPenalty
    tagPenalty := clampNat 0 (2 ^ 24 - 1) x.tagPenalty
    wirelineBias := clampNat 0 (2 ^ 24 - 1) x.wirelineBias
    probeIntervalMs := clampNat 1 1000 x.probeIntervalMs
    probeTimeoutMs := clampNat 5 2000 x.probeTimeoutMs
    lossLimit := clampNat 1 15 x.lossLimit
    reasmTimeoutUs := clampNat 100 65000 x.reasmTimeoutUs
    watchThreshold := clampInt (-1000) 1000 x.watchThreshold
    fadeThreshold := clampInt (-1000) 1000 x.fadeThreshold
    lostThreshold := clampInt (-1000) 1000 x.lostThreshold
    hysteresis := clampNat 0 100 x.hysteresis
    dwellMs := clampNat 0 60000 x.dwellMs }

structure HopsetReq where
  path : Nat
  hop : Nat
  avx : Nat
  offset : Int
  errorThreshold : Nat
  leakDivider : Nat
  reportTimeoutMs : Nat
  enables : Enables
  setLeakPeriod : Bool
  leakPeriodMs : Nat
  deriving DecidableEq, Repr

/-- HOPSET with each numeric field clamped to its range (R69); bits 5 to 7 of the enables are ignored (R172). -/
def parseHopset (l : List Byte) : Option HopsetReq :=
  let e := byteAt l 10
  sized 14 l
    { path := nat1 l 0, hop := nat1 l 1, avx := clampNat 0 3 (nat1 l 2), offset := clampInt (-100) 100 (fieldInt l 3 2),
      errorThreshold := clampNat 1 65535 (fieldNat l 5 2), leakDivider := clampNat 0 3 (nat1 l 7),
      reportTimeoutMs := clampNat 100 5000 (fieldNat l 8 2),
      enables := { watch := e.getLsbD 0, fading := e.getLsbD 1, lost := e.getLsbD 2, recovery := e.getLsbD 3,
                   overEnable := e.getLsbD 4 },
      setLeakPeriod := flagAt l 11, leakPeriodMs := clampNat 1 65535 (fieldNat l 12 2) }

/-- 32 slot owners at byte i; `none` where a byte names no owner (R95). -/
def ownersAt (l : List Byte) (i : Nat) : Option (Vector SlotOwner 32) :=
  if (allSlots32 i).all fun j => (ownerOf (byteAt l j)).isSome then
    some (Vector.ofFn fun k => (ownerOf (byteAt l (i + k.val))).getD .openSlot)
  else none
where
  /-- The 32 byte positions from i. -/
  allSlots32 (i : Nat) : List Nat := (List.range 32).map (i + ·)

structure PlansetReq where
  path : Nat
  setWindow : Bool
  windowUs : Nat
  /-- Absent where an owner is undefined. -/
  owners : Option Bank
  deriving DecidableEq, Repr

/-- PLANSET, the window period clamped to 1 to 65,535 µs (R95). -/
def parsePlanset (l : List Byte) : Option PlansetReq :=
  sized 68 l
    { path := nat1 l 0, setWindow := flagAt l 1, windowUs := clampNat 1 65535 (fieldNat l 2 2),
      owners := match ownersAt l 4, ownersAt l 36 with
        | some e, some o => some { even := e, odd := o }
        | _, _ => none }

structure PlanswapReq where
  path : Nat
  target : CycleNo
  deriving DecidableEq, Repr

def parsePlanswap (l : List Byte) : Option PlanswapReq :=
  sized 3 l { path := nat1 l 0, target := BitVec.ofNat 16 (fieldNat l 1 2) }

structure TenantsetReq where
  tenant : Nat
  grant : TenantGrant
  deriving DecidableEq, Repr

/-- TENANTSET with the quota and the budgets clamped (R163 step 2); bits 6 and 7 of a mask are ignored (R172). -/
def parseTenantset (l : List Byte) : Option TenantsetReq :=
  let mask (i : Nat) : BitVec 6 := (byteAt l i).setWidth 6
  let budget (i : Nat) : Nat := clampNat 0 4095 (fieldNat l i 2)
  sized 52 l
    { tenant := nat1 l 0,
      grant :=
        { programBase := fieldNat l 1 2, programSize := fieldNat l 3 2, templateBase := fieldNat l 5 2,
          templateSize := fieldNat l 7 2, quota := clampNat 0 2048 (fieldNat l 9 2),
          masks := { u := mask 11, m := mask 12, b := mask 13 },
          fallbackU := (byteAt l 14).getLsbD 0, fallbackM := (byteAt l 14).getLsbD 1, openAccess := mask 15,
          budgets := Vector.ofFn fun p =>
            { clear := budget (16 + 6 * p.val), watch := budget (18 + 6 * p.val), fading := budget (20 + 6 * p.val) } } }

structure TimecfgReq where
  enable : Bool
  params : TimeParams
  deriving DecidableEq, Repr

/-- TIMECFG with each parameter clamped to its range (R22). -/
def parseTimecfg (l : List Byte) : Option TimecfgReq :=
  sized 11 l
    { enable := flagAt l 0,
      params := { stepThreshold := clampNat 16 160000000 (fieldNat l 1 4), lockWindow := clampNat 16 16000000 (fieldNat l 5 4),
                  kp := clampNat 0 7 (nat1 l 9), ki := clampNat 0 15 (nat1 l 10) } }

/-- TIMESET: the new count. -/
def parseTimeset (l : List Byte) : Option Nat := sized 8 l (fieldNat l 0 8)

/-- An index in a range, `none` outside it. -/
def indexOf (n : Nat) (i : Nat) : Option (Fin n) := if h : i < n then some ⟨i, h⟩ else none

end Sys2Proof.Machine
end

