-- ==== Sys2Proof/Machine/Requests.lean ====
section
/-!
DEFINITION. Taking a request (R161, R162): the lane counts it, tests the side it belongs to and then its body, hands it to
its owner, and queues the owner's answer after every other effect.
-/

namespace Sys2Proof.Machine

/-- The requests taken counter of R161. -/
def countRequest (l : LaneId) (s : State) : State := s.countLane l fun c => { c with requests := satInc c.requests }

/-- A request on a lane of the other side (R162). -/
def refuseAccess (l : LaneId) (tag : Tag) (kind : Byte) (s : State) : State :=
  answer l tag kind (.refused .badValue) (s.countLane l fun c => { c with accessRefusals := satInc c.accessRefusals })

/-- Hand a body that has been parsed to its owner and queue the answer (R161). -/
def serve {α : Type} (l : LaneId) (tag : Tag) (kind : Byte) (parsed : Option α) (act : α → State → State × Reply)
    (s : State) : State :=
  match parsed with
  | none => answer l tag kind (.refused .badValue) s
  | some x => answer l tag kind (act x s).2 (act x s).1

/-- An operator request (R162). -/
def operatorRequest {α : Type} (l : LaneId) (tag : Tag) (kind : Byte) (parsed : Option α)
    (act : α → State → State × Reply) (s : State) : State :=
  if l = mgmtLane then serve l tag kind parsed act (countRequest l s) else refuseAccess l tag kind (countRequest l s)

/-- A tenant request acts on the lane's own tenant (R162). -/
def tenantRequest {α : Type} (l : LaneId) (tag : Tag) (kind : Byte) (parsed : Option α)
    (act : TenantId → α → State → State × Reply) (s : State) : State :=
  match laneTenant l with
  | none => refuseAccess l tag kind (countRequest l s)
  | some t => serve l tag kind parsed (act t) (countRequest l s)

/-- An index of the request within its range, else BAD_INDEX (Table 10-2). -/
def atIndex {n : Nat} (i : Nat) (act : Fin n → State → State × Reply) (s : State) : State × Reply :=
  match indexOf n i with
  | none => (s, .refused .badIndex)
  | some j => act j s

/-- A path and a hop of the request within their ranges, else BAD_INDEX. -/
def atHop (i : Nat × Nat) (act : PathId → HopId → State → State × Reply) (s : State) : State × Reply :=
  atIndex i.1 (fun p x => atIndex i.2 (act p) x) s

end Sys2Proof.Machine
end

