-- ==== Sys2Proof/Machine/Streams.lean ====
section
/-!
DEFINITION. The commands of the Stream Queues that no other family has (R109, R111, R117), and STREAMSET (R165).
-/

namespace Sys2Proof.Machine

/-- The reply to a CARRY from SQ's answer (R109). -/
def carryReply : SqAnswer → Reply
  | .accepted => .accepted
  | .full => .refused .full
  | .quota => .refused .quota

/-- CARRY whose body has passed (R109, R162); the origin stamp is captured as the request is taken (log 5). -/
def doCarry (t : TenantId) (r : CarryReq) (s : State) : State × Reply :=
  if (s.tenant t).enabled then
    let c := capture s
    let a := admitMessage { tenant := t, cls := r.cls } r.payload c.stamp c.lock .carry s
    (a.1, carryReply a.2)
  else (s, .refused .disabled)

/-- CARRY (R109). -/
def execCarry (lane : LaneId) (tag : Tag) (body : List Byte) (s : State) : Host.Outcome State Fault Refusal :=
  .next (tenantRequest lane tag 0x01 (parseCarry body) doCarry s)

/-- A head that has not launched and whose route wait timer runs (R111). -/
def waitingHead (s : State) (st : StreamId) : Option Message :=
  match headOf s st with
  | none => none
  | some m => if m.life ≠ .launching ∧ m.routeWait.isSome then some m else none

/-- ROUTE_WAIT_EXPIRY (R111), taken where the head's route wait timer runs (log 4). -/
def execRouteWaitExpiry (st : StreamId) (s : State) : Host.Outcome State Fault Refusal :=
  .next (match waitingHead s st with
    | none => s
    | some m => dropHead st m .expired s)

/-- The copy of the head is LAUNCHING and its stall timer runs. -/
def stalling (s : State) (st : StreamId) (name : CopyName) : Bool :=
  match (headOf s st).bind fun m => getCopy m name with
  | none => false
  | some c => c.state == .launching && c.stall.isSome

/-- STALL_EXPIRY (R117), taken where the copy's stall timer runs (log 4). -/
def execStallExpiry (st : StreamId) (name : CopyName) (s : State) : Host.Outcome State Fault Refusal :=
  .next (if stalling s st name then settleCut st (cutCopy st name .stall s) else s)

/-! ## STREAMSET (R165) -/

/-- Each route wait limit and hold timeout clamped to 1 to 65,535 steps (R165). -/
def clampSteps (x : PerClass Nat) : PerClass Nat :=
  { u := clampNat 1 65535 x.u, m := clampNat 1 65535 x.m, b := clampNat 1 65535 x.b }

def clampStream (x : StreamSettings) : StreamSettings :=
  { x with routeWait := clampSteps x.routeWait, hold := clampSteps x.hold }

/-- Make a class's record fresh where its delivery mode changed (R158). -/
def freshenIfChanged (old : StreamSettings) (t : TenantId) (c : TClass) (s : State) : State :=
  if (s.tenant t).settings.delivery.get c = old.delivery.get c then s else freshenDelivering { tenant := t, cls := c } s

/-- STREAMSET (R165). Where several delivery modes change, what U held goes before M and B (log 36). -/
def doStreamset (t : TenantId) (r : StreamSettings) (s : State) : State × Reply :=
  let x := clampStream r
  let old := (s.tenant t).settings
  let s1 := s.modTenant t fun y => { y with settings := x }
  let s2 := if x.dualU = old.dualU ∧ x.dualM = old.dualM ∧ x.tie = old.tie then s1 else rechooseTenant t s1
  (allClasses.foldl (fun y c => freshenIfChanged old t c y) s2, .accepted)

/-- STREAMSET (R165). -/
def execStreamset (lane : LaneId) (tag : Tag) (body : List Byte) (s : State) : Host.Outcome State Fault Refusal :=
  .next (tenantRequest lane tag 0x06 (parseStreamset body) doStreamset s)

end Sys2Proof.Machine
end

