-- ==== Sys2Proof/Machine/Channels.lean ====
section
/-!
DEFINITION. The Program Engine (chapter 8): fetching, reports, checks, continuing, submissions and answers, halting, and the
loads. A channel keeps the word it fetched until it goes on or stops (log 8).
-/

namespace Sys2Proof.Machine

/-! ## Reports (R140) -/

/-- A REPORT of a channel as it stands, naming a word index (R140). -/
def reportOf (t : TenantId) (c : ChannelId) (kind : ReportKind) (index : Nat) (ending : Bool) (s : State) : Report :=
  let x := s.channel t c
  { channel := c, kind := kind, index := index, submitted := x.submitted, refused := x.refused, discarded := x.discarded,
    patchShort := x.patchShort, stamp := (capture s).stamp, lock := (capture s).lock, clearsPending := ending }

/-- Queue a REPORT that ends no run. -/
def report (t : TenantId) (c : ChannelId) (kind : ReportKind) (index : Nat) (s : State) : State :=
  pushEntry (tenantLane t) (.report (reportOf t c kind index false s)) s

/-- The channel becomes IDLE with report-pending set and its ending REPORT is queued (R138, R139, R141). -/
def reportEnd (t : TenantId) (c : ChannelId) (kind : ReportKind) (index : Nat) (s : State) : State :=
  let s1 := s.modChannel t c fun x => { x with state := .idle, word := none, finished := false, prefetched := none, reportPending := true }
  pushEntry (tenantLane t) (.report (reportOf t c kind index true s1)) s1

/-! ## Checks (R139) -/

/-- A discarded byte count, which saturates at 256 (R129). -/
def addDiscarded (n : Nat) (x : Channel) : Channel := { x with discarded := min 256 (x.discarded + n) }

/-- Discard the assembly buffer, counting its bytes. -/
def dropBuffer (x : Channel) : Channel := { addDiscarded x.buffer.length x with buffer := [] }

def countCheck (k : ReportKind) (c : PeCounters) : PeCounters :=
  match k with
  | .range => { c with checksRange := satInc c.checksRange }
  | .templateRange => { c with checksTemplate := satInc c.checksTemplate }
  | .length => { c with checksLength := satInc c.checksLength }
  | .badOp => { c with checksBadOp := satInc c.checksBadOp }
  | .storeCheck => { c with checksStore := satInc c.checksStore }
  | .fetched => c
  | .mark => c
  | .done => c
  | .halted => c

/-- A STORE_CHECK is also a store parity fault of the part (R139). -/
def countStoreFault (k : ReportKind) (s : State) : State :=
  if k = .storeCheck then { s with pe := { s.pe with storeFaults := satInc s.pe.storeFaults } } else s

/-- A program check stops the channel (R139). -/
def programCheck (t : TenantId) (c : ChannelId) (k : ReportKind) (index : Nat) (s : State) : State :=
  let s1 := reportEnd t c k index (s.modChannel t c dropBuffer)
  countStoreFault k (s1.countPe t (countCheck k))

/-! ## Fetching (R132) -/

/-- The word at a partition-relative index, with its fault note. -/
def readWord (s : State) (t : TenantId) (i : Nat) : FetchedWord :=
  let a := (s.tenant t).grant.programBase + i
  { bytes := Memory.readList s.pe.program (8 * a) 8, fault := anyFault s.pe.programFaults a 1 }

/-- The REPORT FETCHED of a word of good parity whose PF is set. -/
def reportFetched (t : TenantId) (c : ChannelId) (w : FetchedWord) (i : Nat) (s : State) : State :=
  if !w.fault && (decodeWord w.bytes).pf then report t c .fetched i s else s

/-- The index lies in the tenant's program partition. -/
def inPartition (s : State) (t : TenantId) (i : Nat) : Bool := decide (i < (s.tenant t).grant.programSize)

/-- The channel goes on to the word at an index by fetching it (R132). -/
def fetchTo (t : TenantId) (c : ChannelId) (i : Nat) (s : State) : State :=
  if inPartition s t i then
    let w := readWord s t i
    reportFetched t c w i (s.modChannel t c fun x => { x with index := i, word := some w, finished := false, prefetched := none })
  else programCheck t c .range i s

/-- The channel goes on to the next word, prefetched or fetched now (R138). The current word index becomes that of the next word when
the channel goes on, so a QUERY or a HALT taken after that and before the next word executes already shows it (log 8). -/
def goNext (t : TenantId) (c : ChannelId) (s : State) : State :=
  let i := (s.channel t c).index + 1
  match (s.channel t c).prefetched with
  | some w => s.modChannel t c fun x => { x with index := i, word := some w, finished := false, prefetched := none }
  | none => fetchTo t c i s

/-- The program ends with CC clear (R138). REPORT DONE names the current word index (log 38). -/
def endProgram (t : TenantId) (c : ChannelId) (s : State) : State :=
  reportEnd t c .done (s.channel t c).index (s.modChannel t c dropBuffer)

/-- The fields of the word the channel is at. -/
def wordOf (x : Channel) : SendWord := decodeWord ((x.word.map (·.bytes)).getD [])

/-- A finished word continues as its CC directs (R138). A word continues in the command that finishes it (log 8), but after a fire or an
accepted resubmission the channel is RUNNING first and continues by itself (log 41). -/
def continueCC (t : TenantId) (c : ChannelId) (s : State) : State :=
  if (wordOf (s.channel t c)).cc then goNext t c s else endProgram t c s

/-! ## Executing words (R133, R134, R137) -/

/-- The channel is to execute the word it has fetched, and the word is of a kind (R130, R132). -/
def atWord (s : State) (t : TenantId) (c : ChannelId) (k : WordKind) : Bool :=
  (s.channel t c).state == .running && (s.channel t c).outstanding.isNone && !(s.channel t c).finished &&
    (match (s.channel t c).word with
      | some w => wordKind w == k
      | none => false)

/-- The channel is RUNNING with its word finished and has yet to continue (R142). -/
def awaitsContinuing (x : Channel) : Bool := x.state == .running && x.outstanding.isNone && x.finished

/-- A channel that has yet to continue does so (R138, log 41). -/
def goOn (t : TenantId) (c : ChannelId) (s : State) : State := if awaitsContinuing (s.channel t c) then continueCC t c s else s

/-- A word command runs the word its channel is at. A channel that has yet to continue goes on first, since the command says that a word
of its executes (log 41); a command that is not of the channel's word cannot occur (log 4). -/
def runWord (k : WordKind) (run : State → State) (t : TenantId) (c : ChannelId) (s : State) : State :=
  if atWord (goOn t c s) t c k then run (goOn t c s) else s

/-- The prefetch within the execution of a closing word (R134). -/
def prefetch (t : TenantId) (c : ChannelId) (s : State) : State :=
  let i := (s.channel t c).index + 1
  if inPartition s t i then
    let w := readWord s t i
    reportFetched t c w i (s.modChannel t c fun x => { x with prefetched := some w })
  else s

/-- The message a closing word submits, with its origin stamp captured now (R134). -/
def messageOf (w : SendWord) (bytes : List Byte) (cap : Capture) : Submission :=
  { cls := w.cls.getD .u, bytes := bytes, originStamp := cap.stamp, originLock := cap.lock }

/-- A closing word hands its message to SQ (R134). -/
def submit (t : TenantId) (c : ChannelId) (w : SendWord) (s : State) : State :=
  let cap := capture s
  let s1 := s.modChannel t c fun x => { x with buffer := [], outstanding := some { message := messageOf w x.buffer cap } }
  if w.cc then prefetch t c s1 else s1

/-- After the copy of a TEXT or PATCH word (R133). -/
def afterCopy (t : TenantId) (c : ChannelId) (w : SendWord) (s : State) : State :=
  if closing w then submit t c w s else continueCC t c s

/-- A TEXT word (R133). -/
def runText (t : TenantId) (c : ChannelId) (s : State) : State :=
  let x := s.channel t c
  let w := wordOf x
  let g := (s.tenant t).grant
  let a := 64 * g.templateBase + w.textOffset
  if 64 * g.templateSize < w.textOffset + w.count then programCheck t c .templateRange x.index s
  else if 256 < x.buffer.length + w.count then programCheck t c .length x.index s
  else if anyFault s.pe.templateFaults a w.count then programCheck t c .storeCheck x.index s
  else
    let bytes := Memory.readList s.pe.template a w.count
    afterCopy t c w (s.modChannel t c fun y => { y with buffer := y.buffer ++ bytes })

/-- The bytes a PATCH word copies: zero beyond the supplied length (R133). -/
def patchBytes (block : List Byte) (offset count : Nat) : List Byte := padTo count ((block.drop offset).take count)

/-- Some byte comes from beyond the supplied length. -/
def patchShortOf (block : List Byte) (offset count : Nat) : Bool := decide (1 ≤ count) && decide (block.length < offset + count)

/-- A PATCH word (R133). -/
def runPatch (t : TenantId) (c : ChannelId) (s : State) : State :=
  let x := s.channel t c
  let w := wordOf x
  if 256 < x.buffer.length + w.count then programCheck t c .length x.index s
  else
    afterCopy t c w (s.modChannel t c fun y =>
      { y with buffer := y.buffer ++ patchBytes x.patchBlock w.patchOffset w.count,
               patchShort := y.patchShort || (patchShortOf x.patchBlock w.patchOffset w.count && !w.sl) })

/-- TEXT (R133). -/
def execText (t : TenantId) (c : ChannelId) (s : State) : Host.Outcome State Fault Refusal :=
  .next (runWord .text (runText t c) t c s)

/-- PATCH (R133). -/
def execPatch (t : TenantId) (c : ChannelId) (s : State) : Host.Outcome State Fault Refusal :=
  .next (runWord .patch (runPatch t c) t c s)

/-- The channel is RUNNING again with its word finished; that it then continues is its own event (R136, R137, R142, log 41). -/
def resume (x : Channel) : Channel := { x with state := .running, finished := true }

/-- A compare entry fires: TB disarms it and counts, and PE returns the channel to RUNNING (R34, R137, R142). -/
def fireEntry (t : TenantId) (c : ChannelId) (s : State) : State :=
  let s1 := (s.setTarget t c none).countTb fun x => { x with compareFires := satInc x.compareFires }
  if (s1.channel t c).state = .waitingTime then s1.modChannel t c resume else s1

/-- The entry is armed and the count has passed its target (R34). -/
def entryDue (s : State) (t : TenantId) (c : ChannelId) : Bool :=
  match s.target t c with
  | none => false
  | some g => passed g (capture s).stamp

/-- TB tests an armed entry against the present count (R34, R35). -/
def testEntry (t : TenantId) (c : ChannelId) (s : State) : State := if entryDue s t c then fireEntry t c s else s

/-- A WAIT word (R34, R137). -/
def runWait (t : TenantId) (c : ChannelId) (s : State) : State :=
  let g := (wordOf (s.channel t c)).target
  testEntry t c ((s.modChannel t c fun x => { x with state := .waitingTime }).setTarget t c (some g))

/-- WAIT (R137). -/
def execWait (t : TenantId) (c : ChannelId) (s : State) : Host.Outcome State Fault Refusal :=
  .next (runWord .wait (runWait t c) t c s)

/-- A MARK word (R137). -/
def runMark (t : TenantId) (c : ChannelId) (s : State) : State := continueCC t c (report t c .mark (s.channel t c).index s)

/-- MARK (R137). -/
def execMark (t : TenantId) (c : ChannelId) (s : State) : Host.Outcome State Fault Refusal :=
  .next (runWord .mark (runMark t c) t c s)

/-- The check that a bad word meets when it comes to execute (R132). -/
def badKind (x : Channel) : Option ReportKind :=
  match x.word.map wordKind with
  | some (.bad k) => some k
  | _ => none

/-- A bad word (R132, R139). -/
def runBad (t : TenantId) (c : ChannelId) (k : ReportKind) (s : State) : State := programCheck t c k (s.channel t c).index s

/-- UNDEFINED_OP_WORD (R132, R139). -/
def execUndefinedOpWord (t : TenantId) (c : ChannelId) (s : State) : Host.Outcome State Fault Refusal :=
  .next (match badKind ((goOn t c s).channel t c) with
    | some k => runWord (.bad k) (runBad t c k) t c s
    | none => s)

/-- COMPARE_FIRE (R34), taken where the entry is armed (log 4). -/
def execCompareFire (t : TenantId) (c : ChannelId) (s : State) : Host.Outcome State Fault Refusal :=
  .next (if (s.target t c).isSome then fireEntry t c s else s)

/-! ## SQ and PE (R109, R134 to R136) -/

/-- The stream of a channel's submission. -/
def submissionStream (t : TenantId) (m : Submission) : StreamId := { tenant := t, cls := m.cls }

/-- SQ admits or refuses a channel's message (R109). -/
def admitChannel (t : TenantId) (c : ChannelId) (m : Submission) (s : State) : State × SqAnswer :=
  admitMessage (submissionStream t m) m.bytes m.originStamp m.originLock (.channel c) s

/-- The submission of a channel that SQ has not yet taken. -/
def untaken (x : Channel) : Option Submission :=
  match x.outstanding with
  | some o => if o.answer.isNone then some o.message else none
  | none => none

/-- CHANNEL_SUBMISSION (R109): SQ takes the submission and its answer is on its way to PE (log 9). -/
def execChannelSubmission (t : TenantId) (c : ChannelId) (s : State) : Host.Outcome State Fault Refusal :=
  .next (match untaken (s.channel t c) with
    | none => s
    | some m =>
      let r := admitChannel t c m s
      r.1.modChannel t c fun x => { x with outstanding := some { message := m, answer := some r.2 } })

/-- One more of a per-run count, which saturates at 65,535 (R129). -/
def runCount (n : Nat) : Nat := min 65535 (n + 1)

/-- An accepted message is counted by its channel and its tenant (R134, R136). -/
def countAccepted (t : TenantId) (c : ChannelId) (s : State) : State :=
  (s.modChannel t c fun x => { x with submitted := runCount x.submitted }).countPe t fun x => { x with submitted := satInc x.submitted }

/-- The answer ACCEPTED (R134). -/
def messageAccepted (t : TenantId) (c : ChannelId) (s : State) : State := continueCC t c (countAccepted t c s)

/-- The channel skips one word (R135). -/
def skipWord (t : TenantId) (c : ChannelId) (s : State) : State :=
  fetchTo t c ((s.channel t c).index + 2) (s.modChannel t c fun x => { x with prefetched := none })

/-- A refused message is discarded (R135). -/
def messageDiscarded (t : TenantId) (c : ChannelId) (n : Nat) (s : State) : State :=
  let s1 := s.modChannel t c fun x => addDiscarded n { x with refused := runCount x.refused }
  let s2 := s1.countPe t fun x => { x with refused := satInc x.refused }
  let w := wordOf (s2.channel t c)
  if w.sr && w.cc then skipWord t c s2 else continueCC t c s2

/-- A refused message is held for room (R136). -/
def messageHeld (t : TenantId) (c : ChannelId) (m : Submission) (s : State) : State :=
  let s1 := s.modChannel t c fun x => { x with state := .waitingRoom, held := some m, resubmissions := 0 }
  s1.countPe t fun x => { x with roomWaits := satInc x.roomWaits }

/-- SQ's answer reaches a running channel (R134 to R136). -/
def answerRunning (t : TenantId) (c : ChannelId) (m : Submission) (a : SqAnswer) (s : State) : State :=
  match a with
  | .accepted => messageAccepted t c s
  | .full => if (wordOf (s.channel t c)).wr then messageHeld t c m s else messageDiscarded t c m.bytes.length s
  | .quota => if (wordOf (s.channel t c)).wr then messageHeld t c m s else messageDiscarded t c m.bytes.length s

/-- SQ's answer reaches a channel that was stopped meanwhile (R142, log 19). -/
def answerStopped (t : TenantId) (c : ChannelId) (a : SqAnswer) (s : State) : State :=
  s.modChannel t c fun x =>
    match a with
    | .accepted => { x with submitted := runCount x.submitted }
    | .full => { x with refused := runCount x.refused }
    | .quota => { x with refused := runCount x.refused }

/-- PE takes an answer. -/
def takeAnswer (t : TenantId) (c : ChannelId) (m : Submission) (a : SqAnswer) (s : State) : State :=
  let s1 := s.modChannel t c fun x => { x with outstanding := none }
  if (s1.channel t c).state = .running then answerRunning t c m a s1 else answerStopped t c a s1

/-- SUBMISSION_ANSWER (R134). -/
def execSubmissionAnswer (t : TenantId) (c : ChannelId) (s : State) : Host.Outcome State Fault Refusal :=
  .next (match (s.channel t c).outstanding with
    | some { message := m, answer := some a } => takeAnswer t c m a s
    | _ => s)

/-- The held message is admitted and counted, and the channel is RUNNING again (R136, R142). -/
def releaseHeld (t : TenantId) (c : ChannelId) (s : State) : State :=
  countAccepted t c (s.modChannel t c fun x => { resume x with held := none, resubmissions := 0 })

/-- RESUBMISSION (R136): SQ takes one resubmission of the held message. -/
def execResubmission (t : TenantId) (c : ChannelId) (s : State) : Host.Outcome State Fault Refusal :=
  .next (match (s.channel t c).held with
    | none => s
    | some m =>
      if (s.channel t c).state = .waitingRoom ∧ 0 < (s.channel t c).resubmissions then
        let s1 := s.modChannel t c fun x => { x with resubmissions := x.resubmissions - 1 }
        let r := admitChannel t c m s1
        if r.2 = .accepted then releaseHeld t c r.1 else r.1
      else s)

/-! ## Starting and stopping (R131, R141, R143) -/

/-- The context of an accepted FIRE (R131). -/
def fireChannel (start : Nat) (patch : List Byte) (x : Channel) : Channel :=
  { x with state := .running, index := start, word := none, finished := false, prefetched := none, buffer := [], patchBlock := patch,
           submitted := 0, refused := 0, discarded := 0, patchShort := false }

/-- The channel is IDLE with nothing pending (R131). -/
def channelFree (x : Channel) : Bool := x.state == .idle && !x.reportPending && x.outstanding.isNone

/-- The tests of FIRE in order (R131). -/
def fireRefusal (t : TenantId) (c : ChannelId) (start : Nat) (s : State) : Option RefusalCode :=
  if (s.tenant t).enabled = false then some .disabled
  else if channelFree (s.channel t c) = false then some .busy
  else if inPartition s t start then none
  else some .range

/-- A refused FIRE is counted (R131). -/
def refuseFire (t : TenantId) (code : RefusalCode) (s : State) : State × Reply :=
  (s.countPe t (fun x => { x with firesRefused := satInc x.firesRefused }), .refused code)

/-- FIRE up to its answer (R131). -/
def doFire (t : TenantId) (r : FireReq) (s : State) : State × Reply :=
  match indexOf 4 r.channel with
  | none => refuseFire t .badIndex s
  | some c =>
    match fireRefusal t c r.start s with
    | some code => refuseFire t code s
    | none =>
      ((s.modChannel t c (fireChannel r.start r.patch)).countPe t (fun x => { x with firesTaken := satInc x.firesTaken }),
        .accepted)

/-- The first fetch of the run, after the answer (R131). -/
def afterFire (t : TenantId) (r : FireReq) (reply : Reply) (s : State) : State :=
  match reply, indexOf 4 r.channel with
  | .accepted, some c => fetchTo t c r.start s
  | _, _ => s

/-- Serve a FIRE whose body has been parsed: answer first, then the channel's own events (R131). -/
def serveFire (lane : LaneId) (tag : Tag) (t : TenantId) (parsed : Option FireReq) (s : State) : State :=
  match parsed with
  | none => answer lane tag 0x02 (.refused .badValue) s
  | some r => afterFire t r (doFire t r s).2 (answer lane tag 0x02 (doFire t r s).2 (doFire t r s).1)

/-- FIRE (R131, R162). -/
def execFire (lane : LaneId) (tag : Tag) (body : List Byte) (s : State) : Host.Outcome State Fault Refusal :=
  .next (match laneTenant lane with
    | none => refuseAccess lane tag 0x02 (countRequest lane s)
    | some t => serveFire lane tag t (parseFire body) (countRequest lane s))

/-- The channel part of a stop, for HALT and TENANTOFF (R141, R143). -/
def stopContext (x : Channel) : Channel :=
  let n := x.buffer.length + ((x.held.map (·.bytes.length)).getD 0) + (((untaken x).map (·.bytes.length)).getD 0)
  { addDiscarded n x with
      state := .idle, word := none, finished := false, prefetched := none, buffer := [], held := none, resubmissions := 0,
      outstanding := if (untaken x).isSome then none else x.outstanding }

/-- Stop a channel and disarm its compare entry (R36, R141). -/
def stopChannel (t : TenantId) (c : ChannelId) (s : State) : State := (s.modChannel t c stopContext).setTarget t c none

/-- A stopping HALT (R141). -/
def haltChannel (t : TenantId) (c : ChannelId) (s : State) : State :=
  let s1 := stopChannel t c s
  (reportEnd t c .halted (s1.channel t c).index s1).countPe t fun x => { x with halts := satInc x.halts }

/-- HALT (Table 8-5). -/
def doHalt (t : TenantId) (i : Nat) (s : State) : State × Reply :=
  match indexOf 4 i with
  | none => (s, .invalid)
  | some c =>
    if (s.tenant t).enabled then
      if (s.channel t c).state = .idle then
        if channelFree (s.channel t c) then (s, .idle) else (s, .pending)
      else (haltChannel t c s, .stopped)
    else (s, .invalid)

/-- HALT (R141). -/
def execHalt (lane : LaneId) (tag : Tag) (body : List Byte) (s : State) : Host.Outcome State Fault Refusal :=
  .next (tenantRequest lane tag 0x03 (parseByte body) doHalt s)

/-! ## Loads (R126, R127) -/

/-- LOADP (R126). -/
def doLoadp (t : TenantId) (r : LoadReq) (s : State) : State × Reply :=
  let g := (s.tenant t).grant
  let n := r.bytes.length / 8
  let a := g.programBase + r.start
  if g.programSize < r.start + n then (s, .refused .range)
  else
    ({ s with pe := { s.pe with program := Memory.writeList s.pe.program (8 * a) r.bytes,
                                programFaults := clearFaults s.pe.programFaults a n } }, .accepted)

/-- LOADT (R127). -/
def doLoadt (t : TenantId) (r : LoadReq) (s : State) : State × Reply :=
  let g := (s.tenant t).grant
  let n := r.bytes.length
  let a := 64 * g.templateBase + r.start
  if 64 * g.templateSize < r.start + n then (s, .refused .range)
  else
    ({ s with pe := { s.pe with template := Memory.writeList s.pe.template a r.bytes,
                                templateFaults := clearFaults s.pe.templateFaults a n } }, .accepted)

/-- LOADP (R126). -/
def execLoadp (lane : LaneId) (tag : Tag) (body : List Byte) (s : State) : Host.Outcome State Fault Refusal :=
  .next (tenantRequest lane tag 0x04 (parseLoadp body) doLoadp s)

/-- LOADT (R127). -/
def execLoadt (lane : LaneId) (tag : Tag) (body : List Byte) (s : State) : Host.Outcome State Fault Refusal :=
  .next (tenantRequest lane tag 0x05 (parseLoadt body) doLoadt s)

end Sys2Proof.Machine
end

