-- ==== Sys2Proof/Machine/TimeBase.lean ====
section
/-!
DEFINITION. The Time Base (chapter 2): steps, the PPS discipline, the PPS watch, TIMECFG and TIMESET.
-/

namespace Sys2Proof.Machine

/-! ## Steps and state changes (R20, R29) -/

/-- Test every armed entry (R35), entry 0 first: the order in which waits of one tenant end at a step is the model's (log 36). -/
def testEntries (s : State) : State :=
  allTenants.foldl (fun x t => allChannels.foldl (fun y c => testEntry t c y) x) s

/-- The time base after the count has been replaced (R20). A value above 2^64 − 1 becomes 2^64 − 1: R18 states the bound for the
advance only (log 35). -/
def stepCount (count : Nat) (x : TimeBase) : TimeBase :=
  { x with count := BitVec.ofNat 64 (min count Config.countMax), epoch := x.epoch + 1, slew := 0, slewTimer := none,
           counters := { x.counters with steps := satInc x.counters.steps } }

/-- A step of the time count, in the order of R20. What it does comes before any change of the time state by the same event, so
its TIME_STEP notice, and a REPORT of a channel whose wait it ends, carry the lock flag of the old state (log 21). -/
def timeStep (count : Nat) (cause : StepCause) (amount : Int) (s : State) : State :=
  let s1 := testEntries (s.modTb (stepCount count))
  notifyOperator (.timeStep cause amount s1.tb.epoch) s1

/-- The time state becomes another, with its notice (R29); a state that stays queues none. -/
def setTimeState (new : TimeState) (s : State) : State :=
  let old := s.tb.state
  let s1 := s.modTb fun x => { x with state := new }
  if old = new then s1 else notifyOperator (.timeState old new s1.tb.epoch) s1

/-- Both runs 0. -/
def clearRuns (s : State) : State := s.modTb fun x => { x with inRun := 0, outRun := 0 }

/-! ## The PPS discipline (R23 to R26) -/

/-- The slew a phase error sets (R24). -/
def slewFor (kp : Nat) (e : Int) : Int := clampInt (-16000) 16000 (-(e.tdiv (2 ^ kp : Nat)))

/-- The trim after a phase error (R24). -/
def trimAfter (ki : Nat) (trim e : Int) : Int := clampInt (-65536) 65536 (trim - e.tdiv (2 ^ ki : Nat))

/-- The slew and trim updates of R24. -/
def discipline (e : Int) (s : State) : State :=
  s.modTb fun x => { x with slew := slewFor x.params.kp e, slewTimer := some Config.tuPerSecond,
                            trim := trimAfter x.params.ki x.trim e }

/-- An acquisition step (R24). The notice carries −E even where the count stops at its bound (log 35). -/
def acquireStep (e : Int) (s : State) : State := timeStep ((s.tb.count.toNat : Int) - e).toNat .acquire (-e) s

/-- The phase error exceeds the step threshold. -/
def beyondStep (s : State) (e : Int) : Bool := decide (s.tb.params.stepThreshold < e.natAbs)

/-- The phase error lies within the lock window. -/
def inWindow (s : State) (e : Int) : Bool := decide (e.natAbs ≤ s.tb.params.lockWindow)

/-- The step or the updates of R24. -/
def correct (e : Int) (s : State) : State := if beyondStep s e then acquireStep e s else discipline e s

/-- A PPS in ACQUIRING (R24). -/
def ppsAcquiring (e : Int) (s : State) : State :=
  let ok := inWindow s e && !beyondStep s e
  let s1 := correct e s
  if ok then
    if 3 ≤ s1.tb.inRun then setTimeState .locked (clearRuns s1)
    else s1.modTb fun x => { x with inRun := x.inRun + 1 }
  else s1.modTb fun x => { x with inRun := 0 }

/-- A PPS in LOCKED (R25). -/
def ppsLocked (e : Int) (s : State) : State :=
  let s1 := discipline e s
  if inWindow s1 e then s1.modTb fun x => { x with outRun := 0 }
  else if 2 ≤ s1.tb.outRun then setTimeState .acquiring (clearRuns s1)
  else s1.modTb fun x => { x with outRun := x.outRun + 1 }

/-- A PPS in HOLDOVER (R26). -/
def ppsHoldover (e : Int) (s : State) : State :=
  let ok := inWindow s e
  setTimeState (if ok then .locked else .acquiring) (clearRuns (correct e s))

/-- A PPS that is taken (R23). -/
def takePps (s : State) : State :=
  s.modTb fun x => { x with watch := some Config.ppsWatch, counters := { x.counters with ppsTaken := satInc x.counters.ppsTaken } }

/-- PPS_ARRIVAL (R23). -/
def execPpsArrival (s : State) : Host.Outcome State Fault Refusal :=
  let e := phaseError s.tb.count.toNat
  .next (match s.tb.state with
    | .free => s.countTb fun c => { c with ppsIgnored := satInc c.ppsIgnored }
    | .acquiring => ppsAcquiring e (takePps s)
    | .locked => ppsLocked e (takePps s)
    | .holdover => ppsHoldover e (takePps s))

/-- The effect of a missing PPS in each time state (R27). -/
def missingPps (s : State) : State :=
  match s.tb.state with
  | .locked => setTimeState .holdover (s.modTb fun x => { x with slew := 0, slewTimer := none, outRun := 0 })
  | .acquiring => s.modTb fun x => { x with inRun := 0 }
  | .holdover => s
  | .free => s

/-- PPS_MISSING (R27), taken where the PPS watch runs (log 4). -/
def execPpsMissing (s : State) : Host.Outcome State Fault Refusal :=
  .next (if s.tb.watch.isSome then
      missingPps (s.modTb fun x =>
        { x with watch := some Config.ppsWatch, counters := { x.counters with ppsMissing := satInc x.counters.ppsMissing } })
    else s)

/-- SLEW_PERIOD_END (R19), taken where a slew period runs (log 4). -/
def execSlewPeriodEnd (s : State) : Host.Outcome State Fault Refusal :=
  .next (if s.tb.slewTimer.isSome then s.modTb fun x => { x with slew := 0, slewTimer := none } else s)

/-! ## The operator's time requests (R22, R28) -/

/-- The reference enable ON (Table 2-2). -/
def enableReference (s : State) : State :=
  if s.tb.state = .free then setTimeState .acquiring ((clearRuns s).modTb fun x => { x with watch := some Config.ppsWatch })
  else s

/-- The reference enable OFF (Table 2-2). -/
def disableReference (s : State) : State :=
  if s.tb.state = .free then s
  else setTimeState .free ((clearRuns s).modTb fun x => { x with slew := 0, slewTimer := none, watch := none })

/-- TIMECFG (R22). -/
def doTimecfg (r : TimecfgReq) (s : State) : State × Reply :=
  if r.params.stepThreshold < r.params.lockWindow then (s, .refused .badValue)
  else
    let s1 := s.modTb fun x => { x with params := r.params, refEnable := r.enable }
    (if r.enable then enableReference s1 else disableReference s1, .accepted)

/-- The amount a TIMESET's notice carries (R29). -/
def loadAmount (new old : Nat) : Int := clampInt (-2 ^ 63) (2 ^ 63 - 1) ((new : Int) - (old : Int))

/-- What TIMESET does to the time state and the runs (R28). -/
def afterLoad (s : State) : State :=
  match s.tb.state with
  | .locked => setTimeState .acquiring (clearRuns s)
  | .acquiring => s.modTb fun x => { x with inRun := 0 }
  | .free => s
  | .holdover => s

/-- TIMESET (R28). -/
def doTimeset (count : Nat) (s : State) : State × Reply :=
  if 2 ^ 63 ≤ count then (s, .refused .badValue)
  else (afterLoad (timeStep count .timeset (loadAmount count s.tb.count.toNat) s), .accepted)

/-- TIMECFG (R22). -/
def execTimecfg (lane : LaneId) (tag : Tag) (body : List Byte) (s : State) : Host.Outcome State Fault Refusal :=
  .next (operatorRequest lane tag 0x1E (parseTimecfg body) doTimecfg s)

/-- TIMESET (R28). -/
def execTimeset (lane : LaneId) (tag : Tag) (body : List Byte) (s : State) : Host.Outcome State Fault Refusal :=
  .next (operatorRequest lane tag 0x1F (parseTimeset body) doTimeset s)

end Sys2Proof.Machine
end

