-- ==== Sys2Proof/Machine/Lanes.lean ====
section
/-!
DEFINITION. The Lane Interface (chapter 10): the Tenant Table's requests, COUNTCLEAR and RESTART, frames that are discarded,
entries that leave, and power-on reset.
-/

namespace Sys2Proof.Machine

/-! ## TENANTSET (R163) -/

/-- Two partitions share something (R163 step 4). -/
def overlap (a n b m : Nat) : Bool := decide (0 < n) && decide (0 < m) && decide (a < b + m) && decide (b < a + n)

/-- A partition exceeds its store (R163 step 3). -/
def beyondStores (g : TenantGrant) : Bool :=
  decide (Config.programWords < g.programBase + g.programSize) || decide (Config.templateUnits < g.templateBase + g.templateSize)

/-- A partition shares a word or byte with another tenant's (R163 step 4). -/
def overlapsOther (s : State) (t : TenantId) (g : TenantGrant) : Bool :=
  allTenants.any fun u =>
    let o := (s.tenant u).grant
    u != t && (overlap g.programBase g.programSize o.programBase o.programSize ||
      overlap g.templateBase g.templateSize o.templateBase o.templateSize)

/-- A change of either partition (R163 step 5). -/
def partitionsChange (old new : TenantGrant) : Bool :=
  old.programBase != new.programBase || old.programSize != new.programSize || old.templateBase != new.templateBase ||
    old.templateSize != new.templateSize

/-- A channel of the tenant is not IDLE. -/
def anyRunning (s : State) (t : TenantId) : Bool := allChannels.any fun c => (s.channel t c).state != .idle

/-- The sum of all quotas with a tenant's quota changed (R163 step 6). -/
def quotaSum (s : State) (t : TenantId) (q : Nat) : Nat :=
  (allTenants.map fun u => if u = t then q else (s.tenant u).grant.quota).sum

/-- The refusals of R163, steps 3 to 7 in order. -/
def tenantsetRefusal (s : State) (t : TenantId) (g : TenantGrant) : Option RefusalCode :=
  if beyondStores g then some .range
  else if overlapsOther s t g then some .overlap
  else if partitionsChange (s.tenant t).grant g && anyRunning s t then some .busy
  else if Config.storeCells < quotaSum s t g.quota then some .quota
  else if g.quota < occupancy s t then some .quota
  else none

/-- What a route choice reads of the grant (R91). -/
def routeFieldsChange (old new : TenantGrant) : Bool :=
  old.masks != new.masks || old.fallbackU != new.fallbackU || old.fallbackM != new.fallbackM || old.openAccess != new.openAccess

/-- TENANTSET on a tenant (R163). -/
def doTenantset (g : TenantGrant) (t : TenantId) (s : State) : State × Reply :=
  match tenantsetRefusal s t g with
  | some code => (s, .refused code)
  | none =>
    let s1 := s.modTenant t fun x => { x with grant := g }
    (if routeFieldsChange (s.tenant t).grant g then rechooseTenant t s1 else s1, .accepted)

/-- TENANTSET (R163). -/
def execTenantset (lane : LaneId) (tag : Tag) (body : List Byte) (s : State) : Host.Outcome State Fault Refusal :=
  .next (operatorRequest lane tag 0x1A (parseTenantset body) (fun r => atIndex r.tenant (doTenantset r.grant)) s)

/-! ## TENANTON, TENANTOFF, TENANTRESET (R164) -/

/-- TENANTON on a tenant. -/
def doTenanton (t : TenantId) (s : State) : State × Reply := (s.modTenant t (fun x => { x with enabled := true }), .accepted)

/-- TENANTON (R164). -/
def execTenanton (lane : LaneId) (tag : Tag) (body : List Byte) (s : State) : Host.Outcome State Fault Refusal :=
  .next (operatorRequest lane tag 0x1B (parseByte body) (fun i => atIndex i doTenanton) s)

/-- A queued REPORT no longer clears report-pending (R143, log 11). -/
def unmark : Entry → Entry
  | .report r => .report { r with clearsPending := false }
  | e => e

/-- TENANTOFF stops a channel that runs and clears its report-pending flag (R143). -/
def offChannel (t : TenantId) (c : ChannelId) (s : State) : State :=
  let s1 := if (s.channel t c).state = .idle then s else stopChannel t c s
  s1.modChannel t c fun x => { x with reportPending := false }

/-- TENANTOFF on a tenant (R164). -/
def doTenantoff (t : TenantId) (s : State) : State × Reply :=
  if (s.tenant t).enabled then
    let s1 := s.modTenant t fun x => { x with enabled := false }
    let s2 := allChannels.foldl (fun x c => offChannel t c x) s1
    (s2.modLane (tenantLane t) (fun x => { x with queue := x.queue.map unmark }), .accepted)
  else (s, .accepted)

/-- TENANTOFF (R164). -/
def execTenantoff (lane : LaneId) (tag : Tag) (body : List Byte) (s : State) : Host.Outcome State Fault Refusal :=
  .next (operatorRequest lane tag 0x1C (parseByte body) (fun i => atIndex i doTenantoff) s)

def isAnswer : Entry → Bool
  | .answer _ => true
  | _ => false

/-- Empty a lane's queue at TENANTRESET, counting the answers lost (R164). -/
def emptyLane (l : LaneId) (s : State) : State :=
  let n := (s.lane l).queue.countP isAnswer
  (s.modLane l fun x => { x with queue := [], counters := { x.counters with answerLost := satAdd x.counters.answerLost n } }).setLoss
    l false

/-- A tenant's channels at their power-on values, their entries disarmed (R33, R143). -/
def resetChannels (t : TenantId) (s : State) : State :=
  allChannels.foldl (fun x c => (x.modChannel t c fun _ => {}).setTarget t c none) s

/-- A tenant's budget-used counts on every path become 0 (R94). -/
def zeroBudgets (t : TenantId) (s : State) : State :=
  { s with cs := { s.cs with plans := mapAll s.cs.plans fun _ pl => { pl with used := pl.used.set t 0 } } }

/-- TENANTRESET on a tenant (R164): SQ, CS, PE with TB, RD, and the lane. -/
def doTenantreset (t : TenantId) (s : State) : State × Reply :=
  let s1 := (streamsOf t).foldl (fun x st => resetStream st x) s
  let s2 := emptyTenantContexts t (resetChannels t (zeroBudgets t s1))
  let s3 := (streamsOf t).foldl (fun x st => freshenDiscarding st x) s2
  (emptyLane (tenantLane t) s3, .accepted)

/-- TENANTRESET (R164). -/
def execTenantreset (lane : LaneId) (tag : Tag) (body : List Byte) (s : State) : Host.Outcome State Fault Refusal :=
  .next (operatorRequest lane tag 0x1D (parseByte body) (fun i => atIndex i doTenantreset) s)

/-! ## COUNTCLEAR (R167) -/

/-- Every counter that the chapters name as zeroed by COUNTCLEAR is zero. -/
def zeroCounters (s : State) : State :=
  { s with
    pp := mapAll s.pp fun _ x => { x with counters := {} }
    tb := { s.tb with counters := {} }
    pu := { s.pu with paths := mapAll s.pu.paths fun _ x => { x with counters := {} }, peerRestarts := 0 }
    hs := { s.hs with counters := .replicate 6 {} }
    rs := { s.rs with counters := .replicate 6 {}, unroutedHeads := 0 }
    cs := { s.cs with plans := mapAll s.cs.plans fun _ x => { x with counters := {} }, windows := 0 }
    sq := { s.sq with streams := mapAll s.sq.streams fun _ x => { x with counters := {} }, aborts := .replicate 6 {} }
    pe := { s.pe with counters := .replicate 8 {}, storeFaults := 0 }
    rd := { s.rd with pathCounters := .replicate 6 {}, streamCounters := .replicate 24 {} }
    li := { s.li with lanes := mapAll s.li.lanes fun _ x => { x with counters := {} } } }

/-- COUNTCLEAR (R167). -/
def doCountclear (_ : Unit) (s : State) : State × Reply := (zeroCounters s, .accepted)

/-- COUNTCLEAR (R167). -/
def execCountclear (lane : LaneId) (tag : Tag) (body : List Byte) (s : State) : Host.Outcome State Fault Refusal :=
  .next (operatorRequest lane tag 0x21 (parseEmpty body) doCountclear s)

/-! ## RESTART (R167) -/

/-- RESTART in PU (R38): numbers, records, echoes and marks; probing starts again below. -/
def restartPu (s : State) : State :=
  { s with pu := { paths := mapAll s.pu.paths fun _ x => { x with number := 0, records := [], echoes := [] },
                   startMark := some (freshMark s), peerMark := none, peerRestarts := s.pu.peerRestarts } }

/-- RESTART of one path in RS, PU and HS (R56, R51, R76): a path that is ON goes to PROVING, with no notice. -/
def restartPath (p : PathId) (s : State) : State :=
  let s1 := modHops p restartHop s
  let s2 := if (s1.path p).admin then startProbing p (setPathState p .proving s1) else s1
  handCondition p s2

/-- RESTART in CS: every budget-used count becomes 0 (R94). -/
def zeroAllBudgets (s : State) : State :=
  { s with cs := { s.cs with plans := mapAll s.cs.plans fun _ pl => { pl with used := .replicate 8 0 } } }

/-- RESTART in RD: contexts empty, records fresh (R145, R151). -/
def restartRd (s : State) : State := allStreams.foldl (fun x st => freshenDiscarding st x) (emptyAllContexts s)

/-- RESTART at the lanes: queues empty, loss flags clear (R167). -/
def emptyLanes (s : State) : State :=
  { s with li := { s.li with lanes := mapAll s.li.lanes fun _ x => { x with queue := [] }, lossFlags := .replicate 8 false } }

/-- RESTART of every block (R167); the counters are zeroed last (log 24). -/
def doRestart (_ : Unit) (s : State) : State × Reply :=
  let s1 := { s with sq := {}, pe := { s.pe with channels := .replicate 32 {} },
                     tb := { s.tb with compare := .replicate 32 none } }
  let s2 := restartRd (zeroAllBudgets (restartPu s1))
  let s3 := allPaths.foldl (fun x p => restartPath p x) s2
  (zeroCounters (emptyLanes s3), .accepted)

/-- RESTART (R167). -/
def execRestart (lane : LaneId) (tag : Tag) (body : List Byte) (s : State) : Host.Outcome State Fault Refusal :=
  .next (operatorRequest lane tag 0x22 (parseEmpty body) doRestart s)

/-! ## Frames that are discarded (R161, R171) -/

/-- FRAME_CHECK_ERROR (R161). -/
def execFrameCheckError (l : LaneId) (s : State) : Host.Outcome State Fault Refusal :=
  .next (s.countLane l fun c => { c with frameErrors := satInc c.frameErrors })

/-- MALFORMED_MESSAGE (R161, R171). -/
def execMalformedMessage (l : LaneId) (s : State) : Host.Outcome State Fault Refusal :=
  .next (s.countLane l fun c => { c with malformed := satInc c.malformed })

/-! ## Entries that leave (R168, R170) -/

/-- The loss flag of a lane; the management lane keeps none (R170). -/
def lossFlag (s : State) (l : LaneId) : Bool :=
  match laneTenant l with
  | none => false
  | some t => s.li.lossFlags[t]

/-- The frame in which an entry leaves a lane now (R170, R171, section 11.1). -/
def frameOf (s : State) (l : LaneId) (e : Entry) : List Byte :=
  let m := entryMessage (lossFlag s l) (capture s) e
  laneFrame (laneMessage m.1 m.2.1 m.2.2)

/-- An entry begins to leave (R168, R170). -/
def sendEntry (l : LaneId) (e : Entry) (rest : List Entry) (s : State) : State :=
  let f := frameOf s l e
  let s1 := s.modLane l fun x => { x with queue := rest, txFrame := f, counters := { x.counters with sent := satInc x.counters.sent } }
  let s2 := if isDeliver e then s1.setLoss l false else s1
  clearPending l e s2

/-- ENTRY_SENT (R168): the oldest entry begins to leave; an empty queue sends nothing. -/
def execEntrySent (l : LaneId) (s : State) : Host.Outcome State Fault Refusal :=
  .next (match (s.lane l).queue with
    | [] => s
    | e :: rest => sendEntry l e rest s)

/-! ## Power-on reset -/

/-- POWER_ON_RESET (R1): every block at its power-on state; the commands that wait still wait (log 6). -/
def execPowerOnReset (s : State) : Host.Outcome State Fault Refusal := .next { State.reset with pending := s.pending }

end Sys2Proof.Machine
end

