-- ==== Sys2Proof/Machine/Hops.lean ====
section
/-!
DEFINITION. The Hop Supervisor (chapter 4): hop reports, dwells, report timeouts, the leaky bucket, and the operator's
hop requests.
-/

namespace Sys2Proof.Machine

/-! ## Notices (R73) -/

/-- A HOP_STATE notice of a hop as it stands; the usable slot count is the derived one (R73). -/
def notifyHop (p : PathId) (h : HopId) (old : HopState) (cause : HopCause) (s : State) : State :=
  let x := s.hop p h
  notifyOperator (.hopState p h old x.state cause x.averaged x.rateStep (s.condition p).usable) s

/-- An OVER_THRESHOLD notice of a hop as it stands (R73). -/
def notifyOver (p : PathId) (h : HopId) (s : State) : State :=
  let x := s.hop p h
  notifyOperator (.overThreshold p h x.errorCount x.errorThreshold x.blamed) s

/-- HS hands the condition over where an event changed a part of it (R72). -/
def handIfChanged (before : HopCondition) (p : PathId) (s : State) : State :=
  if s.condition p = before then s else handCondition p s

/-! ## A hop report item (R57 to R66) -/

/-- R58 and R59: the margin enters the ring, the average is formed, the report timer starts afresh. -/
def takeMargin (margin : Int) (rate : Nat) (h : Hop) : Hop :=
  let ring := (if 8 ≤ h.ring.length then h.ring.tail else h.ring) ++ [margin]
  let h1 := { h with ring := ring, rateStep := rate, reportTimer := some (h.reportTimeoutMs * Config.tuPerMs) }
  { h1 with averaged := some (averageOf h1) }

/-- The dwell of a hop runs out: one level up (R64). -/
def dwellUp (p : PathId) (h : HopId) (s : State) : State :=
  let old := (s.hop p h).state
  let s1 := s.modHop p h fun x => { x with state := oneUp x.state, dwellTimer := none }
  let s2 := s1.countHs p fun c => { c with recoveries := satInc c.recoveries }
  if (s2.hop p h).enables.recovery then notifyHop p h old .dwell s2 else s2

/-- A move to a worse state by a report (R62). -/
def degrade (p : PathId) (h : HopId) (level : HopState) (s : State) : State :=
  let old := (s.hop p h).state
  let s1 := s.modHop p h fun x => { x with state := level, dwellTimer := none }
  let s2 := s1.countHs p fun c => { c with degradations := satInc c.degradations }
  if worseEnabled (s2.hop p h).enables level then notifyHop p h old .report s2 else s2

/-- A report that does not degrade the hop (R63); a dwell of 0 ms runs out at once (R64, log 22). -/
def considerDwell (p : PathId) (h : HopId) (level : HopState) (averaged : Int) (s : State) : State :=
  let cfg := (s.path p).settings
  let x := s.hop p h
  if qualifies cfg x.state level averaged then
    if x.dwellTimer.isSome then s
    else if cfg.dwellMs = 0 then dwellUp p h s
    else s.modHop p h fun y => { y with dwellTimer := some (cfg.dwellMs * Config.tuPerMs) }
  else s.modHop p h fun y => { y with dwellTimer := none }

/-- The comparison of the report level with the hop's state (R60 to R63). -/
def judgeReport (p : PathId) (h : HopId) (level : HopState) (averaged : Int) (s : State) : State :=
  let x := s.hop p h
  if x.unreported then s.modHop p h fun y => { y with state := level, unreported := false }
  else if worseThan level x.state then degrade p h level s
  else considerDwell p h level averaged s

/-- The over-threshold flag sets: blamed branch, count, notice (R66, R69). -/
def setOver (p : PathId) (h : HopId) (blamed : Option Branch) (s : State) : State :=
  let s1 := s.modHop p h fun x => { x with overFlag := true, blamed := blamed }
  let s2 := s1.countHs p fun c => { c with overEvents := satInc c.overEvents }
  if (s2.hop p h).enables.overEnable then notifyOver p h s2 else s2

/-- The flag is clear and the count has reached the threshold. -/
def overDue (h : Hop) : Bool := !h.overFlag && decide (h.errorThreshold ≤ h.errorCount)

/-- The corrected blocks enter the error count (R66). -/
def addErrors (p : PathId) (h : HopId) (corrected : Nat) (blamed : Branch) (s : State) : State :=
  let s1 := s.modHop p h fun x => { x with errorCount := min 65535 (x.errorCount + corrected) }
  if overDue (s1.hop p h) then setOver p h (some blamed) s1 else s1

/-- An item that passed the checks of R57, for its hop. -/
def handleItem (p : PathId) (h : HopId) (it : HopItem) (s : State) : State :=
  let margin := clampInt (-1000) 1000 it.margin
  let rate := min it.rateStep 7
  let before := s.condition p
  let s1 := s.countHs p fun c => { c with taken := satInc c.taken }
  let s2 := s1.modHop p h (takeMargin margin rate)
  let averaged := averageOf (s2.hop p h)
  let level := reportLevel (s2.path p).settings averaged rate it.uncorrectable
  let s3 := judgeReport p h level averaged s2
  handIfChanged before p (addErrors p h it.corrected it.branch s3)

/-- HS takes one hop report item whole (R57). -/
def takeItem (p : PathId) (it : HopItem) (s : State) : State :=
  if (s.path p).state = .off then s.countHs p fun c => { c with whileOff := satInc c.whileOff }
  else match indexOf 12 it.index with
    | none => s.countHs p fun c => { c with badIndex := satInc c.badIndex }
    | some h =>
      if it.index < (s.path p).settings.hopCount then handleItem p h it s
      else s.countHs p fun c => { c with badIndex := satInc c.badIndex }

/-! ## The timers of HS -/

/-- A report timeout (R65). -/
def reportTimedOut (p : PathId) (h : HopId) (s : State) : State :=
  let old := (s.hop p h).state
  let s1 := s.modHop p h fun x =>
    { x with state := .lost, ring := [], averaged := none, rateStep := 0, dwellTimer := none, reportTimer := none }
  let s2 := s1.countHs p fun c =>
    { c with timeouts := satInc c.timeouts, degradations := if old = .lost then c.degradations else satInc c.degradations }
  if old ≠ .lost ∧ (s2.hop p h).enables.lost then notifyHop p h old .timeout s2 else s2

/-- REPORT_TIMEOUT (R65), taken where the report timer runs (log 4). -/
def execReportTimeout (p : PathId) (h : HopId) (s : State) : Host.Outcome State Fault Refusal :=
  .next (if (s.hop p h).reportTimer.isSome then handIfChanged (s.condition p) p (reportTimedOut p h s) else s)

/-- DWELL_EXPIRY (R64), taken where the dwell timer runs (log 4). -/
def execDwellExpiry (p : PathId) (h : HopId) (s : State) : Host.Outcome State Fault Refusal :=
  .next (if (s.hop p h).dwellTimer.isSome then handIfChanged (s.condition p) p (dwellUp p h s) else s)

/-- What a leak pulse does to one hop record (R67). -/
def leakHop (h : Hop) : Hop :=
  if h.secondary = h.leakDivider then { h with secondary := 0, errorCount := h.errorCount - 1 }
  else { h with secondary := h.secondary + 1 }

/-- LEAK_PULSE (R67). -/
def execLeakPulse (s : State) : Host.Outcome State Fault Refusal :=
  .next { s with hs := { s.hs with hops := mapAll s.hs.hops fun _ v => mapAll v fun _ h => leakHop h,
                                   leakTimer := some (s.hs.leakPeriodMs * Config.tuPerMs) } }

/-! ## The operator's hop requests (R68 to R70) -/

/-- HOPCLEAR (R68). -/
def doHopclear (p : PathId) (h : HopId) (s : State) : State × Reply :=
  let s1 := s.modHop p h fun x => { x with errorCount := 0, secondary := 0, overFlag := false, blamed := none }
  (if (s.hop p h).overFlag then handCondition p s1 else s1, .accepted)

/-- The hop settings of HOPSET; a changed leak divider zeroes the secondary leak count (R69). -/
def storeHopset (r : HopsetReq) (h : Hop) : Hop :=
  { h with avx := r.avx, offset := r.offset, errorThreshold := r.errorThreshold, leakDivider := r.leakDivider,
           secondary := if r.leakDivider = h.leakDivider then h.secondary else 0,
           reportTimeoutMs := r.reportTimeoutMs, enables := r.enables }

/-- The set-leak-period flag of HOPSET (R69). -/
def storeLeakPeriod (r : HopsetReq) (s : State) : State :=
  if r.setLeakPeriod then
    { s with hs := { s.hs with leakPeriodMs := r.leakPeriodMs, leakTimer := some (r.leakPeriodMs * Config.tuPerMs) } }
  else s

/-- HOPSET (R69). -/
def doHopset (r : HopsetReq) (p : PathId) (h : HopId) (s : State) : State × Reply :=
  let s1 := storeLeakPeriod r (s.modHop p h (storeHopset r))
  (if overDue (s1.hop p h) then handCondition p (setOver p h none s1) else s1, .accepted)

/-- HOPTAG and HOPUNTAG (R70). -/
def setTag (tagged : Bool) (p : PathId) (h : HopId) (s : State) : State × Reply :=
  let s1 := s.modHop p h fun x => { x with tagged := tagged }
  (if (s.hop p h).tagged ≠ tagged ∧ h.val < (s.path p).settings.hopCount then handCondition p s1 else s1, .accepted)

/-- HOPCLEAR (R68). -/
def execHopclear (lane : LaneId) (tag : Tag) (body : List Byte) (s : State) : Host.Outcome State Fault Refusal :=
  .next (operatorRequest lane tag 0x17 (parsePathHop body) (fun i => atHop i doHopclear) s)

/-- HOPSET (R69). -/
def execHopset (lane : LaneId) (tag : Tag) (body : List Byte) (s : State) : Host.Outcome State Fault Refusal :=
  .next (operatorRequest lane tag 0x11 (parseHopset body) (fun r => atHop (r.path, r.hop) (doHopset r)) s)

/-- HOPTAG (R70). -/
def execHoptag (lane : LaneId) (tag : Tag) (body : List Byte) (s : State) : Host.Outcome State Fault Refusal :=
  .next (operatorRequest lane tag 0x15 (parsePathHop body) (fun i => atHop i (setTag true)) s)

/-- HOPUNTAG (R70). -/
def execHopuntag (lane : LaneId) (tag : Tag) (body : List Byte) (s : State) : Host.Outcome State Fault Refusal :=
  .next (operatorRequest lane tag 0x16 (parsePathHop body) (fun i => atHop i (setTag false)) s)

/-! ## The operator's path requests (R77, R79, R84, R85) -/

/-- PATHSET (R77). -/
def execPathset (lane : LaneId) (tag : Tag) (body : List Byte) (s : State) : Host.Outcome State Fault Refusal :=
  .next (operatorRequest lane tag 0x10 (parsePathset body)
    (fun r => atIndex r.path fun p => doPathset p (clampSettings r.settings)) s)

/-- PATHON (R79). -/
def execPathon (lane : LaneId) (tag : Tag) (body : List Byte) (s : State) : Host.Outcome State Fault Refusal :=
  .next (operatorRequest lane tag 0x12 (parseByte body) (fun i => atIndex i doPathon) s)

/-- PATHOFF (R84). -/
def execPathoff (lane : LaneId) (tag : Tag) (body : List Byte) (s : State) : Host.Outcome State Fault Refusal :=
  .next (operatorRequest lane tag 0x13 (parseByte body) (fun i => atIndex i doPathoff) s)

/-- PATHRESTART (R85). -/
def execPathrestart (lane : LaneId) (tag : Tag) (body : List Byte) (s : State) : Host.Outcome State Fault Refusal :=
  .next (operatorRequest lane tag 0x14 (parseByte body) (fun i => atIndex i doPathrestart) s)

end Sys2Proof.Machine
end

