-- ==== Sys2Proof/Machine/Plans.lean ====
section
/-!
DEFINITION. The Carriage Scheduler (chapter 6): plans and swaps (R95 to R97), resolving a slot (R99 to R102), the budget
window (R103).
-/

namespace Sys2Proof.Machine

/-! ## Plans (R95 to R97) -/

/-- Replace the inactive bank (R95). -/
def writeInactive (bk : Bank) (pl : Plan) : Plan :=
  match pl.active with
  | .a => { pl with bankB := bk }
  | .b => { pl with bankA := bk }

/-- The set-window flag of PLANSET (R95). -/
def storeWindow (r : PlansetReq) (s : State) : State :=
  if r.setWindow then
    { s with cs := { s.cs with windowPeriodUs := r.windowUs, windowTimer := some (r.windowUs * Config.tuPerUs) } }
  else s

/-- PLANSET on a path (R95). An undefined owner is tested before a pending swap (log 37). -/
def doPlanset (r : PlansetReq) (p : PathId) (s : State) : State × Reply :=
  match r.owners with
  | none => (s, .refused .badValue)
  | some bk =>
    if (s.plan p).pendingSwap.isSome then (s, .refused .busy)
    else (storeWindow r (s.modPlan p (writeInactive bk)), .accepted)

/-- PLANSWAP on a path (R96). -/
def doPlanswap (target : CycleNo) (p : PathId) (s : State) : State × Reply :=
  if (s.plan p).pendingSwap.isSome then (s, .refused .busy)
  else (s.modPlan p (fun pl => { pl with pendingSwap := some target }), .accepted)

/-- The bank a swap makes active. -/
def otherBank : BankName → BankName
  | .a => .b
  | .b => .a

/-- The test of a pending swap at the start of a cycle (R97). -/
def swapDue (target c : CycleNo) : Bool := target == c || decide (2 ^ 15 ≤ (target - c).toNat)

/-- CS takes the start of cycle c on a path (R97). -/
def testSwap (p : PathId) (c : CycleNo) (s : State) : State :=
  match (s.plan p).pendingSwap with
  | none => s
  | some target =>
    if swapDue target c then
      let s1 := s.modPlan p fun pl => { pl with active := otherBank pl.active, pendingSwap := none }
      let s2 := s1.countCs p fun x => { x with planSwaps := satInc x.planSwaps }
      rechooseAll (notifyOperator (.planSwap p (s2.plan p).active c) s2)
    else s

/-! ## Resolving a slot opportunity (R99 to R102) -/

/-- The arbiter grants an open or lent slot to its winner (R101). -/
def arbiterGrant (p : PathId) (lent : Bool) (w : TenantId) (s : State) : State :=
  let s1 := if inService (s.path p).state then s.modPlan p fun pl => { pl with used := upd pl.used w (· + 1) } else s
  let s2 := s1.modPlan p fun pl => { pl with pointer := w }
  s2.countCs p fun c =>
    if lent then { c with lentGrants := satInc c.lentGrants } else { c with openGrants := satInc c.openGrants }

/-- No tenant is eligible: IDLE, unclaimed, and a budget stop where only a budget held a tenant back (R101). -/
def unclaimed (p : PathId) (s : State) : State :=
  let stop := allTenants.any fun t => wantsOpen s t p
  s.countCs p fun c =>
    { c with unclaimedSlots := satInc c.unclaimedSlots, budgetStops := if stop then satInc c.budgetStops else c.budgetStops }

/-- An open or lent slot (R101): the tenant granted and the state after. -/
def resolveOpen (p : PathId) (lent : Bool) (s : State) : Option TenantId × State :=
  match (roundRobin (s.plan p).pointer).find? fun t => eligible s t p with
  | some w => (some w, arbiterGrant p lent w s)
  | none => (none, unclaimed p s)

/-- CS resolves a slot opportunity (Table 6-2, R99, R100). -/
def resolveSlot (p : PathId) (k : SlotId) (s : State) : Option TenantId × State :=
  if (s.path p).hopCond.usable ≤ k.val then
    (none, s.countCs p fun c => { c with shedSlots := satInc c.shedSlots })
  else match slotOwner (activeBank (s.plan p)) (s.port p).parity k with
    | .openSlot => resolveOpen p false s
    | .tenant t =>
      if hasTraffic s t p then (some t, s.countCs p fun c => { c with ownerGrants := satInc c.ownerGrants })
      else resolveOpen p true s

/-! ## The commands of CS -/

/-- BUDGET_WINDOW_EXPIRY (R103). -/
def execBudgetWindowExpiry (s : State) : Host.Outcome State Fault Refusal :=
  .next { s with cs := { s.cs with plans := mapAll s.cs.plans fun _ pl => { pl with used := .replicate 8 0 },
                                   windowTimer := some (s.cs.windowPeriodUs * Config.tuPerUs),
                                   windows := satInc s.cs.windows } }

/-- PLANSET (R95). -/
def execPlanset (lane : LaneId) (tag : Tag) (body : List Byte) (s : State) : Host.Outcome State Fault Refusal :=
  .next (operatorRequest lane tag 0x18 (parsePlanset body) (fun r => atIndex r.path (doPlanset r)) s)

/-- PLANSWAP (R96). -/
def execPlanswap (lane : LaneId) (tag : Tag) (body : List Byte) (s : State) : Host.Outcome State Fault Refusal :=
  .next (operatorRequest lane tag 0x19 (parsePlanswap body) (fun r => atIndex r.path (doPlanswap r.target)) s)

end Sys2Proof.Machine
end

