-- ==== Sys2Proof/Machine/Probes.lean ====
section
/-!
DEFINITION. The Probe Unit (chapter 3): launching probes and echoes, losses, matching an echo, the latency arithmetic and
filter, the peer mark.
-/

namespace Sys2Proof.Machine

/-! ## Probes (R39 to R41) -/

/-- A probe is lost: by its expiry, or removed to make room (R41). -/
def probeLost (p : PathId) (s : State) : State :=
  let s1 := s.countPu p fun c => { c with losses := satInc c.losses }
  let run := (s1.path p).latency.losses + 1
  if (s1.path p).settings.lossLimit ≤ run then
    rsLossLimit p (s1.modPath p fun r => { r with latency := { r.latency with losses := 0 } })
  else s1.modPath p fun r => { r with latency := { r.latency with losses := run } }

/-- The oldest of 8 outstanding records is lost before a new one is appended (R40). -/
def makeRoomForRecord (p : PathId) (s : State) : State :=
  if 8 ≤ (s.puPath p).records.length then probeLost p (s.modPu p fun x => { x with records := x.records.tail }) else s

/-- A path's probe timeout, in tu. -/
def probeTimeout (s : State) (p : PathId) : Nat := (s.path p).settings.probeTimeoutMs * Config.tuPerMs

/-- The start mark a cell carries; it is always present where a cell can leave (R52, log 33). -/
def markSent (s : State) : Mark := s.pu.startMark.getD 0

/-- The PROBE that leaves on a path now (R8, R40). -/
def probeCell (p : PathId) (s : State) : ControlCell := .probe (s.puPath p).number (capture s).stamp (markSent s)

/-- PU when a PROBE begins to leave (R40). -/
def launchProbe (p : PathId) (s : State) : State :=
  let n := (s.puPath p).number
  let t1 := capture s
  let lim := probeTimeout s p
  let s1 := s.modPu p fun x => { x with number := x.number + 1, due := false }
  (makeRoomForRecord p s1).modPu p fun x =>
    { x with records := x.records ++ [{ number := n, t1 := t1.stamp, epoch := t1.epoch, expiry := some lim }] }

/-- The ECHO of a queue entry that leaves now (R9). -/
def echoCell (e : EchoEntry) (s : State) : ControlCell :=
  .echo e.number (e.farEpoch == (capture s).epoch) e.t1 e.t2 (capture s).stamp (markSent s)

/-- PU when an ECHO begins to leave (R42). -/
def launchEcho (p : PathId) (s : State) : State := s.modPu p fun x => { x with echoes := x.echoes.tail }

/-! ## The peer's probes (R42, R53) -/

/-- The peer has restarted: fresh records, empty contexts, the new mark, the notice (R53). The records are made fresh in the order
of the streams, so a lane takes what U held, then M, then B (log 36). -/
def peerRestarted (p : PathId) (old : Mark) (mark : Mark) (s : State) : State :=
  let s1 := emptyAllContexts (allStreams.foldl (fun x st => freshenDelivering st x) s)
  let s2 := { s1 with pu := { s1.pu with peerMark := some mark, peerRestarts := satInc s1.pu.peerRestarts } }
  notifyOperator (.peerRestart p (some old) mark) s2

/-- The start mark check (R53). A start mark field of 0, which no rule tests and which is no value of R38's peer mark, is taken as a
mark like any other (log 39). -/
def checkMark (p : PathId) (mark : Mark) (s : State) : State :=
  match s.pu.peerMark with
  | none => { s with pu := { s.pu with peerMark := some mark } }
  | some old => if old = mark then s else peerRestarted p old mark s

/-- PU takes a PROBE with its arrival capture (R42). -/
def takeProbe (p : PathId) (number : BitVec 8) (t1 : Stamp) (mark : Mark) (t2 : Capture) (s : State) : State :=
  let s1 := checkMark p mark s
  if (s1.path p).state = .off then s1.countPu p fun c => { c with whileOff := satInc c.whileOff }
  else if 4 ≤ (s1.puPath p).echoes.length then s1.countPu p fun c => { c with echoOverflows := satInc c.echoOverflows }
  else s1.modPu p fun x =>
    { x with echoes := x.echoes ++ [{ number := number, t1 := t1, t2 := t2.stamp, farEpoch := t2.epoch }] }

/-! ## The filter (R46 to R50) -/

/-- A first sample (R47). -/
def firstSample (p : PathId) (x : Nat) (s : State) : State :=
  rsLatency p { (s.path p).latency with value := some x, fresh := true, outlierRun := 0 } s

/-- The third outlier in a row becomes the latency at once (R48). -/
def latencyStep (p : PathId) (old x : Nat) (s : State) : State :=
  let s1 := s.countPu p fun c => { c with latencySteps := satInc c.latencySteps }
  let s2 := notifyOperator (.latencyStep p old x) s1
  rsLatency p { (s2.path p).latency with value := some x, outlierRun := 0 } s2

/-- A sample outside the gate (R48). -/
def outlier (p : PathId) (old x : Nat) (s : State) : State :=
  let run := (s.path p).latency.outlierRun + 1
  let s1 := s.countPu p fun c => { c with outliers := satInc c.outliers }
  if 3 ≤ run then latencyStep p old x s1
  else s1.modPath p fun r => { r with latency := { r.latency with outlierRun := run } }

/-- The filter's new L (R49): division of integers by a positive number rounds toward minus infinity. -/
def filtered (old x : Nat) (shift : Nat) : Nat := ((old : Int) + ((x : Int) - (old : Int)) / (2 ^ shift : Nat)).toNat

/-- A sample within the gate (R49); an L that does not change is not presented (R50). -/
def withinGate (p : PathId) (old x : Nat) (s : State) : State :=
  let l := filtered old x (s.path p).settings.filterShift
  if l = old then s.modPath p fun r => { r with latency := { r.latency with outlierRun := 0 } }
  else rsLatency p { (s.path p).latency with value := some l, outlierRun := 0 } s

/-- A taken sample goes to the filter (R46 to R49). -/
def takeSample (p : PathId) (x : Nat) (s : State) : State :=
  let s1 := s.modPath p fun r => { r with latency := { r.latency with losses := 0 } }
  let s2 := s1.countPu p fun c => { c with samples := satInc c.samples }
  match (s2.path p).latency.value with
  | none => firstSample p x s2
  | some old =>
    if (s2.path p).settings.outlierGate < ((x : Int) - (old : Int)).natAbs then outlier p old x s2 else withinGate p old x s2

/-- The one-way estimate of R45 and R46; `none` is an arithmetic reject. -/
def oneWay (asymmetry : Int) (t1 t2 t3 t4 : Stamp) : Option Nat :=
  let rt := (t4 - t1).toNat
  let h := (t3 - t2).toNat
  if 2 ^ 40 ≤ rt ∨ 2 ^ 40 ≤ h ∨ rt < h then none
  else
    let e := (((rt - h) / 2 : Nat) : Int) + asymmetry
    if e < 0 then some 0 else if (Config.latencyMax : Int) < e then none else some e.toNat

/-! ## Matching an echo (R44) -/

/-- The record that an ECHO matches. -/
def echoMatches (number : BitVec 8) (t1 : Stamp) (r : ProbeRecord) : Bool := r.number == number && r.t1 == t1

/-- PU takes an ECHO with its arrival capture: the six tests of R44 in order. -/
def takeEcho (p : PathId) (number : BitVec 8) (unchanged : Bool) (t1 t2 t3 : Stamp) (farMark : Mark) (t4 : Capture)
    (s : State) : State :=
  match (s.puPath p).records.find? (echoMatches number t1) with
  | none => s.countPu p fun c => { c with unmatched := satInc c.unmatched }
  | some r =>
    let s1 := s.modPu p fun x => { x with records := x.records.eraseP (echoMatches number t1) }
    if (s1.path p).state = .down then s1.countPu p fun c => { c with downRejects := satInc c.downRejects }
    else if s1.pu.peerMark ≠ some farMark then s1.countPu p fun c => { c with markRejects := satInc c.markRejects }
    else if unchanged = false ∨ t4.epoch ≠ r.epoch then s1.countPu p fun c => { c with epochRejects := satInc c.epochRejects }
    else match oneWay (s1.path p).settings.asymmetry r.t1 t2 t3 t4.stamp with
      | none => s1.countPu p fun c => { c with arithRejects := satInc c.arithRejects }
      | some x => takeSample p x s1

/-! ## The timers of PU -/

/-- PROBE_TIMER_EXPIRY (R39), taken where the probe timer runs (log 4). -/
def execProbeTimerExpiry (p : PathId) (s : State) : Host.Outcome State Fault Refusal :=
  .next (if (s.puPath p).timer.isSome then
      let n := probeInterval s p
      let s1 := if (s.puPath p).due then s.countPu p fun c => { c with slips := satInc c.slips } else s
      s1.modPu p fun x => { x with due := true, timer := some n }
    else s)

/-- PROBE_EXPIRY (R41), taken where the record is outstanding (log 4). -/
def execProbeExpiry (p : PathId) (number : BitVec 8) (s : State) : Host.Outcome State Fault Refusal :=
  .next (if (s.puPath p).records.any (·.number == number) then
      probeLost p (s.modPu p fun x => { x with records := x.records.eraseP (·.number == number) })
    else s)

end Sys2Proof.Machine
end

