-- ==== Sys2Proof/Machine/Ports.lean ====
section
/-!
DEFINITION. The Path Ports (chapter 1): cycles and opportunities, cell and frame arrivals, fault and recovery.
A port event that cannot occur in the present state of the port leaves everything as it is (log 4).
-/

namespace Sys2Proof.Machine

/-- The port is in WORKING. -/
def portWorks (s : State) (p : PathId) : Bool := (s.port p).faultState == .working

/-- Put a cell on the port's transmit line (log 12). -/
def putCell (p : PathId) (cell : List Byte) (s : State) : State := s.modPort p fun x => { x with txCell := cell }

/-! ## The cycle (R2, R3) -/

/-- The parity of a cycle number (R2). -/
def parityOf (c : CycleNo) : Parity := if c.getLsbD 0 then .odd else .even

/-- The port part of a cycle start (R2). -/
def startCycle (x : Port) : Port :=
  { x with cycle := x.cycle + 1, parity := parityOf (x.cycle + 1), position := .control,
           counters := { x.counters with cyclesStarted := satInc x.counters.cyclesStarted } }

/-- CYCLE_START (R2, R3, R97). -/
def execCycleStart (p : PathId) (s : State) : Host.Outcome State Fault Refusal :=
  .next (if portWorks s p then
      let s1 := s.modPort p startCycle
      testSwap p (s1.port p).cycle s1
    else s)

/-! ## The control opportunity (R7 to R9) -/

/-- The control cell that leaves: an ECHO, a due PROBE or EMPTY (R7). -/
def launchControl (p : PathId) (s : State) : State :=
  match (s.puPath p).echoes with
  | e :: _ =>
    let s1 := putCell p (encodeControlCell (echoCell e s)) s
    launchEcho p (s1.countPort p fun c => { c with echoLaunched := satInc c.echoLaunched })
  | [] =>
    if (s.puPath p).due then
      let s1 := putCell p (encodeControlCell (probeCell p s)) s
      launchProbe p (s1.countPort p fun c => { c with probeLaunched := satInc c.probeLaunched })
    else
      let s1 := putCell p (encodeControlCell .empty) s
      s1.countPort p fun c => { c with emptyLaunched := satInc c.emptyLaunched }

/-- CONTROL_OPPORTUNITY (R7): the first place of the cycle in progress (R3). -/
def execControlOpportunity (p : PathId) (s : State) : Host.Outcome State Fault Refusal :=
  .next (if portWorks s p && (s.port p).position == .control then
      launchControl p (s.modPort p fun x => { x with position := .slot 0 })
    else s)

/-! ## The slot opportunity (R4 to R6) -/

/-- The opportunity after slot k (R3). -/
def afterSlot (k : SlotId) : CyclePos := if h : k.val + 1 < 32 then .slot ⟨k.val + 1, h⟩ else .none

/-- Launch an IDLE cell. -/
def launchIdle (p : PathId) (s : State) : State :=
  (putCell p (encodeSlotCell .idle) s).countPort p fun c => { c with idleLaunched := satInc c.idleLaunched }

/-- Launch the ABORT owed by a stream; SQ clears it (R4, R6, R119). -/
def launchAbort (p : PathId) (st : StreamId) (seq : Seq) (s : State) : State :=
  let s1 := putCell p (encodeSlotCell (.abort st seq)) s
  let s2 := s1.countPort p fun c => { c with abortLaunched := satInc c.abortLaunched }
  s2.modStream st fun x => { x with owed := x.owed.set p none }

/-- Launch the next fragment of a copy of a stream's head, which has started (R5, R115). -/
def launchFragment (p : PathId) (st : StreamId) (name : CopyName) (s : State) : State :=
  match headOf s st with
  | none => s
  | some m =>
    match getCopy m name with
    | none => s
    | some c =>
      let s1 := putCell p (encodeSlotCell (.data (dataCell s st m c.nextFrag))) s
      reportLaunch st name (s1.countPort p fun x => { x with dataLaunched := satInc x.dataLaunched })

/-- Spend a grant to a tenant on a cell (R105, R113). -/
def launchGrant (p : PathId) (t : TenantId) (s : State) : State :=
  match spendGrant s t p with
  | none => launchIdle p s
  | some (.abort st seq) => launchAbort p st seq s
  | some (.data st name) => launchFragment p st name (startIfRouted st s)

/-- A slot opportunity for slot k (R4). -/
def launchSlot (p : PathId) (k : SlotId) (s : State) : State :=
  match resolveSlot p k s with
  | (none, s1) => launchIdle p s1
  | (some t, s1) => launchGrant p t s1

/-- SLOT_OPPORTUNITY (R4): the next slot of the cycle in progress (R3). -/
def execSlotOpportunity (p : PathId) (s : State) : Host.Outcome State Fault Refusal :=
  .next (if portWorks s p then
      match (s.port p).position with
      | .slot k => launchSlot p k (s.modPort p fun x => { x with position := afterSlot k })
      | .control => s
      | .none => s
    else s)

/-! ## Arrivals (R10 to R14) -/

/-- A slot cell with a good CRC (R11, R12). -/
def takeSlotCell (p : PathId) (cell : Option SlotCell) (s : State) : State :=
  match cell with
  | none => s.countPort p fun c => { c with malformedCells := satInc c.malformedCells }
  | some (.data d) => takeData p d (capture s) (s.countPort p fun c => { c with dataReceived := satInc c.dataReceived })
  | some (.abort st seq) => takeAbort p st seq (s.countPort p fun c => { c with abortReceived := satInc c.abortReceived })
  | some .idle => s.countPort p fun c => { c with idleReceived := satInc c.idleReceived }

/-- CELL_ARRIVAL (R10, R12). -/
def execCellArrival (p : PathId) (cell : List Byte) (s : State) : Host.Outcome State Fault Refusal :=
  .next (if portWorks s p then
      if crcGood cell then takeSlotCell p (decodeSlotCell cell) s
      else s.countPort p fun c => { c with cellCrcErrors := satInc c.cellCrcErrors }
    else s)

/-- A control cell with a good CRC (R11, R13). -/
def takeControlCell (p : PathId) (cell : Option ControlCell) (s : State) : State :=
  match cell with
  | none => s.countPort p fun c => { c with malformedCells := satInc c.malformedCells }
  | some (.probe n t1 mk) =>
    takeProbe p n t1 mk (capture s) (s.countPort p fun c => { c with probeReceived := satInc c.probeReceived })
  | some (.echo n unch t1 t2 t3 mk) =>
    takeEcho p n unch t1 t2 t3 mk (capture s) (s.countPort p fun c => { c with echoReceived := satInc c.echoReceived })
  | some .empty => s.countPort p fun c => { c with emptyReceived := satInc c.emptyReceived }

/-- CONTROL_CELL_ARRIVAL (R10, R13). -/
def execControlCellArrival (p : PathId) (cell : List Byte) (s : State) : Host.Outcome State Fault Refusal :=
  .next (if portWorks s p then
      if crcGood cell then takeControlCell p (decodeControlCell cell) s
      else s.countPort p fun c => { c with controlCrcErrors := satInc c.controlCrcErrors }
    else s)

/-- HOP_REPORT_FRAME (R14). -/
def execHopReportFrame (p : PathId) (frame : List Byte) (s : State) : Host.Outcome State Fault Refusal :=
  .next (if portWorks s p then
      match decodeHopFrame frame with
      | none => s.countPort p fun c => { c with reportFrameErrors := satInc c.reportFrameErrors }
      | some items =>
        items.foldl (fun x it => takeItem p it x) (s.countPort p fun c => { c with reportFrames := satInc c.reportFrames })
    else s)

/-! ## Fault and recovery (R15, R16) -/

/-- The port part of a port fault (R15). -/
def faultPort (x : Port) : Port :=
  { x with faultState := .fault, position := .none,
           counters := { x.counters with portFaults := satInc x.counters.portFaults } }

/-- PU takes a port fault (R39, R43). -/
def puPortFault (p : PathId) (s : State) : State := s.modPu p fun x => { x with due := false, timer := none, echoes := [] }

/-- PORT_FAULT (R15): RS, PU and SQ are told in this order. -/
def execPortFault (p : PathId) (s : State) : Host.Outcome State Fault Refusal :=
  .next (if portWorks s p then withdrawAborts p (puPortFault p (rsPortFault p (s.modPort p faultPort))) else s)

/-- PU takes a port recovered event (R39). -/
def puPortRecovered (p : PathId) (s : State) : State := if (s.path p).state = .off then s else makeDue p s

/-- PORT_RECOVERED (R16): RS and PU are told. -/
def execPortRecovered (p : PathId) (s : State) : Host.Outcome State Fault Refusal :=
  .next (if portWorks s p then s
    else puPortRecovered p (rsPortRecovered p (s.modPort p fun x => { x with faultState := .working })))

end Sys2Proof.Machine
end

