-- ==== Sys2Proof/Machine/Views.lean ====
section
/-!
DEFINITION. QUERY and READ (R166, R173): the fields of each area in the order the chapters list them, and the items that fit in
one ANSWER. The spec gives the order of the fields and the item form; how wide a field's value is follows the messages that
carry the same value, else the least whole bytes that hold its range (log 15); into how many items a row of several values
divides is the model's choice (log 40).
-/

namespace Sys2Proof.Machine

/-! ## Field values -/

/-- A field of one byte. -/
def byteField (b : Byte) : List Byte := [b]
def natField (n v : Nat) : List Byte := toBE n v
def intField (n : Nat) (v : Int) : List Byte := toBEInt n v
def flagField (b : Bool) : List Byte := [flagByte b]
/-- A counter: 4 bytes. -/
def counterField (c : Counter) : List Byte := toBE 4 c.toNat
/-- A timer: present byte and the time left, in tu. -/
def timerField (t : Timer) : List Byte := optBytes 8 t

def parityCode : Parity → Byte
  | .even => 0 | .odd => 1

def faultCode : FaultState → Byte
  | .working => 0 | .fault => 1

def lifeCode : Life → Byte
  | .queued => 0 | .headUnrouted => 1 | .headRouted => 2 | .launching => 3

/-- A copy in HEAD_ROUTED has no copy state and shows 0; those of Table 7-1 follow from 1 (log 15). -/
def copyStateCode : CopyState → Byte
  | .routed => 0 | .launching => 1 | .launched => 2 | .cut => 3

def channelStateCode : ChannelState → Byte
  | .idle => 0 | .running => 1 | .waitingTime => 2 | .waitingRoom => 3

/-- One field for each of `n` places of a queue; a place that holds nothing is empty (R173). -/
def places {α : Type} (n : Nat) (f : α → List Byte) (l : List α) : List (List Byte) :=
  (List.range n).map fun i => match l[i]? with
    | none => []
    | some x => f x

/-! ## Counters -/

def portCounterFields (c : PortCounters) : List (List Byte) :=
  [c.cyclesStarted, c.dataLaunched, c.idleLaunched, c.abortLaunched, c.probeLaunched, c.echoLaunched, c.emptyLaunched,
    c.cellCrcErrors, c.controlCrcErrors, c.malformedCells, c.dataReceived, c.idleReceived, c.abortReceived,
    c.probeReceived, c.echoReceived, c.emptyReceived, c.reportFrames, c.reportFrameErrors, c.portFaults].map counterField

def tbCounterFields (c : TbCounters) : List (List Byte) :=
  [c.ppsTaken, c.ppsIgnored, c.ppsMissing, c.steps, c.compareFires].map counterField

def puCounterFields (c : PuCounters) : List (List Byte) :=
  [c.slips, c.losses, c.whileOff, c.echoOverflows, c.unmatched, c.downRejects, c.markRejects, c.epochRejects,
    c.arithRejects, c.samples, c.outliers, c.latencySteps].map counterField

def hsCounterFields (c : HsCounters) : List (List Byte) :=
  [c.taken, c.whileOff, c.badIndex, c.timeouts, c.degradations, c.recoveries, c.overEvents].map counterField

def rsCounterFields (c : RsCounters) : List (List Byte) :=
  [c.serviceEntries, c.downHop, c.downProbe, c.downPort, c.firstChoices, c.partnerChoices].map counterField

def csCounterFields (c : CsCounters) : List (List Byte) :=
  [c.ownerGrants, c.lentGrants, c.openGrants, c.shedSlots, c.unclaimedSlots, c.budgetStops, c.planSwaps].map counterField

def sqCounterFields (c : SqCounters) : List (List Byte) :=
  [c.fullRefusals, c.quotaRefusals, c.dropsExpired, c.dropsRelaunch, c.dropsReset, c.launchStarts, c.dualStarts,
    c.cutsService, c.cutsPathoff, c.cutsStall, c.cutsReset, c.relaunches].map counterField

def abortCounterFields (c : AbortCounters) : List (List Byte) := [c.owed, c.replaced, c.withdrawn].map counterField

def peCounterFields (c : PeCounters) : List (List Byte) :=
  [c.firesTaken, c.firesRefused, c.submitted, c.refused, c.roomWaits, c.checksRange, c.checksTemplate, c.checksLength,
    c.checksBadOp, c.checksStore, c.halts].map counterField

def rdPathCounterFields (c : RdPathCounters) : List (List Byte) :=
  [c.disabledCells, c.completed, c.overrun, c.order, c.timeout, c.abort, c.orphans, c.unmatchedAborts].map counterField

def rdStreamCounterFields (c : RdStreamCounters) : List (List Byte) :=
  [c.accepted, c.duplicates, c.stale, c.late, c.gaps, c.resyncs, c.skipped, c.holdDiscards, c.delivered,
    c.disabledDiscards].map counterField

def laneCounterFields (c : LaneCounters) : List (List Byte) :=
  [c.frameErrors, c.malformed, c.requests, c.accessRefusals, c.sent, c.overwrites, c.evictions, c.mbDeliverLost,
    c.uDeliverLost, c.reportLost, c.noticeLost, c.answerLost].map counterField

/-! ## The parts of a view -/

/-- Table 5-1. The row of hop counts is four items and the row of margin thresholds three (log 40). -/
def pathFields (r : PathRecord) : List (List Byte) :=
  let g := r.settings
  [byteField (kindCode g.kind), flagField r.admin, byteField (pathStateCode r.state), natField 1 g.hopCount,
    byteField (hopStateCode r.hopCond.worst), natField 1 r.hopCond.usable, natField 1 r.hopCond.inWatch,
    natField 1 r.hopCond.inFading, natField 1 r.hopCond.overCount, natField 1 r.hopCond.tagged,
    byteField (faultCode r.port), optBytes 4 r.latency.value, flagField r.latency.fresh, natField 1 r.latency.outlierRun,
    natField 1 r.latency.losses, optBytes 4 r.cost, natField 1 g.filterShift, natField 3 g.outlierGate,
    intField 4 g.asymmetry, natField 3 g.watchPenalty, natField 3 g.fadePenalty, natField 3 g.suspectPenalty,
    natField 3 g.tagPenalty, natField 3 g.wirelineBias, natField 2 g.probeIntervalMs, natField 2 g.probeTimeoutMs,
    natField 1 g.lossLimit, natField 2 g.reasmTimeoutUs, intField 2 g.watchThreshold, intField 2 g.fadeThreshold,
    intField 2 g.lostThreshold, natField 1 g.hysteresis, natField 2 g.dwellMs]

/-- The five notice enables as HOPSET carries them (Table 11-4). -/
def enablesByte (e : Enables) : Byte :=
  BitVec.ofNat 8 (flagBit e.watch 0 + flagBit e.fading 1 + flagBit e.lost 2 + flagBit e.recovery 3 + flagBit e.overEnable 4)

/-- The fields of R55; an absent averaged margin or blamed branch has its present byte clear (R173). The two timers are an item each, and
the five notice enables are one item (log 40). -/
def hopFields (h : Hop) : List (List Byte) :=
  [byteField (hopStateCode h.state), flagField h.unreported] ++ places 8 (intField 2) h.ring ++
    [marginBytes h.averaged, natField 1 h.avx, intField 2 h.offset, natField 1 h.rateStep, natField 2 h.errorCount,
      natField 2 h.errorThreshold, natField 1 h.leakDivider, natField 1 h.secondary, flagField h.overFlag,
      optBytes 1 (h.blamed.map fun b => (branchCode b).toNat), flagField h.tagged, natField 2 h.reportTimeoutMs, timerField h.reportTimer,
      timerField h.dwellTimer, byteField (enablesByte h.enables)]

/-- 32 slot owners. -/
def ownersField (v : Vector SlotOwner 32) : List Byte := allSlots.map fun k => ownerCode v[k]

/-- Table 6-1. Each bank is two items, EVEN and ODD, of 32 owners each, and the budget-used counts are eight items (log 40). -/
def planFields (pl : Plan) : List (List Byte) :=
  [ownersField pl.bankA.even, ownersField pl.bankA.odd, ownersField pl.bankB.even, ownersField pl.bankB.odd,
    byteField (bankCode pl.active), optBytes 2 (pl.pendingSwap.map BitVec.toNat), natField 1 pl.pointer.val] ++
    allTenants.map fun t => natField 2 pl.used[t]

/-- Three settings of a class each. -/
def perClassFields (x : PerClass Nat) : List (List Byte) := [natField 2 x.u, natField 2 x.m, natField 2 x.b]

def budgetFields (b : Budget) : List (List Byte) := [natField 2 b.clear, natField 2 b.watch, natField 2 b.fading]

def maskField (m : BitVec 6) : List Byte := [m.setWidth 8]

/-- Table 10-3. Base and size are an item each; the route masks, route wait limits, delivery modes and hold timeouts three items each;
the dual modes two; the budgets 18, path by path; the fallback permissions one, and the open access flags one (log 40). -/
def tenantFields (x : Tenant) : List (List Byte) :=
  let g := x.grant
  let y := x.settings
  [flagField x.enabled, natField 2 g.programBase, natField 2 g.programSize, natField 2 g.templateBase,
    natField 2 g.templateSize, natField 2 g.quota, maskField g.masks.u, maskField g.masks.m, maskField g.masks.b,
    byteField (BitVec.ofNat 8 (flagBit g.fallbackU 0 + flagBit g.fallbackM 1)), maskField g.openAccess] ++
    (allPaths.flatMap fun p => budgetFields g.budgets[p]) ++
    [byteField (dualCode y.dualU), byteField (dualCode y.dualM), byteField (tieCode y.tie)] ++ perClassFields y.routeWait ++
    [byteField (deliveryCode y.delivery.u), byteField (deliveryCode y.delivery.m), byteField (deliveryCode y.delivery.b)] ++
    perClassFields y.hold

/-- A copy: present byte, path, copy state, next fragment, stall timer. Table 7-1 gives a copy in HEAD_ROUTED a path only: it shows copy
state 0, next fragment 0 with no present byte of its own, and a stopped stall timer (log 15). -/
def copyBytes : Option Copy → List Byte
  | none => toBE 13 0
  | some c => [1, pathByte c.path, copyStateCode c.state, BitVec.ofNat 8 c.nextFrag] ++ timerField c.stall

/-- A message record of a stream, field by field in the order of Table 7-1. A byte with their number stands before the cell indices, of 2
bytes each (log 15). -/
def messageBytes (st : StreamId) (m : Message) : List Byte :=
  [streamByte st] ++ toBE 2 m.length ++ [BitVec.ofNat 8 m.cells.length] ++ m.cells.flatMap (toBE 2) ++ toBE 6 m.originStamp.toNat ++
    [flagByte m.originLock, sourceCode m.source] ++ optBytes 3 (m.seq.map BitVec.toNat) ++ [lifeCode m.life] ++
    timerField m.routeWait ++ [BitVec.ofNat 8 m.relaunchCount, flagByte m.relaunched, flagByte m.dual] ++
    copyBytes m.copyA ++ copyBytes m.copyB

/-- The capacity of a stream's queue (R107). -/
def queuePlaces : TClass → Nat
  | .u => 8 | .m => 32 | .b => 32

/-- The accounting counts and statistics counters of a stream. -/
def streamCountFields (x : Stream) : List (List Byte) :=
  [counterField x.admitted, counterField x.completed, counterField x.dropped] ++ sqCounterFields x.counters

/-- SQ's state of a stream (R107). The owed-abort table is six items, one for each path (log 40). -/
def streamFields (st : StreamId) (x : Stream) : List (List Byte) :=
  places (queuePlaces st.cls) (messageBytes st) x.queue ++
    [natField 3 x.seqCounter.toNat, optBytes 1 (x.lastPath.map Fin.val)] ++
    (allPaths.map fun p => optBytes 3 (x.owed[p].map BitVec.toNat)) ++ streamCountFields x

/-- What QUERY gives of a stream, in the order of R166's list: the head's life state stands before its sequence, where Table 7-1 has
it after (log 15). -/
def queryStreamFields (x : Stream) : List (List Byte) :=
  let h := x.queue.head?
  [natField 1 x.queue.length, optBytes 1 (h.map fun m => (lifeCode m.life).toNat),
    optBytes 3 ((h.bind (·.seq)).map BitVec.toNat), copyBytes (h.bind (·.copyA)), copyBytes (h.bind (·.copyB)),
    natField 3 x.seqCounter.toNat] ++ streamCountFields x

/-- A fetched word: present byte, 8 bytes, parity-fault flag. -/
def wordBytes : Option FetchedWord → List Byte
  | none => toBE 10 0
  | some w => [1] ++ w.bytes ++ [flagByte w.fault]

/-- A channel context (R129) and its compare entry (R33). The held message is four items: its bytes, class, origin stamp and lock flag.
The compare entry is one item, whose present byte is the armed flag and whose value is the target (log 40). -/
def channelFields (x : Channel) (target : Option Stamp) : List (List Byte) :=
  [byteField (channelStateCode x.state), natField 2 x.index, wordBytes x.prefetched, x.buffer,
    (x.held.map (·.bytes)).getD [], optBytes 1 (x.held.map fun m => classCode m.cls),
    optBytes 6 (x.held.map fun m => m.originStamp.toNat), optBytes 1 (x.held.map fun m => flagBit m.originLock 0),
    flagField x.outstanding.isSome, x.patchBlock, natField 1 x.patchBlock.length, natField 2 x.submitted,
    natField 2 x.refused, natField 2 x.discarded, flagField x.patchShort, flagField x.reportPending,
    optBytes 6 (target.map BitVec.toNat)]

/-- A receive-stream record (R150); a held message stands as the body of a DELIVER with a zero delivery stamp (R173), and
with the loss and delivery lock flags clear (log 15). The window is a number of 8 bytes, most significant byte first, whose bit i is
the flag of the sequence H − 1 − i (log 15). -/
def recordFields (r : RecvRecord) : List (List Byte) :=
  [flagField r.fresh, natField 3 r.highest.toNat, natField 8 r.window.toNat, optBytes 3 (r.nextSeq.map BitVec.toNat)] ++
    places 16 (fun m => deliverBytes m false 0 false) r.hold ++ [timerField r.holdTimer]

/-- A reassembly context (R145); an IDLE one holds nothing, and each value of it that a field
shows is absent (R173). The state is one item, and the bytes so far are two: their number and
themselves (log 40). -/
def contextFields (c : Option Context) : List (List Byte) :=
  [flagField c.isSome, optBytes 3 (c.map (·.seq.toNat)), optBytes 1 (c.map (·.fragCount)), optBytes 1 (c.map (·.nextFrag)),
    optBytes 1 (c.map (·.bytes.length)), (c.map (·.bytes)).getD [], optBytes 6 (c.map (·.originStamp.toNat)),
    optBytes 1 (c.map fun x => flagBit x.originLock 0), optBytes 1 (c.map fun x => flagBit x.dual 0),
    optBytes 1 (c.map fun x => flagBit x.relaunched 0), timerField (c.bind (·.timer))]

/-- The state of R1. -/
def portFields (x : Port) : List (List Byte) :=
  [natField 2 x.cycle.toNat, byteField (parityCode x.parity), byteField (faultCode x.faultState)]

/-- The state of R18 and R21 and the epoch. Trim and slew have 4 bytes each: the spec gives no width for them (log 15). -/
def timeFields (x : TimeBase) : List (List Byte) :=
  [natField 8 x.count.toNat, intField 4 x.trim, intField 4 x.slew, byteField (timeStateCode x.state),
    flagField x.refEnable, natField 1 x.inRun, natField 1 x.outRun, timerField x.watch, natField 4 x.params.stepThreshold,
    natField 4 x.params.lockWindow, natField 1 x.params.kp, natField 1 x.params.ki, byteField x.epoch]

/-- A probe record (R38). -/
def probeRecordBytes (r : ProbeRecord) : List Byte := [r.number] ++ toBE 6 r.t1.toNat ++ [r.epoch] ++ timerField r.expiry

/-- An echo queue entry (R38). -/
def echoBytes (e : EchoEntry) : List Byte := [e.number] ++ toBE 6 e.t1.toNat ++ toBE 6 e.t2.toNat ++ [e.farEpoch]

/-- PU's state of a path (R38). -/
def probeFields (x : PuPath) : List (List Byte) :=
  [byteField x.number, flagField x.due, timerField x.timer] ++ places 8 probeRecordBytes x.records ++ places 4 echoBytes x.echoes

/-! ## READ (R166) -/

/-- Stream i of the 24 (R172). -/
def streamAt (i : Fin 24) : StreamId :=
  { tenant := ⟨i.val / 3, by omega⟩, cls := match i.val % 3 with | 0 => .u | 1 => .m | _ => .b }

/-- The areas in the order R166 lists them, with the index range of each. -/
def readPath (s : State) (i : Nat) : Option (List (List Byte)) :=
  (indexOf 6 i).map fun p => pathFields (s.path p) ++ rsCounterFields s.rs.counters[p] ++ hsCounterFields s.hs.counters[p] ++
    abortCounterFields s.sq.aborts[p] ++ rdPathCounterFields s.rd.pathCounters[p]

def readHop (s : State) (i : Nat) : Option (List (List Byte)) :=
  match indexOf 6 (i / 12), indexOf 12 (i % 12) with
  | some p, some h => some (hopFields (s.hop p h))
  | _, _ => none

def readPlan (s : State) (i : Nat) : Option (List (List Byte)) :=
  (indexOf 6 i).map fun p => planFields (s.plan p) ++ csCounterFields (s.plan p).counters

def readTenant (s : State) (i : Nat) : Option (List (List Byte)) :=
  (indexOf 8 i).map fun t => tenantFields (s.tenant t) ++ peCounterFields s.pe.counters[t]

def readStream (s : State) (i : Nat) : Option (List (List Byte)) :=
  (indexOf 24 i).map fun j => streamFields (streamAt j) s.sq.streams[j]

def readChannel (s : State) (i : Nat) : Option (List (List Byte)) :=
  (indexOf 32 i).map fun j => channelFields s.pe.channels[j] s.tb.compare[j]

def readRecord (s : State) (i : Nat) : Option (List (List Byte)) :=
  (indexOf 24 i).map fun j => recordFields s.rd.records[j] ++ rdStreamCounterFields s.rd.streamCounters[j]

def readContext (s : State) (i : Nat) : Option (List (List Byte)) :=
  (indexOf 144 i).map fun j => contextFields s.rd.contexts[j]

def readPort (s : State) (i : Nat) : Option (List (List Byte)) :=
  (indexOf 6 i).map fun p => portFields (s.port p) ++ portCounterFields (s.port p).counters

def readTime (s : State) (i : Nat) : Option (List (List Byte)) :=
  (indexOf 1 i).map fun _ => timeFields s.tb ++ tbCounterFields s.tb.counters

def readProbe (s : State) (i : Nat) : Option (List (List Byte)) :=
  (indexOf 6 i).map fun p => probeFields (s.puPath p) ++ puCounterFields (s.puPath p).counters

def readLane (s : State) (i : Nat) : Option (List (List Byte)) :=
  (indexOf 9 i).map fun l =>
    [natField 1 (s.lane l).queue.length,
      flagField (match laneTenant l with | none => false | some t => s.li.lossFlags[t])] ++ laneCounterFields (s.lane l).counters

def readPart (s : State) (i : Nat) : Option (List (List Byte)) :=
  (indexOf 1 i).map fun _ =>
    [natField 2 s.cs.windowPeriodUs, counterField s.cs.windows, natField 2 s.hs.leakPeriodMs,
      optBytes 4 (s.pu.startMark.map BitVec.toNat), optBytes 4 (s.pu.peerMark.map BitVec.toNat),
      counterField s.pu.peerRestarts, counterField s.rs.unroutedHeads, counterField s.pe.storeFaults]

/-- The view of an area and index; `none` for an index outside the area's range (R166). -/
def readView (s : State) (area : Fin 13) (i : Nat) : Option (List (List Byte)) :=
  match area with
  | 0 => readPath s i
  | 1 => readHop s i
  | 2 => readPlan s i
  | 3 => readTenant s i
  | 4 => readStream s i
  | 5 => readChannel s i
  | 6 => readRecord s i
  | 7 => readContext s i
  | 8 => readPort s i
  | 9 => readTime s i
  | 10 => readProbe s i
  | 11 => readLane s i
  | 12 => readPart s i

/-! ## QUERY (R166) -/

/-- The paths in the route mask of any of a tenant's classes (R166). -/
def visiblePaths (g : TenantGrant) : List PathId :=
  allPaths.filter fun p => maskHas g.masks.u p || maskHas g.masks.m p || maskHas g.masks.b p

/-- The view of a tenant (R166). Each channel context is followed by its compare entry, and each receive-stream record by the counters
of its stream (log 15). -/
def queryView (s : State) (t : TenantId) : List (List Byte) :=
  tenantFields (s.tenant t) ++
    ((streamsOf t).flatMap fun st => queryStreamFields (s.stream st)) ++
    (allChannels.flatMap fun c => channelFields (s.channel t c) (s.target t c)) ++
    ((streamsOf t).flatMap fun st => recordFields (s.record st) ++ rdStreamCounterFields s.rd.streamCounters[streamIdx st]) ++
    peCounterFields s.pe.counters[t] ++
    ((visiblePaths (s.tenant t).grant).flatMap fun p => [byteField (pathStateCode (s.path p).state), optBytes 4 (s.path p).cost])

/-! ## Items (R173) -/

/-- Fields numbered from `i`. -/
def numberFrom : Nat → List (List Byte) → List (Nat × List Byte)
  | _, [] => []
  | i, v :: r => (i, v) :: numberFrom (i + 1) r

/-- As many whole items as fit in a number of bytes; an item has 4 bytes before its value. -/
def fitItems : Nat → List (Nat × List Byte) → List (Nat × List Byte)
  | _, [] => []
  | room, (i, v) :: r => if 4 + v.length ≤ room then (i, v) :: fitItems (room - (4 + v.length)) r else []

/-- The items of a view from a first field number, 0 taken as 1 (R173). -/
def viewItems (first : Nat) (view : List (List Byte)) : List (Nat × List Byte) :=
  let n := max 1 first
  fitItems (Config.bodyMax - 3) (numberFrom n (view.drop (n - 1)))

/-- QUERY. -/
def doQuery (t : TenantId) (first : Nat) (s : State) : State × Reply := (s, .data (viewItems first (queryView s t)))

/-- QUERY (R166). -/
def execQuery (lane : LaneId) (tag : Tag) (body : List Byte) (s : State) : Host.Outcome State Fault Refusal :=
  .next (tenantRequest lane tag 0x07 (parseQuery body) doQuery s)

/-- READ. -/
def doRead (r : ReadReq) (s : State) : State × Reply :=
  match readView s r.area r.index with
  | none => (s, .refused .badIndex)
  | some view => (s, .data (viewItems r.first view))

/-- READ (R166). -/
def execRead (lane : LaneId) (tag : Tag) (body : List Byte) (s : State) : Host.Outcome State Fault Refusal :=
  .next (operatorRequest lane tag 0x20 (parseRead body) doRead s)

end Sys2Proof.Machine
end

