-- ==== Sys2Proof/Machine/Dispatch.lean ====
section
/-!
DEFINITION. The meaning of each command: one arm per row of spec/opcode_table.json.
-/

namespace Sys2Proof.Machine

def exec (i : Instr) (s : State) : Host.Outcome State Fault Refusal :=
  match i with
  | .powerOnReset => Sys2Proof.Machine.execPowerOnReset s
  | .cycleStart p => Sys2Proof.Machine.execCycleStart p s
  | .controlOpportunity p => Sys2Proof.Machine.execControlOpportunity p s
  | .slotOpportunity p => Sys2Proof.Machine.execSlotOpportunity p s
  | .cellArrival p cell => Sys2Proof.Machine.execCellArrival p cell s
  | .controlCellArrival p cell => Sys2Proof.Machine.execControlCellArrival p cell s
  | .hopReportFrame p frame => Sys2Proof.Machine.execHopReportFrame p frame s
  | .portFault p => Sys2Proof.Machine.execPortFault p s
  | .portRecovered p => Sys2Proof.Machine.execPortRecovered p s
  | .ppsArrival => Sys2Proof.Machine.execPpsArrival s
  | .ppsMissing => Sys2Proof.Machine.execPpsMissing s
  | .slewPeriodEnd => Sys2Proof.Machine.execSlewPeriodEnd s
  | .compareFire t c => Sys2Proof.Machine.execCompareFire t c s
  | .timecfg lane tag body => Sys2Proof.Machine.execTimecfg lane tag body s
  | .timeset lane tag body => Sys2Proof.Machine.execTimeset lane tag body s
  | .probeTimerExpiry p => Sys2Proof.Machine.execProbeTimerExpiry p s
  | .probeExpiry p number => Sys2Proof.Machine.execProbeExpiry p number s
  | .reportTimeout p h => Sys2Proof.Machine.execReportTimeout p h s
  | .dwellExpiry p h => Sys2Proof.Machine.execDwellExpiry p h s
  | .leakPulse => Sys2Proof.Machine.execLeakPulse s
  | .hopclear lane tag body => Sys2Proof.Machine.execHopclear lane tag body s
  | .hopset lane tag body => Sys2Proof.Machine.execHopset lane tag body s
  | .hoptag lane tag body => Sys2Proof.Machine.execHoptag lane tag body s
  | .hopuntag lane tag body => Sys2Proof.Machine.execHopuntag lane tag body s
  | .pathset lane tag body => Sys2Proof.Machine.execPathset lane tag body s
  | .pathon lane tag body => Sys2Proof.Machine.execPathon lane tag body s
  | .pathoff lane tag body => Sys2Proof.Machine.execPathoff lane tag body s
  | .pathrestart lane tag body => Sys2Proof.Machine.execPathrestart lane tag body s
  | .planset lane tag body => Sys2Proof.Machine.execPlanset lane tag body s
  | .planswap lane tag body => Sys2Proof.Machine.execPlanswap lane tag body s
  | .budgetWindowExpiry => Sys2Proof.Machine.execBudgetWindowExpiry s
  | .carry lane tag body => Sys2Proof.Machine.execCarry lane tag body s
  | .channelSubmission t c => Sys2Proof.Machine.execChannelSubmission t c s
  | .submissionAnswer t c => Sys2Proof.Machine.execSubmissionAnswer t c s
  | .resubmission t c => Sys2Proof.Machine.execResubmission t c s
  | .routeWaitExpiry st => Sys2Proof.Machine.execRouteWaitExpiry st s
  | .stallExpiry st copy => Sys2Proof.Machine.execStallExpiry st copy s
  | .loadp lane tag body => Sys2Proof.Machine.execLoadp lane tag body s
  | .loadt lane tag body => Sys2Proof.Machine.execLoadt lane tag body s
  | .fire lane tag body => Sys2Proof.Machine.execFire lane tag body s
  | .text t c => Sys2Proof.Machine.execText t c s
  | .patch t c => Sys2Proof.Machine.execPatch t c s
  | .wait t c => Sys2Proof.Machine.execWait t c s
  | .mark t c => Sys2Proof.Machine.execMark t c s
  | .halt lane tag body => Sys2Proof.Machine.execHalt lane tag body s
  | .reasmTimeout p st => Sys2Proof.Machine.execReasmTimeout p st s
  | .holdTimerExpiry st => Sys2Proof.Machine.execHoldTimerExpiry st s
  | .streamset lane tag body => Sys2Proof.Machine.execStreamset lane tag body s
  | .query lane tag body => Sys2Proof.Machine.execQuery lane tag body s
  | .read lane tag body => Sys2Proof.Machine.execRead lane tag body s
  | .tenantset lane tag body => Sys2Proof.Machine.execTenantset lane tag body s
  | .tenanton lane tag body => Sys2Proof.Machine.execTenanton lane tag body s
  | .tenantoff lane tag body => Sys2Proof.Machine.execTenantoff lane tag body s
  | .tenantreset lane tag body => Sys2Proof.Machine.execTenantreset lane tag body s
  | .countclear lane tag body => Sys2Proof.Machine.execCountclear lane tag body s
  | .restart lane tag body => Sys2Proof.Machine.execRestart lane tag body s
  | .frameCheckError lane => Sys2Proof.Machine.execFrameCheckError lane s
  | .malformedMessage lane => Sys2Proof.Machine.execMalformedMessage lane s
  | .entrySent lane => Sys2Proof.Machine.execEntrySent lane s
  | .undefinedOpWord t c => Sys2Proof.Machine.execUndefinedOpWord t c s

end Sys2Proof.Machine
end

