-- ==== Sys2Proof/Machine/Timers.lean ====
section
/-!
DEFINITION. Time (R18; 00_scope.md, Time): one tu of the reference input passes, and the events that are then due.
-/

namespace Sys2Proof.Machine

/-- The count after one tu of reference time (R18): the rate is 16,000,000,000 + trim + slew tu a second, spread evenly. -/
def tickCount (x : TimeBase) : TimeBase :=
  let n := x.frac + ((Config.tuPerSecond : Int) + x.trim + x.slew).toNat
  { x with count := BitVec.ofNat 64 (min (x.count.toNat + n / Config.tuPerSecond) Config.countMax),
           frac := n % Config.tuPerSecond, slewTimer := Timer.tick x.slewTimer, watch := Timer.tick x.watch }

def tickPu (x : PuPath) : PuPath :=
  { x with timer := Timer.tick x.timer, records := x.records.map fun r => { r with expiry := Timer.tick r.expiry } }

def tickHop (h : Hop) : Hop := { h with reportTimer := Timer.tick h.reportTimer, dwellTimer := Timer.tick h.dwellTimer }

def tickCopy (c : Copy) : Copy := { c with stall := Timer.tick c.stall }

def tickMessage (m : Message) : Message :=
  { m with routeWait := Timer.tick m.routeWait, copyA := m.copyA.map tickCopy, copyB := m.copyB.map tickCopy }

/-- One tu of the reference input: the time count and every timer advance. -/
def tick (s : State) : State :=
  { s with
    tb := tickCount s.tb
    pu := { s.pu with paths := mapAll s.pu.paths fun _ x => tickPu x }
    hs := { s.hs with hops := mapAll s.hs.hops fun _ v => mapAll v fun _ h => tickHop h, leakTimer := Timer.tick s.hs.leakTimer }
    cs := { s.cs with windowTimer := Timer.tick s.cs.windowTimer }
    sq := { s.sq with streams := mapAll s.sq.streams fun _ x => { x with queue := x.queue.map tickMessage } }
    rd := { s.rd with
      contexts := mapAll s.rd.contexts fun _ c => c.map fun x => { x with timer := Timer.tick x.timer }
      records := mapAll s.rd.records fun _ r => { r with holdTimer := Timer.tick r.holdTimer } } }

/-- A command where its timer has run out. -/
def dueIf (t : Timer) (i : Instr) : List Instr := if expired t then [i] else []

def stallOf (s : State) (st : StreamId) (name : CopyName) : Timer :=
  ((headOf s st).bind fun m => getCopy m name).bind (·.stall)

def dueOfStream (s : State) (st : StreamId) : List Instr :=
  dueIf ((headOf s st).bind (·.routeWait)) (.routeWaitExpiry st) ++ dueIf (stallOf s st .a) (.stallExpiry st .a) ++
    dueIf (stallOf s st .b) (.stallExpiry st .b) ++ dueIf (s.record st).holdTimer (.holdTimerExpiry st)

def dueOfPath (s : State) (p : PathId) : List Instr :=
  dueIf (s.puPath p).timer (.probeTimerExpiry p) ++
    ((s.puPath p).records.flatMap fun r => dueIf r.expiry (.probeExpiry p r.number)) ++
    (allHops.flatMap fun h => dueIf (s.hop p h).reportTimer (.reportTimeout p h) ++ dueIf (s.hop p h).dwellTimer (.dwellExpiry p h)) ++
    (allStreams.flatMap fun st => dueIf ((s.context p st).bind (·.timer)) (.reasmTimeout p st))

/-- The command of the word a channel is to execute (R130, R132). -/
def wordCommand (t : TenantId) (c : ChannelId) (w : FetchedWord) : Instr :=
  match wordKind w with
  | .text => .text t c
  | .patch => .patch t c
  | .wait => .wait t c
  | .mark => .mark t c
  | .bad _ => .undefinedOpWord t c

/-- What a channel and SQ do next for each other and on their own (R130, R134, R136); no time of theirs is given (log 31). -/
def dueOfChannel (s : State) (t : TenantId) (c : ChannelId) : List Instr :=
  let x := s.channel t c
  match x.outstanding with
  | some o => if o.answer.isNone then [.channelSubmission t c] else [.submissionAnswer t c]
  | none =>
    match x.state with
    | .running => match x.word with
      | some w => if x.finished then [] else [wordCommand t c w]
      | none => []
    | .waitingRoom => if 0 < x.resubmissions then [.resubmission t c] else []
    | .waitingTime => []
    | .idle => []

/-- The part's own events that are due, in a fixed order (log 3). -/
def dueEvents (s : State) : List Instr :=
  dueIf s.tb.slewTimer .slewPeriodEnd ++ dueIf s.tb.watch .ppsMissing ++
    (allTenants.flatMap fun t => allChannels.flatMap fun c => if entryDue s t c then [.compareFire t c] else []) ++
    allPaths.flatMap (dueOfPath s) ++ dueIf s.hs.leakTimer .leakPulse ++ dueIf s.cs.windowTimer .budgetWindowExpiry ++
    allStreams.flatMap (dueOfStream s) ++ allTenants.flatMap fun t => allChannels.flatMap (dueOfChannel s t)

/-- The channels of a tenant that have yet to continue after a fire or an accepted resubmission. -/
def continuing (s : State) (t : TenantId) : List (TenantId × ChannelId) :=
  (allChannels.filter fun c => awaitsContinuing (s.channel t c)).map fun c => (t, c)

/-- What the part does with no command waiting (log 1, log 3): the first event that is due comes to wait; where none is due, the first
channel that has yet to continue continues (R138, log 41); where there is none, one tu passes. -/
def idleStep (s : State) : State :=
  match dueEvents s, allTenants.flatMap (continuing s) with
  | i :: _, _ => { s with pending := [i] }
  | [], (t, c) :: _ => goOn t c s
  | [], [] => tick s

end Sys2Proof.Machine
end

