-- ==== Sys2Proof/Safety.lean ====
section
/-!
DEFINITION. What a safe run of the part is: every step answers a next state, and every state keeps what the spec says always
holds: of the ports, the time base, the path table, the hop conditions, the hops, the stores, the cell store, the streams and their copies, the receive
records, the channels, and the sizes of the queues.
-/

namespace Sys2Proof.Safety

open Sys2Proof.Machine

/-- The outcome is a next state. -/
def goesOn (o : Host.Outcome State Fault Refusal) : Prop := ∃ t, o = .next t

/-! ## Ports (R1 to R3, R15) -/

/-- A port's parity is that of its cycle number, and a port in FAULT has no opportunity left. -/
def PortOk (x : Port) : Prop := x.parity = parityOf x.cycle ∧ (x.faultState = .fault → x.position = .none)

def PortsOk (s : State) : Prop := ∀ p, PortOk (s.port p)

/-! ## Time (R18, R19, R21) -/

/-- The corrections, the runs and the parameters of the discipline stay in their ranges; what the time state says of the
reference enable, the PPS watch, the slew period and the runs. -/
structure TimeOk (x : TimeBase) : Prop where
  trim : -65536 ≤ x.trim ∧ x.trim ≤ 65536
  slew : -16000 ≤ x.slew ∧ x.slew ≤ 16000
  /-- Slew applies only during a slew period. -/
  period : x.slewTimer = none → x.slew = 0
  frac : x.frac < Config.tuPerSecond
  /-- The reference is enabled, and the PPS watch runs, in every state but FREE. -/
  free : x.state = .free ↔ x.refEnable = false
  watch : x.watch.isSome = true ↔ x.state ≠ .free
  /-- No slew period runs in FREE and HOLDOVER. -/
  still : x.state = .free ∨ x.state = .holdover → x.slewTimer = none
  inRun : x.inRun ≤ 3 ∧ (x.state ≠ .acquiring → x.inRun = 0)
  outRun : x.outRun ≤ 2 ∧ (x.state ≠ .locked → x.outRun = 0)
  window : 16 ≤ x.params.lockWindow ∧ x.params.lockWindow ≤ x.params.stepThreshold
  threshold : x.params.stepThreshold ≤ 160000000
  shifts : x.params.kp ≤ 7 ∧ x.params.ki ≤ 15

/-! ## Paths (R15, R16, R38, R39, R51, R75, R78 to R87) -/

/-- The path is not in service. -/
def outOfService (x : PathState) : Prop := x = .off ∨ x = .proving ∨ x = .down

/-- What the state of a path says of its record, of its port, and of its probing. -/
structure PathOk (s : State) (p : PathId) : Prop where
  /-- The hop count is that of the kind, and the thresholds are in order (R77). -/
  settings : ((s.path p).settings.kind = .microwave ∧ 1 ≤ (s.path p).settings.hopCount ∧ (s.path p).settings.hopCount ≤ 12 ∨
      (s.path p).settings.kind = .wireline ∧ (s.path p).settings.hopCount = 0) ∧
    (s.path p).settings.fadeThreshold < (s.path p).settings.watchThreshold ∧
    (s.path p).settings.lostThreshold < (s.path p).settings.fadeThreshold
  /-- OFF exactly when the admin field is OFF. -/
  admin : (s.path p).state = .off ↔ (s.path p).admin = false
  /-- The port condition is the fault state of the port. -/
  port : (s.path p).port = (s.port p).faultState
  /-- The fresh flag is set exactly when L is present. -/
  fresh : (s.path p).latency.fresh = (s.path p).latency.value.isSome
  /-- L is absent on a path that is OFF or DOWN, and on a port in FAULT. -/
  absent : (s.path p).state = .off ∨ (s.path p).state = .down ∨ (s.path p).port = .fault → (s.path p).latency.value = none
  /-- The cost is the one R87 gives. -/
  cost : (s.path p).cost = pathCost (s.path p)
  /-- A path in service has L, and its state is its worst hop state, which is not LOST. -/
  serving : inService (s.path p).state = true →
    (s.path p).latency.value.isSome = true ∧ (s.path p).hopCond.worst ≠ .lost ∧
      (s.path p).state = serviceState (s.path p).hopCond.worst
  /-- A path in PROVING waits for L or for its hops. -/
  proving : (s.path p).state = .proving → (s.path p).latency.value = none ∨ (s.path p).hopCond.worst = .lost
  /-- An OFF path has no probe, no echo and no probe timer. -/
  silent : (s.path p).state = .off →
    (s.puPath p).records = [] ∧ (s.puPath p).echoes = [] ∧ (s.puPath p).due = false ∧ (s.puPath p).timer = none
  /-- No probe is due, no echo waits and the probe timer stands while the port is in FAULT. -/
  faulted : (s.port p).faultState = .fault →
    (s.puPath p).echoes = [] ∧ (s.puPath p).due = false ∧ (s.puPath p).timer = none

def PathsOk (s : State) : Prop := ∀ p, PathOk s p

/-- The hop condition that RS holds of a path that is ON is the one its hops give now (R72). -/
def ConditionsOk (s : State) : Prop := ∀ p, (s.path p).admin = true → (s.path p).hopCond = s.condition p

/-! ## Hops (R55, R66) -/

/-- The error count stays in its range, and the flag is set whenever the count is at or above the threshold. -/
def HopOk (h : Hop) : Prop :=
  h.errorCount ≤ 65535 ∧ 1 ≤ h.errorThreshold ∧ (h.errorThreshold ≤ h.errorCount → h.overFlag = true)

def HopsOk (s : State) : Prop := ∀ p h, HopOk (s.hop p h)

/-! ## Stores (R107, R108, R121, R124) -/

/-- The three stores are in their canonical form. -/
def StoresOk (s : State) : Prop :=
  s.sq.store.wf = true ∧ s.pe.program.wf = true ∧ s.pe.template.wf = true

/-- Cells, quotas and messages: each tenant within its quota, the quotas within the store, no cell held twice, and every
message with as many cells as its length needs. -/
structure CellsOk (s : State) : Prop where
  quota : ∀ t, occupancy s t ≤ (s.tenant t).grant.quota
  total : (allTenants.map fun t => (s.tenant t).grant.quota).sum ≤ Config.storeCells
  once : (allocatedCells s).Nodup
  inside : ∀ c ∈ allocatedCells s, c < Config.storeCells
  sized : ∀ st, ∀ m ∈ (s.stream st).queue, m.cells.length = cellsFor m.length

/-- Until the admitted count saturates it is the completed count, the dropped count and the messages in the queue (R121). -/
def AccountOk (x : Stream) : Prop :=
  x.admitted ≠ BitVec.allOnes 32 → x.admitted.toNat = x.completed.toNat + x.dropped.toNat + x.queue.length

def AccountsOk (s : State) : Prop := ∀ st, AccountOk (s.stream st)

/-- A message behind the head stands as it was admitted (R109). -/
def waitingAsAdmitted (m : Message) : Prop :=
  m.life = .queued ∧ m.seq = none ∧ m.relaunchCount = 0 ∧ m.relaunched = false ∧ m.copyA = none ∧ m.copyB = none

/-- Only the head is routed or launching, and the head is never QUEUED (R107, R110). -/
def HeadOk (x : Stream) : Prop :=
  (∀ m ∈ x.queue.head?, m.life ≠ .queued) ∧ ∀ m ∈ x.queue.tail, waitingAsAdmitted m

def HeadsOk (s : State) : Prop := ∀ st, HeadOk (s.stream st)

/-! ## Copies (R90 to R92, R98, R110, R114 to R118) -/

/-- A copy of a head lies on a path in service, as long as it can still carry a cell (R98). -/
def CopyServed (s : State) (life : Life) (c : Copy) : Prop :=
  (life = .headRouted ∨ c.state = .launching) → inService (s.path c.path).state = true

/-- What the life state of a head says of its copies (Table 7-1, Table 7-2). -/
structure CopiesOk (s : State) (m : Message) : Prop where
  /-- No copy without a route. -/
  unrouted : m.life = .headUnrouted → m.copyA = none ∧ m.copyB = none
  /-- A routed head has copy A, and no copy has launched. -/
  routed : m.life = .headRouted → m.copyA.isSome = true ∧ anyCopy .launching m = false ∧ anyCopy .launched m = false ∧
    anyCopy .cut m = false
  /-- A launching head has a sequence, copy A and a copy that is still launching. -/
  launching : m.life = .launching → m.copyA.isSome = true ∧ m.seq.isSome = true ∧ anyCopy .launching m = true ∧
    anyCopy .routed m = false
  /-- Two copies are on different paths. -/
  apart : ∀ a ∈ m.copyA, ∀ b ∈ m.copyB, a.path ≠ b.path
  servedA : ∀ c ∈ m.copyA, CopyServed s m.life c
  servedB : ∀ c ∈ m.copyB, CopyServed s m.life c
  /-- A message relaunches at most twice. -/
  relaunches : m.relaunchCount ≤ 2 ∧ (m.relaunched = true ↔ 0 < m.relaunchCount)
  /-- The route wait timer runs until the head starts to launch. -/
  waiting : m.routeWait.isSome = true ↔ m.life ≠ .launching

def AllCopiesOk (s : State) : Prop := ∀ st, ∀ m ∈ (s.stream st).queue.head?, CopiesOk s m

/-! ## Receive-stream records (R150) -/

/-- The held messages lie ahead of the next expected, in rising order, from a given distance on. -/
def heldFrom (n : Seq) : Nat → List Completed → Prop
  | _, [] => True
  | lo, m :: r => lo ≤ ahead n m.seq ∧ heldFrom n (ahead n m.seq + 1) r

/-- What R150 says of a record: messages are held only while N is present, each 1 to 63 ahead of it and in rising order;
the hold timer runs exactly while messages are held; N is present only in ORDERED mode, and never in a fresh record. -/
structure RecordOk (s : State) (st : StreamId) : Prop where
  fresh : (s.record st).fresh = true → (s.record st).nextSeq = none
  mode : (s.record st).nextSeq.isSome = true → (s.tenant st.tenant).settings.delivery.get st.cls = .ordered
  empty : (s.record st).nextSeq = none → (s.record st).hold = []
  order : ∀ n ∈ (s.record st).nextSeq, heldFrom n 1 (s.record st).hold ∧ ∀ m ∈ (s.record st).hold, ahead n m.seq < 64
  own : ∀ m ∈ (s.record st).hold, m.stream = st
  timer : (s.record st).holdTimer.isSome = true ↔ (s.record st).hold ≠ []
  size : (s.record st).hold.length ≤ 16

def RecordsOk (s : State) : Prop := ∀ st, RecordOk s st

/-! ## Channels (R125, R129, R137, R139) -/

/-- What the state of a channel says of its context and its compare entry. -/
structure ChannelOk (s : State) (t : TenantId) (c : ChannelId) : Prop where
  /-- A running or waiting channel's word index lies within its tenant's program partition. -/
  index : (s.channel t c).state ≠ .idle → (s.channel t c).index < (s.tenant t).grant.programSize
  /-- So does the index of a prefetched word. -/
  ahead : (s.channel t c).prefetched.isSome = true → (s.channel t c).index + 1 < (s.tenant t).grant.programSize
  /-- The compare entry is armed exactly while the channel waits for time. -/
  armed : (s.target t c).isSome = true ↔ (s.channel t c).state = .waitingTime
  /-- A message is held exactly while the channel waits for room. -/
  held : (s.channel t c).held.isSome = true ↔ (s.channel t c).state = .waitingRoom
  /-- An idle channel has nothing fetched and nothing assembled. -/
  idle : (s.channel t c).state = .idle →
    (s.channel t c).buffer = [] ∧ (s.channel t c).word = none ∧ (s.channel t c).prefetched = none
  /-- Any other channel has its word, and no ending REPORT of it waits. -/
  busy : (s.channel t c).state ≠ .idle → (s.channel t c).word.isSome = true ∧ (s.channel t c).reportPending = false
  /-- A channel that has yet to continue is RUNNING with no submission outstanding. -/
  finished : (s.channel t c).finished = true → (s.channel t c).state = .running ∧ (s.channel t c).outstanding = none
  /-- A submission is outstanding only on a running channel, or on one that was stopped after SQ had taken it (R130, R134, R142). -/
  outstanding : (s.channel t c).outstanding.isSome = true → (s.channel t c).state = .running ∨ (s.channel t c).state = .idle
  /-- A submission that SQ has not taken belongs to a running channel. -/
  submitted : (untaken (s.channel t c)).isSome = true → (s.channel t c).state = .running
  /-- The assembly buffer, the patch block and the discarded byte count stay within their sizes. -/
  sizes : (s.channel t c).buffer.length ≤ 256 ∧ (s.channel t c).patchBlock.length ≤ 32 ∧ (s.channel t c).discarded ≤ 256

def ChannelsOk (s : State) : Prop := ∀ t c, ChannelOk s t c

/-! ## Sizes (R38, R55, R107, R168) -/

/-- Every queue holds at most what the spec lets it hold. -/
structure SizesOk (s : State) : Prop where
  records : ∀ p, (s.puPath p).records.length ≤ 8
  echoes : ∀ p, (s.puPath p).echoes.length ≤ 4
  rings : ∀ p h, (s.hop p h).ring.length ≤ 8
  streams : ∀ st, (s.stream st).queue.length ≤ queueCapacity st.cls
  lanes : ∀ l, (s.lane l).queue.length ≤ Config.laneEntries

/-- What every step keeps. -/
structure Inv (s : State) : Prop where
  ports : PortsOk s
  time : TimeOk s.tb
  paths : PathsOk s
  conditions : ConditionsOk s
  hops : HopsOk s
  stores : StoresOk s
  cells : CellsOk s
  accounts : AccountsOk s
  heads : HeadsOk s
  copies : AllCopiesOk s
  records : RecordsOk s
  channels : ChannelsOk s
  sizes : SizesOk s

/-- The next `n` steps from a state all answer a next state. -/
def safeFor : Nat → State → Prop
  | 0, _ => True
  | n + 1, s => ∃ t, step s = .next t ∧ safeFor n t

end Sys2Proof.Safety
end

