-- ==== Sys2Proof/Certificates/Slice0/Obligations.lean ====
section
/-!
DEFINITION. The statements for the provers: one `def Obligations.<Name> : Prop` each, listed in OBLIGATIONS.json.
`Sys2Proof.Claims` holds the words they share. A conclusion of the form `exec c s = .next t` says that the command completes.
-/

namespace Sys2Proof.Claims

open Sys2Proof.Machine Sys2Proof.Safety

/-! ## Frames: every row of a table but one is unchanged -/

def portsBut (p : PathId) (s t : State) : Prop := ∀ q, q ≠ p → t.port q = s.port q

/-- Every other path's probe state, and the part-wide state of PU, is unchanged. -/
def probesBut (p : PathId) (s t : State) : Prop :=
  (∀ q, q ≠ p → t.puPath q = s.puPath q) ∧ t.pu = { s.pu with paths := t.pu.paths }

def hopsBut (p : PathId) (h : HopId) (s t : State) : Prop := ∀ q k, ¬(q = p ∧ k = h) → t.hop q k = s.hop q k

/-- Every other path's hop counters, and the leak timer and period, are unchanged. -/
def hopCountersBut (p : PathId) (s t : State) : Prop :=
  (∀ q, q ≠ p → t.hs.counters[q] = s.hs.counters[q]) ∧ t.hs = { s.hs with hops := t.hs.hops, counters := t.hs.counters }

def pathsBut (p : PathId) (s t : State) : Prop := ∀ q, q ≠ p → t.path q = s.path q

/-- Every other path's plan, and the budget window, are unchanged. -/
def plansBut (p : PathId) (s t : State) : Prop :=
  (∀ q, q ≠ p → t.plan q = s.plan q) ∧ t.cs = { s.cs with plans := t.cs.plans }

def streamsBut (st : StreamId) (s t : State) : Prop := ∀ x, x ≠ st → t.stream x = s.stream x

def channelsBut (u : TenantId) (c : ChannelId) (s t : State) : Prop :=
  ∀ v d, ¬(v = u ∧ d = c) → t.channel v d = s.channel v d

def contextsBut (p : PathId) (st : StreamId) (s t : State) : Prop :=
  ∀ q x, ¬(q = p ∧ x = st) → t.context q x = s.context q x

def recordsBut (st : StreamId) (s t : State) : Prop := ∀ x, x ≠ st → t.record x = s.record x

def lanesBut (l : LaneId) (s t : State) : Prop := ∀ k, k ≠ l → t.lane k = s.lane k

def tenantsBut (u : TenantId) (s t : State) : Prop := ∀ v, v ≠ u → t.tenant v = s.tenant v

/-! ## Requests -/

/-- Side (true for the operator's), lane, tag, kind and body of a request (R162, Table 11-3). -/
def requestParts : Instr → Option (Bool × LaneId × Tag × Byte × List Byte)
  | .carry l g b => some (false, l, g, 0x01, b)
  | .fire l g b => some (false, l, g, 0x02, b)
  | .halt l g b => some (false, l, g, 0x03, b)
  | .loadp l g b => some (false, l, g, 0x04, b)
  | .loadt l g b => some (false, l, g, 0x05, b)
  | .streamset l g b => some (false, l, g, 0x06, b)
  | .query l g b => some (false, l, g, 0x07, b)
  | .pathset l g b => some (true, l, g, 0x10, b)
  | .hopset l g b => some (true, l, g, 0x11, b)
  | .pathon l g b => some (true, l, g, 0x12, b)
  | .pathoff l g b => some (true, l, g, 0x13, b)
  | .pathrestart l g b => some (true, l, g, 0x14, b)
  | .hoptag l g b => some (true, l, g, 0x15, b)
  | .hopuntag l g b => some (true, l, g, 0x16, b)
  | .hopclear l g b => some (true, l, g, 0x17, b)
  | .planset l g b => some (true, l, g, 0x18, b)
  | .planswap l g b => some (true, l, g, 0x19, b)
  | .tenantset l g b => some (true, l, g, 0x1A, b)
  | .tenanton l g b => some (true, l, g, 0x1B, b)
  | .tenantoff l g b => some (true, l, g, 0x1C, b)
  | .tenantreset l g b => some (true, l, g, 0x1D, b)
  | .timecfg l g b => some (true, l, g, 0x1E, b)
  | .timeset l g b => some (true, l, g, 0x1F, b)
  | .read l g b => some (true, l, g, 0x20, b)
  | .countclear l g b => some (true, l, g, 0x21, b)
  | .restart l g b => some (true, l, g, 0x22, b)
  | _ => none

/-- The body tests of R172 that a request body fails, by its kind (Table 11-4). -/
def bodyFails (kind : Byte) (b : List Byte) : Prop :=
  match kind.toNat with
  | 0x01 => 2 < nat1 b 0 ∨ b.length ≠ 3 + fieldNat b 1 2 ∨ 256 < fieldNat b 1 2
  | 0x02 => b.length ≠ 4 + nat1 b 3 ∨ 32 < nat1 b 3
  | 0x03 => b.length ≠ 1
  | 0x04 => b.length ≠ 3 + 8 * nat1 b 2 ∨ nat1 b 2 = 0 ∨ 128 < nat1 b 2
  | 0x05 => b.length ≠ 4 + fieldNat b 2 2 ∨ fieldNat b 2 2 = 0 ∨ 1024 < fieldNat b 2 2
  | 0x06 => b.length ≠ 18 ∨ 2 < nat1 b 0 ∨ 2 < nat1 b 1 ∨ 2 < nat1 b 2 ∨ 1 < nat1 b 9 ∨ 1 < nat1 b 10 ∨ 1 < nat1 b 11
  | 0x07 => b.length ≠ 2
  | 0x10 => b.length ≠ 42 ∨ 1 < nat1 b 1
  | 0x11 => b.length ≠ 14
  | 0x12 => b.length ≠ 1
  | 0x13 => b.length ≠ 1
  | 0x14 => b.length ≠ 1
  | 0x15 => b.length ≠ 2
  | 0x16 => b.length ≠ 2
  | 0x17 => b.length ≠ 2
  | 0x18 => b.length ≠ 68
  | 0x19 => b.length ≠ 3
  | 0x1A => b.length ≠ 52
  | 0x1B => b.length ≠ 1
  | 0x1C => b.length ≠ 1
  | 0x1D => b.length ≠ 1
  | 0x1E => b.length ≠ 11
  | 0x1F => b.length ≠ 8
  | 0x20 => b.length ≠ 5 ∨ 12 < nat1 b 0
  | 0x21 => b.length ≠ 0
  | 0x22 => b.length ≠ 0
  | _ => False

/-! ## Time and rounding -/

/-- The slew of R24: −trunc(E/2^kp), clamped. -/
def slewOf (kp : Nat) (e : Int) : Int := max (-16000) (min 16000 (-(e.tdiv (2 ^ kp))))

/-- The trim of R24: trim − trunc(E/2^ki), clamped. -/
def trimOf (ki : Nat) (trim e : Int) : Int := max (-65536) (min 65536 (trim - e.tdiv (2 ^ ki)))

/-! ## Routes (R88 to R90) -/

/-- Some slot below the usable slot count has this owner, in either parity of the active bank. -/
def ownsSlot (s : State) (p : PathId) (o : SlotOwner) : Prop :=
  ∃ k : SlotId, k.val < (s.path p).hopCond.usable ∧ ((activeBank (s.plan p)).even[k] = o ∨ (activeBank (s.plan p)).odd[k] = o)

/-- The path has capacity for a tenant. -/
def capacityFor (s : State) (t : TenantId) (p : PathId) : Prop :=
  ownsSlot s p (.tenant t) ∨ ((s.tenant t).grant.openAccess.getLsbD p.val = true ∧ ownsSlot s p .openSlot)

/-- In service, in the class's route mask, with capacity. -/
def usableFor (s : State) (st : StreamId) (p : PathId) : Prop :=
  ((s.path p).state = .clear ∨ (s.path p).state = .watch ∨ (s.path p).state = .fading) ∧
    ((s.tenant st.tenant).grant.masks.get st.cls).getLsbD p.val = true ∧ capacityFor s st.tenant p

/-- The class's fallback permission, which class B does not need. -/
def fallbackSet (s : State) (st : StreamId) : Prop :=
  match st.cls with
  | .u => (s.tenant st.tenant).grant.fallbackU = true
  | .m => (s.tenant st.tenant).grant.fallbackM = true
  | .b => True

/-- A candidate for a head (R88). -/
def candidate (s : State) (st : StreamId) (p : PathId) : Prop :=
  usableFor s st p ∧ (st.cls = .b ∨ (s.path p).settings.kind = .microwave ∨
    (fallbackSet s st ∧ ∀ q, (s.path q).settings.kind = .microwave → ¬usableFor s st q))

/-- A path that a partner can be chosen from (R90). -/
def partnerable (s : State) (st : StreamId) (first p : PathId) : Prop :=
  p ≠ first ∧ usableFor s st p ∧ (s.path p).hopCond.tagged = 0 ∧
    ((s.path p).settings.kind = .microwave ∨ fallbackSet s st)

/-- A partner is wanted (R90). -/
def partnerAsked (s : State) (st : StreamId) (first : PathId) : Prop :=
  let degraded := (s.path first).state = .watch ∨ (s.path first).state = .fading
  match st.cls with
  | .u => (s.tenant st.tenant).settings.dualU = .always ∨ ((s.tenant st.tenant).settings.dualU = .onDegrade ∧ degraded)
  | .m => (s.tenant st.tenant).settings.dualM = .always ∨ ((s.tenant st.tenant).settings.dualM = .onDegrade ∧ degraded)
  | .b => False

/-- The winner among some paths: of lowest cost, ties decided by the tie policy (R89). -/
def wins (s : State) (st : StreamId) (among : PathId → Prop) (w : PathId) : Prop :=
  let tied (q : PathId) : Prop := among q ∧ costOf s q = costOf s w
  let lowest : Prop := ∀ q, tied q → w ≤ q
  let start := (s.stream st).admitted.toNat % 6
  among w ∧ (∀ q, among q → costOf s w ≤ costOf s q) ∧
    match (s.tenant st.tenant).settings.tie with
    | .fixed => lowest
    | .last => (∀ l, (s.stream st).lastPath = some l → tied l → w = l) ∧
        ((∀ l, (s.stream st).lastPath = some l → ¬tied l) → lowest)
    | .spread => (start ≤ w.val ∧ ∀ q, tied q → start ≤ q.val → w ≤ q) ∨ ((∀ q, tied q → q.val < start) ∧ lowest)

/-- A head as a re-choice leaves it (R91, R110); other messages are as they were. -/
def rerouted (s : State) (st : StreamId) (m : Message) : Message :=
  if m.life = .headUnrouted ∨ m.life = .headRouted then
    match chooseRoute s st with
    | none => { m with life := .headUnrouted, copyA := none, copyB := none }
    | some r => { m with life := .headRouted, copyA := some { path := r.first }, copyB := r.partner.map fun q => { path := q } }
  else m

/-! ## Slots (R98 to R101) -/

/-- A copy that a slot on a path could carry a cell of now. -/
def carriesOn (m : Message) (p : PathId) (c : Copy) : Prop :=
  c.path = p ∧ (m.life = .headRouted ∨ (m.life = .launching ∧ c.state = .launching))

/-- A tenant has traffic for a path (R98). -/
def traffic (s : State) (t : TenantId) (p : PathId) : Prop :=
  (s.tenant t).enabled = true ∧
    ((∃ cls, (s.stream { tenant := t, cls := cls }).owed[p].isSome = true) ∨
      (((s.path p).state = .clear ∨ (s.path p).state = .watch ∨ (s.path p).state = .fading) ∧
        ∃ cls m, (s.stream { tenant := t, cls := cls }).queue.head? = some m ∧
          ((∃ c, m.copyA = some c ∧ carriesOn m p c) ∨ ∃ c, m.copyB = some c ∧ carriesOn m p c)))

/-- The budget that applies to a tenant on a path: none where the path is not in service (R102). -/
def budgetOf (s : State) (t : TenantId) (p : PathId) : Option Nat :=
  match (s.path p).state with
  | .clear => some (s.tenant t).grant.budgets[p].clear
  | .watch => some (s.tenant t).grant.budgets[p].watch
  | .fading => some (s.tenant t).grant.budgets[p].fading
  | .off => none
  | .proving => none
  | .down => none

/-- Eligible for an open or lent slot but for the budget (R101). -/
def asks (s : State) (t : TenantId) (p : PathId) : Prop :=
  (s.tenant t).grant.openAccess.getLsbD p.val = true ∧ traffic s t p

/-- Eligible for an open or lent slot (R101). -/
def mayWin (s : State) (t : TenantId) (p : PathId) : Prop := asks s t p ∧ ∀ b ∈ budgetOf s t p, (s.plan p).used[t] < b

/-- How many tenants the arbiter examines before this one (R101). -/
def turn (pointer t : TenantId) : Nat := (t - pointer - 1).val

/-- The slot carries an IDLE cell (R4, R6). -/
def carriesIdle (p : PathId) (s t : State) : Prop :=
  (t.port p).counters = { (s.port p).counters with idleLaunched := satInc (s.port p).counters.idleLaunched } ∧
    (t.port p).txCell = encodeSlotCell .idle ∧ t = { s with pp := t.pp, cs := t.cs }

/-- The slot carries a cell of a tenant, the first that the steps of R113 find: the ABORT owed by the first stream in class order
U, M, B that owes one on the path, which is then owed no more; else a DATA cell of the first stream in that order whose head has a
cell for the path (R4, R113). -/
def carriesCellOf (w : TenantId) (p : PathId) (s t : State) : Prop :=
  let k := (s.port p).counters
  let owes (st : StreamId) : Prop := st.tenant = w ∧ (s.stream st).owed[p].isSome = true
  let hasCell (st : StreamId) : Prop := st.tenant = w ∧ ∃ m c, (s.stream st).queue.head? = some m ∧
    (m.copyA = some c ∨ m.copyB = some c) ∧ carriesOn m p c
  let firstOf (f : StreamId → Prop) (st : StreamId) : Prop := f st ∧ ∀ x, f x → classCode st.cls ≤ classCode x.cls
  (∀ st q, firstOf owes st → (s.stream st).owed[p] = some q →
    (t.port p).counters = { k with abortLaunched := satInc k.abortLaunched } ∧
      (t.port p).txCell = encodeSlotCell (.abort st q) ∧ streamsBut st s t ∧
      t.stream st = { s.stream st with owed := (s.stream st).owed.set p none } ∧
      t = { s with pp := t.pp, cs := t.cs, sq := { s.sq with streams := t.sq.streams } }) ∧
  ((∀ st, ¬owes st) → ∃ d : DataCell, firstOf hasCell d.stream ∧
    (t.port p).counters = { k with dataLaunched := satInc k.dataLaunched } ∧
      (t.port p).txCell = encodeSlotCell (.data d) ∧ streamsBut d.stream s t ∧ (∀ u c, u ≠ w → t.channel u c = s.channel u c) ∧
      t = { s with pp := t.pp, cs := t.cs, sq := { s.sq with streams := t.sq.streams },
                   rs := { t.rs with paths := s.rs.paths }, pe := { s.pe with channels := t.pe.channels } })

/-- The grant of a slot goes to this tenant: it owns the slot and has traffic, or, where no owner has traffic, it is the first after the
pointer that may win the open or lent slot (R98, R100, R101). -/
def grantedTo (w : TenantId) (s : State) (p : PathId) (k : SlotId) : Prop :=
  let owner := slotOwner (activeBank (s.plan p)) (s.port p).parity k
  let after (v : TenantId) : Nat := turn (s.plan p).pointer v
  (owner = .tenant w ∧ traffic s w p) ∨
    ((∀ v, owner = .tenant v → ¬traffic s v p) ∧ mayWin s w p ∧ ∀ v, mayWin s v p → after w ≤ after v)

/-- The opportunity that follows slot k (R3). -/
def nextPlace (k : SlotId) : CyclePos := if h : k.val + 1 < 32 then .slot ⟨k.val + 1, h⟩ else .none

/-- A DELIVER of class M or B (Table 10-4). -/
def mayBeOverwritten : Entry → Bool
  | .deliver m => decide (m.stream.cls = .m ∨ m.stream.cls = .b)
  | _ => false

/-- A REPORT whose leaving or loss clears the report-pending flag of its channel (R140). -/
def endsRunOf (c : ChannelId) : Entry → Bool
  | .report r => r.clearsPending && decide (r.channel = c)
  | _ => false

/-- A slot cell that fails a field test of R11, in the layout of Table 11-7. -/
def malformedSlotCell (l : List Byte) : Prop :=
  let kind := (byteAt l 0).toNat
  let cls := (byteAt l 1).toNat / 8 % 4
  let frag := (byteAt l 5).toNat % 8
  let count := (byteAt l 5).toNat / 8 % 8
  let bytes := (byteAt l 6).toNat
  (kind ≠ 1 ∧ kind ≠ 2 ∧ kind ≠ 3) ∨ (kind = 3 ∧ cls = 3) ∨
    (kind = 1 ∧ (cls = 3 ∨ count = 0 ∨ 6 < count ∨ count ≤ frag ∨ (frag + 1 < count ∧ bytes ≠ 44) ∨
      (frag + 1 = count ∧ (44 < bytes ∨ (bytes = 0 ∧ count ≠ 1)))))

/-! ## Messages -/

/-- The bytes of a message that stand in the cell store: the cells of its record in order, cut to its length (R108). -/
def storedBytes (s : State) (m : Message) : List Byte := (m.cells.flatMap fun c => Memory.readList s.sq.store (44 * c) 44).take m.length

/-! ## Time (R20, R23, R35) -/

/-- The phase error of a count (R23). -/
def errorOf (count : Nat) : Int :=
  if count % 16000000000 < 8000000000 then (count % 16000000000 : Nat) else (count % 16000000000 : Nat) - 16000000000

/-- What a step of the count can reach beside the time base: channels whose wait it ends, and the lanes with its notices. -/
def timeFrame (s t : State) : Prop :=
  t = { s with tb := t.tb, pe := { s.pe with channels := t.pe.channels },
               li := { s.li with lanes := t.li.lanes, lossFlags := t.li.lossFlags } }

/-- The target lies at or behind the new count (R34). -/
def reached (target : Stamp) (t : State) : Prop := 2 ^ 47 ≤ (target - BitVec.ofNat 48 t.tb.count.toNat).toNat

/-- Every armed entry has been tested against the new count (R35). -/
def stepped (s t : State) : Prop :=
  timeFrame s t ∧ ∀ u c,
    (s.target u c = none → t.target u c = none ∧ t.channel u c = s.channel u c) ∧
    ∀ g, s.target u c = some g →
      (reached g t → t.target u c = none ∧ t.channel u c =
        if (s.channel u c).state = .waitingTime then { s.channel u c with state := .running, finished := true } else s.channel u c) ∧
      (¬reached g t → t.target u c = some g ∧ t.channel u c = s.channel u c)

/-! ## Channels (R132 to R140) -/

/-- A REPORT of a channel as it stands (R140). -/
def reportNow (u : TenantId) (c : ChannelId) (kind : ReportKind) (index : Nat) (ending : Bool) (s : State) : Report :=
  let x := s.channel u c
  { channel := c, kind := kind, index := index, submitted := x.submitted, refused := x.refused, discarded := x.discarded,
    patchShort := x.patchShort, stamp := BitVec.ofNat 48 s.tb.count.toNat, lock := decide (s.tb.state = .locked),
    clearsPending := ending }

/-- The channel is to execute this word (R130). -/
def executes (x : Channel) (f : FetchedWord) : Prop :=
  x.state = .running ∧ x.outstanding = none ∧ x.finished = false ∧ x.word = some f

/-- The channel is RUNNING with its word finished, and has yet to continue (R136, R137, R142). -/
def hasFinished (x : Channel) : Prop := x.state = .running ∧ x.outstanding = none ∧ x.finished = true

/-- The run has ended: the channel is IDLE with report-pending set, `lost` bytes are discarded, and its REPORT is queued
(R138, R139, R141). -/
def endsWith (u : TenantId) (c : ChannelId) (kind : ReportKind) (index lost : Nat) (s t : State) : Prop :=
  ∃ v, channelsBut u c s v ∧ v = { s with pe := { s.pe with channels := v.pe.channels } } ∧
    v.channel u c = { s.channel u c with state := .idle, word := none, finished := false, prefetched := none, buffer := [],
                                         discarded := min 256 ((s.channel u c).discarded + lost), reportPending := true } ∧
    t = pushEntry (tenantLane u) (.report (reportNow u c kind index true v)) v

/-- The counters of a tenant after a program check (Table 8-6). -/
def checked (kind : ReportKind) (k : PeCounters) : PeCounters :=
  match kind with
  | .range => { k with checksRange := satInc k.checksRange }
  | .templateRange => { k with checksTemplate := satInc k.checksTemplate }
  | .length => { k with checksLength := satInc k.checksLength }
  | .badOp => { k with checksBadOp := satInc k.checksBadOp }
  | .storeCheck => { k with checksStore := satInc k.checksStore }
  | .fetched => k
  | .mark => k
  | .done => k
  | .halted => k

/-- A program check has stopped the channel (R139). -/
def checkStops (u : TenantId) (c : ChannelId) (kind : ReportKind) (index : Nat) (s t : State) : Prop :=
  ∃ v, endsWith u c kind index (s.channel u c).buffer.length s v ∧
    (∀ y : TenantId, t.pe.counters[y] = if y = u then checked kind s.pe.counters[y] else s.pe.counters[y]) ∧
    t.pe.storeFaults = (if kind = .storeCheck then satInc s.pe.storeFaults else s.pe.storeFaults) ∧
    t = { v with pe := { v.pe with counters := t.pe.counters, storeFaults := t.pe.storeFaults } }

/-- The word at a partition-relative index, with its parity fault noted (R125, R132). -/
def wordAt (s : State) (u : TenantId) (i : Nat) : FetchedWord :=
  let a := (s.tenant u).grant.programBase + i
  { bytes := Memory.readList s.pe.program (8 * a) 8, fault := decide (a ∈ s.pe.programFaults) }

/-- What a fetch reports: a word of good parity with PF set (R132). -/
def reportsFetch (u : TenantId) (c : ChannelId) (w : FetchedWord) (i : Nat) (s t : State) : Prop :=
  t = if w.fault = false ∧ (decodeWord w.bytes).pf = true then
    pushEntry (tenantLane u) (.report (reportNow u c .fetched i false s)) s else s

/-- The channel fetches the word at an index, or stops with a RANGE check (R132). -/
def fetches (u : TenantId) (c : ChannelId) (i : Nat) (s t : State) : Prop :=
  let w := wordAt s u i
  ((s.tenant u).grant.programSize ≤ i → checkStops u c .range i s t) ∧
  (i < (s.tenant u).grant.programSize →
    ∃ v, channelsBut u c s v ∧ v = { s with pe := { s.pe with channels := v.pe.channels } } ∧
      v.channel u c = { s.channel u c with index := i, word := some w, finished := false, prefetched := none } ∧
        reportsFetch u c w i v t)

/-- A finished word continues as its CC directs (R138). -/
def continues (u : TenantId) (c : ChannelId) (cc : Bool) (s t : State) : Prop :=
  let x := s.channel u c
  (cc = false → endsWith u c .done x.index x.buffer.length s t) ∧
  (cc = true → ∀ w, x.prefetched = some w →
    channelsBut u c s t ∧ t = { s with pe := { s.pe with channels := t.pe.channels } } ∧
      t.channel u c = { x with index := x.index + 1, word := some w, finished := false, prefetched := none }) ∧
  (cc = true → x.prefetched = none → fetches u c (x.index + 1) s t)

/-- A closing word hands its message to SQ, and prefetches the next word where its CC is set (R134). -/
def submits (u : TenantId) (c : ChannelId) (w : SendWord) (s t : State) : Prop :=
  let x := s.channel u c
  let i := x.index + 1
  let reads : Prop := w.cc = true ∧ i < (s.tenant u).grant.programSize
  ∀ cls, w.cls = some cls →
    let sent : Channel := { x with buffer := [], outstanding := some { message :=
      { cls := cls, bytes := x.buffer, originStamp := BitVec.ofNat 48 s.tb.count.toNat,
        originLock := decide (s.tb.state = .locked) } } }
    (¬reads → channelsBut u c s t ∧ t = { s with pe := { s.pe with channels := t.pe.channels } } ∧ t.channel u c = sent) ∧
    (reads → ∃ v, channelsBut u c s v ∧ v = { s with pe := { s.pe with channels := v.pe.channels } } ∧
      v.channel u c = { sent with prefetched := some (wordAt s u i) } ∧ reportsFetch u c (wordAt s u i) i v t)

/-- A submission that SQ has not yet taken (R141). -/
def notTaken (x : Channel) : Option Submission :=
  match x.outstanding with
  | some { message := m, answer := none } => some m
  | _ => none

/-! ## Admission (R108 to R110) -/

/-- SQ's tests of a submission in order, and what an admission stores: the free cells of lowest index, the payload in them, the record
at the tail, which becomes head of an empty queue. -/
def admits (st : StreamId) (bytes : List Byte) (stamp : Stamp) (lock : Bool) (source : Source) (s t : State) (r : SqAnswer) :
    Prop :=
  let x := s.stream st
  let n := if bytes.length = 0 then 1 else (bytes.length + 43) / 44
  let full : Prop := (match st.cls with | .u => 8 | .m => 32 | .b => 32) ≤ x.queue.length
  let beyond : Prop := (s.tenant st.tenant).grant.quota < occupancy s st.tenant + n
  let counted (k : SqCounters) : Prop :=
    streamsBut st s t ∧ t = { s with sq := { s.sq with streams := t.sq.streams } } ∧ t.stream st = { x with counters := k }
  (full → r = .full ∧ counted { x.counters with fullRefusals := satInc x.counters.fullRefusals }) ∧
  (¬full → beyond → r = .quota ∧ counted { x.counters with quotaRefusals := satInc x.counters.quotaRefusals }) ∧
  (¬full → ¬beyond → CellsOk s → s.sq.store.wf = true → r = .accepted ∧ streamsBut st s t ∧
    ∃ cells : List Nat, cells.length = n ∧ cells.Pairwise (· < ·) ∧
      (∀ k ∈ cells, k < 2048 ∧ k ∉ allocatedCells s ∧ ∀ j < k, j ∈ allocatedCells s ∨ j ∈ cells) ∧
      (∀ a, a / 44 ∉ cells → Memory.read t.sq.store a = Memory.read s.sq.store a) ∧
      let m : Message := { length := bytes.length, cells := cells, originStamp := stamp, originLock := lock, source := source }
      let limit := (s.tenant st.tenant).settings.routeWait.get st.cls * 160000
      storedBytes t m = bytes ∧
      (x.queue ≠ [] → t.stream st = { x with queue := x.queue ++ [m], admitted := satInc x.admitted } ∧
        t = { s with sq := { s.sq with store := t.sq.store, streams := t.sq.streams } }) ∧
      (x.queue = [] → t.stream st = { x with
          queue := [rerouted t st { m with life := .headUnrouted, routeWait := some limit }], admitted := satInc x.admitted } ∧
        t = { s with sq := { s.sq with store := t.sq.store, streams := t.sq.streams },
                     rs := { t.rs with paths := s.rs.paths } }))

/-! ## What a choice counts (Table 5-3) -/

/-- A choice for this message makes a path its first path: copy A was on another path, or there was none. -/
def newFirst (m : Message) (r : Option Route) (p : PathId) : Bool :=
  decide (r.map (·.first) = some p ∧ m.copyA.map (·.path) ≠ some p)

/-- A choice for this message makes a path its partner: copy B was on another path, or there was none. -/
def newPartner (m : Message) (r : Option Route) (p : PathId) : Bool :=
  decide (r.bind (·.partner) = some p ∧ m.copyB.map (·.path) ≠ some p)

/-- RS after some choices, given how many of them count for each path and how many for the part. -/
def choicesCounted (first partner : PathId → Nat) (unrouted : Nat) (k t : RouteSelector) : Prop :=
  t = { k with counters := t.counters, unroutedHeads := satAdd k.unroutedHeads unrouted } ∧
    ∀ p : PathId, t.counters[p] = { k.counters[p] with
      firstChoices := satAdd k.counters[p].firstChoices (first p), partnerChoices := satAdd k.counters[p].partnerChoices (partner p) }

/-- RS after one choice for a message that has just become head or relaunched, whose copies are as they stand before it. -/
def headCounted (m : Message) (r : Option Route) (k t : RouteSelector) : Prop :=
  choicesCounted (fun p => (newFirst m r p).toNat) (fun p => (newPartner m r p).toNat) (decide (r = none)).toNat k t

/-- How many streams have an unlaunched head of which something holds. -/
def headsWhere (s : State) (l : List StreamId) (f : StreamId → Message → Bool) : Nat :=
  l.countP fun st => match (s.stream st).queue.head? with
    | none => false
    | some m => decide (m.life = .headUnrouted ∨ m.life = .headRouted) && f st m

/-- RS after a re-choice for the heads of some streams: a head that stays unrouted counts for nothing. -/
def rechoiceCounted (s : State) (l : List StreamId) (k t : RouteSelector) : Prop :=
  choicesCounted (fun p => headsWhere s l fun st m => newFirst m (chooseRoute s st) p)
    (fun p => headsWhere s l fun st m => newPartner m (chooseRoute s st) p)
    (headsWhere s l fun st m => decide (m.life = .headRouted ∧ chooseRoute s st = none)) k t

/-! ## The head of a stream (R110, R112, R116) -/

/-- The queue when its head has gone: the next message is head. -/
def promoted (st : StreamId) (limit : Nat) (t : State) : List Message → List Message
  | [] => []
  | m :: rest => rerouted t st { m with life := .headUnrouted, routeWait := some limit } :: rest

/-- The head's record has left its queue: the next message is head and its route choice is counted, the tenant's waiting channels are
told of room, and a drop of class U is notified. -/
def headLeaves (st : StreamId) (m : Message) (drop : Option DropCause) (counts : Stream → Stream) (s t : State) : Prop :=
  let x := s.stream st
  let limit := (s.tenant st.tenant).settings.routeWait.get st.cls * 160000
  streamsBut st s t ∧ t.stream st = { counts x with queue := promoted st limit t x.queue.tail } ∧
    (x.queue.tail = [] → t.rs = s.rs) ∧
    (∀ m2 more, x.queue.tail = m2 :: more → headCounted m2 (chooseRoute t st) s.rs t.rs) ∧
    (∀ u c, t.channel u c = if u = st.tenant ∧ (s.channel u c).state = .waitingRoom then
      { s.channel u c with resubmissions := (s.channel u c).resubmissions + 1 } else s.channel u c) ∧
    t.li = (match drop with
      | none => s.li
      | some cause => if st.cls = .u then (pushEntry (tenantLane st.tenant)
          (.notice (BitVec.ofNat 48 s.tb.count.toNat) (decide (s.tb.state = .locked))
            (.drop st cause m.seq m.relaunchCount m.source m.originLock m.originStamp)) s).li else s.li) ∧
    t = { s with sq := { s.sq with streams := t.sq.streams }, rs := { t.rs with paths := s.rs.paths },
                 pe := { s.pe with channels := t.pe.channels }, li := t.li }

/-! ## Owed aborts (R117, R119, R120) -/

/-- How many copies of a stream's head are launching on a path whose port works and have launched a cell: a cut with cause PATHOFF or
RESET owes an ABORT for each. -/
def cutsThatOwe (s : State) (p : PathId) (st : StreamId) : Nat :=
  let owes (c : Option Copy) : Bool := match c with
    | none => false
    | some y => decide (y.state = .launching ∧ y.path = p ∧ 0 < y.nextFrag ∧ (s.port p).faultState = .working)
  match (s.stream st).queue.head? with
  | none => 0
  | some m => [m.copyA, m.copyB].countP owes

/-- A path's counters of Table 7-4 after such cuts of the heads of some streams: each ABORT counts as owed, and as replacing one where
the stream already owed one on the path. -/
def abortsCounted (l : List StreamId) (s : State) (p : PathId) : AbortCounters :=
  let k := s.sq.aborts[p]
  let replacing (st : StreamId) : Nat := cutsThatOwe s p st - (if (s.stream st).owed[p] = none then 1 else 0)
  { k with owed := satAdd k.owed (l.map (cutsThatOwe s p)).sum, replaced := satAdd k.replaced (l.map replacing).sum }

/-- The streams whose head is launching. -/
def launchingStreams (s : State) : List StreamId :=
  allStreams.filter fun st => (s.stream st).queue.head?.any fun m => m.life == .launching

/-! ## Delivery (R154 to R156) -/

/-- The messages a drain from n delivers, and those it leaves (R156). -/
def drainsInto (n : Seq) (hold a b : List Completed) : Prop :=
  hold = a ++ b ∧ (∀ i (h : i < a.length), a[i].seq = n + BitVec.ofNat 24 i) ∧
    ∀ x ∈ b.head?, x.seq ≠ n + BitVec.ofNat 24 a.length

/-- Messages are delivered in order, the stream's counters change and its record becomes another. -/
def deliversAll (st : StreamId) (l : List Completed) (r : RecvRecord) (k : RdStreamCounters → RdStreamCounters) (s : State) :
    State := (deliverAll l (s.countRd st k)).modRecord st fun _ => r

/-- A gap of some skipped numbers (R154 to R156). -/
def gapOf (skipped : Nat) (k : RdStreamCounters) : RdStreamCounters :=
  { k with gaps := satInc k.gaps, skipped := satAdd k.skipped skipped }

/-! ## Partitions (R125, R163) -/

/-- Two runs share an element. -/
def share (a n b m : Nat) : Prop := ∃ k, a ≤ k ∧ k < a + n ∧ b ≤ k ∧ k < b + m

/-! ## Hops (R58 to R66) -/

/-- How bad a hop state is (Table 4-1). -/
def badness : HopState → Nat
  | .clear => 0 | .watch => 1 | .fading => 2 | .lost => 3

/-- The report level (Table 4-2). -/
def levelOf (cfg : PathSettings) (avg : Int) (rate uncorrectable : Nat) : HopState :=
  if avg < cfg.lostThreshold ∨ rate = 0 then .lost
  else if avg < cfg.fadeThreshold ∨ 1 ≤ uncorrectable then .fading
  else if avg < cfg.watchThreshold then .watch
  else .clear

/-- The report qualifies for recovery (R63). -/
def recovers (cfg : PathSettings) (state level : HopState) (avg : Int) : Prop :=
  badness level < badness state ∧
    (match state with | .lost => cfg.lostThreshold | .fading => cfg.fadeThreshold | _ => cfg.watchThreshold) + cfg.hysteresis ≤ avg

/-- What a report's level does to a hop, and the cause of the move that it counts, if any (R61 to R64). -/
inductive Judged (cfg : PathSettings) (level : HopState) (avg : Int) (x : Hop) : Hop → Option HopCause → Prop
  | first : x.unreported = true → Judged cfg level avg x { x with state := level, unreported := false } none
  | worse : x.unreported = false → badness x.state < badness level →
      Judged cfg level avg x { x with state := level, dwellTimer := none } (some .report)
  | dwells : x.unreported = false → badness level ≤ badness x.state → recovers cfg x.state level avg →
      x.dwellTimer.isSome = true → Judged cfg level avg x x none
  | starts : x.unreported = false → badness level ≤ badness x.state → recovers cfg x.state level avg → x.dwellTimer = none →
      0 < cfg.dwellMs → Judged cfg level avg x { x with dwellTimer := some (cfg.dwellMs * 16000000) } none
  | rises : x.unreported = false → badness level ≤ badness x.state → recovers cfg x.state level avg → x.dwellTimer = none →
      cfg.dwellMs = 0 → ∀ up, badness x.state = badness up + 1 → Judged cfg level avg x { x with state := up } (some .dwell)
  | stays : x.unreported = false → badness level ≤ badness x.state → ¬recovers cfg x.state level avg →
      Judged cfg level avg x { x with dwellTimer := none } none

/-- The enable that a move of a hop needs (R73). -/
def enabledFor (e : Enables) (cause : HopCause) (new : HopState) : Bool :=
  match cause, new with
  | .dwell, _ => e.recovery
  | _, .watch => e.watch
  | _, .fading => e.fading
  | _, .lost => e.lost
  | _, .clear => false

/-- The lanes after some notices to the operator, in order. -/
def notified (l : List Notice) (s : State) : State := l.foldl (fun x n => notifyOperator n x) s

/-- HS hands the condition of a path to RS where it has changed (R72). -/
def handsOver (p : PathId) (s u : State) : State := if u.condition p = s.condition p then u else rsHop p (u.condition p) u

/-! ## Cost (R87) -/

def costFormula (r : PathRecord) : Option Nat :=
  r.latency.value.map fun l => min (2 ^ 32 - 1) (match r.settings.kind with
    | .microwave => l + r.settings.watchPenalty * r.hopCond.inWatch + r.settings.fadePenalty * r.hopCond.inFading +
        r.settings.suspectPenalty * r.hopCond.overCount + r.settings.tagPenalty * r.hopCond.tagged
    | .wireline => l + r.settings.wirelineBias)

/-- The state equal to a worst hop state (R80). -/
def serving : HopState → PathState
  | .clear => .clear | .watch => .watch | .fading => .fading | .lost => .down

/-- CLEAR, WATCH or FADING. -/
def servesNow (x : PathState) : Prop := x = .clear ∨ x = .watch ∨ x = .fading

/-- What an input to RS leaves (R78 to R83, R86, R91, R117): the record, RS's counters of the path, the PATH_STATE notices on the
management lane, and a re-choice of every unlaunched head where state, cost or usable slot count has changed. The cuts of a path
that leaves service owe no ABORT. -/
def rsLeaves (p : PathId) (r : PathRecord) (k : RsCounters → RsCounters) (moves : List (PathState × PathState × PathCause × Option Nat))
    (s t : State) : Prop :=
  pathsBut p s t ∧ t.path p = r ∧ t.pp = s.pp ∧ t.tb = s.tb ∧ t.pu = s.pu ∧ t.hs = s.hs ∧ t.cs = s.cs ∧ t.rd = s.rd ∧
    t.li.tenants = s.li.tenants ∧ t.sq.aborts = s.sq.aborts ∧ (∀ st, (t.stream st).owed = (s.stream st).owed) ∧
    (t.rs.counters[p].serviceEntries = (k s.rs.counters[p]).serviceEntries ∧ t.rs.counters[p].downHop = (k s.rs.counters[p]).downHop ∧
      t.rs.counters[p].downProbe = (k s.rs.counters[p]).downProbe ∧ t.rs.counters[p].downPort = (k s.rs.counters[p]).downPort) ∧
    t.lane mgmtLane = (notified (moves.map fun m => .pathState p m.1 m.2.1 m.2.2.1 m.2.2.2 r.hopCond.usable) s).lane mgmtLane ∧
    let changed : Prop := r.state ≠ (s.path p).state ∨ r.cost ≠ (s.path p).cost ∨ r.hopCond.usable ≠ (s.path p).hopCond.usable
    (¬changed → moves = [] → t.sq = s.sq) ∧
    (changed → ∀ st m rest, (s.stream st).queue = m :: rest → (m.life = .headUnrouted ∨ m.life = .headRouted) →
      t.stream st = { s.stream st with queue := rerouted t st m :: rest })

end Sys2Proof.Claims

open Sys2Proof Sys2Proof.Machine Sys2Proof.Safety Sys2Proof.Claims

/-! ## The part as a whole -/

/-- A step of the part is `exec` of the command at the front of its queue, on the part with the rest of the queue. That commands wait in
a queue is the model's form (log 6). -/
def Obligations.StepRunsFrontCommand : Prop :=
  ∀ (s : State) (c : Instr) (rest : List Instr), s.pending = c :: rest → step s = exec c { s with pending := rest }

/-- The model's choice (logs 1, 3, 41): with no command waiting, the first event that is due comes to wait; where none is due, the first
channel that a fire or an accepted resubmission returned to RUNNING continues as CC directs (R136 to R138); where there is none, one
tu of reference time passes. -/
def Obligations.EmptyQueueLetsTimePass : Prop :=
  ∀ s : State, s.pending = [] →
    (∀ (i : Instr) (rest : List Instr), dueEvents s = i :: rest → step s = .next { s with pending := [i] }) ∧
      (dueEvents s = [] → (∀ u c, ¬hasFinished (s.channel u c)) → step s = .next (tick s)) ∧
      ∀ u c, dueEvents s = [] → hasFinished (s.channel u c) →
        (∀ v d, hasFinished (s.channel v d) → 4 * u.val + c.val ≤ 4 * v.val + d.val) →
        ∃ t, step s = .next t ∧ continues u c (wordOf (s.channel u c)).cc s t

/-- Every command completes in every state, with no fault and no refusal, and leaves the commands that wait as they are. The model's
choices: a command that could not occur completes without effect (log 4), and no command touches the queue of waiting commands,
POWER_ON_RESET included (log 6). -/
def Obligations.EveryCommandCompletesAndKeepsTheQueue : Prop :=
  ∀ (i : Instr) (s : State), ∃ t : State, exec i s = .next t ∧ t.pending = s.pending

/-- Power-on reset, block by block, with every counter at 0 (R1, R18, R20, R21, R33, R38, R55, R75, R94, R107, R124, R129, R145, R150,
R168, Table 10-3, and the Counters convention of chapter 0). That the waiting commands still wait is the model's choice (log 6). -/
def Obligations.PowerOnResetState : Prop :=
  ∀ s : State, ∃ t : State, exec .powerOnReset s = .next t ∧ t.pending = s.pending ∧
    (∀ p, (t.port p).cycle = 65535 ∧ (t.port p).parity = .odd ∧ (t.port p).faultState = .fault) ∧
    (t.tb.count = 0 ∧ t.tb.trim = 0 ∧ t.tb.slew = 0 ∧ t.tb.epoch = 0 ∧ t.tb.state = .free ∧ t.tb.refEnable = false ∧
      t.tb.inRun = 0 ∧ t.tb.outRun = 0 ∧ t.tb.watch = none ∧ t.tb.params.stepThreshold = 16000 ∧
      t.tb.params.lockWindow = 1600 ∧ t.tb.params.kp = 2 ∧ t.tb.params.ki = 4) ∧
    (∀ u c, t.target u c = none) ∧
    (∀ p, (t.puPath p).number = 0 ∧ (t.puPath p).due = false ∧ (t.puPath p).timer = none ∧ (t.puPath p).records = [] ∧
      (t.puPath p).echoes = []) ∧
    (t.pu.startMark = none ∧ t.pu.peerMark = none) ∧
    (∀ p h, t.hop p h =
      { state := .lost, unreported := true, ring := [], averaged := none, avx := 2, offset := 0, rateStep := 0, errorCount := 0,
        errorThreshold := 1000, leakDivider := 0, secondary := 0, overFlag := false, blamed := none, tagged := false,
        reportTimeoutMs := 500, reportTimer := none, dwellTimer := none,
        enables := { watch := true, fading := true, lost := true, recovery := true, overEnable := true } }) ∧
    (t.hs.leakPeriodMs = 1000 ∧ t.hs.leakTimer = some 16000000000) ∧
    (∀ p, t.path p =
      { settings :=
          { kind := .microwave, hopCount := 1, filterShift := 3, outlierGate := 16000, asymmetry := 0, watchPenalty := 1600,
            fadePenalty := 16000, suspectPenalty := 8000, tagPenalty := 160000, wirelineBias := 0, probeIntervalMs := 10,
            probeTimeoutMs := 50, lossLimit := 3, reasmTimeoutUs := 2000, watchThreshold := 150, fadeThreshold := 80,
            lostThreshold := 20, hysteresis := 20, dwellMs := 2000 },
        admin := false, state := .off,
        hopCond := { worst := .lost, usable := 0, inWatch := 0, inFading := 0, overCount := 0, tagged := 0 },
        port := .fault, latency := { value := none, fresh := false, outlierRun := 0, losses := 0 }, cost := none }) ∧
    (∀ p : PathId, (∀ k : SlotId, (t.plan p).bankA.even[k] = .openSlot ∧ (t.plan p).bankA.odd[k] = .openSlot ∧
        (t.plan p).bankB.even[k] = .openSlot ∧ (t.plan p).bankB.odd[k] = .openSlot) ∧
      (t.plan p).active = .a ∧ (t.plan p).pendingSwap = none ∧ (t.plan p).pointer = 7 ∧ ∀ u : TenantId, (t.plan p).used[u] = 0) ∧
    (t.cs.windowPeriodUs = 100 ∧ t.cs.windowTimer = some 1600000) ∧
    (∀ st, (t.stream st).queue = [] ∧ (t.stream st).seqCounter = 0 ∧ (t.stream st).lastPath = none ∧
      (t.stream st).admitted = 0 ∧ (t.stream st).completed = 0 ∧ (t.stream st).dropped = 0 ∧
      ∀ p : PathId, (t.stream st).owed[p] = none) ∧
    (∀ a, Memory.read t.pe.program a = 0 ∧ Memory.read t.pe.template a = 0) ∧
    (t.pe.programFaults = [] ∧ t.pe.templateFaults = []) ∧
    (∀ u c, (t.channel u c).state = .idle ∧ (t.channel u c).index = 0 ∧ (t.channel u c).prefetched = none ∧
      (t.channel u c).buffer = [] ∧ (t.channel u c).held = none ∧ (t.channel u c).outstanding = none ∧
      (t.channel u c).patchBlock = [] ∧ (t.channel u c).submitted = 0 ∧ (t.channel u c).refused = 0 ∧
      (t.channel u c).discarded = 0 ∧ (t.channel u c).patchShort = false ∧ (t.channel u c).reportPending = false) ∧
    (∀ p st, t.context p st = none) ∧
    (∀ st, (t.record st).fresh = true ∧ (t.record st).window = 0 ∧ (t.record st).nextSeq = none ∧ (t.record st).hold = [] ∧
      (t.record st).holdTimer = none) ∧
    (∀ u, t.tenant u =
      { enabled := false,
        grant :=
          { programBase := 0, programSize := 0, templateBase := 0, templateSize := 0, quota := 0,
            masks := { u := 0, m := 0, b := 0 }, fallbackU := false, fallbackM := false, openAccess := 0,
            budgets := .replicate 6 { clear := 0, watch := 0, fading := 0 } },
        settings :=
          { dualU := .off, dualM := .off, tie := .fixed, routeWait := { u := 200, m := 500, b := 10000 },
            delivery := { u := .arrival, m := .arrival, b := .arrival }, hold := { u := 20, m := 20, b := 20 } } }) ∧
    (∀ l, (t.lane l).queue = []) ∧ (∀ u : TenantId, t.li.lossFlags[u] = false) ∧
    (∀ p : PathId, (t.port p).counters = ⟨0, 0, 0, 0, 0, 0, 0, 0, 0, 0, 0, 0, 0, 0, 0, 0, 0, 0, 0⟩ ∧
      (t.puPath p).counters = ⟨0, 0, 0, 0, 0, 0, 0, 0, 0, 0, 0, 0⟩ ∧ t.hs.counters[p] = ⟨0, 0, 0, 0, 0, 0, 0⟩ ∧
      t.rs.counters[p] = ⟨0, 0, 0, 0, 0, 0⟩ ∧ (t.plan p).counters = ⟨0, 0, 0, 0, 0, 0, 0⟩ ∧ t.sq.aborts[p] = ⟨0, 0, 0⟩ ∧
      t.rd.pathCounters[p] = ⟨0, 0, 0, 0, 0, 0, 0, 0⟩) ∧
    (∀ st, (t.stream st).counters = ⟨0, 0, 0, 0, 0, 0, 0, 0, 0, 0, 0, 0⟩) ∧
    (∀ i : Fin 24, t.rd.streamCounters[i] = ⟨0, 0, 0, 0, 0, 0, 0, 0, 0, 0⟩) ∧
    (∀ u : TenantId, t.pe.counters[u] = ⟨0, 0, 0, 0, 0, 0, 0, 0, 0, 0, 0⟩) ∧
    (∀ l, (t.lane l).counters = ⟨0, 0, 0, 0, 0, 0, 0, 0, 0, 0, 0, 0⟩) ∧
    t.tb.counters = ⟨0, 0, 0, 0, 0⟩ ∧ t.pu.peerRestarts = 0 ∧ t.rs.unroutedHeads = 0 ∧ t.cs.windows = 0 ∧ t.pe.storeFaults = 0

/-- The state after power-on reset satisfies every invariant of the model. The model's own fields among them: the remainder of a tu (log
2), the place in the cycle (log 7), the word a channel holds (log 8), the canonical form of the stores (log 13). -/
def Obligations.ResetStateSatisfiesInvariants : Prop := Inv State.reset

/-! ## Invariants that every step keeps -/

/-- A port's parity is that of its cycle number, and a port in FAULT has no opportunity left (R1 to R3, R15). A hop's error count stays
within 0 to 65,535, and its over-threshold flag is set whenever the count is at or above the hop's threshold (R66). The place of a
port in its cycle is a field of the model's (log 7). -/
def Obligations.StepKeepsPortsAndHopErrorCounts : Prop :=
  ∀ s t : State, step s = .next t → (PortsOk s → PortsOk t) ∧ (HopsOk s → HopsOk t)

/-- What the state of a path says of its record, its port and its probing (R38, R39, R51, R75, R77, R80 to R87). -/
def Obligations.StepKeepsPathRecords : Prop := ∀ s t : State, PathsOk s → step s = .next t → PathsOk t

/-- The hop condition that RS holds of every path that is ON is the one the path's hops give (R72). -/
def Obligations.StepKeepsHopConditions : Prop :=
  ∀ s t : State, PathsOk s → ConditionsOk s → step s = .next t → ConditionsOk t

/-- The cells held by a tenant's messages never exceed its quota, the quotas never exceed the store, and no cell is held
twice (R108). -/
def Obligations.StepKeepsCellAllocation : Prop := ∀ s t : State, CellsOk s → step s = .next t → CellsOk t

/-- While the admitted count of a stream has not saturated, it equals completed plus dropped plus the queue's length (R121). Only the
oldest message of a queue is ever routed or launched, and the oldest message is always head (R107, R110). -/
def Obligations.StepKeepsAccountingAndHeads : Prop :=
  ∀ s t : State, step s = .next t → (AccountsOk s → AccountsOk t) ∧ (HeadsOk s → HeadsOk t)

/-- Every copy that can still carry a cell lies on a path in service, two copies lie on different paths, and the copies agree
with the life state of their message (R90, R92, R98, R114 to R118). -/
def Obligations.StepKeepsCopiesOnPathsInService : Prop :=
  ∀ s t : State, PathsOk s → HeadsOk s → AllCopiesOk s → step s = .next t → AllCopiesOk t

/-- Held messages lie 1 to 63 ahead of the next expected sequence in rising order, only in ORDERED mode, with the hold timer
running exactly while something is held (R150, R154 to R156). -/
def Obligations.StepKeepsReceiveRecords : Prop := ∀ s t : State, RecordsOk s → step s = .next t → RecordsOk t

/-- A running or waiting channel's word index lies within its tenant's program partition, and its compare entry and its held message
agree with its state (R125, R137, R139). A submission is outstanding only on a channel that runs or that was stopped after SQ had
taken it (R130, R134, R142). The word a channel holds, the form of an outstanding submission and the mark of a finished word are the
model's (logs 8, 9, 41). -/
def Obligations.StepKeepsChannels : Prop := ∀ s t : State, ChannelsOk s → step s = .next t → ChannelsOk t

/-- Every queue, list and ring stays within the size that the spec gives it (R38, R55, R107, R168), and the cell store, the program
store and the template store keep their canonical form (log 13). -/
def Obligations.StepKeepsQueueSizesAndStores : Prop :=
  ∀ s t : State, step s = .next t → (SizesOk s → SizesOk t) ∧ (StoresOk s → StoresOk t)

/-- The corrections, runs, parameters and timers of the discipline keep what R18, R19 and R21 say of them. The remainder of a tu among
them is the model's (log 2). -/
def Obligations.StepKeepsTimeDiscipline : Prop := ∀ s t : State, TimeOk s.tb → step s = .next t → TimeOk t.tb

/-- Power-on reset apart, a step of the part that leaves the epoch as it is never lowers the time count (R20). -/
def Obligations.CountFallsOnlyWithNewEpoch : Prop :=
  ∀ s t : State, step s = .next t → s.pending.head? ≠ some .powerOnReset → t.tb.epoch = s.tb.epoch →
    s.tb.count.toNat ≤ t.tb.count.toNat

/-- A tenant's request reaches nothing of another tenant's and nothing of the operator's: no other tenant's record, streams,
channels, compare entries, receive records, lane or partition, no path record, port, plan or hop, no message already in the
cell store (R125 to R127, R162, Table 0-2). The premise rules out states that no run reaches, in which a record holds a message of
another stream (R150). -/
def Obligations.TenantRequestsStayWithTheirTenant : Prop :=
  ∀ (i : Instr) (w : TenantId) (tag : Tag) (kind : Byte) (body : List Byte) (s t : State),
    RecordsOk s → requestParts i = some (false, tenantLane w, tag, kind, body) → exec i s = .next t →
    (∀ u, u ≠ w → t.tenant u = s.tenant u ∧ t.lane (tenantLane u) = s.lane (tenantLane u) ∧
      t.li.lossFlags[u] = s.li.lossFlags[u] ∧ t.pe.counters[u] = s.pe.counters[u] ∧
      (∀ cls, t.stream { tenant := u, cls := cls } = s.stream { tenant := u, cls := cls } ∧
        t.record { tenant := u, cls := cls } = s.record { tenant := u, cls := cls }) ∧
      ∀ c, t.channel u c = s.channel u c ∧ t.target u c = s.target u c) ∧
    t.lane mgmtLane = s.lane mgmtLane ∧ t.rs.paths = s.rs.paths ∧ t.rd.contexts = s.rd.contexts ∧
    t.tb = { s.tb with compare := t.tb.compare } ∧ t.pp = s.pp ∧ t.pu = s.pu ∧ t.hs = s.hs ∧ t.cs = s.cs ∧
    (∀ a, ¬(8 * (s.tenant w).grant.programBase ≤ a ∧
        a < 8 * ((s.tenant w).grant.programBase + (s.tenant w).grant.programSize)) →
      Memory.read t.pe.program a = Memory.read s.pe.program a) ∧
    (∀ a, ¬(64 * (s.tenant w).grant.templateBase ≤ a ∧
        a < 64 * ((s.tenant w).grant.templateBase + (s.tenant w).grant.templateSize)) →
      Memory.read t.pe.template a = Memory.read s.pe.template a) ∧
    ∀ c ∈ allocatedCells s, ∀ a, 44 * c ≤ a → a < 44 * c + 44 → Memory.read t.sq.store a = Memory.read s.sq.store a

/-! ## Formats -/

/-- Every slot cell and control cell that the part can form has the length and a good CRC-32 of section 11.3, and the checks of
receipt read its fields back (Table 11-7, R11, R174). A hop report frame laid out as section 11.4 says is taken, and its items are read
as Table 11-8 lays them out. -/
def Obligations.CellsAndHopReportsDecodeAsLaidOut : Prop :=
  (∀ d : DataCell, 1 ≤ d.fragCount → d.fragCount ≤ 6 → d.frag < d.fragCount → byteCountOk d.frag d.fragCount d.byteCount = true →
      d.payload.length = 44 →
      (encodeSlotCell (.data d)).length = 62 ∧ crcGood (encodeSlotCell (.data d)) = true ∧
        decodeSlotCell (encodeSlotCell (.data d)) = some (.data d)) ∧
  (∀ (st : StreamId) (q : Seq),
      (encodeSlotCell (.abort st q)).length = 62 ∧ crcGood (encodeSlotCell (.abort st q)) = true ∧
        decodeSlotCell (encodeSlotCell (.abort st q)) = some (.abort st q)) ∧
  ((encodeSlotCell .idle).length = 62 ∧ crcGood (encodeSlotCell .idle) = true ∧
      decodeSlotCell (encodeSlotCell .idle) = some .idle) ∧
  (∀ c : ControlCell, (encodeControlCell c).length = 32 ∧ crcGood (encodeControlCell c) = true ∧
    decodeControlCell (encodeControlCell c) = some c) ∧
  ∀ items : List HopItem, 1 ≤ items.length → items.length ≤ 12 →
    (∀ i ∈ items, i.index < 256 ∧ -2 ^ 15 ≤ i.margin ∧ i.margin < 2 ^ 15 ∧ i.rateStep < 16 ∧ i.corrected < 2 ^ 16 ∧
      i.uncorrectable < 2 ^ 16) →
    decodeHopFrame (withCrc (BitVec.ofNat 8 items.length :: items.flatMap fun i =>
      [BitVec.ofNat 8 i.index] ++ toBEInt 2 i.margin ++
        [BitVec.ofNat 8 (i.rateStep + 16 * (match i.branch with | .none => 0 | .main => 1 | .diversity => 2))] ++
        toBE 2 i.corrected ++ toBE 2 i.uncorrectable)) = some items

/-- A lane frame that holds a request of any kind and of any body that fits becomes that request (R161, R171, section 11.1).
The order of the frame check's bytes is presumed (log 14). -/
def Obligations.RequestFramesBecomeTheirRequest : Prop :=
  ∀ (lane : LaneId) (tag : Tag) (body : List Byte) (kind : Byte) (i : Instr), body.length ≤ 1492 →
    requestOf lane tag body kind.toNat = some i → decodeFrame lane (laneFrame (laneMessage kind tag body)) = i

/-! ## Lanes -/

/-- An entry handed to a lane's output queue (R168, R169): it joins a queue of fewer than 64 entries; in a full queue it displaces the
oldest entry that may be overwritten; where there is none, it is lost and counted by its kind. Which REPORT clears the report-
pending flag of its channel is a mark of the entry in the model (log 11). -/
def Obligations.EntriesJoinALaneQueue : Prop :=
  ∀ (l : LaneId) (e : Entry) (s : State),
    let q := (s.lane l).queue
    let c := (s.lane l).counters
    let t := pushEntry l e s
    lanesBut l s t ∧ t = { s with li := { s.li with lanes := t.li.lanes, lossFlags := t.li.lossFlags },
                                  pe := { s.pe with channels := t.pe.channels } } ∧
    (q.length < 64 → t.lane l = { s.lane l with queue := q ++ [e] } ∧ t.li.lossFlags = s.li.lossFlags ∧ t.pe = s.pe) ∧
    (∀ a o b, 64 ≤ q.length → q = a ++ o :: b → mayBeOverwritten o = true → (∀ x ∈ a, mayBeOverwritten x = false) →
      t.lane l = { s.lane l with
        queue := a ++ b ++ [e],
        counters := if mayBeOverwritten e then { c with overwrites := satInc c.overwrites }
          else { c with evictions := satInc c.evictions } } ∧
      (∀ u : TenantId, t.li.lossFlags[u] = if tenantLane u = l then true else s.li.lossFlags[u]) ∧ t.pe = s.pe) ∧
    (64 ≤ q.length → (∀ x ∈ q, mayBeOverwritten x = false) →
      t.lane l = { s.lane l with
        counters := match e with
          | .deliver m => if m.stream.cls = .u then { c with uDeliverLost := satInc c.uDeliverLost }
              else { c with mbDeliverLost := satInc c.mbDeliverLost }
          | .report _ => { c with reportLost := satInc c.reportLost }
          | .notice _ _ _ => { c with noticeLost := satInc c.noticeLost }
          | .answer _ => { c with answerLost := satInc c.answerLost } } ∧
      (∀ u : TenantId, t.li.lossFlags[u] = if tenantLane u = l ∧ isDeliver e = true then true else s.li.lossFlags[u]) ∧
      ∀ u d, t.channel u d = if tenantLane u = l ∧ endsRunOf d e = true then { s.channel u d with reportPending := false }
        else s.channel u d)

/-- A request on a lane of the other side, and a request whose body fails the tests of its kind, are answered REFUSED with
BAD_VALUE and change nothing but the lane's counters (R161, R162, R172). -/
def Obligations.RequestsRefusedByTheLane : Prop :=
  ∀ (i : Instr) (operator : Bool) (l : LaneId) (tag : Tag) (kind : Byte) (body : List Byte) (s : State),
    requestParts i = some (operator, l, tag, kind, body) →
    let c := (s.lane l).counters
    ∃ u : State, lanesBut l s u ∧ u = { s with li := { s.li with lanes := u.li.lanes } } ∧
      (operator ≠ decide (l = mgmtLane) →
        exec i s = .next (answer l tag kind (.refused .badValue) u) ∧
        u.lane l = { s.lane l with
          counters := { c with requests := satInc c.requests, accessRefusals := satInc c.accessRefusals } }) ∧
      (operator = decide (l = mgmtLane) → bodyFails kind body →
        exec i s = .next (answer l tag kind (.refused .badValue) u) ∧
        u.lane l = { s.lane l with counters := { c with requests := satInc c.requests } })

/-- FRAME_CHECK_ERROR and MALFORMED_MESSAGE are counted and nothing else; at ENTRY_SENT the oldest entry of the lane leaves in a frame,
a DELIVER takes the loss flag with it, and an ending REPORT clears its channel's report-pending flag (R140, R161, R168, R170, R171).
The model's choices: ENTRY_SENT on an empty queue cannot occur and changes nothing (log 4), the mark of a REPORT that clears its
channel's flag (log 11), the output held as the last frame that began to leave (log 12), and the byte order of its frame check (log
14). -/
def Obligations.LaneEventsCountAndSend : Prop :=
  ∀ (l : LaneId) (s : State),
    let c := (s.lane l).counters
    (∃ t, exec (.frameCheckError l) s = .next t ∧ lanesBut l s t ∧ t = { s with li := { s.li with lanes := t.li.lanes } } ∧
      t.lane l = { s.lane l with counters := { c with frameErrors := satInc c.frameErrors } }) ∧
    (∃ t, exec (.malformedMessage l) s = .next t ∧ lanesBut l s t ∧ t = { s with li := { s.li with lanes := t.li.lanes } } ∧
      t.lane l = { s.lane l with counters := { c with malformed := satInc c.malformed } }) ∧
    ((s.lane l).queue = [] → exec (.entrySent l) s = .next s) ∧
    ∀ e rest, (s.lane l).queue = e :: rest →
      let loss := match laneTenant l with
        | none => false
        | some u => s.li.lossFlags[u]
      let m := entryMessage loss (capture s) e
      ∃ t, exec (.entrySent l) s = .next t ∧ lanesBut l s t ∧
        t = { s with li := { s.li with lanes := t.li.lanes, lossFlags := t.li.lossFlags },
                     pe := { s.pe with channels := t.pe.channels } } ∧
        t.lane l = { s.lane l with queue := rest, txFrame := laneFrame (laneMessage m.1 m.2.1 m.2.2),
                                   counters := { c with sent := satInc c.sent } } ∧
        (∀ u : TenantId, t.li.lossFlags[u] = if tenantLane u = l ∧ isDeliver e = true then false else s.li.lossFlags[u]) ∧
        ∀ u d, t.channel u d = if tenantLane u = l ∧ endsRunOf d e = true then { s.channel u d with reportPending := false }
          else s.channel u d

/-! ## Ports -/

/-- CYCLE_START on a working port: the next cycle number and its parity, the control opportunity first, and the test of a pending plan
swap; a swap that takes effect exchanges the banks, is counted and notified, and is followed by a re-choice (R2, R3, R97). The place
in the cycle is a field of the model's (log 7). -/
def Obligations.CycleStartAdvancesTheCycleAndTestsTheSwap : Prop :=
  ∀ (s : State) (p : PathId), (s.port p).faultState = .working →
    let c := (s.port p).cycle + 1
    let k := (s.port p).counters
    let pl := s.plan p
    ∃ u : State, portsBut p s u ∧ u = { s with pp := u.pp } ∧
      u.port p = { s.port p with
        cycle := c, parity := (if c.toNat % 2 = 0 then .even else .odd), position := .control,
        counters := { k with cyclesStarted := satInc k.cyclesStarted } } ∧
      (pl.pendingSwap = none → exec (.cycleStart p) s = .next u) ∧
      ∀ target, pl.pendingSwap = some target →
        ((1 ≤ (target - c).toNat ∧ (target - c).toNat < 2 ^ 15) → exec (.cycleStart p) s = .next u) ∧
        (((target - c).toNat = 0 ∨ 2 ^ 15 ≤ (target - c).toNat) →
          ∃ v : State, plansBut p u v ∧ v = { u with cs := v.cs } ∧
            v.plan p = { pl with active := (if pl.active = .a then .b else .a), pendingSwap := none,
                                 counters := { pl.counters with planSwaps := satInc pl.counters.planSwaps } } ∧
            exec (.cycleStart p) s = .next (rechooseAll (notifyOperator (.planSwap p (v.plan p).active c) v)))

/-- CONTROL_OPPORTUNITY in its place on a working port: the oldest queued ECHO, else a due PROBE, else EMPTY (R7 to R9, R40). The
model's fields: the place in the cycle (log 7) and the last cell that began to leave (log 12). -/
def Obligations.ControlOpportunityLaunchesOneControlCell : Prop :=
  ∀ (s : State) (p : PathId), (s.port p).faultState = .working → (s.port p).position = .control →
    let x := s.port p
    let k := x.counters
    let y := s.puPath p
    let now : Stamp := BitVec.ofNat 48 s.tb.count.toNat
    (∀ e rest mark, y.echoes = e :: rest → s.pu.startMark = some mark →
      ∃ t, exec (.controlOpportunity p) s = .next t ∧ portsBut p s t ∧ probesBut p s t ∧ t = { s with pp := t.pp, pu := t.pu } ∧
        t.port p = { x with
          position := .slot 0,
          txCell := encodeControlCell (.echo e.number (decide (e.farEpoch = s.tb.epoch)) e.t1 e.t2 now mark),
          counters := { k with echoLaunched := satInc k.echoLaunched } } ∧
        t.puPath p = { y with echoes := rest }) ∧
    (∀ mark, y.echoes = [] → y.due = true → s.pu.startMark = some mark →
      ∃ t, exec (.controlOpportunity p) s = .next t ∧ portsBut p s t ∧ probesBut p s t ∧
        t.port p = { x with
          position := .slot 0, txCell := encodeControlCell (.probe y.number now mark),
          counters := { k with probeLaunched := satInc k.probeLaunched } } ∧
        (t.puPath p).number = y.number + 1 ∧ (t.puPath p).due = false ∧
        (t.puPath p).records = (if y.records.length < 8 then y.records else y.records.tail) ++
          [{ number := y.number, t1 := now, epoch := s.tb.epoch,
             expiry := some ((s.path p).settings.probeTimeoutMs * 16000000) }] ∧
        (y.records.length < 8 → t = { s with pp := t.pp, pu := t.pu } ∧ (t.puPath p).counters = y.counters) ∧
        (8 ≤ y.records.length → (t.puPath p).counters = { y.counters with losses := satInc y.counters.losses })) ∧
    (y.echoes = [] → y.due = false →
      ∃ t, exec (.controlOpportunity p) s = .next t ∧ portsBut p s t ∧ t = { s with pp := t.pp } ∧
        t.port p = { x with position := .slot 0, txCell := encodeControlCell .empty,
                            counters := { k with emptyLaunched := satInc k.emptyLaunched } })

/-- SLOT_OPPORTUNITY in its place on a working port: exactly one cell leaves, and CS's five outcomes decide whose it is: a shed slot, an
owner grant, an open or lent grant to the first eligible tenant after the pointer, or an unclaimed slot. A grant carries an owed
ABORT before any DATA, and the first class in order U, M, B that has one (R4, R98 to R102, R113); what a DATA cell holds and what its
launch does stand in SlotCarriesTheNextFragment. The model's fields: the place in
the cycle (log 7) and the last cell that began to leave (log 12). -/
def Obligations.SlotOpportunityLaunchesOneCell : Prop :=
  ∀ (s : State) (p : PathId) (k : SlotId), (s.port p).faultState = .working → (s.port p).position = .slot k →
    let pl := s.plan p
    let owner : SlotOwner := match (s.port p).parity with
      | .even => (activeBank pl).even[k]
      | .odd => (activeBank pl).odd[k]
    let usable := (s.path p).hopCond.usable
    let serving := (budgetOf s 0 p).isSome
    ∃ t, exec (.slotOpportunity p) s = .next t ∧ portsBut p s t ∧ plansBut p s t ∧
      (t.port p).position = nextPlace k ∧ (t.port p).cycle = (s.port p).cycle ∧ (t.port p).parity = (s.port p).parity ∧
      (t.port p).faultState = .working ∧
      (usable ≤ k.val → carriesIdle p s t ∧
        t.plan p = { pl with counters := { pl.counters with shedSlots := satInc pl.counters.shedSlots } }) ∧
      (k.val < usable → ∀ w, owner = .tenant w → traffic s w p → carriesCellOf w p s t ∧
        t.plan p = { pl with counters := { pl.counters with ownerGrants := satInc pl.counters.ownerGrants } }) ∧
      (k.val < usable → (∀ w, owner = .tenant w → ¬traffic s w p) →
        (∀ w, mayWin s w p → (∀ v, mayWin s v p → turn pl.pointer w ≤ turn pl.pointer v) → carriesCellOf w p s t ∧
          t.plan p = { pl with
            pointer := w, used := (if serving then pl.used.set w (pl.used[w] + 1) else pl.used),
            counters := if owner = .openSlot then { pl.counters with openGrants := satInc pl.counters.openGrants }
              else { pl.counters with lentGrants := satInc pl.counters.lentGrants } }) ∧
        ((∀ w, ¬mayWin s w p) → carriesIdle p s t ∧
          ((∃ w, asks s w p) → t.plan p = { pl with
            counters := { pl.counters with unclaimedSlots := satInc pl.counters.unclaimedSlots,
                                           budgetStops := satInc pl.counters.budgetStops } }) ∧
          ((∀ w, ¬asks s w p) → t.plan p = { pl with
            counters := { pl.counters with unclaimedSlots := satInc pl.counters.unclaimedSlots } })))

/-- The DATA cell that a granted slot, an owner's, an open or a lent one, carries for the copy of a head on its path, be it copy A
or copy B, and what its launch does: fragment 0 starts the head, with its sequence, its dual flag and the other copy; a fragment
advances its copy; the last one leaves the copy LAUNCHED, and the head is DONE unless the other copy still launches. A head of one
fragment starts and ends its copy in one slot (R5, R113 to R116). What the grant does to the plan stands in
SlotOpportunityLaunchesOneCell. The model's fields: the place in the cycle (log 7), the last cell that began to leave (log 12) and
the count of resubmissions owed to a channel (log 10). -/
def Obligations.SlotCarriesTheNextFragment : Prop :=
  ∀ (s : State) (p : PathId) (k : SlotId) (st : StreamId) (m : Message) (name : CopyName) (c : Copy),
    (s.port p).faultState = .working → (s.port p).position = .slot k → k.val < (s.path p).hopCond.usable →
    grantedTo st.tenant s p k → (∀ cls, (s.stream { tenant := st.tenant, cls := cls }).owed[p] = none) →
    (∀ cls, classCode cls < classCode st.cls → streamServable s p { tenant := st.tenant, cls := cls } = false) →
    (s.stream st).queue.head? = some m → m.copyA.isSome = true →
    (match name with | .a => m.copyA | .b => m.copyB) = some c → c.path = p →
    let other := match name with | .a => m.copyB | .b => m.copyA
    (∀ o ∈ other, o.path ≠ p) →
    let x := s.stream st
    let limit := some ((s.tenant st.tenant).settings.routeWait.get st.cls * 160000)
    let n := cellsFor m.length
    let cell (seq : Seq) (frag : Nat) (dual : Bool) : DataCell :=
      { stream := st, seq := seq, frag := frag, fragCount := n,
        byteCount := (if frag + 1 < n then 44 else m.length - 44 * (n - 1)), dual := dual, relaunched := m.relaunched,
        originLock := m.originLock, originStamp := m.originStamp,
        payload := padTo 44 (Memory.readList s.sq.store (44 * m.cells.getD frag 0)
          (if frag + 1 < n then 44 else m.length - 44 * (n - 1))) }
    let copies (own : Copy) (two : Option Copy) (y : Message) : Message := match name with
      | .a => { y with copyA := some own, copyB := two }
      | .b => { y with copyA := two, copyB := some own }
    let sends (d : DataCell) (t : State) : Prop :=
      exec (.slotOpportunity p) s = .next t ∧ (t.port p).txCell = encodeSlotCell (.data d)
    let stays (f : Stream → Stream) (head : Message) (t : State) : Prop :=
      streamsBut st s t ∧ t = { s with pp := t.pp, cs := t.cs, sq := { s.sq with streams := t.sq.streams } } ∧
        t.stream st = { f x with queue := head :: x.queue.tail }
    let leaves (f : Stream → Stream) (t : State) : Prop :=
      ∃ v, headLeaves st m none (fun y => { f y with completed := satInc y.completed }) s v ∧ t = { v with pp := t.pp, cs := t.cs }
    let seq := m.seq.getD x.seqCounter
    let starts (y : Stream) : Stream := { y with
      seqCounter := (if m.seq = none then y.seqCounter + 1 else y.seqCounter), lastPath := m.copyA.map (·.path),
      counters := { y.counters with
        launchStarts := satInc y.counters.launchStarts,
        dualStarts := (if m.copyB.isSome then satInc y.counters.dualStarts else y.counters.dualStarts) } }
    let started : Message := { m with seq := some seq, life := .launching, routeWait := none, dual := m.copyB.isSome }
    let waits (o : Copy) : Copy := { o with state := .launching, nextFrag := 0, stall := limit }
    let sent (frags : Nat) : Copy := { c with state := .launching, nextFrag := frags, stall := limit }
    let gone (frags : Nat) : Copy := { c with state := .launched, nextFrag := frags, stall := none }
    (m.life = .headRouted → 1 < n →
      ∃ t, sends (cell seq 0 m.copyB.isSome) t ∧ stays starts (copies (sent 1) (other.map waits) started) t) ∧
    (m.life = .headRouted → n = 1 → other = none → ∃ t, sends (cell seq 0 false) t ∧ leaves starts t) ∧
    (∀ o, m.life = .headRouted → n = 1 → other = some o →
      ∃ t, sends (cell seq 0 true) t ∧ stays starts (copies (gone 1) (some (waits o)) started) t) ∧
    ∀ q, m.life = .launching → m.seq = some q → c.state = .launching →
      (c.nextFrag + 1 < n → ∃ t, sends (cell q c.nextFrag m.dual) t ∧ stays id (copies (sent (c.nextFrag + 1)) other m) t) ∧
      (∀ o, c.nextFrag + 1 = n → other = some o → o.state = .launching →
        ∃ t, sends (cell q c.nextFrag m.dual) t ∧ stays id (copies (gone n) other m) t) ∧
      (c.nextFrag + 1 = n → (∀ o ∈ other, o.state = .launched ∨ o.state = .cut) →
        ∃ t, sends (cell q c.nextFrag m.dual) t ∧ leaves id t)

/-- CELL_ARRIVAL on a working port: a bad CRC and a failed field test are counted and discarded, IDLE is counted, ABORT and DATA
reach their reassembly context (R10 to R12, R146, R147, R149). The model's choices: the arrival stamp and its lock flag are captured
as the command executes (log 5), and a copy of six fragments that reaches 257 to 264 bytes is completed whole (log 43). -/
def Obligations.SlotCellArrivalReachesItsContext : Prop :=
  ∀ (s : State) (p : PathId) (cell : List Byte), (s.port p).faultState = .working →
    let k := (s.port p).counters
    let counted (f : PortCounters) (t : State) : Prop :=
      portsBut p s t ∧ t.port p = { s.port p with counters := f }
    let path (f : RdPathCounters → RdPathCounters) (t : State) : Prop :=
      (∀ q, q ≠ p → t.rd.pathCounters[q] = s.rd.pathCounters[q]) ∧ t.rd.pathCounters[p] = f s.rd.pathCounters[p]
    let onlyContext (st : StreamId) (t : State) : Prop :=
      contextsBut p st s t ∧
        t = { s with pp := t.pp, rd := { s.rd with contexts := t.rd.contexts, pathCounters := t.rd.pathCounters } }
    (crcGood cell = false → ∃ t, exec (.cellArrival p cell) s = .next t ∧ t = { s with pp := t.pp } ∧
      counted { k with cellCrcErrors := satInc k.cellCrcErrors } t) ∧
    (crcGood cell = true → malformedSlotCell cell → ∃ t, exec (.cellArrival p cell) s = .next t ∧ t = { s with pp := t.pp } ∧
      counted { k with malformedCells := satInc k.malformedCells } t) ∧
    (crcGood cell = true → (byteAt cell 0).toNat = 2 → ∃ t, exec (.cellArrival p cell) s = .next t ∧ t = { s with pp := t.pp } ∧
      counted { k with idleReceived := satInc k.idleReceived } t) ∧
    (∀ st seq, crcGood cell = true → decodeSlotCell cell = some (.abort st seq) →
      ∃ t, exec (.cellArrival p cell) s = .next t ∧ counted { k with abortReceived := satInc k.abortReceived } t ∧
        onlyContext st t ∧
        ((s.tenant st.tenant).enabled = false → t.context p st = s.context p st ∧
          path (fun x => { x with disabledCells := satInc x.disabledCells }) t) ∧
        (∀ c, (s.tenant st.tenant).enabled = true → s.context p st = some c → c.seq = seq → t.context p st = none ∧
          path (fun x => { x with abort := satInc x.abort }) t) ∧
        ((s.tenant st.tenant).enabled = true → (∀ c, s.context p st = some c → c.seq ≠ seq) →
          t.context p st = s.context p st ∧ path (fun x => { x with unmatchedAborts := satInc x.unmatchedAborts }) t)) ∧
    (∀ d, crcGood cell = true → decodeSlotCell cell = some (.data d) →
      let limit := some ((s.path p).settings.reasmTimeoutUs * 16000)
      let bytes := d.payload.take d.byteCount
      let received : PortCounters := { k with dataReceived := satInc k.dataReceived }
      let opened : Context :=
        { seq := d.seq, fragCount := d.fragCount, nextFrag := 1, bytes := bytes, originStamp := d.originStamp,
          originLock := d.originLock, dual := d.dual, relaunched := d.relaunched, timer := limit }
      let message (c : Context) : Completed :=
        { stream := d.stream, seq := c.seq, payload := c.bytes, path := p, dual := c.dual, relaunched := c.relaunched,
          originStamp := c.originStamp, originLock := c.originLock, arrivalStamp := BitVec.ofNat 48 s.tb.count.toNat,
          arrivalLock := decide (s.tb.state = .locked) }
      let expected (c : Context) : Prop := d.seq = c.seq ∧ d.fragCount = c.fragCount ∧ d.frag = c.nextFrag
      ((s.tenant d.stream.tenant).enabled = false → ∃ t, exec (.cellArrival p cell) s = .next t ∧ counted received t ∧
        onlyContext d.stream t ∧ t.context p d.stream = s.context p d.stream ∧
        path (fun x => { x with disabledCells := satInc x.disabledCells }) t) ∧
      ((s.tenant d.stream.tenant).enabled = true → d.frag = 0 →
        let overran (x : RdPathCounters) : RdPathCounters :=
          if (s.context p d.stream).isSome then { x with overrun := satInc x.overrun } else x
        (1 < d.fragCount → ∃ t, exec (.cellArrival p cell) s = .next t ∧ counted received t ∧ onlyContext d.stream t ∧
          t.context p d.stream = some opened ∧ path overran t) ∧
        (d.fragCount = 1 → ∃ u, exec (.cellArrival p cell) s = .next (takeCompleted (message opened) u) ∧ counted received u ∧
          onlyContext d.stream u ∧ u.context p d.stream = none ∧
          path (fun x => { overran x with completed := satInc x.completed }) u)) ∧
      ((s.tenant d.stream.tenant).enabled = true → 0 < d.frag → s.context p d.stream = none →
        ∃ t, exec (.cellArrival p cell) s = .next t ∧ counted received t ∧ onlyContext d.stream t ∧
          t.context p d.stream = none ∧ path (fun x => { x with orphans := satInc x.orphans }) t) ∧
      (∀ c, (s.tenant d.stream.tenant).enabled = true → 0 < d.frag → s.context p d.stream = some c →
        let longer : Context := { c with bytes := c.bytes ++ bytes, nextFrag := c.nextFrag + 1, timer := limit }
        (¬expected c → ∃ t, exec (.cellArrival p cell) s = .next t ∧ counted received t ∧ onlyContext d.stream t ∧
          t.context p d.stream = none ∧ path (fun x => { x with order := satInc x.order }) t) ∧
        (expected c → d.frag + 1 < d.fragCount → ∃ t, exec (.cellArrival p cell) s = .next t ∧ counted received t ∧
          onlyContext d.stream t ∧ t.context p d.stream = some longer ∧ path (fun x => x) t) ∧
        (expected c → d.frag + 1 = d.fragCount → ∃ u, exec (.cellArrival p cell) s = .next (takeCompleted (message longer) u) ∧
          counted received u ∧ onlyContext d.stream u ∧ u.context p d.stream = none ∧
          path (fun x => { x with completed := satInc x.completed }) u)))

/-- CONTROL_CELL_ARRIVAL on a working port: discards and EMPTY are counted; a PROBE of an unchanged or first start mark is queued for an
ECHO where the path is not OFF and fewer than 4 wait; a PROBE of another start mark first delivers every held message, makes all
records fresh, empties all contexts and is notified (R10, R11, R13, R42, R53, R151, R159). The model's choices: T2, the far epoch
and the stamp of the notice are captured as the command executes (log 5), the held messages of different streams are delivered
tenant by tenant and in class order (log 36), and a start mark field of 0 is taken as a mark like any other (log 39). -/
def Obligations.ProbeArrivalChecksTheMarkAndQueuesAnEcho : Prop :=
  ∀ (s : State) (p : PathId) (cell : List Byte), (s.port p).faultState = .working →
    let k := (s.port p).counters
    let y := s.puPath p
    let counted (f : PortCounters) (t : State) : Prop :=
      portsBut p s t ∧ t.port p = { s.port p with counters := f }
    (crcGood cell = false → ∃ t, exec (.controlCellArrival p cell) s = .next t ∧ t = { s with pp := t.pp } ∧
      counted { k with controlCrcErrors := satInc k.controlCrcErrors } t) ∧
    (crcGood cell = true → (byteAt cell 0).toNat ≠ 4 → (byteAt cell 0).toNat ≠ 5 → (byteAt cell 0).toNat ≠ 6 →
      ∃ t, exec (.controlCellArrival p cell) s = .next t ∧ t = { s with pp := t.pp } ∧
        counted { k with malformedCells := satInc k.malformedCells } t) ∧
    (crcGood cell = true → (byteAt cell 0).toNat = 6 →
      ∃ t, exec (.controlCellArrival p cell) s = .next t ∧ t = { s with pp := t.pp } ∧
        counted { k with emptyReceived := satInc k.emptyReceived } t) ∧
    ∀ number t1 mark, crcGood cell = true → decodeControlCell cell = some (.probe number t1 mark) →
      let held := allStreams.flatMap fun st => (s.record st).hold
      let entry : EchoEntry :=
        { number := number, t1 := t1, t2 := BitVec.ofNat 48 s.tb.count.toNat, farEpoch := s.tb.epoch }
      let queued : PuPath :=
        if (s.path p).state = .off then { y with counters := { y.counters with whileOff := satInc y.counters.whileOff } }
        else if y.echoes.length < 4 then { y with echoes := y.echoes ++ [entry] }
        else { y with counters := { y.counters with echoOverflows := satInc y.counters.echoOverflows } }
      ∃ t, exec (.controlCellArrival p cell) s = .next t ∧ counted { k with probeReceived := satInc k.probeReceived } t ∧
        t.puPath p = queued ∧ (∀ q, q ≠ p → t.puPath q = s.puPath q) ∧ t.pu.peerMark = some mark ∧
        t.pu.startMark = s.pu.startMark ∧
        ((s.pu.peerMark = none ∨ s.pu.peerMark = some mark) →
          t = { s with pp := t.pp, pu := t.pu } ∧ t.pu.peerRestarts = s.pu.peerRestarts) ∧
        (∀ old, s.pu.peerMark = some old → old ≠ mark →
          (∀ st, (t.record st).fresh = true ∧ (t.record st).window = 0 ∧ (t.record st).nextSeq = none ∧
            (t.record st).hold = [] ∧ (t.record st).holdTimer = none) ∧
          (∀ q st, t.context q st = none) ∧ t.pu.peerRestarts = satInc s.pu.peerRestarts ∧
          t = { s with pp := t.pp, pu := t.pu, rd := t.rd, li := { s.li with lanes := t.li.lanes, lossFlags := t.li.lossFlags } } ∧
          t.rd = { s.rd with contexts := t.rd.contexts, records := t.rd.records,
                             streamCounters := (deliverAll held s).rd.streamCounters } ∧
          t.li = (notifyOperator (.peerRestart p (some old) mark) (deliverAll held s)).li ∧
          ((s.lane mgmtLane).queue.length < 64 → (t.lane mgmtLane).queue = (s.lane mgmtLane).queue ++
            [.notice (BitVec.ofNat 48 s.tb.count.toNat) (decide (s.tb.state = .locked)) (.peerRestart p (some old) mark)]))

/-- An ECHO passes the tests of R44 in order; a sample that passes is taken by the arithmetic of R45 and R46 and goes to the filter of
R47 to R50. The matched record is removed whatever the later tests decide. T4 and its epoch are captured as the command executes,
the model's choice (log 5). -/
def Obligations.EchoBecomesALatencySample : Prop :=
  ∀ (s : State) (p : PathId) (cell : List Byte) (number : BitVec 8) (unchanged : Bool) (t1 t2 t3 : Stamp) (mark : Mark),
    (s.port p).faultState = .working → crcGood cell = true →
    decodeControlCell cell = some (.echo number unchanged t1 t2 t3 mark) →
    let k := (s.port p).counters
    let y := s.puPath p
    let r := s.path p
    let received (t : State) : Prop :=
      portsBut p s t ∧ t.port p = { s.port p with counters := { k with echoReceived := satInc k.echoReceived } } ∧ probesBut p s t
    let outcome (f : PuPath) : Prop :=
      ∃ t, exec (.controlCellArrival p cell) s = .next t ∧ received t ∧ t = { s with pp := t.pp, pu := t.pu } ∧ t.puPath p = f
    let pc := y.counters
    ((∀ x ∈ y.records, ¬(x.number = number ∧ x.t1 = t1)) →
      outcome { y with counters := { pc with unmatched := satInc pc.unmatched } }) ∧
    ∀ a x b, y.records = a ++ x :: b → x.number = number → x.t1 = t1 → (∀ z ∈ a, ¬(z.number = number ∧ z.t1 = t1)) →
      let z : PuPath := { y with records := a ++ b }
      let rt := (BitVec.ofNat 48 s.tb.count.toNat - t1).toNat
      let held := (t3 - t2).toNat
      let estimate : Int := ((rt - held) / 2 : Nat) + r.settings.asymmetry
      let sample := estimate.toNat
      let passes : Prop := r.state ≠ .down ∧ s.pu.peerMark = some mark ∧ unchanged = true ∧ s.tb.epoch = x.epoch
      (r.state = .down → outcome { z with counters := { pc with downRejects := satInc pc.downRejects } }) ∧
      (r.state ≠ .down → s.pu.peerMark ≠ some mark → outcome { z with counters := { pc with markRejects := satInc pc.markRejects } }) ∧
      (r.state ≠ .down → s.pu.peerMark = some mark → (unchanged = false ∨ s.tb.epoch ≠ x.epoch) →
        outcome { z with counters := { pc with epochRejects := satInc pc.epochRejects } }) ∧
      (passes → rt < 2 ^ 40 → held < 2 ^ 40 → held ≤ rt → 2 ^ 32 ≤ estimate →
        outcome { z with counters := { pc with arithRejects := satInc pc.arithRejects } }) ∧
      (passes → rt < 2 ^ 40 → held < 2 ^ 40 → held ≤ rt → estimate < 2 ^ 32 →
        let taken : PuCounters := { pc with samples := satInc pc.samples }
        let quiet (lat : Latency) (f : PuCounters) : Prop :=
          ∃ t, exec (.controlCellArrival p cell) s = .next t ∧ received t ∧ t = { s with pp := t.pp, pu := t.pu, rs := t.rs } ∧
            t.puPath p = { z with counters := f } ∧ pathsBut p s t ∧ t.path p = { r with latency := lat } ∧
            t.rs = { s.rs with paths := t.rs.paths }
        let presented (lat : Latency) : Prop :=
          ∃ u, exec (.controlCellArrival p cell) s = .next (rsLatency p lat u) ∧ received u ∧
            u = { s with pp := u.pp, pu := u.pu, rs := u.rs } ∧ u.puPath p = { z with counters := taken } ∧ pathsBut p s u ∧
            u.path p = { r with latency := { r.latency with losses := 0 } } ∧ u.rs = { s.rs with paths := u.rs.paths }
        (r.latency.value = none → presented { value := some sample, fresh := true, outlierRun := 0, losses := 0 }) ∧
        ∀ old, r.latency.value = some old →
          let gap : Int := (sample : Int) - old
          let moved := ((old : Int) + gap / (2 ^ r.settings.filterShift : Nat)).toNat
          (gap.natAbs ≤ r.settings.outlierGate → moved = old → quiet { r.latency with outlierRun := 0, losses := 0 } taken) ∧
          (gap.natAbs ≤ r.settings.outlierGate → moved ≠ old →
            presented { r.latency with value := some moved, outlierRun := 0, losses := 0 }) ∧
          (r.settings.outlierGate < gap.natAbs → r.latency.outlierRun < 2 →
            quiet { r.latency with outlierRun := r.latency.outlierRun + 1, losses := 0 }
              { taken with outliers := satInc pc.outliers }) ∧
          (r.settings.outlierGate < gap.natAbs → 2 ≤ r.latency.outlierRun →
            ∃ u, exec (.controlCellArrival p cell) s =
                .next (rsLatency p { r.latency with value := some sample, outlierRun := 0, losses := 0 }
                  (notifyOperator (.latencyStep p old sample) u)) ∧ received u ∧
              u.puPath p = { z with counters := { taken with outliers := satInc pc.outliers,
                                                             latencySteps := satInc pc.latencySteps } }))

/-- R45: a sample that has passed the match, state, mark and epoch tests is rejected, and counted as an arithmetic reject, if the round
trip is 2^40 or more, if the hold is 2^40 or more, or if the hold exceeds the round trip. T4 and its epoch are captured as the
command executes, the model's choice (log 5). -/
def Obligations.ImpossibleRoundTripsAreRejected : Prop :=
  ∀ (s : State) (p : PathId) (cell : List Byte) (t1 t2 t3 : Stamp) (mark : Mark) (x : ProbeRecord) (a b : List ProbeRecord),
    (s.port p).faultState = .working → crcGood cell = true →
    decodeControlCell cell = some (.echo x.number true t1 t2 t3 mark) → (s.puPath p).records = a ++ x :: b → x.t1 = t1 →
    (∀ z ∈ a, ¬(z.number = x.number ∧ z.t1 = t1)) → (s.path p).state ≠ .down → s.pu.peerMark = some mark →
    s.tb.epoch = x.epoch →
    let roundTrip := (BitVec.ofNat 48 s.tb.count.toNat - t1).toNat
    let hold := (t3 - t2).toNat
    (2 ^ 40 ≤ roundTrip ∨ 2 ^ 40 ≤ hold ∨ roundTrip < hold) →
      ∃ t, exec (.controlCellArrival p cell) s = .next t ∧ t = { s with pp := t.pp, pu := t.pu } ∧ probesBut p s t ∧
        (t.puPath p).records = a ++ b ∧
        (t.puPath p).counters = { (s.puPath p).counters with arithRejects := satInc (s.puPath p).counters.arithRejects }

/-! ## Time -/

/-- R18: over one whole second of the reference input, at constant trim and slew and short of the greatest count, the count advances by
exactly 16,000,000,000 + trim + slew tu. That a second is that many steps of the model is its choice (log 1), and so is the
remainder that spreads the count (log 2). -/
def Obligations.OneSecondAdvancesTheCount : Prop :=
  ∀ s : State, TimeOk s.tb → s.tb.count.toNat + 16000081536 < 2 ^ 64 →
    (((tick^[16000000000]) s).tb.count.toNat : Int) = s.tb.count.toNat + 16000000000 + s.tb.trim + s.tb.slew

/-- PPS_ARRIVAL in FREE, ACQUIRING and LOCKED: ignored, or the phase error of R23 gives an acquisition step, or the slew and trim of R24
with the in-window and out-of-window runs; PPS_MISSING where the PPS watch runs, and SLEW_PERIOD_END where a slew period runs (R19,
R20, R23 to R25, R27, R29). The model's choices: a step keeps the remainder of a tu (log 2), a timer command is taken wherever its
timer runs (log 4), a channel whose wait a step ends has yet to continue (log 41), the lock flags of the notices (log 21), and a
step stops at the greatest count while its notice carries −E (log 35). -/
def Obligations.PpsEventsDisciplineTheCount : Prop :=
  ∀ s : State,
    let b := s.tb
    let e := errorOf b.count.toNat
    let taken : TimeBase := { b with watch := some 24000000000, counters := { b.counters with ppsTaken := satInc b.counters.ppsTaken } }
    let tuned : TimeBase := { taken with slew := slewOf b.params.kp e, slewTimer := some 16000000000,
                                         trim := trimOf b.params.ki b.trim e }
    (b.state = .free → exec .ppsArrival s = .next { s with tb := { b with
      counters := { b.counters with ppsIgnored := satInc b.counters.ppsIgnored } } }) ∧
    (b.state = .acquiring → b.params.stepThreshold < e.natAbs →
      ∃ t, exec .ppsArrival s = .next t ∧ stepped s t ∧
        t.tb = { taken with count := BitVec.ofNat 64 (min ((b.count.toNat : Int) - e).toNat (2 ^ 64 - 1)), epoch := b.epoch + 1,
                            slew := 0, slewTimer := none, inRun := 0, compare := t.tb.compare, counters := t.tb.counters } ∧
        t.tb.counters = { taken.counters with steps := satInc b.counters.steps, compareFires := t.tb.counters.compareFires } ∧
        ((s.lane mgmtLane).queue.length < 64 → (t.lane mgmtLane).queue = (s.lane mgmtLane).queue ++
          [.notice (BitVec.ofNat 48 t.tb.count.toNat) false (.timeStep .acquire (-e) t.tb.epoch)])) ∧
    (b.state = .acquiring → e.natAbs ≤ b.params.stepThreshold →
      (b.params.lockWindow < e.natAbs → exec .ppsArrival s = .next { s with tb := { tuned with inRun := 0 } }) ∧
      (e.natAbs ≤ b.params.lockWindow → b.inRun < 3 →
        exec .ppsArrival s = .next { s with tb := { tuned with inRun := b.inRun + 1 } }) ∧
      (e.natAbs ≤ b.params.lockWindow → 3 ≤ b.inRun →
        exec .ppsArrival s = .next (notifyOperator (.timeState .acquiring .locked b.epoch)
          { s with tb := { tuned with state := .locked, inRun := 0, outRun := 0 } }))) ∧
    (b.state = .locked →
      (e.natAbs ≤ b.params.lockWindow → exec .ppsArrival s = .next { s with tb := { tuned with outRun := 0 } }) ∧
      (b.params.lockWindow < e.natAbs → b.outRun < 2 →
        exec .ppsArrival s = .next { s with tb := { tuned with outRun := b.outRun + 1 } }) ∧
      (b.params.lockWindow < e.natAbs → 2 ≤ b.outRun →
        exec .ppsArrival s = .next (notifyOperator (.timeState .locked .acquiring b.epoch)
          { s with tb := { tuned with state := .acquiring, inRun := 0, outRun := 0 } }))) ∧
    (b.watch.isSome = true →
      let missed : TimeBase := { b with
        watch := some 24000000000, counters := { b.counters with ppsMissing := satInc b.counters.ppsMissing } }
      (b.state = .locked → exec .ppsMissing s = .next (notifyOperator (.timeState .locked .holdover b.epoch)
        { s with tb := { missed with state := .holdover, slew := 0, slewTimer := none, outRun := 0 } })) ∧
      (b.state = .acquiring → exec .ppsMissing s = .next { s with tb := { missed with inRun := 0 } }) ∧
      (b.state = .holdover → exec .ppsMissing s = .next { s with tb := missed })) ∧
    (b.slewTimer.isSome = true → exec .slewPeriodEnd s = .next { s with tb := { b with slew := 0, slewTimer := none } })

/-- R26: in HOLDOVER, a PPS is evaluated as in ACQUIRING: a step if the phase error exceeds the step threshold, and otherwise the slew
and trim updates. The time state then becomes LOCKED if the error is within the lock window, and ACQUIRING otherwise, both runs
become 0, and a step always leads to ACQUIRING. The model's choices: a step keeps the remainder of a tu (log 2) and stops at the
greatest count (log 35), and a channel whose wait it ends has yet to continue (log 41). -/
def Obligations.PpsInHoldover : Prop :=
  ∀ s : State, s.tb.state = .holdover → s.tb.params.lockWindow ≤ s.tb.params.stepThreshold →
    let b := s.tb
    let e := errorOf b.count.toNat
    ∃ t, exec .ppsArrival s = .next t ∧ timeFrame s t ∧ t.tb.inRun = 0 ∧ t.tb.outRun = 0 ∧
      t.tb.state = (if e.natAbs ≤ b.params.lockWindow then .locked else .acquiring) ∧
      t.tb.watch = some 24000000000 ∧ t.tb.params = b.params ∧ t.tb.refEnable = b.refEnable ∧ t.tb.frac = b.frac ∧
      (b.params.stepThreshold < e.natAbs → stepped s t ∧ t.tb.state = .acquiring ∧ t.tb.epoch = b.epoch + 1 ∧ t.tb.slew = 0 ∧
        t.tb.slewTimer = none ∧ t.tb.trim = b.trim ∧ t.tb.counters.steps = satInc b.counters.steps ∧
        t.tb.count = BitVec.ofNat 64 (min ((b.count.toNat : Int) - e).toNat (2 ^ 64 - 1))) ∧
      (e.natAbs ≤ b.params.stepThreshold → t.tb.epoch = b.epoch ∧ t.tb.count = b.count ∧ t.tb.slew = slewOf b.params.kp e ∧
        t.tb.slewTimer = some 16000000000 ∧ t.tb.trim = trimOf b.params.ki b.trim e ∧ t.tb.compare = b.compare ∧ t.pe = s.pe ∧
        t.tb.counters = { b.counters with ppsTaken := satInc b.counters.ppsTaken })

/-- TIMECFG clamps its parameters, refuses a lock window above the step threshold, and moves the time state as Table 2-2 says; TIMESET
below 2^63 is a step to the carried count in every time state, with the notices of R29 in order, and at or above 2^63 is refused
(R20, R22, R28, R29, R35). The model's choices: TIMESET's step keeps the remainder of a tu (log 2), a channel whose wait it ends has
yet to continue (log 41), and the lock flags of the notices of TIMECFG and TIMESET (log 21). -/
def Obligations.TimeRequestsSetTheDisciplineAndTheCount : Prop :=
  (∀ (s : State) (tag : Tag) (body : List Byte), body.length = 11 →
    let b := s.tb
    let v := countRequest mgmtLane s
    let enable : Prop := byteAt body 0 ≠ 0
    let params : TimeParams :=
      { stepThreshold := max 16 (min 160000000 (fieldNat body 1 4)), lockWindow := max 16 (min 16000000 (fieldNat body 5 4)),
        kp := min 7 (nat1 body 9), ki := min 15 (nat1 body 10) }
    let stored : TimeBase := { b with params := params, refEnable := byteAt body 0 != 0 }
    let c := Instr.timecfg mgmtLane tag body
    (params.stepThreshold < params.lockWindow → exec c s = .next (answer mgmtLane tag 0x1E (.refused .badValue) v)) ∧
    (params.lockWindow ≤ params.stepThreshold →
      (b.state = .free → enable → exec c s = .next (answer mgmtLane tag 0x1E .accepted
        (notifyOperator (.timeState .free .acquiring b.epoch)
          { v with tb := { stored with state := .acquiring, inRun := 0, outRun := 0, watch := some 24000000000 } }))) ∧
      ((b.state = .free ↔ ¬enable) → exec c s = .next (answer mgmtLane tag 0x1E .accepted { v with tb := stored })) ∧
      (b.state ≠ .free → ¬enable → exec c s = .next (answer mgmtLane tag 0x1E .accepted
        (notifyOperator (.timeState b.state .free b.epoch)
          { v with tb := { stored with state := .free, slew := 0, slewTimer := none, inRun := 0, outRun := 0, watch := none } }))))) ∧
  ∀ (s : State) (tag : Tag) (body : List Byte), body.length = 8 →
    let b := s.tb
    let n := fieldNat body 0 8
    let c := Instr.timeset mgmtLane tag body
    (2 ^ 63 ≤ n → exec c s = .next (answer mgmtLane tag 0x1F (.refused .badValue) (countRequest mgmtLane s))) ∧
    (n < 2 ^ 63 → ∃ t, exec c s = .next (answer mgmtLane tag 0x1F .accepted t) ∧ stepped s t ∧
      t.tb = { b with
        count := BitVec.ofNat 64 n, epoch := b.epoch + 1, slew := 0, slewTimer := none,
        state := (if b.state = .locked then .acquiring else b.state),
        inRun := (if b.state = .locked ∨ b.state = .acquiring then 0 else b.inRun),
        outRun := (if b.state = .locked then 0 else b.outRun), compare := t.tb.compare, counters := t.tb.counters } ∧
      t.tb.counters = { b.counters with steps := satInc b.counters.steps, compareFires := t.tb.counters.compareFires } ∧
      ((s.lane mgmtLane).queue.length + 2 ≤ 64 → (t.lane mgmtLane).queue = (s.lane mgmtLane).queue ++
        [.notice (BitVec.ofNat 48 n) (decide (b.state = .locked))
          (.timeStep .timeset (max (-2 ^ 63) (min (2 ^ 63 - 1) ((n : Int) - b.count.toNat))) (b.epoch + 1))] ++
        (if b.state = .locked then [.notice (BitVec.ofNat 48 n) false (.timeState .locked .acquiring (b.epoch + 1))] else [])))

/-! ## Programs -/

/-- A TEXT or PATCH word that passes the tests of R132: the length checks, the template bound and parity, the bytes it appends, and what
follows: the next word, the end, or the submission with its prefetch (R132 to R134, R138, R139). The model's choices: the word a
channel holds, the moment of its fetch and the index shown from then on (log 8), the form of an outstanding submission (log 9), and
the index that REPORT DONE names (log 38). -/
def Obligations.CopyWordsAssembleAndSubmit : Prop :=
  ∀ (s : State) (u : TenantId) (c : ChannelId) (f : FetchedWord),
    let x := s.channel u c
    let w := decodeWord f.bytes
    let g := (s.tenant u).grant
    executes x f → f.fault = false → ¬(w.wr = true ∧ w.sr = true) → (w.cd = false → w.cls.isSome = true) →
    let runs (copied : Channel → Channel) (t : State) : Prop :=
      ∃ v, channelsBut u c s v ∧ v = { s with pe := { s.pe with channels := v.pe.channels } } ∧ v.channel u c = copied x ∧
        (w.cd = true → continues u c w.cc v t) ∧ (w.cd = false → submits u c w v t)
    (w.op = 1 →
      let a := 64 * g.templateBase + w.textOffset
      let beyond : Prop := 64 * g.templateSize < w.textOffset + w.count
      let long : Prop := 256 < x.buffer.length + w.count
      let faulty : Prop := ∃ k ∈ s.pe.templateFaults, a ≤ k ∧ k < a + w.count
      ∃ t, exec (.text u c) s = .next t ∧
        (beyond → checkStops u c .templateRange x.index s t) ∧ (¬beyond → long → checkStops u c .length x.index s t) ∧
        (¬beyond → ¬long → faulty → checkStops u c .storeCheck x.index s t) ∧
        (¬beyond → ¬long → ¬faulty →
          runs (fun y => { y with buffer := y.buffer ++ Memory.readList s.pe.template a w.count }) t)) ∧
    (w.op = 2 →
      ∃ t, exec (.patch u c) s = .next t ∧
        (256 < x.buffer.length + w.count → checkStops u c .length x.index s t) ∧
        (x.buffer.length + w.count ≤ 256 →
          runs (fun y => { y with
            buffer := y.buffer ++ (List.range w.count).map fun k => x.patchBlock.getD (w.patchOffset + k) 0,
            patchShort := y.patchShort ||
              decide (w.sl = false ∧ 1 ≤ w.count ∧ x.patchBlock.length < w.patchOffset + w.count) }) t))

/-- A WAIT word arms its channel's entry and waits, or fires at once where the target has passed; COMPARE_FIRE ends the wait, and the
word that executes next finds that the channel has continued as CC directs; a MARK word reports; a bad word meets the check of R132
(R34, R132, R137 to R140). The model's choices: COMPARE_FIRE is taken wherever its entry is armed (log 4), the word a channel holds,
the moment of its fetch and the index shown from then on (log 8), the index that REPORT DONE names (log 38), and that a channel
returned to RUNNING continues when its next word executes or a step finds nothing waiting (log 41). -/
def Obligations.WaitMarkAndBadWords : Prop :=
  ∀ (s : State) (u : TenantId) (c : ChannelId) (f : FetchedWord),
    let x := s.channel u c
    let w := decodeWord f.bytes
    let now : Stamp := BitVec.ofNat 48 s.tb.count.toNat
    let fired (v : State) : Prop :=
      channelsBut u c s v ∧ v.channel u c = { x with state := .running, finished := true } ∧
        v = { s with pe := { s.pe with channels := v.pe.channels },
                     tb := { s.tb with compare := v.tb.compare,
                                       counters := { s.tb.counters with compareFires := satInc s.tb.counters.compareFires } } } ∧
        ∀ y d, v.target y d = if y = u ∧ d = c then none else s.target y d
    let good : Prop := f.fault = false ∧ w.cd = false ∧ ¬(w.wr = true ∧ w.sr = true)
    let closes : Prop := (w.op = 1 ∨ w.op = 2) ∧ w.cd = false
    (executes x f → good → w.op = 3 →
      ((w.target - now).toNat < 2 ^ 47 →
        ∃ t, exec (.wait u c) s = .next t ∧ channelsBut u c s t ∧ t.channel u c = { x with state := .waitingTime } ∧
          t = { s with pe := { s.pe with channels := t.pe.channels }, tb := { s.tb with compare := t.tb.compare } } ∧
          ∀ y d, t.target y d = if y = u ∧ d = c then some w.target else s.target y d) ∧
      (2 ^ 47 ≤ (w.target - now).toNat → ∃ v, exec (.wait u c) s = .next v ∧ fired v)) ∧
    (x.state = .waitingTime → (s.target u c).isSome = true → ∃ v, exec (.compareFire u c) s = .next v ∧ fired v) ∧
    (executes x f → good → w.op = 4 →
      ∃ t, exec (.mark u c) s = .next t ∧
        continues u c w.cc (pushEntry (tenantLane u) (.report (reportNow u c .mark x.index false s)) s) t) ∧
    (executes x f → f.fault = true →
      ∃ t, exec (.undefinedOpWord u c) s = .next t ∧ checkStops u c .storeCheck x.index s t) ∧
    (executes x f → f.fault = false →
      (w.op = 0 ∨ 4 < w.op ∨ ((w.op = 3 ∨ w.op = 4) ∧ w.cd = true) ∨ (w.wr = true ∧ w.sr = true) ∨ (closes ∧ w.cls = none)) →
      ∃ t, exec (.undefinedOpWord u c) s = .next t ∧ checkStops u c .badOp x.index s t) ∧
    (hasFinished x → ∃ v, continues u c (wordOf x).cc s v ∧
      ∀ g, executes (v.channel u c) g → exec (wordCommand u c g) s = exec (wordCommand u c g) v)

/-- FIRE by the tests of R131 in order, its answer ahead of the first fetch, and HALT by Table 8-5 with its REPORT ahead of the answer,
of a channel just returned to RUNNING by a fire or a resubmission like any other (R36, R131, R132, R141, R142). The model's choices:
the word a channel holds, the moment of its fetch and the index shown from then on (log 8), the form of an outstanding submission
(log 9), the mark of an ending REPORT (log 11) and that of a finished word (log 41). -/
def Obligations.FireStartsAndHaltStopsARun : Prop :=
  ∀ (s : State) (u : TenantId) (tag : Tag) (body : List Byte),
    let l := tenantLane u
    let v := countRequest l s
    let g := (s.tenant u).grant
    (body.length = 4 + nat1 body 3 → nat1 body 3 ≤ 32 →
      let start := fieldNat body 1 2
      let refused (code : RefusalCode) : Prop :=
        ∃ t, exec (.fire l tag body) s = .next (answer l tag 0x02 (.refused code) t) ∧
          (∀ y : TenantId, t.pe.counters[y] = if y = u then
            { s.pe.counters[y] with firesRefused := satInc s.pe.counters[y].firesRefused } else s.pe.counters[y]) ∧
          t = { v with pe := { s.pe with counters := t.pe.counters } }
      (4 ≤ nat1 body 0 → refused .badIndex) ∧
      ∀ c : ChannelId, nat1 body 0 = c.val →
        let x := s.channel u c
        let free : Prop := x.state = .idle ∧ x.reportPending = false ∧ x.outstanding = none
        ((s.tenant u).enabled = false → refused .disabled) ∧
        ((s.tenant u).enabled = true → ¬free → refused .busy) ∧
        ((s.tenant u).enabled = true → free → g.programSize ≤ start → refused .range) ∧
        ((s.tenant u).enabled = true → free → start < g.programSize →
          ∃ w t, exec (.fire l tag body) s = .next t ∧ fetches u c start (answer l tag 0x02 .accepted w) t ∧
            channelsBut u c s w ∧
            w.channel u c = { x with state := .running, index := start, word := none, finished := false, prefetched := none, buffer := [],
                                     patchBlock := body.drop 4, submitted := 0, refused := 0, discarded := 0,
                                     patchShort := false } ∧
            (∀ y : TenantId, w.pe.counters[y] = if y = u then
              { s.pe.counters[y] with firesTaken := satInc s.pe.counters[y].firesTaken } else s.pe.counters[y]) ∧
            w = { v with pe := { s.pe with channels := w.pe.channels, counters := w.pe.counters } })) ∧
    (body.length = 1 →
      let replies (r : Reply) : Prop := exec (.halt l tag body) s = .next (answer l tag 0x03 r v)
      ((4 ≤ nat1 body 0 ∨ (s.tenant u).enabled = false) → replies .invalid) ∧
      ∀ c : ChannelId, nat1 body 0 = c.val → (s.tenant u).enabled = true →
        let x := s.channel u c
        (x.state = .idle → x.reportPending = true ∨ x.outstanding.isSome = true → replies .pending) ∧
        (x.state = .idle → x.reportPending = false → x.outstanding = none → replies .idle) ∧
        (x.state ≠ .idle →
          let held := (x.held.map fun m => m.bytes.length).getD 0
          let withdrawn := ((notTaken x).map fun m => m.bytes.length).getD 0
          ∃ w y t, exec (.halt l tag body) s = .next (answer l tag 0x03 .stopped t) ∧
            channelsBut u c s w ∧
            w.channel u c = { x with held := none, resubmissions := 0,
                                     outstanding := (if (notTaken x).isSome then none else x.outstanding) } ∧
            (∀ z d, w.target z d = if z = u ∧ d = c then none else s.target z d) ∧
            w = { v with pe := { s.pe with channels := w.pe.channels }, tb := { s.tb with compare := w.tb.compare } } ∧
            endsWith u c .halted x.index (x.buffer.length + held + withdrawn) w y ∧
            (∀ z : TenantId, t.pe.counters[z] = if z = u then
              { s.pe.counters[z] with halts := satInc s.pe.counters[z].halts } else s.pe.counters[z]) ∧
            t = { y with pe := { y.pe with counters := t.pe.counters } }))

/-- SQ takes a channel's submission once, PE takes SQ's answer as the closing word's flags direct, and a resubmission either returns the
channel to RUNNING or leaves it holding the message (R109, R134 to R136, R142). The model's choices: the word a channel holds, the
moment of its fetch and the index shown from then on (log 8), the form of an outstanding submission (log 9), the count of
resubmissions owed (log 10), an answer that reaches a channel no longer RUNNING changes no tenant counter (log 19), the index that
REPORT DONE names (log 38), and that after an accepted resubmission the channel continues when its next word executes or a step
finds nothing waiting (log 41). -/
def Obligations.SubmissionsMeetTheQueueAndTheirFlags : Prop :=
  ∀ (s : State) (u : TenantId) (c : ChannelId) (m : Submission),
    let x := s.channel u c
    let st : StreamId := { tenant := u, cls := m.cls }
    let counted (k : PeCounters → PeCounters) (v : State) : Prop :=
      ∀ y : TenantId, v.pe.counters[y] = if y = u then k s.pe.counters[y] else s.pe.counters[y]
    let taken (f : Channel) (k : PeCounters → PeCounters) (v : State) : Prop :=
      channelsBut u c s v ∧ v.channel u c = f ∧ counted k v ∧
        v = { s with pe := { s.pe with channels := v.pe.channels, counters := v.pe.counters } }
    let answered : Channel := { x with outstanding := none }
    let w := wordOf x
    (x.outstanding = some { message := m, answer := none } →
      ∃ v t r, exec (.channelSubmission u c) s = .next t ∧ admits st m.bytes m.originStamp m.originLock (.channel c) s v r ∧
        channelsBut u c v t ∧ t = { v with pe := { v.pe with channels := t.pe.channels } } ∧
        t.channel u c = { v.channel u c with outstanding := some { message := m, answer := some r } }) ∧
    (∀ r, x.outstanding = some { message := m, answer := some r } →
      (x.state = .running → r = .accepted → ∃ v t, exec (.submissionAnswer u c) s = .next t ∧
        taken { answered with submitted := min 65535 (x.submitted + 1) } (fun k => { k with submitted := satInc k.submitted }) v ∧
        continues u c w.cc v t) ∧
      (x.state = .running → r ≠ .accepted → w.wr = true → ∃ t, exec (.submissionAnswer u c) s = .next t ∧
        taken { answered with state := .waitingRoom, held := some m, resubmissions := 0 }
          (fun k => { k with roomWaits := satInc k.roomWaits }) t) ∧
      (x.state = .running → r ≠ .accepted → w.wr = false →
        ∃ v t, exec (.submissionAnswer u c) s = .next t ∧
          taken { answered with refused := min 65535 (x.refused + 1), discarded := min 256 (x.discarded + m.bytes.length),
                                prefetched := (if w.sr = true ∧ w.cc = true then none else x.prefetched) }
            (fun k => { k with refused := satInc k.refused }) v ∧
          ((w.sr = true ∧ w.cc = true) → fetches u c (x.index + 2) v t) ∧
          (¬(w.sr = true ∧ w.cc = true) → continues u c w.cc v t)) ∧
      (x.state ≠ .running → ∃ t, exec (.submissionAnswer u c) s = .next t ∧
        taken (if r = .accepted then { answered with submitted := min 65535 (x.submitted + 1) }
          else { answered with refused := min 65535 (x.refused + 1) }) id t)) ∧
    (x.state = .waitingRoom → x.held = some m → 0 < x.resubmissions →
      ∃ a v r, channelsBut u c s a ∧ a = { s with pe := { s.pe with channels := a.pe.channels } } ∧
        a.channel u c = { x with resubmissions := x.resubmissions - 1 } ∧
        admits st m.bytes m.originStamp m.originLock (.channel c) a v r ∧
        (r ≠ .accepted → exec (.resubmission u c) s = .next v) ∧
        (r = .accepted → ∃ b, exec (.resubmission u c) s = .next b ∧ channelsBut u c v b ∧
          b.channel u c = { x with state := .running, finished := true, held := none, resubmissions := 0,
                                   submitted := min 65535 (x.submitted + 1) } ∧
          counted (fun k => { k with submitted := satInc k.submitted }) b ∧
          b = { v with pe := { v.pe with channels := b.pe.channels, counters := b.pe.counters } }))

/-- R126 and R127: a load writes every word or byte it carries, each with good parity, inside the tenant's own partition, and is
answered ACCEPTED; one that names no word or byte is refused with BAD_VALUE, and one that names any at or beyond the partition
size with RANGE, and writes nothing. It is taken whether or not the tenant is enabled and in every state of its channels. -/
def Obligations.LoadsWriteTheirPartition : Prop :=
  ∀ (s : State) (u : TenantId) (tag : Tag) (body : List Byte), s.pe.program.wf = true → s.pe.template.wf = true →
    let l := tenantLane u
    let v := countRequest l s
    let g := (s.tenant u).grant
    let start := fieldNat body 0 2
    (let n := nat1 body 2
     let a := 8 * (g.programBase + start)
     (n = 0 → exec (.loadp l tag body) s = .next (answer l tag 0x04 (.refused .badValue) v)) ∧
     (body.length = 3 + 8 * n → 1 ≤ n → n ≤ 128 →
       (g.programSize < start + n → exec (.loadp l tag body) s = .next (answer l tag 0x04 (.refused .range) v)) ∧
       (start + n ≤ g.programSize → ∃ t, exec (.loadp l tag body) s = .next (answer l tag 0x04 .accepted t) ∧
         t = { v with pe := { s.pe with program := t.pe.program, programFaults := t.pe.programFaults } } ∧
         (∀ i, i < 8 * n → Memory.read t.pe.program (a + i) = byteAt body (3 + i)) ∧
         (∀ k, (k < a ∨ a + 8 * n ≤ k) → Memory.read t.pe.program k = Memory.read s.pe.program k) ∧
         ∀ k, k ∈ t.pe.programFaults ↔
           k ∈ s.pe.programFaults ∧ ¬(g.programBase + start ≤ k ∧ k < g.programBase + start + n)))) ∧
    (let n := fieldNat body 2 2
     let a := 64 * g.templateBase + start
     (n = 0 → exec (.loadt l tag body) s = .next (answer l tag 0x05 (.refused .badValue) v)) ∧
     (body.length = 4 + n → 1 ≤ n → n ≤ 1024 →
       (64 * g.templateSize < start + n → exec (.loadt l tag body) s = .next (answer l tag 0x05 (.refused .range) v)) ∧
       (start + n ≤ 64 * g.templateSize → ∃ t, exec (.loadt l tag body) s = .next (answer l tag 0x05 .accepted t) ∧
         t = { v with pe := { s.pe with template := t.pe.template, templateFaults := t.pe.templateFaults } } ∧
         (∀ i, i < n → Memory.read t.pe.template (a + i) = byteAt body (4 + i)) ∧
         (∀ k, (k < a ∨ a + n ≤ k) → Memory.read t.pe.template k = Memory.read s.pe.template k) ∧
         ∀ k, k ∈ t.pe.templateFaults ↔ k ∈ s.pe.templateFaults ∧ ¬(a ≤ k ∧ k < a + n))))

/-! ## Streams -/

/-- CARRY from a tenant that is not enabled is refused with DISABLED; from an enabled one it is admitted or refused by SQ, with the
stamp of its arrival (R108 to R110, R162). The stamp is captured as the command executes (log 5). -/
def Obligations.CarryIsAdmittedOrRefused : Prop :=
  ∀ (s : State) (u : TenantId) (tag : Tag) (cls : TClass) (payload : List Byte), payload.length ≤ 256 →
    let l := tenantLane u
    let v := countRequest l s
    let body : List Byte := BitVec.ofNat 8 (match cls with | .u => 0 | .m => 1 | .b => 2) :: toBE 2 payload.length ++ payload
    ((s.tenant u).enabled = false →
      exec (.carry l tag body) s = .next (answer l tag 0x01 (.refused .disabled) v)) ∧
    ((s.tenant u).enabled = true →
      ∃ t r, exec (.carry l tag body) s = .next (answer l tag 0x01
          (match r with | .accepted => .accepted | .full => .refused .full | .quota => .refused .quota) t) ∧
        admits { tenant := u, cls := cls } payload (BitVec.ofNat 48 s.tb.count.toNat) (decide (s.tb.state = .locked)) .carry v t r)

/-- ROUTE_WAIT_EXPIRY drops a head that has not launched, and STALL_EXPIRY cuts a launching copy, after which the message carries on, is
DONE, relaunches, or is dropped at its relaunch limit (R111, R112, R116 to R118). The model's choices: a timer command is taken
wherever its timer runs (log 4), and the count of resubmissions owed to a channel (log 10). -/
def Obligations.ExpiredHeadsLeaveOrRelaunch : Prop :=
  ∀ (s : State) (st : StreamId) (m : Message) (rest : List Message), (s.stream st).queue = m :: rest →
    let x := s.stream st
    let limit := (s.tenant st.tenant).settings.routeWait.get st.cls * 160000
    (m.life ≠ .launching → m.routeWait.isSome = true →
      ∃ t, exec (.routeWaitExpiry st) s = .next t ∧
        headLeaves st m (some .expired) (fun y => { y with
          dropped := satInc y.dropped, counters := { y.counters with dropsExpired := satInc y.counters.dropsExpired } }) s t) ∧
    (∀ (name : CopyName) (c : Copy), m.life = .launching → c.state = .launching → c.stall.isSome = true →
      (match name with | .a => m.copyA | .b => m.copyB) = some c →
      let other := match name with | .a => m.copyB | .b => m.copyA
      let gone : Copy := { c with state := .cut, stall := none }
      let k : SqCounters := { x.counters with cutsStall := satInc x.counters.cutsStall }
      let without : Prop := ∀ o ∈ other, o.state = .cut
      ∃ t, exec (.stallExpiry st name) s = .next t ∧
        (∀ o, other = some o → o.state = .launching → streamsBut st s t ∧
          t = { s with sq := { s.sq with streams := t.sq.streams } } ∧
          t.stream st = { x with counters := k, queue := (match name with
            | .a => { m with copyA := some gone } | .b => { m with copyB := some gone }) :: rest }) ∧
        (∀ o, other = some o → o.state = .launched →
          headLeaves st m none (fun y => { y with completed := satInc y.completed, counters := k }) s t) ∧
        (without → m.relaunchCount < 2 → streamsBut st s t ∧
          t = { s with sq := { s.sq with streams := t.sq.streams }, rs := { t.rs with paths := s.rs.paths } } ∧
          t.stream st = { x with
            counters := { k with relaunches := satInc k.relaunches },
            queue := rerouted t st { m with relaunchCount := m.relaunchCount + 1, relaunched := true, copyA := none, copyB := none,
                                            life := .headUnrouted, routeWait := some limit } :: rest }) ∧
        (without → 2 ≤ m.relaunchCount →
          headLeaves st m (some .relaunchLimit) (fun y => { y with
            dropped := satInc y.dropped, counters := { k with dropsRelaunch := satInc k.dropsRelaunch } }) s t))

/-! ## Receive and delivery -/

/-- R152: each completed message is judged against its stream's record by its sequence: accepted by a fresh record, ahead of the
highest accepted sequence, or in a clear place of the window; else a duplicate, or stale. -/
def Obligations.DuplicateRemovalByWindow : Prop :=
  ∀ (m : Completed) (s : State),
    let st := m.stream
    let r := s.record st
    let d := (m.seq - r.highest).toNat
    let b := (r.highest - m.seq).toNat
    let counted (k : RdStreamCounters → RdStreamCounters) (t : State) : Prop :=
      (∀ i : Fin 24, t.rd.streamCounters[i] = if i = streamIdx st then k s.rd.streamCounters[i] else s.rd.streamCounters[i]) ∧
        t = { s with rd := { s.rd with records := t.rd.records, streamCounters := t.rd.streamCounters } }
    let accepted (r' : RecvRecord) : Prop :=
      ∃ t, recordsBut st s t ∧ t.record st = r' ∧ counted (fun k => { k with accepted := satInc k.accepted }) t ∧
        takeCompleted m s = (match (s.tenant st.tenant).settings.delivery.get st.cls with
          | .arrival => deliver m t
          | .ordered => ordered m t)
    let duplicate : Prop :=
      (takeCompleted m s).rd.records = s.rd.records ∧ counted (fun k => { k with duplicates := satInc k.duplicates }) (takeCompleted m s)
    (r.fresh = true → accepted { r with fresh := false, highest := m.seq, window := 0 }) ∧
    (r.fresh = false → d = 0 → duplicate) ∧
    (r.fresh = false → 1 ≤ d → d < 2 ^ 23 → ∃ w, accepted { r with highest := m.seq, window := w } ∧
      ∀ i < 64, w.getLsbD i = (decide (i + 1 = d) || (decide (d ≤ i) && r.window.getLsbD (i - d)))) ∧
    (r.fresh = false → 2 ^ 23 ≤ d → b ≤ 64 → r.window.getLsbD (b - 1) = true → duplicate) ∧
    (r.fresh = false → 2 ^ 23 ≤ d → b ≤ 64 → r.window.getLsbD (b - 1) = false → ∃ w, accepted { r with window := w } ∧
      ∀ i < 64, w.getLsbD i = (decide (i + 1 = b) || r.window.getLsbD i)) ∧
    (r.fresh = false → 2 ^ 23 ≤ d → 64 < b →
      (takeCompleted m s).rd.records = s.rd.records ∧ counted (fun k => { k with stale := satInc k.stale }) (takeCompleted m s))

/-- ORDERED delivery by Table 9-1, the full hold queue, HOLD_TIMER_EXPIRY with its skip and drain, one delivery to LI, and REASM_TIMEOUT
(R148, R150, R154 to R156, R159). The model's choices: a timer command is taken wherever its timer runs (log 4), and an accepted
message whose sequence is already held is discarded, counted as accepted and no more, the held one staying (log 42). -/
def Obligations.OrderedDeliveryHoldsSkipsAndResynchronises : Prop :=
  (∀ (m : Completed) (s : State),
    ((s.tenant m.stream.tenant).enabled = true → deliver m s = pushEntry (tenantLane m.stream.tenant) (.deliver m)
      (s.countRd m.stream fun k => { k with delivered := satInc k.delivered })) ∧
    ((s.tenant m.stream.tenant).enabled = false →
      deliver m s = s.countRd m.stream fun k => { k with disabledDiscards := satInc k.disabledDiscards })) ∧
  (∀ (m : Completed) (s : State),
    let st := m.stream
    let r := s.record st
    let limit := some ((s.tenant st.tenant).settings.hold.get st.cls * 160000)
    let after (a b : List Completed) : RecvRecord :=
      { r with nextSeq := some (m.seq + 1 + BitVec.ofNat 24 a.length), hold := b,
               holdTimer := if b = [] then none else if a = [] then r.holdTimer else limit }
    (r.nextSeq = none → r.hold = [] → ordered m s = deliversAll st [m] { r with nextSeq := some (m.seq + 1) } id s) ∧
    ∀ n, r.nextSeq = some n →
      let e := (m.seq - n).toNat
      (∀ a b, e = 0 → drainsInto (m.seq + 1) r.hold a b → ordered m s = deliversAll st (m :: a) (after a b) id s) ∧
      (1 ≤ e → e < 64 → (∃ x ∈ r.hold, x.seq = m.seq) → ordered m s = s) ∧
      (∀ a b, 1 ≤ e → e < 64 → (∀ x ∈ r.hold, x.seq ≠ m.seq) → r.hold.length < 16 → r.hold = a ++ b → (∀ x ∈ a, (x.seq - n).toNat < e) →
        (∀ x ∈ b.head?, e < (x.seq - n).toNat) →
        ordered m s = deliversAll st [] { r with hold := a ++ m :: b, holdTimer := if r.hold = [] then limit else r.holdTimer }
          id s) ∧
      (∀ h rest, 1 ≤ e → e < 64 → (∀ x ∈ r.hold, x.seq ≠ m.seq) → r.hold = h :: rest → r.hold.length = 16 →
        (∀ a b, e < (h.seq - n).toNat → drainsInto (m.seq + 1) r.hold a b →
          ordered m s = deliversAll st (m :: a) (after a b) (gapOf e) s) ∧
        ((h.seq - n).toNat < e → ordered m s = ordered m (skip st s))) ∧
      (64 ≤ e → e < 2 ^ 23 - 1 → ordered m s = deliversAll st (r.hold ++ [m])
        { r with nextSeq := some (m.seq + 1), hold := [], holdTimer := none }
        (fun k => { gapOf (e - r.hold.length) k with resyncs := satInc k.resyncs }) s) ∧
      (2 ^ 23 - 1 ≤ e → ordered m s = deliversAll st [] r (fun k => { k with late := satInc k.late }) s)) ∧
  (∀ (st : StreamId) (s : State) (n : Seq) (h : Completed) (a b : List Completed),
    let r := s.record st
    let limit := some ((s.tenant st.tenant).settings.hold.get st.cls * 160000)
    r.nextSeq = some n → r.hold.head? = some h → drainsInto h.seq r.hold a b →
      let t := deliversAll st a { r with nextSeq := some (h.seq + BitVec.ofNat 24 a.length), hold := b,
                                         holdTimer := if b = [] then none else limit } (gapOf (h.seq - n).toNat) s
      skip st s = t ∧ (r.holdTimer.isSome = true → exec (.holdTimerExpiry st) s = .next t)) ∧
  ∀ (p : PathId) (st : StreamId) (s : State), (s.context p st).isSome = true →
    ∃ t, exec (.reasmTimeout p st) s = .next t ∧ contextsBut p st s t ∧ t.context p st = none ∧
      (∀ q : PathId, t.rd.pathCounters[q] = if q = p then
        { s.rd.pathCounters[q] with timeout := satInc s.rd.pathCounters[q].timeout } else s.rd.pathCounters[q]) ∧
      t = { s with rd := { s.rd with contexts := t.rd.contexts, pathCounters := t.rd.pathCounters } }

/-! ## Tenants -/

/-- STREAMSET stores clamped settings, re-chooses the tenant's heads where a dual mode or the tie policy changed, and makes fresh the
records of the classes whose delivery mode changed, delivering what they held first (R151, R158, R165). The model's choices: a fresh
record keeps H (log 16), and what several classes hold is delivered in the order U, M, B (log 36). -/
def Obligations.StreamsetStoresAndTakesEffect : Prop :=
  ∀ (s : State) (u : TenantId) (tag : Tag) (x : StreamSettings),
    (∀ cls, x.routeWait.get cls < 65536 ∧ x.hold.get cls < 65536) →
    let l := tenantLane u
    let v := countRequest l s
    let old := (s.tenant u).settings
    let dual (d : DualMode) : Byte := match d with | .off => 0 | .onDegrade => 1 | .always => 2
    let mode (d : DeliveryMode) : Byte := match d with | .arrival => 0 | .ordered => 1
    let body : List Byte := [dual x.dualU, dual x.dualM, match x.tie with | .fixed => 0 | .last => 1 | .spread => 2] ++
      toBE 2 x.routeWait.u ++ toBE 2 x.routeWait.m ++ toBE 2 x.routeWait.b ++
      [mode x.delivery.u, mode x.delivery.m, mode x.delivery.b] ++ toBE 2 x.hold.u ++ toBE 2 x.hold.m ++ toBE 2 x.hold.b
    let raised (y : PerClass Nat) : PerClass Nat := { u := max 1 y.u, m := max 1 y.m, b := max 1 y.b }
    let new : StreamSettings := { x with routeWait := raised x.routeWait, hold := raised x.hold }
    let turned (cls : TClass) : Bool := decide (new.delivery.get cls ≠ old.delivery.get cls)
    let held := [TClass.u, .m, .b].flatMap fun cls => if turned cls then (s.record { tenant := u, cls := cls }).hold else []
    ∃ t w, exec (.streamset l tag body) s = .next (answer l tag 0x06 .accepted t) ∧
      tenantsBut u s w ∧ w.tenant u = { s.tenant u with settings := new } ∧
      w = { v with li := { v.li with tenants := w.li.tenants } } ∧ t.li = (deliverAll held w).li ∧
      (∀ st : StreamId, t.stream st = if st.tenant = u ∧ (new.dualU ≠ old.dualU ∨ new.dualM ≠ old.dualM ∨ new.tie ≠ old.tie) then
          { s.stream st with queue := (s.stream st).queue.modifyHead (rerouted t st) } else s.stream st) ∧
      (∀ st : StreamId, t.record st = if st.tenant = u ∧ turned st.cls = true then
          { s.record st with fresh := true, window := 0, nextSeq := none, hold := [], holdTimer := none } else s.record st) ∧
      t.rd.streamCounters = (deliverAll held w).rd.streamCounters ∧
      t = { s with sq := { s.sq with streams := t.sq.streams }, rs := { t.rs with paths := s.rs.paths },
                   rd := { s.rd with records := t.rd.records, streamCounters := t.rd.streamCounters }, li := t.li }

/-- TENANTSET by the seven tests of R163 in order, then the whole grant at once with a re-choice where route choice reads a change;
TENANTON and TENANTOFF (R91, R125, R143, R163, R164). The model's choices: the form of an outstanding submission (log 9) and of the
resubmissions owed (log 10), the queued REPORTs that TENANTOFF unmarks (log 11), and that the channels it stops count as no halts
(log 20). -/
def Obligations.TenantsAreSetAndSwitched : Prop :=
  ∀ (s : State) (tag : Tag) (body : List Byte),
    let v := countRequest mgmtLane s
    let field (i : Nat) : Nat := fieldNat body i 2
    let mask (i : Nat) : BitVec 6 := BitVec.ofNat 6 (nat1 body i)
    let budget (i : Nat) : Nat := min 4095 (field i)
    let g : TenantGrant :=
      { programBase := field 1, programSize := field 3, templateBase := field 5, templateSize := field 7,
        quota := min 2048 (field 9), masks := { u := mask 11, m := mask 12, b := mask 13 },
        fallbackU := (byteAt body 14).getLsbD 0, fallbackM := (byteAt body 14).getLsbD 1, openAccess := mask 15,
        budgets := Vector.ofFn fun p =>
          { clear := budget (16 + 6 * p.val), watch := budget (18 + 6 * p.val), fading := budget (20 + 6 * p.val) } }
    let u8 := nat1 body 0
    (body.length = 52 →
      let replies (r : Reply) (t : State) : Prop := exec (.tenantset mgmtLane tag body) s = .next (answer mgmtLane tag 0x1A r t)
      (8 ≤ u8 → replies (.refused .badIndex) v) ∧
      ∀ u : TenantId, u8 = u.val →
        let old := (s.tenant u).grant
        let beyond : Prop := 4096 < g.programBase + g.programSize ∨ 1024 < g.templateBase + g.templateSize
        let overlaps : Prop := ∃ y, y ≠ u ∧
          (share g.programBase g.programSize (s.tenant y).grant.programBase (s.tenant y).grant.programSize ∨
            share g.templateBase g.templateSize (s.tenant y).grant.templateBase (s.tenant y).grant.templateSize)
        let moves : Prop := ¬(g.programBase = old.programBase ∧ g.programSize = old.programSize ∧
          g.templateBase = old.templateBase ∧ g.templateSize = old.templateSize)
        let busy : Prop := moves ∧ ∃ c, (s.channel u c).state ≠ .idle
        let quotas : Prop := 2048 < (allTenants.map fun y => if y = u then g.quota else (s.tenant y).grant.quota).sum ∨
          g.quota < occupancy s u
        let routed : Prop := ¬(g.masks = old.masks ∧ g.fallbackU = old.fallbackU ∧ g.fallbackM = old.fallbackM ∧
          g.openAccess = old.openAccess)
        (beyond → replies (.refused .range) v) ∧ (¬beyond → overlaps → replies (.refused .overlap) v) ∧
        (¬beyond → ¬overlaps → busy → replies (.refused .busy) v) ∧
        (¬beyond → ¬overlaps → ¬busy → quotas → replies (.refused .quota) v) ∧
        (¬beyond → ¬overlaps → ¬busy → ¬quotas → ∃ t, replies .accepted t ∧ tenantsBut u s t ∧
          t.tenant u = { s.tenant u with grant := g } ∧
          (routed → ∀ st, t.stream st = if st.tenant = u then
            { s.stream st with queue := (s.stream st).queue.modifyHead (rerouted t st) } else s.stream st) ∧
          (¬routed → t.sq = s.sq ∧ t.rs = s.rs) ∧
          t = { v with sq := { s.sq with streams := t.sq.streams }, rs := { t.rs with paths := s.rs.paths },
                       li := { v.li with tenants := t.li.tenants } })) ∧
    (body.length = 1 → 8 ≤ u8 →
      exec (.tenanton mgmtLane tag body) s = .next (answer mgmtLane tag 0x1B (.refused .badIndex) v) ∧
      exec (.tenantoff mgmtLane tag body) s = .next (answer mgmtLane tag 0x1C (.refused .badIndex) v)) ∧
    ∀ u : TenantId, body.length = 1 → u8 = u.val →
      (∃ t, exec (.tenanton mgmtLane tag body) s = .next (answer mgmtLane tag 0x1B .accepted t) ∧ tenantsBut u s t ∧
        t.tenant u = { s.tenant u with enabled := true } ∧ t = { v with li := { v.li with tenants := t.li.tenants } }) ∧
      ((s.tenant u).enabled = false → exec (.tenantoff mgmtLane tag body) s = .next (answer mgmtLane tag 0x1C .accepted v)) ∧
      ((s.tenant u).enabled = true →
        ∃ t, exec (.tenantoff mgmtLane tag body) s = .next (answer mgmtLane tag 0x1C .accepted t) ∧ tenantsBut u s t ∧
          t.tenant u = { s.tenant u with enabled := false } ∧
          t = { v with tb := { s.tb with compare := t.tb.compare }, pe := { s.pe with channels := t.pe.channels },
                       li := { v.li with tenants := t.li.tenants, lanes := t.li.lanes } } ∧
          (∀ k, k ≠ tenantLane u → t.lane k = v.lane k) ∧
          t.lane (tenantLane u) = { v.lane (tenantLane u) with queue := (v.lane (tenantLane u)).queue.map fun e =>
            match e with | .report r => .report { r with clearsPending := false } | _ => e } ∧
          (∀ y c, y ≠ u → t.channel y c = s.channel y c ∧ t.target y c = s.target y c) ∧
          ∀ c, let x := s.channel u c
            (x.state = .idle → t.channel u c = { x with reportPending := false } ∧ t.target u c = s.target u c) ∧
            (x.state ≠ .idle →
              let lost := x.buffer.length + ((x.held.map fun m => m.bytes.length).getD 0) +
                ((notTaken x).map fun m => m.bytes.length).getD 0
              t.target u c = none ∧ t.channel u c = { x with
                state := .idle, word := none, finished := false, prefetched := none, buffer := [], held := none, resubmissions := 0,
                discarded := min 256 (x.discarded + lost), reportPending := false,
                outstanding := (if (notTaken x).isSome then none else x.outstanding) }))

/-- TENANTRESET of a tenant: its streams are cut and emptied, its channels, compare entries, contexts, records, budgets and lane are
cleared, and nothing of another tenant's changes; the ABORTs that its cuts owe are counted on their paths, as replaced where one was
owed already (R33, R94, R119, R120, R143, R145, R151, R164). The model's choices: a fresh record keeps H (log 16), the channels it
stops count as no halts (log 20), and a stream empties in one event, in which no message becomes head and route choice counts
nothing (log 29). -/
def Obligations.TenantResetClearsTheTenant : Prop :=
  ∀ (s : State) (tag : Tag) (body : List Byte), body.length = 1 →
    let v := countRequest mgmtLane s
    (8 ≤ nat1 body 0 → exec (.tenantreset mgmtLane tag body) s = .next (answer mgmtLane tag 0x1D (.refused .badIndex) v)) ∧
    ∀ u : TenantId, nat1 body 0 = u.val →
      ∃ t, exec (.tenantreset mgmtLane tag body) s = .next (answer mgmtLane tag 0x1D .accepted t) ∧
        (∀ st, st.tenant ≠ u → t.stream st = s.stream st ∧ t.record st = s.record st ∧
          t.rd.streamCounters[streamIdx st] = s.rd.streamCounters[streamIdx st] ∧ ∀ p, t.context p st = s.context p st) ∧
        (∀ st, st.tenant = u → (∀ p, t.context p st = none) ∧
          t.record st = { s.record st with fresh := true, window := 0, nextSeq := none, hold := [], holdTimer := none } ∧
          t.rd.streamCounters[streamIdx st] = { s.rd.streamCounters[streamIdx st] with
            holdDiscards := satAdd s.rd.streamCounters[streamIdx st].holdDiscards (s.record st).hold.length } ∧
          let x := s.stream st
          let n := x.queue.length
          let launching (c : Option Copy) : Bool := match c with | some y => decide (y.state = .launching) | none => false
          (x.queue = [] → t.stream st = { x with dropped := satAdd x.dropped 0, counters := { x.counters with
            dropsReset := satAdd x.counters.dropsReset 0 } }) ∧
          ∀ m rest, x.queue = m :: rest →
            let cuts := [m.copyA, m.copyB].countP launching
            (t.stream st).queue = [] ∧ (t.stream st).seqCounter = x.seqCounter ∧ (t.stream st).lastPath = x.lastPath ∧
            (t.stream st).admitted = x.admitted ∧ (t.stream st).completed = x.completed ∧ (t.stream st).dropped = satAdd x.dropped n ∧
            (t.stream st).counters = { x.counters with
              cutsReset := satAdd x.counters.cutsReset cuts, dropsReset := satAdd x.counters.dropsReset n } ∧
            ∀ p : PathId,
              let owes : Prop := ∃ c, (m.copyA = some c ∨ m.copyB = some c) ∧ c.state = .launching ∧ c.path = p ∧ 0 < c.nextFrag ∧
                (s.port p).faultState = .working
              (owes → (t.stream st).owed[p] = some (m.seq.getD 0)) ∧ (¬owes → (t.stream st).owed[p] = x.owed[p])) ∧
        (∀ c, t.channel u c = {} ∧ t.target u c = none) ∧
        (∀ y c, y ≠ u → t.channel y c = s.channel y c ∧ t.target y c = s.target y c) ∧
        (∀ p, t.plan p = { s.plan p with used := (s.plan p).used.set u 0 }) ∧
        (∀ p : PathId, t.sq.aborts[p] = abortsCounted (streamsOf u) s p) ∧
        (∀ k, k ≠ tenantLane u → t.lane k = v.lane k) ∧
        (∀ y : TenantId, t.li.lossFlags[y] = if y = u then false else s.li.lossFlags[y]) ∧
        t.lane (tenantLane u) = { v.lane (tenantLane u) with
          queue := [],
          counters := { (v.lane (tenantLane u)).counters with
            answerLost := satAdd (v.lane (tenantLane u)).counters.answerLost
              ((v.lane (tenantLane u)).queue.countP fun e => match e with | .answer _ => true | _ => false) } } ∧
        t = { s with tb := { s.tb with compare := t.tb.compare }, cs := { s.cs with plans := t.cs.plans },
                     sq := { s.sq with streams := t.sq.streams, aborts := t.sq.aborts },
                     pe := { s.pe with channels := t.pe.channels },
                     rd := { s.rd with contexts := t.rd.contexts, records := t.rd.records, streamCounters := t.rd.streamCounters },
                     li := { s.li with lanes := t.li.lanes, lossFlags := t.li.lossFlags } }

/-! ## The operator's views and resets -/

/-- QUERY and READ answer with a view and change nothing: whole items in order from the first field asked for, as many as fit; an
index outside its area is refused (R166, R173). The width of each field, and into how many items several values divide, are the
model's choices (logs 15, 40). -/
def Obligations.ViewsAnswerWholeItems : Prop :=
  let fits (first : Nat) (view : List (List Byte)) (items : List (Nat × List Byte)) : Prop :=
    let k := max 1 first
    let size (l : List (Nat × List Byte)) : Nat := (l.map fun i => 4 + i.2.length).sum
    (∀ j (h : j < items.length), view[k - 1 + j]? = some items[j].2 ∧ items[j].1 = k + j) ∧ size items ≤ 1489 ∧
      ∀ x, view[k - 1 + items.length]? = some x → 1489 < size items + 4 + x.length
  (∀ (s : State) (u : TenantId) (tag : Tag) (body : List Byte), body.length = 2 →
    ∃ items, exec (.query (tenantLane u) tag body) s =
        .next (answer (tenantLane u) tag 0x07 (.data items) (countRequest (tenantLane u) s)) ∧
      fits (fieldNat body 0 2) (queryView s u) items) ∧
  ∀ (s : State) (tag : Tag) (body : List Byte) (area : Fin 13), body.length = 5 → nat1 body 0 = area.val →
    let i := fieldNat body 1 2
    let range := ([6, 72, 6, 8, 24, 32, 24, 144, 6, 1, 6, 9, 1] : List Nat).getD area 0
    let v := countRequest mgmtLane s
    (range ≤ i → exec (.read mgmtLane tag body) s = .next (answer mgmtLane tag 0x20 (.refused .badIndex) v)) ∧
    (i < range → ∃ items view, exec (.read mgmtLane tag body) s = .next (answer mgmtLane tag 0x20 (.data items) v) ∧
      readView v area i = some view ∧ fits (fieldNat body 3 2) view items)

/-- COUNTCLEAR zeroes every counter of the chapters and nothing else (R17, R37, R54, R74, R93, R106, R121, R122, R144, R160, R167). That
the request itself is not counted after the zeroing is the model's reading (log 24). -/
def Obligations.CountclearZeroesTheCounters : Prop :=
  ∀ (s : State) (tag : Tag), ∃ t, exec (.countclear mgmtLane tag []) s = .next (answer mgmtLane tag 0x21 .accepted t) ∧
    t.pending = s.pending ∧ (∀ p, t.port p = { s.port p with counters := {} }) ∧ t.tb = { s.tb with counters := {} } ∧
    (∀ p, t.puPath p = { s.puPath p with counters := {} }) ∧ t.pu = { s.pu with paths := t.pu.paths, peerRestarts := 0 } ∧
    t.hs = { s.hs with counters := t.hs.counters } ∧ (∀ p : PathId, t.hs.counters[p] = {}) ∧
    t.rs = { s.rs with counters := t.rs.counters, unroutedHeads := 0 } ∧ (∀ p : PathId, t.rs.counters[p] = {}) ∧
    (∀ p, t.plan p = { s.plan p with counters := {} }) ∧ t.cs = { s.cs with plans := t.cs.plans, windows := 0 } ∧
    (∀ st, t.stream st = { s.stream st with counters := {} }) ∧ (∀ p : PathId, t.sq.aborts[p] = {}) ∧ t.sq.store = s.sq.store ∧
    t.pe = { s.pe with counters := t.pe.counters, storeFaults := 0 } ∧ (∀ u : TenantId, t.pe.counters[u] = {}) ∧
    t.rd = { s.rd with pathCounters := t.rd.pathCounters, streamCounters := t.rd.streamCounters } ∧
    (∀ p : PathId, t.rd.pathCounters[p] = {}) ∧ (∀ i : Fin 24, t.rd.streamCounters[i] = {}) ∧
    (∀ l, t.lane l = { s.lane l with counters := {} }) ∧ t.li = { s.li with lanes := t.li.lanes }

/-- RESTART: every block as its chapter states, the Tenant Table, the plans, the time base and the stores kept, and the answer the first
entry of the new queue (R33, R38, R51, R56, R76, R94, R107, R143, R145, R151, R167). The model's choices: what the freed cells of
the store read as (log 13), a fresh record keeps H (log 16), the counters are zeroed last (log 24), and what no chapter names, such
as the place in the cycle and the output lines, is kept (log 32). -/
def Obligations.RestartActsInEveryBlock : Prop :=
  ∀ (s : State) (tag : Tag), PathsOk s →
    ∃ t, exec (.restart mgmtLane tag []) s = .next (answer mgmtLane tag 0x22 .accepted t) ∧
      t.pending = s.pending ∧ (∀ p, t.port p = { s.port p with counters := {} }) ∧
      t.tb = { s.tb with counters := {}, compare := t.tb.compare } ∧ (∀ u c, t.target u c = none) ∧
      (t.pu.startMark = some (if BitVec.ofNat 32 s.tb.count.toNat = 0 then 1 else BitVec.ofNat 32 s.tb.count.toNat) ∧
        t.pu.peerMark = none ∧ t.pu.peerRestarts = 0) ∧
      (∀ p, let on := (s.path p).admin
        let works := (s.port p).faultState = .working
        t.puPath p = { number := 0, records := [], echoes := [], counters := {}, due := on && decide works,
                       timer := if on = true ∧ works then some ((s.path p).settings.probeIntervalMs * 16000000) else none }) ∧
      (∀ p h, t.hop p h = { s.hop p h with state := .lost, unreported := true, ring := [], averaged := none, rateStep := 0,
                                           reportTimer := none, dwellTimer := none }) ∧
      (t.hs.leakPeriodMs = s.hs.leakPeriodMs ∧ t.hs.leakTimer = s.hs.leakTimer ∧ ∀ p : PathId, t.hs.counters[p] = {}) ∧
      (∀ p, (s.path p).admin = false → t.path p = { s.path p with hopCond := t.condition p }) ∧
      (∀ p, (s.path p).admin = true → t.path p = { s.path p with
        state := .proving, hopCond := t.condition p, latency := { value := none, fresh := false, outlierRun := 0, losses := 0 },
        cost := none }) ∧
      (∀ p, ((s.path p).settings.kind = .microwave → (t.path p).hopCond.worst = .lost ∧ (t.path p).hopCond.usable = 0) ∧
        ((s.path p).settings.kind = .wireline → (t.path p).hopCond.worst = .clear ∧ (t.path p).hopCond.usable = 32)) ∧
      (t.rs.unroutedHeads = 0 ∧ ∀ p : PathId, t.rs.counters[p] = {}) ∧
      (∀ p, t.plan p = { s.plan p with counters := {}, used := .replicate 8 0 }) ∧
      t.cs = { s.cs with plans := t.cs.plans, windows := 0 } ∧ t.sq = State.reset.sq ∧
      (∀ u c, t.channel u c = {}) ∧ (∀ u : TenantId, t.pe.counters[u] = {}) ∧
      t.pe = { s.pe with channels := t.pe.channels, counters := t.pe.counters, storeFaults := 0 } ∧
      (∀ p st, t.context p st = none) ∧ (∀ p : PathId, t.rd.pathCounters[p] = {}) ∧ (∀ i : Fin 24, t.rd.streamCounters[i] = {}) ∧
      (∀ st, t.record st = { s.record st with fresh := true, window := 0, nextSeq := none, hold := [], holdTimer := none }) ∧
      t.li.tenants = s.li.tenants ∧ (∀ u : TenantId, t.li.lossFlags[u] = false) ∧
      ∀ l, t.lane l = { s.lane l with queue := [], counters := {} }

/-! ## Supervision -/

/-- PROBE_TIMER_EXPIRY, PROBE_EXPIRY, REPORT_TIMEOUT, DWELL_EXPIRY and LEAK_PULSE where their timer runs or their record is outstanding
(R39, R41, R64, R65, R67, R72, R73). The model's choices: a timer command is taken wherever its timer runs (log 4), and a loss run
at or above the limit is reported, so one above a lowered limit too (log 25). -/
def Obligations.SupervisionTimersAct : Prop :=
  (∀ (s : State) (p : PathId), (s.puPath p).timer.isSome = true →
    let y := s.puPath p
    ∃ t, exec (.probeTimerExpiry p) s = .next t ∧ probesBut p s t ∧ t = { s with pu := t.pu } ∧
      t.puPath p = { y with
        due := true, timer := some ((s.path p).settings.probeIntervalMs * 16000000),
        counters := (if y.due = true then { y.counters with slips := satInc y.counters.slips } else y.counters) }) ∧
  (∀ (s : State) (p : PathId) (a b : List ProbeRecord) (x : ProbeRecord), (s.puPath p).records = a ++ x :: b →
    (∀ z ∈ a, z.number ≠ x.number) →
    let y := s.puPath p
    let r := s.path p
    let run := r.latency.losses + 1
    ∃ u, probesBut p s u ∧ pathsBut p s u ∧ u = { s with pu := u.pu, rs := { s.rs with paths := u.rs.paths } } ∧
      u.puPath p = { y with records := a ++ b, counters := { y.counters with losses := satInc y.counters.losses } } ∧
      (run < r.settings.lossLimit → exec (.probeExpiry p x.number) s = .next u ∧
        u.path p = { r with latency := { r.latency with losses := run } }) ∧
      (r.settings.lossLimit ≤ run → exec (.probeExpiry p x.number) s = .next (rsLossLimit p u) ∧
        u.path p = { r with latency := { r.latency with losses := 0 } })) ∧
  (∀ (s : State) (p : PathId) (h : HopId), (s.hop p h).reportTimer.isSome = true →
    let x := s.hop p h
    let k := s.hs.counters[p]
    let y : Hop :=
      { x with state := .lost, ring := [], averaged := none, rateStep := 0, dwellTimer := none, reportTimer := none }
    ∃ u, exec (.reportTimeout p h) s = .next (handsOver p s u) ∧ hopsBut p h s u ∧ hopCountersBut p s u ∧ u.hop p h = y ∧
      u.hs.counters[p] = { k with timeouts := satInc k.timeouts,
                                  degradations := (if x.state = .lost then k.degradations else satInc k.degradations) } ∧
      u.li = (notified (if x.state ≠ .lost ∧ x.enables.lost = true then
        [.hopState p h x.state .lost .timeout none 0 (u.condition p).usable] else []) s).li ∧
      u = { s with hs := u.hs, li := u.li }) ∧
  (∀ (s : State) (p : PathId) (h : HopId) (up : HopState), (s.hop p h).dwellTimer.isSome = true →
    badness (s.hop p h).state = badness up + 1 →
    let x := s.hop p h
    let k := s.hs.counters[p]
    ∃ u, exec (.dwellExpiry p h) s = .next (handsOver p s u) ∧ hopsBut p h s u ∧ hopCountersBut p s u ∧
      u.hop p h = { x with state := up, dwellTimer := none } ∧
      u.hs.counters[p] = { k with recoveries := satInc k.recoveries } ∧
      u.li = (notified (if x.enables.recovery = true then
        [.hopState p h x.state up .dwell x.averaged x.rateStep (u.condition p).usable] else []) s).li ∧
      u = { s with hs := u.hs, li := u.li }) ∧
  ∀ s : State, ∃ t, exec .leakPulse s = .next t ∧
    t = { s with hs := { s.hs with hops := t.hs.hops, leakTimer := some (s.hs.leakPeriodMs * 16000000) } } ∧
    ∀ p h, let x := s.hop p h
      (x.secondary = x.leakDivider → t.hop p h = { x with secondary := 0, errorCount := x.errorCount - 1 }) ∧
      (x.secondary ≠ x.leakDivider → t.hop p h = { x with secondary := x.secondary + 1 })

/-- HOP_REPORT_FRAME on a working port: a frame that fails R14's tests is counted whole; an item of a good one is discarded for an OFF
path or a bad index, or enters the ring, is judged, counts its errors, is notified and hands the condition over (R14, R57 to R66,
R72, R73). A dwell of 0 ms ends within the report that starts it, the model's reading (log 22). -/
def Obligations.HopReportsDriveTheHop : Prop :=
  (∀ (s : State) (p : PathId) (frame : List Byte), (s.port p).faultState = .working →
    let k := (s.port p).counters
    let n := nat1 frame 0
    let passes : Prop := crcGood frame = true ∧ 1 ≤ n ∧ n ≤ 12 ∧ frame.length = 5 + 8 * n
    ∃ u, portsBut p s u ∧ u = { s with pp := u.pp } ∧
      (¬passes → exec (.hopReportFrame p frame) s = .next u ∧
        u.port p = { s.port p with counters := { k with reportFrameErrors := satInc k.reportFrameErrors } }) ∧
      (passes → ∃ items, decodeHopFrame frame = some items ∧ items.length = n ∧
        exec (.hopReportFrame p frame) s = .next (items.foldl (fun x i => takeItem p i x) u) ∧
        u.port p = { s.port p with counters := { k with reportFrames := satInc k.reportFrames } })) ∧
  ∀ (s : State) (p : PathId) (i : HopItem),
    let cfg := (s.path p).settings
    let k := s.hs.counters[p]
    let counted (f : HsCounters) : Prop := hopCountersBut p s (takeItem p i s) ∧ (takeItem p i s).hs.counters[p] = f ∧
      takeItem p i s = { s with hs := { s.hs with counters := (takeItem p i s).hs.counters } }
    ((s.path p).state = .off → counted { k with whileOff := satInc k.whileOff }) ∧
    ((s.path p).state ≠ .off → (cfg.hopCount ≤ i.index ∨ 12 ≤ i.index) → counted { k with badIndex := satInc k.badIndex }) ∧
    ∀ h : HopId, (s.path p).state ≠ .off → i.index = h.val → i.index < cfg.hopCount →
      let x := s.hop p h
      let ring := (if 8 ≤ x.ring.length then x.ring.tail else x.ring) ++ [max (-1000) (min 1000 i.margin)]
      let n := min (2 ^ x.avx) ring.length
      let avg := max (-1000) (min 1000 ((ring.drop (ring.length - n)).sum / (n : Int) + x.offset))
      let rate := min i.rateStep 7
      let level := levelOf cfg avg rate i.uncorrectable
      let base : Hop := { x with ring := ring, rateStep := rate, averaged := some avg,
                                 reportTimer := some (x.reportTimeoutMs * 16000000) }
      ∀ (y : Hop) (cause : Option HopCause), Judged cfg level avg base y cause →
        let errors := min 65535 (x.errorCount + i.corrected)
        let sets : Prop := x.overFlag = false ∧ x.errorThreshold ≤ errors
        ∃ u, takeItem p i s = handsOver p s u ∧ hopsBut p h s u ∧ hopCountersBut p s u ∧
          (sets → u.hop p h = { y with errorCount := errors, overFlag := true, blamed := some i.branch }) ∧
          (¬sets → u.hop p h = { y with errorCount := errors }) ∧
          (u.hs.counters[p].taken = satInc k.taken ∧
            u.hs.counters[p].degradations = (if cause = some .report then satInc k.degradations else k.degradations) ∧
            u.hs.counters[p].recoveries = (if cause = some .dwell then satInc k.recoveries else k.recoveries) ∧
            (sets → u.hs.counters[p].overEvents = satInc k.overEvents) ∧ (¬sets → u.hs.counters[p].overEvents = k.overEvents)) ∧
          (∀ flagged : List Notice, (sets → flagged = if x.enables.overEnable = true then
              [.overThreshold p h errors x.errorThreshold (some i.branch)] else []) → (¬sets → flagged = []) →
            u.li = (notified ((match cause with
              | none => []
              | some c => if enabledFor x.enables c y.state = true then
                [.hopState p h x.state y.state c (some avg) rate (u.condition p).usable] else []) ++ flagged) s).li) ∧
          u = { s with hs := u.hs, li := u.li }

/-- HOPCLEAR, HOPTAG, HOPUNTAG and HOPSET on a hop of any path in any state, with what each hands to RS (R68 to R70, R72, R73). -/
def Obligations.HopRequestsActOnOneHop : Prop :=
  ∀ (s : State) (tag : Tag) (body : List Byte),
    let v := countRequest mgmtLane s
    let outside : Prop := 6 ≤ nat1 body 0 ∨ 12 ≤ nat1 body 1
    (body.length = 2 → outside →
      exec (.hopclear mgmtLane tag body) s = .next (answer mgmtLane tag 0x17 (.refused .badIndex) v) ∧
      exec (.hoptag mgmtLane tag body) s = .next (answer mgmtLane tag 0x15 (.refused .badIndex) v) ∧
      exec (.hopuntag mgmtLane tag body) s = .next (answer mgmtLane tag 0x16 (.refused .badIndex) v)) ∧
    (body.length = 14 → outside →
      exec (.hopset mgmtLane tag body) s = .next (answer mgmtLane tag 0x11 (.refused .badIndex) v)) ∧
    ∀ (p : PathId) (h : HopId), nat1 body 0 = p.val → nat1 body 1 = h.val →
      let x := s.hop p h
      let hop (y : Hop) (u : State) : Prop :=
        hopsBut p h s u ∧ u.hop p h = y ∧ u = { v with hs := { s.hs with hops := u.hs.hops } }
      (body.length = 2 →
        (∃ u, hop { x with errorCount := 0, secondary := 0, overFlag := false, blamed := none } u ∧
          exec (.hopclear mgmtLane tag body) s = .next (answer mgmtLane tag 0x17 .accepted
            (if x.overFlag = true then rsHop p (u.condition p) u else u))) ∧
        (∃ u, hop { x with tagged := true } u ∧
          exec (.hoptag mgmtLane tag body) s = .next (answer mgmtLane tag 0x15 .accepted
            (if x.tagged = false ∧ h.val < (s.path p).settings.hopCount then rsHop p (u.condition p) u else u))) ∧
        (∃ u, hop { x with tagged := false } u ∧
          exec (.hopuntag mgmtLane tag body) s = .next (answer mgmtLane tag 0x16 .accepted
            (if x.tagged = true ∧ h.val < (s.path p).settings.hopCount then rsHop p (u.condition p) u else u)))) ∧
      (body.length = 14 →
        let e := byteAt body 10
        let period := max 1 (fieldNat body 12 2)
        let y : Hop := { x with
          avx := min 3 (nat1 body 2), offset := max (-100) (min 100 (fieldInt body 3 2)),
          errorThreshold := max 1 (fieldNat body 5 2), leakDivider := min 3 (nat1 body 7),
          secondary := (if min 3 (nat1 body 7) = x.leakDivider then x.secondary else 0),
          reportTimeoutMs := max 100 (min 5000 (fieldNat body 8 2)),
          enables := { watch := e.getLsbD 0, fading := e.getLsbD 1, lost := e.getLsbD 2, recovery := e.getLsbD 3,
                       overEnable := e.getLsbD 4 } }
        let sets : Prop := x.overFlag = false ∧ y.errorThreshold ≤ x.errorCount
        let k := s.hs.counters[p]
        ∃ u, hopsBut p h s u ∧ (∀ q : PathId, q ≠ p → u.hs.counters[q] = s.hs.counters[q]) ∧
          (u.hs.leakPeriodMs = (if byteAt body 11 = 0 then s.hs.leakPeriodMs else period) ∧
            u.hs.leakTimer = (if byteAt body 11 = 0 then s.hs.leakTimer else some (period * 16000000))) ∧
          u = { v with hs := u.hs, li := u.li } ∧
          (¬sets → u.hop p h = y ∧ u.hs.counters[p] = k ∧ u.li = v.li ∧
            exec (.hopset mgmtLane tag body) s = .next (answer mgmtLane tag 0x11 .accepted u)) ∧
          (sets → u.hop p h = { y with overFlag := true, blamed := none } ∧
            u.hs.counters[p] = { k with overEvents := satInc k.overEvents } ∧
            u.li = (notified (if y.enables.overEnable = true then
              [.overThreshold p h x.errorCount y.errorThreshold none] else []) v).li ∧
            exec (.hopset mgmtLane tag body) s = .next (answer mgmtLane tag 0x11 .accepted (rsHop p (u.condition p) u))))

/-- PORT_FAULT on a working port tells RS, PU and SQ, PORT_RECOVERED on a port in FAULT tells RS and PU, and neither changes anything
the second time. A port in FAULT takes no other event (R15, R16, R39, R119). The place in the cycle is a field of the model's (log
7). -/
def Obligations.PortsFaultAndRecover : Prop :=
  ∀ (s : State) (p : PathId),
    let x := s.port p
    ((s.port p).faultState = .fault →
      exec (.portFault p) s = .next s ∧ exec (.cycleStart p) s = .next s ∧ exec (.controlOpportunity p) s = .next s ∧
        exec (.slotOpportunity p) s = .next s ∧
        ∀ b, exec (.cellArrival p b) s = .next s ∧ exec (.controlCellArrival p b) s = .next s ∧
          exec (.hopReportFrame p b) s = .next s) ∧
    ((s.port p).faultState = .working → exec (.portRecovered p) s = .next s) ∧
    ((s.port p).faultState = .working →
      ∃ u t, exec (.portFault p) s = .next t ∧ portsBut p s u ∧ u = { s with pp := u.pp } ∧
        u.port p = { x with faultState := .fault, position := .none,
                            counters := { x.counters with portFaults := satInc x.counters.portFaults } } ∧
        let v := rsPortFault p u
        probesBut p v t ∧ t.puPath p = { v.puPath p with due := false, timer := none, echoes := [] } ∧
          (∀ st, t.stream st = { v.stream st with owed := (v.stream st).owed.set p none }) ∧
          (∀ q : PathId, t.sq.aborts[q] = if q = p then { v.sq.aborts[q] with
            withdrawn := satAdd v.sq.aborts[q].withdrawn (allStreams.countP fun st => (v.stream st).owed[p].isSome) }
            else v.sq.aborts[q]) ∧
          t = { v with pu := t.pu, sq := { v.sq with streams := t.sq.streams, aborts := t.sq.aborts } }) ∧
    ((s.port p).faultState = .fault →
      ∃ u t, exec (.portRecovered p) s = .next t ∧ portsBut p s u ∧ u = { s with pp := u.pp } ∧
        u.port p = { x with faultState := .working } ∧
        let v := rsPortRecovered p u
        ((s.path p).state = .off → t = v) ∧
        ((s.path p).state ≠ .off → probesBut p v t ∧ t = { v with pu := t.pu } ∧
          t.puPath p = { v.puPath p with due := true, timer := some ((s.path p).settings.probeIntervalMs * 16000000) }))

/-! ## Paths -/

/-- PATHSET is taken only while the path is OFF, clamps every setting to Table 5-1, and refuses thresholds out of order (R77). That the
hop condition stands although the hop count may change is the model's reading (log 28). -/
def Obligations.PathsetWritesAnOffPath : Prop :=
  ∀ (s : State) (tag : Tag) (body : List Byte), body.length = 42 → nat1 body 1 ≤ 1 →
    let v := countRequest mgmtLane s
    let replies (r : Reply) (t : State) : Prop := exec (.pathset mgmtLane tag body) s = .next (answer mgmtLane tag 0x10 r t)
    let three (i : Nat) : Nat := fieldNat body i 3
    let threshold (i : Nat) : Int := max (-1000) (min 1000 (fieldInt body i 2))
    let x : PathSettings :=
      { kind := if nat1 body 1 = 0 then .microwave else .wireline,
        hopCount := if nat1 body 1 = 0 then max 1 (min 12 (nat1 body 2)) else 0,
        filterShift := min 7 (nat1 body 3), outlierGate := three 4,
        asymmetry := max (-2 ^ 20) (min (2 ^ 20) (fieldInt body 7 4)), watchPenalty := three 11, fadePenalty := three 14,
        suspectPenalty := three 17, tagPenalty := three 20, wirelineBias := three 23,
        probeIntervalMs := max 1 (min 1000 (fieldNat body 26 2)), probeTimeoutMs := max 5 (min 2000 (fieldNat body 28 2)),
        lossLimit := max 1 (min 15 (nat1 body 30)), reasmTimeoutUs := max 100 (min 65000 (fieldNat body 31 2)),
        watchThreshold := threshold 33, fadeThreshold := threshold 35, lostThreshold := threshold 37,
        hysteresis := min 100 (nat1 body 39), dwellMs := min 60000 (fieldNat body 40 2) }
    (6 ≤ nat1 body 0 → replies (.refused .badIndex) v) ∧
    ∀ p : PathId, nat1 body 0 = p.val →
      let ordered : Prop := x.fadeThreshold < x.watchThreshold ∧ x.lostThreshold < x.fadeThreshold
      ((s.path p).state ≠ .off → replies (.refused .busy) v) ∧
      ((s.path p).state = .off → ¬ordered → replies (.refused .badValue) v) ∧
      ((s.path p).state = .off → ordered → ∃ t, replies .accepted t ∧ pathsBut p s t ∧
        t.path p = { s.path p with settings := x } ∧ t = { v with rs := { s.rs with paths := t.rs.paths } })

/-- PATHON, PATHOFF and PATHRESTART complete, with what RS, PU, HS, RD and SQ each do, the notice, and the re-choice (R39, R51, R52,
R56, R79, R84 to R86, R91, R117, R119, R145). Each ABORT that a cut of PATHOFF owes is counted on the path, as replaced where the
stream already owed one there; PATHON and PATHRESTART owe none. The premises rule out states that no run reaches: a path record
whose parts disagree (R77), a copy launching on a path not in service or two copies on one path (R90, R114, R117). The model's
choice: PATHRESTART's notice carries the usable slot count from before the hand-over (log 23). -/
def Obligations.PathsSwitchOnOffAndRestart : Prop :=
  ∀ (s : State) (tag : Tag) (body : List Byte), PathsOk s → AllCopiesOk s → body.length = 1 →
    let v := countRequest mgmtLane s
    let on (r : Reply) (t : State) : Prop := exec (.pathon mgmtLane tag body) s = .next (answer mgmtLane tag 0x12 r t)
    let off (r : Reply) (t : State) : Prop := exec (.pathoff mgmtLane tag body) s = .next (answer mgmtLane tag 0x13 r t)
    let again (r : Reply) (t : State) : Prop := exec (.pathrestart mgmtLane tag body) s = .next (answer mgmtLane tag 0x14 r t)
    (6 ≤ nat1 body 0 → on (.refused .badIndex) v ∧ off (.refused .badIndex) v ∧ again (.refused .badIndex) v) ∧
    ∀ p : PathId, nat1 body 0 = p.val →
      let r := s.path p
      let y := s.puPath p
      let works : Prop := (s.port p).faultState = .working
      let noLatency : Latency := { value := none, fresh := false, outlierRun := 0, losses := 0 }
      let restarted (h : HopId) : Hop := { s.hop p h with
        state := .lost, unreported := true, ring := [], averaged := none, rateStep := 0, reportTimer := none, dwellTimer := none }
      let probing (t : State) : Prop :=
        (∀ q, q ≠ p → t.puPath q = s.puPath q) ∧ t.puPath p = { y with
          records := [], echoes := [], due := (if works then true else y.due),
          timer := if works then some (r.settings.probeIntervalMs * 16000000) else y.timer }
      let hops (f : HopId → Hop) (t : State) : Prop :=
        (∀ q, q ≠ p → ∀ h, t.hop q h = s.hop q h) ∧ (∀ h, t.hop p h = f h) ∧ t.hs = { s.hs with hops := t.hs.hops }
      let rechosen (t : State) : Prop :=
        ∀ st m rest, (s.stream st).queue = m :: rest → (m.life = .headUnrouted ∨ m.life = .headRouted) →
          t.stream st = { s.stream st with queue := rerouted t st m :: rest }
      let condition (c : HopCondition) : Prop :=
        (r.settings.kind = .microwave → c.worst = .lost ∧ c.usable = 0) ∧ (r.settings.kind = .wireline → c.worst = .clear ∧ c.usable = 32)
      (r.admin = true → on (.refused .busy) v) ∧
      (r.admin = false → ∃ t, on .accepted t ∧ pathsBut p s t ∧ condition (t.path p).hopCond ∧
        t.path p = { r with admin := true, state := .proving, hopCond := t.condition p, latency := noLatency, cost := none } ∧
        hops (fun h => { restarted h with errorCount := 0, secondary := 0, overFlag := false, blamed := none }) t ∧ probing t ∧
        t.pu = { s.pu with paths := t.pu.paths, startMark := some (s.pu.startMark.getD
          (if BitVec.ofNat 32 s.tb.count.toNat = 0 then 1 else BitVec.ofNat 32 s.tb.count.toNat)) } ∧
        t.li = (notifyPath p .off .proving .pathon { v with rs := t.rs }).li ∧ rechosen t ∧
        t = { s with pu := t.pu, hs := t.hs, rs := t.rs, sq := { s.sq with streams := t.sq.streams }, li := t.li }) ∧
      (r.admin = false → off .accepted v ∧ again (.refused .disabled) v) ∧
      (r.admin = true → ∃ t, off .accepted t ∧ pathsBut p s t ∧
        t.path p = { r with admin := false, state := .off, latency := noLatency, cost := none } ∧
        hops (fun h => { s.hop p h with reportTimer := none, dwellTimer := none }) t ∧
        (∀ q, q ≠ p → t.puPath q = s.puPath q) ∧ t.pu = { s.pu with paths := t.pu.paths } ∧
        t.puPath p = { y with records := [], echoes := [], due := false, timer := none } ∧
        t.lane mgmtLane = (notifyPath p r.state .off .pathoff { v with rs := t.rs }).lane mgmtLane ∧ rechosen t ∧
        (∀ st m c q, (s.stream st).queue.head? = some m → m.life = .launching → (m.copyA = some c ∨ m.copyB = some c) → c.path = p →
          c.state = .launching → m.seq = some q → 0 < c.nextFrag → works → (t.stream st).owed[p] = some q) ∧
        (∀ st (q : PathId), (q ≠ p ∨ st ∉ launchingStreams s ∨ cutsThatOwe s p st = 0) → (t.stream st).owed[q] = (s.stream st).owed[q]) ∧
        (∀ q : PathId, t.sq.aborts[q] = if q = p then abortsCounted (launchingStreams s) s p else s.sq.aborts[q]) ∧
        t.pp = s.pp ∧ t.tb = s.tb ∧ t.cs = s.cs ∧ t.rd = s.rd) ∧
      (r.admin = true → ∃ t, again .accepted t ∧ pathsBut p s t ∧ condition (t.path p).hopCond ∧
        t.path p = { r with state := .proving, hopCond := t.condition p, latency := noLatency, cost := none } ∧
        hops restarted t ∧ probing t ∧ t.pu = { s.pu with paths := t.pu.paths } ∧
        t.lane mgmtLane = (notifyPath p r.state .proving .pathrestart
          { v with rs := { s.rs with paths := s.rs.paths.set p { t.path p with hopCond := r.hopCond } } }).lane mgmtLane ∧
        rechosen t ∧ (∀ st, t.context p st = none) ∧ (∀ q st, q ≠ p → t.context q st = s.context q st) ∧
        (∀ st, (t.stream st).owed = (s.stream st).owed) ∧ t.sq.aborts = s.sq.aborts ∧
        t.pp = s.pp ∧ t.tb = s.tb ∧ t.cs = s.cs ∧ t.rd = { s.rd with contexts := t.rd.contexts })

/-- Each input to RS moves the path as Table 5-2 says, with its cost, notices, counters and re-choice; a PATH_STATE notice goes to the
operator and to each enabled tenant whose masks hold the path, and the cuts of a path that leaves service owe no ABORT (R78, R80 to
R83, R86, R87, R91, R117). -/
def Obligations.PathStatesFollowTable52 : Prop :=
  ∀ (s : State) (p : PathId),
    let r := s.path p
    let quiet : Latency := { value := none, fresh := false, outlierRun := 0, losses := 0 }
    let down (x : PathRecord) : PathRecord := { x with state := .down, latency := quiet, cost := none }
    let leaves (x : PathRecord) : Prop := x.hopCond.worst ≠ .lost ∧ x.port = .working
    let entered (k : RsCounters) : RsCounters := { k with serviceEntries := satInc k.serviceEntries }
    (∀ cond : HopCondition,
      let x : PathRecord := { r with hopCond := cond }
      let y : PathRecord := { x with cost := costFormula x }
      let into := serving cond.worst
      let t := rsHop p cond s
      (r.state = .off → rsLeaves p y id [] s t) ∧
      (r.state = .proving → (r.latency.fresh = false ∨ cond.worst = .lost) → rsLeaves p y id [] s t) ∧
      (r.state = .proving → r.latency.fresh = true → cond.worst ≠ .lost →
        rsLeaves p { y with state := into } entered [(.proving, into, .hop, y.cost)] s t) ∧
      (servesNow r.state → cond.worst ≠ .lost → into = r.state → rsLeaves p y id [] s t) ∧
      (servesNow r.state → cond.worst ≠ .lost → into ≠ r.state →
        rsLeaves p { y with state := into } id [(r.state, into, .hop, y.cost)] s t) ∧
      (servesNow r.state → cond.worst = .lost →
        rsLeaves p (down x) (fun k => { k with downHop := satInc k.downHop }) [(r.state, .down, .hop, none)] s t) ∧
      (r.state = .down → ¬leaves x → rsLeaves p y id [] s t) ∧
      (r.state = .down → leaves x → rsLeaves p { y with state := .proving } id [(.down, .proving, .hop, y.cost)] s t)) ∧
    (∀ lat : Latency,
      let x : PathRecord := { r with latency := lat }
      let y : PathRecord := { x with cost := costFormula x }
      let into := serving r.hopCond.worst
      let t := rsLatency p lat s
      ((r.state ≠ .proving ∨ lat.fresh = false ∨ r.hopCond.worst = .lost) → rsLeaves p y id [] s t) ∧
      (r.state = .proving → lat.fresh = true → r.hopCond.worst ≠ .lost →
        rsLeaves p { y with state := into } entered [(.proving, into, .latency, y.cost)] s t)) ∧
    (let k (c : RsCounters) : RsCounters := { c with downProbe := satInc c.downProbe }
     (¬servesNow r.state → rsLossLimit p s = s) ∧
     (servesNow r.state → ¬leaves r → rsLeaves p (down r) k [(r.state, .down, .probeLoss, none)] s (rsLossLimit p s)) ∧
     (servesNow r.state → leaves r → rsLeaves p { down r with state := .proving } k
        [(r.state, .down, .probeLoss, none), (.down, .proving, .probeLoss, none)] s (rsLossLimit p s))) ∧
    (let x : PathRecord := { r with port := .fault }
     ((r.state = .off ∨ r.state = .down) → rsLeaves p x id [] s (rsPortFault p s)) ∧
     (r.state = .proving → rsLeaves p { x with latency := quiet, cost := none } id [] s (rsPortFault p s)) ∧
     (servesNow r.state → rsLeaves p (down x) (fun c => { c with downPort := satInc c.downPort })
        [(r.state, .down, .portFault, none)] s (rsPortFault p s))) ∧
    (let x : PathRecord := { r with port := .working }
     ((r.state ≠ .down ∨ r.hopCond.worst = .lost) → rsLeaves p x id [] s (rsPortRecovered p s)) ∧
     (r.state = .down → r.hopCond.worst ≠ .lost →
        rsLeaves p { x with state := .proving } id [(.down, .proving, .portRecovered, r.cost)] s (rsPortRecovered p s))) ∧
    ∀ (old new : PathState) (cause : PathCause) (l : LaneId),
      let e : Entry := .notice (BitVec.ofNat 48 s.tb.count.toNat) (decide (s.tb.state = .locked))
        (.pathState p old new cause r.cost r.hopCond.usable)
      let told : Prop := l = mgmtLane ∨ ∃ u, l = tenantLane u ∧ (s.tenant u).enabled = true ∧
        ((s.tenant u).grant.masks.u.getLsbD p.val = true ∨ (s.tenant u).grant.masks.m.getLsbD p.val = true ∨
          (s.tenant u).grant.masks.b.getLsbD p.val = true)
      (told → (notifyPath p old new cause s).lane l = (pushEntry l e s).lane l) ∧
        (¬told → (notifyPath p old new cause s).lane l = s.lane l)

/-- Route choice: the first path is the cheapest candidate and the partner the cheapest of the paths that may be one, ties decided by
the tie policy; a re-choice gives every unlaunched head the route of its stream and reaches nothing else (R88 to R91). A path in
service without a cost, which no run reaches, counts as dearest: the model's choice (log 26). -/
def Obligations.RoutesAreTheCheapestCandidates : Prop :=
  ∀ s : State,
    (∀ st, (chooseRoute s st = none ↔ ∀ p, ¬candidate s st p) ∧
      ∀ r, chooseRoute s st = some r → wins s st (candidate s st) r.first ∧
        (¬partnerAsked s st r.first → r.partner = none) ∧
        (partnerAsked s st r.first → (r.partner = none ↔ ∀ q, ¬partnerable s st r.first q) ∧
          ∀ q, r.partner = some q → wins s st (partnerable s st r.first) q)) ∧
    (∀ st, (rechooseAll s).stream st = { s.stream st with queue := (s.stream st).queue.modifyHead (rerouted s st) }) ∧
    rechooseAll s = { s with sq := { s.sq with streams := (rechooseAll s).sq.streams },
                             rs := { s.rs with counters := (rechooseAll s).rs.counters,
                                               unroutedHeads := (rechooseAll s).rs.unroutedHeads } }

/-! ## Plans -/

/-- PLANSET writes the inactive bank, PLANSWAP records a target, each refused with BUSY while a swap is pending; the budget window's
expiry zeroes every budget-used count (R95, R96, R103). That an undefined owner is tested before a pending swap is the model's
reading (log 37). -/
def Obligations.PlansAreWrittenSwappedAndWindowed : Prop :=
  (∀ (s : State) (tag : Tag) (body : List Byte),
    let v := countRequest mgmtLane s
    let named (b : Byte) : Prop := b.toNat < 8 ∨ b.toNat = 255
    let owner (b : Byte) : SlotOwner := if h : b.toNat < 8 then .tenant ⟨b.toNat, h⟩ else .openSlot
    (body.length = 68 →
      let replies (r : Reply) (t : State) : Prop := exec (.planset mgmtLane tag body) s = .next (answer mgmtLane tag 0x18 r t)
      let allNamed : Prop := ∀ i < 64, named (byteAt body (4 + i))
      let period := max 1 (fieldNat body 2 2)
      (6 ≤ nat1 body 0 → replies (.refused .badIndex) v) ∧
      ∀ p : PathId, nat1 body 0 = p.val →
        let pl := s.plan p
        (¬allNamed → replies (.refused .badValue) v) ∧
        (allNamed → pl.pendingSwap.isSome = true → replies (.refused .busy) v) ∧
        (allNamed → pl.pendingSwap = none → ∃ t bk, replies .accepted t ∧ plansBut p s { t with cs := { t.cs with
            windowPeriodUs := s.cs.windowPeriodUs, windowTimer := s.cs.windowTimer } } ∧
          (∀ k : SlotId, bk.even[k] = owner (byteAt body (4 + k.val)) ∧ bk.odd[k] = owner (byteAt body (36 + k.val))) ∧
          t.plan p = (match pl.active with | .a => { pl with bankB := bk } | .b => { pl with bankA := bk }) ∧
          t.cs.windowPeriodUs = (if byteAt body 1 = 0 then s.cs.windowPeriodUs else period) ∧
          t.cs.windowTimer = (if byteAt body 1 = 0 then s.cs.windowTimer else some (period * 16000)) ∧
          t = { v with cs := t.cs })) ∧
    (body.length = 3 →
      let replies (r : Reply) (t : State) : Prop := exec (.planswap mgmtLane tag body) s = .next (answer mgmtLane tag 0x19 r t)
      (6 ≤ nat1 body 0 → replies (.refused .badIndex) v) ∧
      ∀ p : PathId, nat1 body 0 = p.val →
        ((s.plan p).pendingSwap.isSome = true → replies (.refused .busy) v) ∧
        ((s.plan p).pendingSwap = none → ∃ t, replies .accepted t ∧ plansBut p s t ∧
          t.plan p = { s.plan p with pendingSwap := some (BitVec.ofNat 16 (fieldNat body 1 2)) } ∧ t = { v with cs := t.cs }))) ∧
  ∀ s : State, ∃ t, exec .budgetWindowExpiry s = .next t ∧ (∀ p, t.plan p = { s.plan p with used := .replicate 8 0 }) ∧
    t = { s with cs := { s.cs with plans := t.cs.plans, windowTimer := some (s.cs.windowPeriodUs * 16000),
                                   windows := satInc s.cs.windows } }

/-! ## Commands that cannot occur -/

/-- The model's choice (log 4): a command whose timer stands, whose word, record, entry or message is not there, or whose place in the
cycle has not come, leaves the part as it is. -/
def Obligations.CommandsThatCannotOccurChangeNothing : Prop :=
  ∀ s : State,
    (s.tb.watch = none → exec .ppsMissing s = .next s) ∧ (s.tb.slewTimer = none → exec .slewPeriodEnd s = .next s) ∧
    (∀ p, ((s.port p).position ≠ .control → exec (.controlOpportunity p) s = .next s) ∧
      ((∀ k, (s.port p).position ≠ .slot k) → exec (.slotOpportunity p) s = .next s) ∧
      ((s.puPath p).timer = none → exec (.probeTimerExpiry p) s = .next s) ∧
      (∀ n, (∀ x ∈ (s.puPath p).records, x.number ≠ n) → exec (.probeExpiry p n) s = .next s) ∧
      (∀ h, ((s.hop p h).reportTimer = none → exec (.reportTimeout p h) s = .next s) ∧
        ((s.hop p h).dwellTimer = none → exec (.dwellExpiry p h) s = .next s)) ∧
      ∀ st, s.context p st = none → exec (.reasmTimeout p st) s = .next s) ∧
    (∀ st, ((s.stream st).queue = [] → exec (.routeWaitExpiry st) s = .next s ∧ ∀ name, exec (.stallExpiry st name) s = .next s) ∧
      ((s.record st).holdTimer = none → exec (.holdTimerExpiry st) s = .next s)) ∧
    ∀ u c, (s.target u c = none → exec (.compareFire u c) s = .next s) ∧
      ((s.channel u c).outstanding = none → exec (.channelSubmission u c) s = .next s ∧ exec (.submissionAnswer u c) s = .next s) ∧
      ((s.channel u c).held = none → exec (.resubmission u c) s = .next s) ∧
      ((s.channel u c).state ≠ .running → exec (.text u c) s = .next s ∧ exec (.patch u c) s = .next s ∧
        exec (.wait u c) s = .next s ∧ exec (.mark u c) s = .next s ∧ exec (.undefinedOpWord u c) s = .next s)

/-! ## What route choice counts -/

/-- What a choice adds to the counters of Table 5-3: a first choice for the path that becomes a head's first path, a partner choice for
the one that becomes its partner, and an unrouted head where a head is left without a candidate. It says so of every re-choice, and of
the choice for a message that becomes head of an empty queue, that follows a dropped head, or that relaunches (R91, R93, R110, R118).
The model's choice (log 18): a relaunch without a candidate counts as an unrouted head, a head that stays unrouted does not. -/
def Obligations.RouteChoicesAreCounted : Prop :=
  (∀ s : State, rechoiceCounted s allStreams s.rs (rechooseAll s).rs ∧
    ∀ u, rechoiceCounted s (streamsOf u) s.rs (rechooseTenant u s).rs) ∧
  (∀ (s : State) (u : TenantId) (tag : Tag) (cls : TClass) (payload : List Byte), payload.length ≤ 256 →
    let st : StreamId := { tenant := u, cls := cls }
    let body : List Byte := BitVec.ofNat 8 (match cls with | .u => 0 | .m => 1 | .b => 2) :: toBE 2 payload.length ++ payload
    (s.tenant u).enabled = true → (s.stream st).queue = [] →
      occupancy s u + (if payload.length = 0 then 1 else (payload.length + 43) / 44) ≤ (s.tenant u).grant.quota →
      ∃ t m, exec (.carry (tenantLane u) tag body) s = .next t ∧ (t.stream st).queue = [m] ∧
        headCounted { m with copyA := none, copyB := none } (chooseRoute t st) s.rs t.rs) ∧
  ∀ (s : State) (st : StreamId) (m : Message) (rest : List Message), (s.stream st).queue = m :: rest →
    (m.life ≠ .launching → m.routeWait.isSome = true →
      (rest = [] → ∃ t, exec (.routeWaitExpiry st) s = .next t ∧ t.rs = s.rs) ∧
      ∀ m2 more, rest = m2 :: more →
        ∃ t, exec (.routeWaitExpiry st) s = .next t ∧ headCounted m2 (chooseRoute t st) s.rs t.rs) ∧
    ∀ (name : CopyName) (c : Copy), m.life = .launching → c.state = .launching → c.stall.isSome = true →
      (match name with | .a => m.copyA | .b => m.copyB) = some c →
      let other := match name with | .a => m.copyB | .b => m.copyA
      (∀ o ∈ other, o.state = .cut) → m.relaunchCount < 2 →
        ∃ t, exec (.stallExpiry st name) s = .next t ∧
          headCounted { m with copyA := none, copyB := none } (chooseRoute t st) s.rs t.rs
end

