-- ==== Sys2Proof/Laws/State.lean ====
section
/-!
SUPPORT. Rows of the state's tables: what a row reads after a row is changed, what an updater leaves alone, and which block a row
lives in.
-/

namespace Sys2Proof.Machine

/-! ## Tables -/

theorem upd_get {α : Type} {n : Nat} (v : Vector α n) (i j : Fin n) (f : α → α) :
    (upd v i f)[j] = if j = i then f v[i] else v[j] := by
  by_cases h : j = i
  · subst h; simp [upd]
  · have : i.val ≠ j.val := fun e => h (Fin.ext e.symm)
    simp [upd, h, this]

@[simp] theorem upd_same {α : Type} {n : Nat} (v : Vector α n) (i : Fin n) (f : α → α) : (upd v i f)[i] = f v[i] := by
  rw [upd_get, if_pos rfl]

theorem upd_other {α : Type} {n : Nat} (v : Vector α n) (i j : Fin n) (f : α → α) (h : j ≠ i) : (upd v i f)[j] = v[j] := by
  rw [upd_get, if_neg h]

theorem mapAll_get {α β : Type} {n : Nat} (v : Vector α n) (f : Fin n → α → β) (i : Fin n) : (mapAll v f)[i] = f i v[i] := by
  simp [mapAll]

theorem set_get {α : Type} {n : Nat} (v : Vector α n) (i j : Fin n) (x : α) : (v.set i x)[j] = if j = i then x else v[j] :=
  upd_get v i j fun _ => x

theorem replicate_get {α : Type} {n : Nat} (x : α) (i : Fin n) : (Vector.replicate n x)[i] = x := by simp

theorem streamIdx_inj (a b : StreamId) : streamIdx a = streamIdx b ↔ a = b := by
  constructor
  · rcases a with ⟨⟨i, hi⟩, c⟩
    rcases b with ⟨⟨j, hj⟩, d⟩
    cases c <;> cases d <;> simp [streamIdx, classIdx] <;> omega
  · rintro rfl; rfl

theorem chanIdx_inj (t u : TenantId) (c d : ChannelId) : chanIdx t c = chanIdx u d ↔ t = u ∧ c = d := by
  simp only [chanIdx, Fin.mk.injEq]
  constructor
  · intro h; constructor <;> (apply Fin.ext; omega)
  · rintro ⟨rfl, rfl⟩; rfl

theorem ctxIdx_inj (p q : PathId) (a b : StreamId) : ctxIdx p a = ctxIdx q b ↔ p = q ∧ a = b := by
  rw [← streamIdx_inj a b]
  simp only [ctxIdx, Fin.ext_iff]
  constructor
  · intro h; omega
  · rintro ⟨h, k⟩; omega

theorem tenantLane_inj (t u : TenantId) : tenantLane t = tenantLane u ↔ t = u := by
  simp [tenantLane, Fin.ext_iff]

@[simp] theorem laneTenant_tenantLane (t : TenantId) : laneTenant (tenantLane t) = some t := by
  simp [laneTenant, tenantLane]

@[simp] theorem laneTenant_mgmtLane : laneTenant mgmtLane = none := by decide

theorem tenantLane_ne_mgmt (t : TenantId) : tenantLane t ≠ mgmtLane := by
  intro h
  have := congrArg laneTenant h
  simp at this

theorem mem_allPaths (p : PathId) : p ∈ allPaths := by revert p; decide
theorem mem_allTenants (t : TenantId) : t ∈ allTenants := by revert t; decide
theorem mem_allChannels (c : ChannelId) : c ∈ allChannels := by revert c; decide
theorem mem_allHops (h : HopId) : h ∈ allHops := by revert h; decide
theorem mem_allSlots (k : SlotId) : k ∈ allSlots := by revert k; decide
theorem mem_allClasses (c : TClass) : c ∈ allClasses := by cases c <;> decide

theorem mem_streamsOf (st : StreamId) (t : TenantId) : st ∈ streamsOf t ↔ st.tenant = t := by
  rcases st with ⟨u, c⟩
  cases c <;> simp [streamsOf, allClasses, eq_comm]

theorem mem_allStreams (st : StreamId) : st ∈ allStreams := by
  simp [allStreams, List.mem_flatMap, mem_allTenants, mem_streamsOf]

/-! ## A row after a row is changed -/

theorem State.port_modPort (s : State) (i j : PathId) (f : Port → Port) :
    (s.modPort i f).port j = if j = i then f (s.port i) else s.port j := upd_get _ _ _ _

@[simp] theorem State.port_modPort_same (s : State) (i : PathId) (f : Port → Port) : (s.modPort i f).port i = f (s.port i) := by
  rw [State.port_modPort, if_pos rfl]

theorem State.puPath_modPu (s : State) (i j : PathId) (f : PuPath → PuPath) :
    (s.modPu i f).puPath j = if j = i then f (s.puPath i) else s.puPath j := upd_get _ _ _ _

@[simp] theorem State.puPath_modPu_same (s : State) (i : PathId) (f : PuPath → PuPath) : (s.modPu i f).puPath i = f (s.puPath i) := by
  rw [State.puPath_modPu, if_pos rfl]

theorem State.path_modPath (s : State) (i j : PathId) (f : PathRecord → PathRecord) :
    (s.modPath i f).path j = if j = i then f (s.path i) else s.path j := upd_get _ _ _ _

@[simp] theorem State.path_modPath_same (s : State) (i : PathId) (f : PathRecord → PathRecord) : (s.modPath i f).path i = f (s.path i) := by
  rw [State.path_modPath, if_pos rfl]

theorem State.plan_modPlan (s : State) (i j : PathId) (f : Plan → Plan) :
    (s.modPlan i f).plan j = if j = i then f (s.plan i) else s.plan j := upd_get _ _ _ _

@[simp] theorem State.plan_modPlan_same (s : State) (i : PathId) (f : Plan → Plan) : (s.modPlan i f).plan i = f (s.plan i) := by
  rw [State.plan_modPlan, if_pos rfl]

theorem State.tenant_modTenant (s : State) (i j : TenantId) (f : Tenant → Tenant) :
    (s.modTenant i f).tenant j = if j = i then f (s.tenant i) else s.tenant j := upd_get _ _ _ _

@[simp] theorem State.tenant_modTenant_same (s : State) (i : TenantId) (f : Tenant → Tenant) : (s.modTenant i f).tenant i = f (s.tenant i) := by
  rw [State.tenant_modTenant, if_pos rfl]

theorem State.lane_modLane (s : State) (i j : LaneId) (f : Lane → Lane) :
    (s.modLane i f).lane j = if j = i then f (s.lane i) else s.lane j := upd_get _ _ _ _

@[simp] theorem State.lane_modLane_same (s : State) (i : LaneId) (f : Lane → Lane) : (s.modLane i f).lane i = f (s.lane i) := by
  rw [State.lane_modLane, if_pos rfl]

theorem State.stream_modStream (s : State) (a b : StreamId) (f : Stream → Stream) :
    (s.modStream a f).stream b = if b = a then f (s.stream a) else s.stream b := by
  unfold State.stream State.modStream
  rw [upd_get]
  simp only [streamIdx_inj]

@[simp] theorem State.stream_modStream_same (s : State) (a : StreamId) (f : Stream → Stream) : (s.modStream a f).stream a = f (s.stream a) := by
  rw [State.stream_modStream, if_pos rfl]

theorem State.record_modRecord (s : State) (a b : StreamId) (f : RecvRecord → RecvRecord) :
    (s.modRecord a f).record b = if b = a then f (s.record a) else s.record b := by
  unfold State.record State.modRecord
  rw [upd_get]
  simp only [streamIdx_inj]

@[simp] theorem State.record_modRecord_same (s : State) (a : StreamId) (f : RecvRecord → RecvRecord) : (s.modRecord a f).record a = f (s.record a) := by
  rw [State.record_modRecord, if_pos rfl]

theorem State.channel_modChannel (s : State) (t u : TenantId) (c d : ChannelId) (f : Channel → Channel) :
    (s.modChannel t c f).channel u d = if u = t ∧ d = c then f (s.channel t c) else s.channel u d := by
  unfold State.channel State.modChannel
  rw [upd_get]
  simp only [chanIdx_inj]

@[simp] theorem State.channel_modChannel_same (s : State) (t : TenantId) (c : ChannelId) (f : Channel → Channel) :
    (s.modChannel t c f).channel t c = f (s.channel t c) := by
  rw [State.channel_modChannel, if_pos ⟨rfl, rfl⟩]

theorem State.hop_modHop (s : State) (p q : PathId) (h k : HopId) (f : Hop → Hop) :
    (s.modHop p h f).hop q k = if q = p ∧ k = h then f (s.hop p h) else s.hop q k := by
  by_cases e : q = p
  · subst e
    simp only [State.hop, State.modHop, upd_same, upd_get, true_and]
  · simp only [State.hop, State.modHop, upd_other _ _ _ _ e, e, false_and, if_false]

@[simp] theorem State.hop_modHop_same (s : State) (p : PathId) (h : HopId) (f : Hop → Hop) :
    (s.modHop p h f).hop p h = f (s.hop p h) := by
  rw [State.hop_modHop, if_pos ⟨rfl, rfl⟩]

theorem State.context_setContext (s : State) (p q : PathId) (a b : StreamId) (x : Option Context) :
    (s.setContext p a x).context q b = if q = p ∧ b = a then x else s.context q b := by
  unfold State.context State.setContext
  rw [set_get]
  simp only [ctxIdx_inj]

@[simp] theorem State.context_setContext_same (s : State) (p : PathId) (a : StreamId) (x : Option Context) :
    (s.setContext p a x).context p a = x := by
  rw [State.context_setContext, if_pos ⟨rfl, rfl⟩]

theorem State.target_setTarget (s : State) (t u : TenantId) (c d : ChannelId) (x : Option Stamp) :
    (s.setTarget t c x).target u d = if u = t ∧ d = c then x else s.target u d := by
  unfold State.target State.setTarget State.modTb
  rw [set_get]
  simp only [chanIdx_inj]

@[simp] theorem State.target_setTarget_same (s : State) (t : TenantId) (c : ChannelId) (x : Option Stamp) :
    (s.setTarget t c x).target t c = x := by
  rw [State.target_setTarget, if_pos ⟨rfl, rfl⟩]

@[simp] theorem State.modTb_tb (s : State) (f : TimeBase → TimeBase) : (s.modTb f).tb = f s.tb := rfl

/-! ## Counting leaves the rest of a row -/

@[simp] theorem State.countPort_port (s : State) (p q : PathId) (f : PortCounters → PortCounters) :
    ((s.countPort p f).port q).cycle = (s.port q).cycle ∧ ((s.countPort p f).port q).parity = (s.port q).parity ∧
    ((s.countPort p f).port q).faultState = (s.port q).faultState ∧ ((s.countPort p f).port q).position = (s.port q).position ∧
    ((s.countPort p f).port q).txCell = (s.port q).txCell := by
  unfold State.countPort
  rw [State.port_modPort]
  split
  · subst_vars; exact ⟨rfl, rfl, rfl, rfl, rfl⟩
  · exact ⟨rfl, rfl, rfl, rfl, rfl⟩

@[simp] theorem State.countPu_puPath (s : State) (p q : PathId) (f : PuCounters → PuCounters) :
    ((s.countPu p f).puPath q).number = (s.puPath q).number ∧ ((s.countPu p f).puPath q).due = (s.puPath q).due ∧
    ((s.countPu p f).puPath q).timer = (s.puPath q).timer ∧ ((s.countPu p f).puPath q).records = (s.puPath q).records ∧
    ((s.countPu p f).puPath q).echoes = (s.puPath q).echoes := by
  unfold State.countPu
  rw [State.puPath_modPu]
  split
  · subst_vars; exact ⟨rfl, rfl, rfl, rfl, rfl⟩
  · exact ⟨rfl, rfl, rfl, rfl, rfl⟩

@[simp] theorem State.countLane_lane (s : State) (l k : LaneId) (f : LaneCounters → LaneCounters) :
    ((s.countLane l f).lane k).queue = (s.lane k).queue ∧ ((s.countLane l f).lane k).txFrame = (s.lane k).txFrame := by
  unfold State.countLane
  rw [State.lane_modLane]
  split
  · subst_vars; exact ⟨rfl, rfl⟩
  · exact ⟨rfl, rfl⟩

@[simp] theorem State.setLoss_lane (s : State) (l k : LaneId) (b : Bool) : (s.setLoss l b).lane k = s.lane k := by
  unfold State.setLoss
  split <;> rfl

/-! ## A row lives in its block -/

theorem State.port_of {s t : State} (h : t.pp = s.pp) (p : PathId) : t.port p = s.port p := by
  simp only [State.port, h]

theorem State.puPath_of {s t : State} (h : t.pu = s.pu) (p : PathId) : t.puPath p = s.puPath p := by
  simp only [State.puPath, h]

theorem State.path_of {s t : State} (h : t.rs.paths = s.rs.paths) (p : PathId) : t.path p = s.path p := by
  simp only [State.path, h]

theorem State.plan_of {s t : State} (h : t.cs = s.cs) (p : PathId) : t.plan p = s.plan p := by
  simp only [State.plan, h]

theorem State.tenant_of {s t : State} (h : t.li.tenants = s.li.tenants) (p : TenantId) : t.tenant p = s.tenant p := by
  simp only [State.tenant, h]

theorem State.lane_of {s t : State} (h : t.li = s.li) (p : LaneId) : t.lane p = s.lane p := by
  simp only [State.lane, h]

theorem State.stream_of {s t : State} (h : t.sq = s.sq) (p : StreamId) : t.stream p = s.stream p := by
  simp only [State.stream, h]

theorem State.record_of {s t : State} (h : t.rd = s.rd) (p : StreamId) : t.record p = s.record p := by
  simp only [State.record, h]

theorem State.hop_of {s t : State} (h : t.hs = s.hs) (a : PathId) (b : HopId) : t.hop a b = s.hop a b := by
  simp only [State.hop, h]

theorem State.channel_of {s t : State} (h : t.pe = s.pe) (a : TenantId) (b : ChannelId) : t.channel a b = s.channel a b := by
  simp only [State.channel, h]

theorem State.context_of {s t : State} (h : t.rd = s.rd) (a : PathId) (b : StreamId) : t.context a b = s.context a b := by
  simp only [State.context, h]

theorem State.target_of {s t : State} (h : t.tb = s.tb) (a : TenantId) (b : ChannelId) : t.target a b = s.target a b := by
  simp only [State.target, h]

theorem capture_of {s t : State} (c : t.tb.count = s.tb.count) (e : t.tb.epoch = s.tb.epoch) (x : t.tb.state = s.tb.state) :
    capture t = capture s := by
  simp only [capture, c, e, x]

end Sys2Proof.Machine
end

