-- ==== Sys2Proof/Laws/Frames.lean ====
section
/-!
SUPPORT. Frames: for each operation over the state, what it leaves as it is. `OnlyX s t` says that `t` differs from `s` in X alone;
it unfolds to the equations of the other blocks, by which `simp` rewrites, so that a later proof unfolds no operation.
-/

namespace Sys2Proof.Machine

/-- Nothing outside `pp` differs. -/
abbrev OnlyPorts (s t : State) : Prop :=
  t.pending = s.pending ∧ t.tb = s.tb ∧ t.pu = s.pu ∧ t.hs = s.hs ∧ t.rs = s.rs ∧ t.cs = s.cs ∧ t.sq = s.sq ∧ t.pe = s.pe ∧
  t.rd = s.rd ∧ t.li = s.li

/-- Nothing outside the count, the epoch, the time state, the rest of TB differs. -/
abbrev OnlyTb (s t : State) : Prop :=
  t.pending = s.pending ∧ t.pp = s.pp ∧ t.pu = s.pu ∧ t.hs = s.hs ∧ t.rs = s.rs ∧ t.cs = s.cs ∧ t.sq = s.sq ∧ t.pe = s.pe ∧
  t.rd = s.rd ∧ t.li = s.li

/-- Nothing outside the rest of TB differs. -/
abbrev OnlyTbTimers (s t : State) : Prop :=
  t.pending = s.pending ∧ t.pp = s.pp ∧ t.tb.count = s.tb.count ∧ t.tb.epoch = s.tb.epoch ∧ t.tb.state = s.tb.state ∧
  t.pu = s.pu ∧ t.hs = s.hs ∧ t.rs = s.rs ∧ t.cs = s.cs ∧ t.sq = s.sq ∧ t.pe = s.pe ∧ t.rd = s.rd ∧ t.li = s.li

/-- Nothing outside `pu.paths` differs. -/
abbrev OnlyProbing (s t : State) : Prop :=
  t.pending = s.pending ∧ t.pp = s.pp ∧ t.tb = s.tb ∧ t.pu.startMark = s.pu.startMark ∧ t.pu.peerMark = s.pu.peerMark ∧
  t.pu.peerRestarts = s.pu.peerRestarts ∧ t.hs = s.hs ∧ t.rs = s.rs ∧ t.cs = s.cs ∧ t.sq = s.sq ∧ t.pe = s.pe ∧ t.rd = s.rd ∧
  t.li = s.li

/-- Nothing outside `hs.hops` differs. -/
abbrev OnlyHops (s t : State) : Prop :=
  t.pending = s.pending ∧ t.pp = s.pp ∧ t.tb = s.tb ∧ t.pu = s.pu ∧ t.hs.leakPeriodMs = s.hs.leakPeriodMs ∧
  t.hs.leakTimer = s.hs.leakTimer ∧ t.hs.counters = s.hs.counters ∧ t.rs = s.rs ∧ t.cs = s.cs ∧ t.sq = s.sq ∧ t.pe = s.pe ∧
  t.rd = s.rd ∧ t.li = s.li

/-- Nothing outside `hs.counters` differs. -/
abbrev OnlyHopCounts (s t : State) : Prop :=
  t.pending = s.pending ∧ t.pp = s.pp ∧ t.tb = s.tb ∧ t.pu = s.pu ∧ t.hs.hops = s.hs.hops ∧
  t.hs.leakPeriodMs = s.hs.leakPeriodMs ∧ t.hs.leakTimer = s.hs.leakTimer ∧ t.rs = s.rs ∧ t.cs = s.cs ∧ t.sq = s.sq ∧
  t.pe = s.pe ∧ t.rd = s.rd ∧ t.li = s.li

/-- Nothing outside `rs.paths` differs. -/
abbrev OnlyPaths (s t : State) : Prop :=
  t.pending = s.pending ∧ t.pp = s.pp ∧ t.tb = s.tb ∧ t.pu = s.pu ∧ t.hs = s.hs ∧ t.rs.counters = s.rs.counters ∧
  t.rs.unroutedHeads = s.rs.unroutedHeads ∧ t.cs = s.cs ∧ t.sq = s.sq ∧ t.pe = s.pe ∧ t.rd = s.rd ∧ t.li = s.li

/-- Nothing outside `rs.counters` differs. -/
abbrev OnlyRouteCounts (s t : State) : Prop :=
  t.pending = s.pending ∧ t.pp = s.pp ∧ t.tb = s.tb ∧ t.pu = s.pu ∧ t.hs = s.hs ∧ t.rs.paths = s.rs.paths ∧
  t.rs.unroutedHeads = s.rs.unroutedHeads ∧ t.cs = s.cs ∧ t.sq = s.sq ∧ t.pe = s.pe ∧ t.rd = s.rd ∧ t.li = s.li

/-- Nothing outside `cs.plans` differs. -/
abbrev OnlyPlans (s t : State) : Prop :=
  t.pending = s.pending ∧ t.pp = s.pp ∧ t.tb = s.tb ∧ t.pu = s.pu ∧ t.hs = s.hs ∧ t.rs = s.rs ∧
  t.cs.windowPeriodUs = s.cs.windowPeriodUs ∧ t.cs.windowTimer = s.cs.windowTimer ∧ t.cs.windows = s.cs.windows ∧
  t.sq = s.sq ∧ t.pe = s.pe ∧ t.rd = s.rd ∧ t.li = s.li

/-- Nothing outside `sq.streams` differs. -/
abbrev OnlyStreams (s t : State) : Prop :=
  t.pending = s.pending ∧ t.pp = s.pp ∧ t.tb = s.tb ∧ t.pu = s.pu ∧ t.hs = s.hs ∧ t.rs = s.rs ∧ t.cs = s.cs ∧
  t.sq.store = s.sq.store ∧ t.sq.aborts = s.sq.aborts ∧ t.pe = s.pe ∧ t.rd = s.rd ∧ t.li = s.li

/-- Nothing outside `sq.aborts` differs. -/
abbrev OnlyAbortCounts (s t : State) : Prop :=
  t.pending = s.pending ∧ t.pp = s.pp ∧ t.tb = s.tb ∧ t.pu = s.pu ∧ t.hs = s.hs ∧ t.rs = s.rs ∧ t.cs = s.cs ∧
  t.sq.streams = s.sq.streams ∧ t.sq.store = s.sq.store ∧ t.pe = s.pe ∧ t.rd = s.rd ∧ t.li = s.li

/-- Nothing outside `pe.channels` differs. -/
abbrev OnlyChannels (s t : State) : Prop :=
  t.pending = s.pending ∧ t.pp = s.pp ∧ t.tb = s.tb ∧ t.pu = s.pu ∧ t.hs = s.hs ∧ t.rs = s.rs ∧ t.cs = s.cs ∧ t.sq = s.sq ∧
  t.pe.program = s.pe.program ∧ t.pe.programFaults = s.pe.programFaults ∧ t.pe.template = s.pe.template ∧
  t.pe.templateFaults = s.pe.templateFaults ∧ t.pe.counters = s.pe.counters ∧ t.pe.storeFaults = s.pe.storeFaults ∧
  t.rd = s.rd ∧ t.li = s.li

/-- Nothing outside `pe.counters` differs. -/
abbrev OnlyPeCounts (s t : State) : Prop :=
  t.pending = s.pending ∧ t.pp = s.pp ∧ t.tb = s.tb ∧ t.pu = s.pu ∧ t.hs = s.hs ∧ t.rs = s.rs ∧ t.cs = s.cs ∧ t.sq = s.sq ∧
  t.pe.program = s.pe.program ∧ t.pe.programFaults = s.pe.programFaults ∧ t.pe.template = s.pe.template ∧
  t.pe.templateFaults = s.pe.templateFaults ∧ t.pe.channels = s.pe.channels ∧ t.pe.storeFaults = s.pe.storeFaults ∧
  t.rd = s.rd ∧ t.li = s.li

/-- Nothing outside `rd.contexts` differs. -/
abbrev OnlyContexts (s t : State) : Prop :=
  t.pending = s.pending ∧ t.pp = s.pp ∧ t.tb = s.tb ∧ t.pu = s.pu ∧ t.hs = s.hs ∧ t.rs = s.rs ∧ t.cs = s.cs ∧ t.sq = s.sq ∧
  t.pe = s.pe ∧ t.rd.records = s.rd.records ∧ t.rd.pathCounters = s.rd.pathCounters ∧
  t.rd.streamCounters = s.rd.streamCounters ∧ t.li = s.li

/-- Nothing outside `rd.records` differs. -/
abbrev OnlyRecords (s t : State) : Prop :=
  t.pending = s.pending ∧ t.pp = s.pp ∧ t.tb = s.tb ∧ t.pu = s.pu ∧ t.hs = s.hs ∧ t.rs = s.rs ∧ t.cs = s.cs ∧ t.sq = s.sq ∧
  t.pe = s.pe ∧ t.rd.contexts = s.rd.contexts ∧ t.rd.pathCounters = s.rd.pathCounters ∧
  t.rd.streamCounters = s.rd.streamCounters ∧ t.li = s.li

/-- Nothing outside `rd.pathCounters` differs. -/
abbrev OnlyRdPathCounts (s t : State) : Prop :=
  t.pending = s.pending ∧ t.pp = s.pp ∧ t.tb = s.tb ∧ t.pu = s.pu ∧ t.hs = s.hs ∧ t.rs = s.rs ∧ t.cs = s.cs ∧ t.sq = s.sq ∧
  t.pe = s.pe ∧ t.rd.contexts = s.rd.contexts ∧ t.rd.records = s.rd.records ∧ t.rd.streamCounters = s.rd.streamCounters ∧
  t.li = s.li

/-- Nothing outside `rd.streamCounters` differs. -/
abbrev OnlyRdStreamCounts (s t : State) : Prop :=
  t.pending = s.pending ∧ t.pp = s.pp ∧ t.tb = s.tb ∧ t.pu = s.pu ∧ t.hs = s.hs ∧ t.rs = s.rs ∧ t.cs = s.cs ∧ t.sq = s.sq ∧
  t.pe = s.pe ∧ t.rd.contexts = s.rd.contexts ∧ t.rd.records = s.rd.records ∧ t.rd.pathCounters = s.rd.pathCounters ∧
  t.li = s.li

/-- Nothing outside `li.tenants` differs. -/
abbrev OnlyTenants (s t : State) : Prop :=
  t.pending = s.pending ∧ t.pp = s.pp ∧ t.tb = s.tb ∧ t.pu = s.pu ∧ t.hs = s.hs ∧ t.rs = s.rs ∧ t.cs = s.cs ∧ t.sq = s.sq ∧
  t.pe = s.pe ∧ t.rd = s.rd ∧ t.li.lanes = s.li.lanes ∧ t.li.lossFlags = s.li.lossFlags

/-- Nothing outside `li.lanes` differs. -/
abbrev OnlyLanes (s t : State) : Prop :=
  t.pending = s.pending ∧ t.pp = s.pp ∧ t.tb = s.tb ∧ t.pu = s.pu ∧ t.hs = s.hs ∧ t.rs = s.rs ∧ t.cs = s.cs ∧ t.sq = s.sq ∧
  t.pe = s.pe ∧ t.rd = s.rd ∧ t.li.tenants = s.li.tenants ∧ t.li.lossFlags = s.li.lossFlags

/-- Nothing outside `li.lossFlags` differs. -/
abbrev OnlyLoss (s t : State) : Prop :=
  t.pending = s.pending ∧ t.pp = s.pp ∧ t.tb = s.tb ∧ t.pu = s.pu ∧ t.hs = s.hs ∧ t.rs = s.rs ∧ t.cs = s.cs ∧ t.sq = s.sq ∧
  t.pe = s.pe ∧ t.rd = s.rd ∧ t.li.tenants = s.li.tenants ∧ t.li.lanes = s.li.lanes

/-- Nothing outside `pe.channels`, `li.lanes`, `li.lossFlags` differs. -/
abbrev OnlyChannelsOutput (s t : State) : Prop :=
  t.pending = s.pending ∧ t.pp = s.pp ∧ t.tb = s.tb ∧ t.pu = s.pu ∧ t.hs = s.hs ∧ t.rs = s.rs ∧ t.cs = s.cs ∧ t.sq = s.sq ∧
  t.pe.program = s.pe.program ∧ t.pe.programFaults = s.pe.programFaults ∧ t.pe.template = s.pe.template ∧
  t.pe.templateFaults = s.pe.templateFaults ∧ t.pe.counters = s.pe.counters ∧ t.pe.storeFaults = s.pe.storeFaults ∧
  t.rd = s.rd ∧ t.li.tenants = s.li.tenants

/-- Nothing outside `rs.counters`, `rs.unroutedHeads`, `sq.streams` differs. -/
abbrev OnlyRouteCountsStreams (s t : State) : Prop :=
  t.pending = s.pending ∧ t.pp = s.pp ∧ t.tb = s.tb ∧ t.pu = s.pu ∧ t.hs = s.hs ∧ t.rs.paths = s.rs.paths ∧ t.cs = s.cs ∧
  t.sq.store = s.sq.store ∧ t.sq.aborts = s.sq.aborts ∧ t.pe = s.pe ∧ t.rd = s.rd ∧ t.li = s.li

/-- Nothing outside `rs.counters`, `rs.unroutedHeads`, `sq.streams`, `pe.channels` differs. -/
abbrev OnlyRouteCountsStreamsChannels (s t : State) : Prop :=
  t.pending = s.pending ∧ t.pp = s.pp ∧ t.tb = s.tb ∧ t.pu = s.pu ∧ t.hs = s.hs ∧ t.rs.paths = s.rs.paths ∧ t.cs = s.cs ∧
  t.sq.store = s.sq.store ∧ t.sq.aborts = s.sq.aborts ∧ t.pe.program = s.pe.program ∧
  t.pe.programFaults = s.pe.programFaults ∧ t.pe.template = s.pe.template ∧ t.pe.templateFaults = s.pe.templateFaults ∧
  t.pe.counters = s.pe.counters ∧ t.pe.storeFaults = s.pe.storeFaults ∧ t.rd = s.rd ∧ t.li = s.li

/-- Nothing outside `rs.counters`, `rs.unroutedHeads`, `sq.streams`, `pe.channels`, `li.lanes`, `li.lossFlags` differs. -/
abbrev OnlyRouteCountsStreamsChannelsOutput (s t : State) : Prop :=
  t.pending = s.pending ∧ t.pp = s.pp ∧ t.tb = s.tb ∧ t.pu = s.pu ∧ t.hs = s.hs ∧ t.rs.paths = s.rs.paths ∧ t.cs = s.cs ∧
  t.sq.store = s.sq.store ∧ t.sq.aborts = s.sq.aborts ∧ t.pe.program = s.pe.program ∧
  t.pe.programFaults = s.pe.programFaults ∧ t.pe.template = s.pe.template ∧ t.pe.templateFaults = s.pe.templateFaults ∧
  t.pe.counters = s.pe.counters ∧ t.pe.storeFaults = s.pe.storeFaults ∧ t.rd = s.rd ∧ t.li.tenants = s.li.tenants

/-- Nothing outside `rs.counters`, `rs.unroutedHeads`, `sq.streams`, `sq.store` differs. -/
abbrev OnlyRouteCountsStreamsCellStore (s t : State) : Prop :=
  t.pending = s.pending ∧ t.pp = s.pp ∧ t.tb = s.tb ∧ t.pu = s.pu ∧ t.hs = s.hs ∧ t.rs.paths = s.rs.paths ∧ t.cs = s.cs ∧
  t.sq.aborts = s.sq.aborts ∧ t.pe = s.pe ∧ t.rd = s.rd ∧ t.li = s.li

/-- Nothing outside `sq.streams`, `sq.aborts` differs. -/
abbrev OnlyStreamsAbortCounts (s t : State) : Prop :=
  t.pending = s.pending ∧ t.pp = s.pp ∧ t.tb = s.tb ∧ t.pu = s.pu ∧ t.hs = s.hs ∧ t.rs = s.rs ∧ t.cs = s.cs ∧
  t.sq.store = s.sq.store ∧ t.pe = s.pe ∧ t.rd = s.rd ∧ t.li = s.li

/-- Nothing outside `rs.counters`, `rs.unroutedHeads`, `sq.streams`, `sq.aborts`, `pe.channels`, `li.lanes`, `li.lossFlags` differs. -/
abbrev OnlyRouteCountsStreamsAbortCountsChannelsOutput (s t : State) : Prop :=
  t.pending = s.pending ∧ t.pp = s.pp ∧ t.tb = s.tb ∧ t.pu = s.pu ∧ t.hs = s.hs ∧ t.rs.paths = s.rs.paths ∧ t.cs = s.cs ∧
  t.sq.store = s.sq.store ∧ t.pe.program = s.pe.program ∧ t.pe.programFaults = s.pe.programFaults ∧
  t.pe.template = s.pe.template ∧ t.pe.templateFaults = s.pe.templateFaults ∧ t.pe.counters = s.pe.counters ∧
  t.pe.storeFaults = s.pe.storeFaults ∧ t.rd = s.rd ∧ t.li.tenants = s.li.tenants

/-- Nothing outside `pu.paths`, `rs.paths` differs. -/
abbrev OnlyProbingPaths (s t : State) : Prop :=
  t.pending = s.pending ∧ t.pp = s.pp ∧ t.tb = s.tb ∧ t.pu.startMark = s.pu.startMark ∧ t.pu.peerMark = s.pu.peerMark ∧
  t.pu.peerRestarts = s.pu.peerRestarts ∧ t.hs = s.hs ∧ t.rs.counters = s.rs.counters ∧
  t.rs.unroutedHeads = s.rs.unroutedHeads ∧ t.cs = s.cs ∧ t.sq = s.sq ∧ t.pe = s.pe ∧ t.rd = s.rd ∧ t.li = s.li

/-- Nothing outside `pu.startMark` differs. -/
abbrev OnlyStartMark (s t : State) : Prop :=
  t.pending = s.pending ∧ t.pp = s.pp ∧ t.tb = s.tb ∧ t.pu.paths = s.pu.paths ∧ t.pu.peerMark = s.pu.peerMark ∧
  t.pu.peerRestarts = s.pu.peerRestarts ∧ t.hs = s.hs ∧ t.rs = s.rs ∧ t.cs = s.cs ∧ t.sq = s.sq ∧ t.pe = s.pe ∧ t.rd = s.rd ∧
  t.li = s.li

/-- Nothing outside `rs.paths`, `rs.counters`, `rs.unroutedHeads`, `sq.streams`, `pe.channels`, `li.lanes`, `li.lossFlags` differs. -/
abbrev OnlyRsStreamsChannelsOutput (s t : State) : Prop :=
  t.pending = s.pending ∧ t.pp = s.pp ∧ t.tb = s.tb ∧ t.pu = s.pu ∧ t.hs = s.hs ∧ t.cs = s.cs ∧ t.sq.store = s.sq.store ∧
  t.sq.aborts = s.sq.aborts ∧ t.pe.program = s.pe.program ∧ t.pe.programFaults = s.pe.programFaults ∧
  t.pe.template = s.pe.template ∧ t.pe.templateFaults = s.pe.templateFaults ∧ t.pe.counters = s.pe.counters ∧
  t.pe.storeFaults = s.pe.storeFaults ∧ t.rd = s.rd ∧ t.li.tenants = s.li.tenants

/-- Nothing outside `rs.paths`, `rs.counters`, `rs.unroutedHeads`, `sq.streams`, `sq.aborts`, `pe.channels`, `li.lanes`, `li.lossFlags` differs. -/
abbrev OnlyRsStreamsAbortCountsChannelsOutput (s t : State) : Prop :=
  t.pending = s.pending ∧ t.pp = s.pp ∧ t.tb = s.tb ∧ t.pu = s.pu ∧ t.hs = s.hs ∧ t.cs = s.cs ∧ t.sq.store = s.sq.store ∧
  t.pe.program = s.pe.program ∧ t.pe.programFaults = s.pe.programFaults ∧ t.pe.template = s.pe.template ∧
  t.pe.templateFaults = s.pe.templateFaults ∧ t.pe.counters = s.pe.counters ∧ t.pe.storeFaults = s.pe.storeFaults ∧
  t.rd = s.rd ∧ t.li.tenants = s.li.tenants

/-- Nothing outside `pu.paths`, `pu.startMark`, `hs.hops`, `rs.paths`, `rs.counters`, `rs.unroutedHeads`, `sq.streams`, `sq.aborts`, `pe.channels`, `li.lanes`, `li.lossFlags` differs. -/
abbrev OnlyAs_doPathon (s t : State) : Prop :=
  t.pending = s.pending ∧ t.pp = s.pp ∧ t.tb = s.tb ∧ t.pu.peerMark = s.pu.peerMark ∧ t.pu.peerRestarts = s.pu.peerRestarts ∧
  t.hs.leakPeriodMs = s.hs.leakPeriodMs ∧ t.hs.leakTimer = s.hs.leakTimer ∧ t.hs.counters = s.hs.counters ∧ t.cs = s.cs ∧
  t.sq.store = s.sq.store ∧ t.pe.program = s.pe.program ∧ t.pe.programFaults = s.pe.programFaults ∧
  t.pe.template = s.pe.template ∧ t.pe.templateFaults = s.pe.templateFaults ∧ t.pe.counters = s.pe.counters ∧
  t.pe.storeFaults = s.pe.storeFaults ∧ t.rd = s.rd ∧ t.li.tenants = s.li.tenants

/-- Nothing outside `pu.paths`, `hs.hops`, `rs.paths`, `rs.counters`, `rs.unroutedHeads`, `sq.streams`, `sq.aborts`, `pe.channels`, `li.lanes`, `li.lossFlags` differs. -/
abbrev OnlyProbingHopsRsStreamsAbortCountsChannelsOutput (s t : State) : Prop :=
  t.pending = s.pending ∧ t.pp = s.pp ∧ t.tb = s.tb ∧ t.pu.startMark = s.pu.startMark ∧ t.pu.peerMark = s.pu.peerMark ∧
  t.pu.peerRestarts = s.pu.peerRestarts ∧ t.hs.leakPeriodMs = s.hs.leakPeriodMs ∧ t.hs.leakTimer = s.hs.leakTimer ∧
  t.hs.counters = s.hs.counters ∧ t.cs = s.cs ∧ t.sq.store = s.sq.store ∧ t.pe.program = s.pe.program ∧
  t.pe.programFaults = s.pe.programFaults ∧ t.pe.template = s.pe.template ∧ t.pe.templateFaults = s.pe.templateFaults ∧
  t.pe.counters = s.pe.counters ∧ t.pe.storeFaults = s.pe.storeFaults ∧ t.rd = s.rd ∧ t.li.tenants = s.li.tenants

/-- Nothing outside `pu.paths`, `hs.hops`, `rs.paths`, `rs.counters`, `rs.unroutedHeads`, `sq.streams`, `sq.aborts`, `pe.channels`, `rd.contexts`, `li.lanes`, `li.lossFlags` differs. -/
abbrev OnlyAs_doPathrestart (s t : State) : Prop :=
  t.pending = s.pending ∧ t.pp = s.pp ∧ t.tb = s.tb ∧ t.pu.startMark = s.pu.startMark ∧ t.pu.peerMark = s.pu.peerMark ∧
  t.pu.peerRestarts = s.pu.peerRestarts ∧ t.hs.leakPeriodMs = s.hs.leakPeriodMs ∧ t.hs.leakTimer = s.hs.leakTimer ∧
  t.hs.counters = s.hs.counters ∧ t.cs = s.cs ∧ t.sq.store = s.sq.store ∧ t.pe.program = s.pe.program ∧
  t.pe.programFaults = s.pe.programFaults ∧ t.pe.template = s.pe.template ∧ t.pe.templateFaults = s.pe.templateFaults ∧
  t.pe.counters = s.pe.counters ∧ t.pe.storeFaults = s.pe.storeFaults ∧ t.rd.records = s.rd.records ∧
  t.rd.pathCounters = s.rd.pathCounters ∧ t.rd.streamCounters = s.rd.streamCounters ∧ t.li.tenants = s.li.tenants

/-- Nothing outside `pe.channels`, `rd.streamCounters`, `li.lanes`, `li.lossFlags` differs. -/
abbrev OnlyChannelsRdStreamCountsOutput (s t : State) : Prop :=
  t.pending = s.pending ∧ t.pp = s.pp ∧ t.tb = s.tb ∧ t.pu = s.pu ∧ t.hs = s.hs ∧ t.rs = s.rs ∧ t.cs = s.cs ∧ t.sq = s.sq ∧
  t.pe.program = s.pe.program ∧ t.pe.programFaults = s.pe.programFaults ∧ t.pe.template = s.pe.template ∧
  t.pe.templateFaults = s.pe.templateFaults ∧ t.pe.counters = s.pe.counters ∧ t.pe.storeFaults = s.pe.storeFaults ∧
  t.rd.contexts = s.rd.contexts ∧ t.rd.records = s.rd.records ∧ t.rd.pathCounters = s.rd.pathCounters ∧
  t.li.tenants = s.li.tenants

/-- Nothing outside `pe.channels`, `rd.records`, `rd.streamCounters`, `li.lanes`, `li.lossFlags` differs. -/
abbrev OnlyChannelsReceivedOutput (s t : State) : Prop :=
  t.pending = s.pending ∧ t.pp = s.pp ∧ t.tb = s.tb ∧ t.pu = s.pu ∧ t.hs = s.hs ∧ t.rs = s.rs ∧ t.cs = s.cs ∧ t.sq = s.sq ∧
  t.pe.program = s.pe.program ∧ t.pe.programFaults = s.pe.programFaults ∧ t.pe.template = s.pe.template ∧
  t.pe.templateFaults = s.pe.templateFaults ∧ t.pe.counters = s.pe.counters ∧ t.pe.storeFaults = s.pe.storeFaults ∧
  t.rd.contexts = s.rd.contexts ∧ t.rd.pathCounters = s.rd.pathCounters ∧ t.li.tenants = s.li.tenants

/-- Nothing outside `rd.records`, `rd.streamCounters` differs. -/
abbrev OnlyReceived (s t : State) : Prop :=
  t.pending = s.pending ∧ t.pp = s.pp ∧ t.tb = s.tb ∧ t.pu = s.pu ∧ t.hs = s.hs ∧ t.rs = s.rs ∧ t.cs = s.cs ∧ t.sq = s.sq ∧
  t.pe = s.pe ∧ t.rd.contexts = s.rd.contexts ∧ t.rd.pathCounters = s.rd.pathCounters ∧ t.li = s.li

/-- Nothing outside `pe.channels`, `rd.contexts`, `rd.records`, `rd.pathCounters`, `rd.streamCounters`, `li.lanes`, `li.lossFlags` differs. -/
abbrev OnlyChannelsRdOutput (s t : State) : Prop :=
  t.pending = s.pending ∧ t.pp = s.pp ∧ t.tb = s.tb ∧ t.pu = s.pu ∧ t.hs = s.hs ∧ t.rs = s.rs ∧ t.cs = s.cs ∧ t.sq = s.sq ∧
  t.pe.program = s.pe.program ∧ t.pe.programFaults = s.pe.programFaults ∧ t.pe.template = s.pe.template ∧
  t.pe.templateFaults = s.pe.templateFaults ∧ t.pe.counters = s.pe.counters ∧ t.pe.storeFaults = s.pe.storeFaults ∧
  t.li.tenants = s.li.tenants

/-- Nothing outside `rd.contexts`, `rd.pathCounters` differs. -/
abbrev OnlyContextsRdPathCounts (s t : State) : Prop :=
  t.pending = s.pending ∧ t.pp = s.pp ∧ t.tb = s.tb ∧ t.pu = s.pu ∧ t.hs = s.hs ∧ t.rs = s.rs ∧ t.cs = s.cs ∧ t.sq = s.sq ∧
  t.pe = s.pe ∧ t.rd.records = s.rd.records ∧ t.rd.streamCounters = s.rd.streamCounters ∧ t.li = s.li

/-- Nothing outside `rs.counters`, `rs.unroutedHeads`, `sq.streams`, `pe.channels`, `rd.records`, `rd.streamCounters`, `li.tenants`, `li.lanes`, `li.lossFlags` differs. -/
abbrev OnlyRouteCountsStreamsChannelsReceivedTenantsOutput (s t : State) : Prop :=
  t.pending = s.pending ∧ t.pp = s.pp ∧ t.tb = s.tb ∧ t.pu = s.pu ∧ t.hs = s.hs ∧ t.rs.paths = s.rs.paths ∧ t.cs = s.cs ∧
  t.sq.store = s.sq.store ∧ t.sq.aborts = s.sq.aborts ∧ t.pe.program = s.pe.program ∧
  t.pe.programFaults = s.pe.programFaults ∧ t.pe.template = s.pe.template ∧ t.pe.templateFaults = s.pe.templateFaults ∧
  t.pe.counters = s.pe.counters ∧ t.pe.storeFaults = s.pe.storeFaults ∧ t.rd.contexts = s.rd.contexts ∧
  t.rd.pathCounters = s.rd.pathCounters

/-- Nothing outside `pe.storeFaults` differs. -/
abbrev OnlyStoreFaults (s t : State) : Prop :=
  t.pending = s.pending ∧ t.pp = s.pp ∧ t.tb = s.tb ∧ t.pu = s.pu ∧ t.hs = s.hs ∧ t.rs = s.rs ∧ t.cs = s.cs ∧ t.sq = s.sq ∧
  t.pe.program = s.pe.program ∧ t.pe.programFaults = s.pe.programFaults ∧ t.pe.template = s.pe.template ∧
  t.pe.templateFaults = s.pe.templateFaults ∧ t.pe.channels = s.pe.channels ∧ t.pe.counters = s.pe.counters ∧ t.rd = s.rd ∧
  t.li = s.li

/-- Nothing outside `pe.channels`, `pe.counters`, `pe.storeFaults`, `li.lanes`, `li.lossFlags` differs. -/
abbrev OnlyChannelsPeCountsFaultsOutput (s t : State) : Prop :=
  t.pending = s.pending ∧ t.pp = s.pp ∧ t.tb = s.tb ∧ t.pu = s.pu ∧ t.hs = s.hs ∧ t.rs = s.rs ∧ t.cs = s.cs ∧ t.sq = s.sq ∧
  t.pe.program = s.pe.program ∧ t.pe.programFaults = s.pe.programFaults ∧ t.pe.template = s.pe.template ∧
  t.pe.templateFaults = s.pe.templateFaults ∧ t.rd = s.rd ∧ t.li.tenants = s.li.tenants

/-- Nothing outside `pe.channels`, `pe.counters` differs. -/
abbrev OnlyChannelsPeCounts (s t : State) : Prop :=
  t.pending = s.pending ∧ t.pp = s.pp ∧ t.tb = s.tb ∧ t.pu = s.pu ∧ t.hs = s.hs ∧ t.rs = s.rs ∧ t.cs = s.cs ∧ t.sq = s.sq ∧
  t.pe.program = s.pe.program ∧ t.pe.programFaults = s.pe.programFaults ∧ t.pe.template = s.pe.template ∧
  t.pe.templateFaults = s.pe.templateFaults ∧ t.pe.storeFaults = s.pe.storeFaults ∧ t.rd = s.rd ∧ t.li = s.li

/-- Nothing outside the rest of TB, `pe.channels` differs. -/
abbrev OnlyTbTimersChannels (s t : State) : Prop :=
  t.pending = s.pending ∧ t.pp = s.pp ∧ t.tb.count = s.tb.count ∧ t.tb.epoch = s.tb.epoch ∧ t.tb.state = s.tb.state ∧
  t.pu = s.pu ∧ t.hs = s.hs ∧ t.rs = s.rs ∧ t.cs = s.cs ∧ t.sq = s.sq ∧ t.pe.program = s.pe.program ∧
  t.pe.programFaults = s.pe.programFaults ∧ t.pe.template = s.pe.template ∧ t.pe.templateFaults = s.pe.templateFaults ∧
  t.pe.counters = s.pe.counters ∧ t.pe.storeFaults = s.pe.storeFaults ∧ t.rd = s.rd ∧ t.li = s.li

/-- Nothing outside the rest of TB, `pe.channels`, `pe.counters`, `li.lanes`, `li.lossFlags` differs. -/
abbrev OnlyTbTimersChannelsPeCountsOutput (s t : State) : Prop :=
  t.pending = s.pending ∧ t.pp = s.pp ∧ t.tb.count = s.tb.count ∧ t.tb.epoch = s.tb.epoch ∧ t.tb.state = s.tb.state ∧
  t.pu = s.pu ∧ t.hs = s.hs ∧ t.rs = s.rs ∧ t.cs = s.cs ∧ t.sq = s.sq ∧ t.pe.program = s.pe.program ∧
  t.pe.programFaults = s.pe.programFaults ∧ t.pe.template = s.pe.template ∧ t.pe.templateFaults = s.pe.templateFaults ∧
  t.pe.storeFaults = s.pe.storeFaults ∧ t.rd = s.rd ∧ t.li.tenants = s.li.tenants

/-- Nothing outside `pe.program`, `pe.programFaults` differs. -/
abbrev OnlyProgramProgramFaults (s t : State) : Prop :=
  t.pending = s.pending ∧ t.pp = s.pp ∧ t.tb = s.tb ∧ t.pu = s.pu ∧ t.hs = s.hs ∧ t.rs = s.rs ∧ t.cs = s.cs ∧ t.sq = s.sq ∧
  t.pe.template = s.pe.template ∧ t.pe.templateFaults = s.pe.templateFaults ∧ t.pe.channels = s.pe.channels ∧
  t.pe.counters = s.pe.counters ∧ t.pe.storeFaults = s.pe.storeFaults ∧ t.rd = s.rd ∧ t.li = s.li

/-- Nothing outside `pe.template`, `pe.templateFaults` differs. -/
abbrev OnlyTemplateTemplateFaults (s t : State) : Prop :=
  t.pending = s.pending ∧ t.pp = s.pp ∧ t.tb = s.tb ∧ t.pu = s.pu ∧ t.hs = s.hs ∧ t.rs = s.rs ∧ t.cs = s.cs ∧ t.sq = s.sq ∧
  t.pe.program = s.pe.program ∧ t.pe.programFaults = s.pe.programFaults ∧ t.pe.channels = s.pe.channels ∧
  t.pe.counters = s.pe.counters ∧ t.pe.storeFaults = s.pe.storeFaults ∧ t.rd = s.rd ∧ t.li = s.li

/-- Nothing outside TB, `pe.channels`, `li.lanes`, `li.lossFlags` differs. -/
abbrev OnlyTbChannelsOutput (s t : State) : Prop :=
  t.pending = s.pending ∧ t.pp = s.pp ∧ t.pu = s.pu ∧ t.hs = s.hs ∧ t.rs = s.rs ∧ t.cs = s.cs ∧ t.sq = s.sq ∧
  t.pe.program = s.pe.program ∧ t.pe.programFaults = s.pe.programFaults ∧ t.pe.template = s.pe.template ∧
  t.pe.templateFaults = s.pe.templateFaults ∧ t.pe.counters = s.pe.counters ∧ t.pe.storeFaults = s.pe.storeFaults ∧
  t.rd = s.rd ∧ t.li.tenants = s.li.tenants

/-- Nothing outside the time state, `pe.channels`, `li.lanes`, `li.lossFlags` differs. -/
abbrev OnlyTbStateChannelsOutput (s t : State) : Prop :=
  t.pending = s.pending ∧ t.pp = s.pp ∧ t.tb.count = s.tb.count ∧ t.tb.epoch = s.tb.epoch ∧ t.pu = s.pu ∧ t.hs = s.hs ∧
  t.rs = s.rs ∧ t.cs = s.cs ∧ t.sq = s.sq ∧ t.pe.program = s.pe.program ∧ t.pe.programFaults = s.pe.programFaults ∧
  t.pe.template = s.pe.template ∧ t.pe.templateFaults = s.pe.templateFaults ∧ t.pe.counters = s.pe.counters ∧
  t.pe.storeFaults = s.pe.storeFaults ∧ t.rd = s.rd ∧ t.li.tenants = s.li.tenants

/-- Nothing outside the time state, the rest of TB, `pe.channels`, `li.lanes`, `li.lossFlags` differs. -/
abbrev OnlyTbRestChannelsOutput (s t : State) : Prop :=
  t.pending = s.pending ∧ t.pp = s.pp ∧ t.tb.count = s.tb.count ∧ t.tb.epoch = s.tb.epoch ∧ t.pu = s.pu ∧ t.hs = s.hs ∧
  t.rs = s.rs ∧ t.cs = s.cs ∧ t.sq = s.sq ∧ t.pe.program = s.pe.program ∧ t.pe.programFaults = s.pe.programFaults ∧
  t.pe.template = s.pe.template ∧ t.pe.templateFaults = s.pe.templateFaults ∧ t.pe.counters = s.pe.counters ∧
  t.pe.storeFaults = s.pe.storeFaults ∧ t.rd = s.rd ∧ t.li.tenants = s.li.tenants

/-- Nothing outside `rs.counters`, `rs.unroutedHeads`, `sq.streams`, `li.tenants` differs. -/
abbrev OnlyRouteCountsStreamsTenants (s t : State) : Prop :=
  t.pending = s.pending ∧ t.pp = s.pp ∧ t.tb = s.tb ∧ t.pu = s.pu ∧ t.hs = s.hs ∧ t.rs.paths = s.rs.paths ∧ t.cs = s.cs ∧
  t.sq.store = s.sq.store ∧ t.sq.aborts = s.sq.aborts ∧ t.pe = s.pe ∧ t.rd = s.rd ∧ t.li.lanes = s.li.lanes ∧
  t.li.lossFlags = s.li.lossFlags

/-- Nothing outside the rest of TB, `pe.channels`, `li.tenants`, `li.lanes` differs. -/
abbrev OnlyTbTimersChannelsTenantsLanes (s t : State) : Prop :=
  t.pending = s.pending ∧ t.pp = s.pp ∧ t.tb.count = s.tb.count ∧ t.tb.epoch = s.tb.epoch ∧ t.tb.state = s.tb.state ∧
  t.pu = s.pu ∧ t.hs = s.hs ∧ t.rs = s.rs ∧ t.cs = s.cs ∧ t.sq = s.sq ∧ t.pe.program = s.pe.program ∧
  t.pe.programFaults = s.pe.programFaults ∧ t.pe.template = s.pe.template ∧ t.pe.templateFaults = s.pe.templateFaults ∧
  t.pe.counters = s.pe.counters ∧ t.pe.storeFaults = s.pe.storeFaults ∧ t.rd = s.rd ∧ t.li.lossFlags = s.li.lossFlags

/-- Nothing outside `li.lanes`, `li.lossFlags` differs. -/
abbrev OnlyOutput (s t : State) : Prop :=
  t.pending = s.pending ∧ t.pp = s.pp ∧ t.tb = s.tb ∧ t.pu = s.pu ∧ t.hs = s.hs ∧ t.rs = s.rs ∧ t.cs = s.cs ∧ t.sq = s.sq ∧
  t.pe = s.pe ∧ t.rd = s.rd ∧ t.li.tenants = s.li.tenants

/-- Nothing outside the rest of TB, `cs.plans`, `sq.streams`, `sq.aborts`, `pe.channels`, `rd.contexts`, `rd.records`, `rd.streamCounters`, `li.lanes`, `li.lossFlags` differs. -/
abbrev OnlyAs_doTenantreset (s t : State) : Prop :=
  t.pending = s.pending ∧ t.pp = s.pp ∧ t.tb.count = s.tb.count ∧ t.tb.epoch = s.tb.epoch ∧ t.tb.state = s.tb.state ∧
  t.pu = s.pu ∧ t.hs = s.hs ∧ t.rs = s.rs ∧ t.cs.windowPeriodUs = s.cs.windowPeriodUs ∧ t.cs.windowTimer = s.cs.windowTimer ∧
  t.cs.windows = s.cs.windows ∧ t.sq.store = s.sq.store ∧ t.pe.program = s.pe.program ∧
  t.pe.programFaults = s.pe.programFaults ∧ t.pe.template = s.pe.template ∧ t.pe.templateFaults = s.pe.templateFaults ∧
  t.pe.counters = s.pe.counters ∧ t.pe.storeFaults = s.pe.storeFaults ∧ t.rd.pathCounters = s.rd.pathCounters ∧
  t.li.tenants = s.li.tenants

/-- Nothing outside `pp`, the rest of TB, `pu.paths`, `pu.peerRestarts`, `hs.counters`, `rs.counters`, `rs.unroutedHeads`, `cs.plans`, `cs.windows`, `sq.streams`, `sq.aborts`, `pe.counters`, `pe.storeFaults`, `rd.pathCounters`, `rd.streamCounters`, `li.lanes` differs. -/
abbrev OnlyAs_zeroCounters (s t : State) : Prop :=
  t.pending = s.pending ∧ t.tb.count = s.tb.count ∧ t.tb.epoch = s.tb.epoch ∧ t.tb.state = s.tb.state ∧
  t.pu.startMark = s.pu.startMark ∧ t.pu.peerMark = s.pu.peerMark ∧ t.hs.hops = s.hs.hops ∧
  t.hs.leakPeriodMs = s.hs.leakPeriodMs ∧ t.hs.leakTimer = s.hs.leakTimer ∧ t.rs.paths = s.rs.paths ∧
  t.cs.windowPeriodUs = s.cs.windowPeriodUs ∧ t.cs.windowTimer = s.cs.windowTimer ∧ t.sq.store = s.sq.store ∧
  t.pe.program = s.pe.program ∧ t.pe.programFaults = s.pe.programFaults ∧ t.pe.template = s.pe.template ∧
  t.pe.templateFaults = s.pe.templateFaults ∧ t.pe.channels = s.pe.channels ∧ t.rd.contexts = s.rd.contexts ∧
  t.rd.records = s.rd.records ∧ t.li.tenants = s.li.tenants ∧ t.li.lossFlags = s.li.lossFlags

/-- Nothing outside `pu.paths`, `pu.startMark`, `pu.peerMark` differs. -/
abbrev OnlyProbingStartMarkPeerMark (s t : State) : Prop :=
  t.pending = s.pending ∧ t.pp = s.pp ∧ t.tb = s.tb ∧ t.pu.peerRestarts = s.pu.peerRestarts ∧ t.hs = s.hs ∧ t.rs = s.rs ∧
  t.cs = s.cs ∧ t.sq = s.sq ∧ t.pe = s.pe ∧ t.rd = s.rd ∧ t.li = s.li

/-- Nothing outside `rd.contexts`, `rd.records`, `rd.streamCounters` differs. -/
abbrev OnlyContextsReceived (s t : State) : Prop :=
  t.pending = s.pending ∧ t.pp = s.pp ∧ t.tb = s.tb ∧ t.pu = s.pu ∧ t.hs = s.hs ∧ t.rs = s.rs ∧ t.cs = s.cs ∧ t.sq = s.sq ∧
  t.pe = s.pe ∧ t.rd.pathCounters = s.rd.pathCounters ∧ t.li = s.li

/-- Nothing outside `pp`, the rest of TB, `pu.paths`, `pu.startMark`, `pu.peerMark`, `pu.peerRestarts`, `hs.hops`, `hs.counters`, `rs.paths`, `rs.counters`, `rs.unroutedHeads`, `cs.plans`, `cs.windows`, `sq.streams`, `sq.store`, `sq.aborts`, `pe.channels`, `pe.counters`, `pe.storeFaults`, `rd.contexts`, `rd.records`, `rd.pathCounters`, `rd.streamCounters`, `li.lanes`, `li.lossFlags` differs. -/
abbrev OnlyAs_doRestart (s t : State) : Prop :=
  t.pending = s.pending ∧ t.tb.count = s.tb.count ∧ t.tb.epoch = s.tb.epoch ∧ t.tb.state = s.tb.state ∧
  t.hs.leakPeriodMs = s.hs.leakPeriodMs ∧ t.hs.leakTimer = s.hs.leakTimer ∧ t.cs.windowPeriodUs = s.cs.windowPeriodUs ∧
  t.cs.windowTimer = s.cs.windowTimer ∧ t.pe.program = s.pe.program ∧ t.pe.programFaults = s.pe.programFaults ∧
  t.pe.template = s.pe.template ∧ t.pe.templateFaults = s.pe.templateFaults ∧ t.li.tenants = s.li.tenants

/-- Nothing outside `hs.hops`, `hs.counters`, `pe.channels`, `li.lanes`, `li.lossFlags` differs. -/
abbrev OnlyHopsHopCountsChannelsOutput (s t : State) : Prop :=
  t.pending = s.pending ∧ t.pp = s.pp ∧ t.tb = s.tb ∧ t.pu = s.pu ∧ t.hs.leakPeriodMs = s.hs.leakPeriodMs ∧
  t.hs.leakTimer = s.hs.leakTimer ∧ t.rs = s.rs ∧ t.cs = s.cs ∧ t.sq = s.sq ∧ t.pe.program = s.pe.program ∧
  t.pe.programFaults = s.pe.programFaults ∧ t.pe.template = s.pe.template ∧ t.pe.templateFaults = s.pe.templateFaults ∧
  t.pe.counters = s.pe.counters ∧ t.pe.storeFaults = s.pe.storeFaults ∧ t.rd = s.rd ∧ t.li.tenants = s.li.tenants

/-- Nothing outside `hs.hops`, `hs.counters`, `rs.paths`, `rs.counters`, `rs.unroutedHeads`, `sq.streams`, `sq.aborts`, `pe.channels`, `li.lanes`, `li.lossFlags` differs. -/
abbrev OnlyHopsHopCountsRsStreamsAbortCountsChannelsOutput (s t : State) : Prop :=
  t.pending = s.pending ∧ t.pp = s.pp ∧ t.tb = s.tb ∧ t.pu = s.pu ∧ t.hs.leakPeriodMs = s.hs.leakPeriodMs ∧
  t.hs.leakTimer = s.hs.leakTimer ∧ t.cs = s.cs ∧ t.sq.store = s.sq.store ∧ t.pe.program = s.pe.program ∧
  t.pe.programFaults = s.pe.programFaults ∧ t.pe.template = s.pe.template ∧ t.pe.templateFaults = s.pe.templateFaults ∧
  t.pe.counters = s.pe.counters ∧ t.pe.storeFaults = s.pe.storeFaults ∧ t.rd = s.rd ∧ t.li.tenants = s.li.tenants

/-- Nothing outside `hs.hops`, `rs.paths`, `rs.counters`, `rs.unroutedHeads`, `sq.streams`, `sq.aborts`, `pe.channels`, `li.lanes`, `li.lossFlags` differs. -/
abbrev OnlyHopsRsStreamsAbortCountsChannelsOutput (s t : State) : Prop :=
  t.pending = s.pending ∧ t.pp = s.pp ∧ t.tb = s.tb ∧ t.pu = s.pu ∧ t.hs.leakPeriodMs = s.hs.leakPeriodMs ∧
  t.hs.leakTimer = s.hs.leakTimer ∧ t.hs.counters = s.hs.counters ∧ t.cs = s.cs ∧ t.sq.store = s.sq.store ∧
  t.pe.program = s.pe.program ∧ t.pe.programFaults = s.pe.programFaults ∧ t.pe.template = s.pe.template ∧
  t.pe.templateFaults = s.pe.templateFaults ∧ t.pe.counters = s.pe.counters ∧ t.pe.storeFaults = s.pe.storeFaults ∧
  t.rd = s.rd ∧ t.li.tenants = s.li.tenants

/-- Nothing outside `hs.leakPeriodMs`, `hs.leakTimer` differs. -/
abbrev OnlyLeakPeriodLeakTimer (s t : State) : Prop :=
  t.pending = s.pending ∧ t.pp = s.pp ∧ t.tb = s.tb ∧ t.pu = s.pu ∧ t.hs.hops = s.hs.hops ∧ t.hs.counters = s.hs.counters ∧
  t.rs = s.rs ∧ t.cs = s.cs ∧ t.sq = s.sq ∧ t.pe = s.pe ∧ t.rd = s.rd ∧ t.li = s.li

/-- Nothing outside `hs.hops`, `hs.leakPeriodMs`, `hs.leakTimer`, `hs.counters`, `rs.paths`, `rs.counters`, `rs.unroutedHeads`, `sq.streams`, `sq.aborts`, `pe.channels`, `li.lanes`, `li.lossFlags` differs. -/
abbrev OnlyHsRsStreamsAbortCountsChannelsOutput (s t : State) : Prop :=
  t.pending = s.pending ∧ t.pp = s.pp ∧ t.tb = s.tb ∧ t.pu = s.pu ∧ t.cs = s.cs ∧ t.sq.store = s.sq.store ∧
  t.pe.program = s.pe.program ∧ t.pe.programFaults = s.pe.programFaults ∧ t.pe.template = s.pe.template ∧
  t.pe.templateFaults = s.pe.templateFaults ∧ t.pe.counters = s.pe.counters ∧ t.pe.storeFaults = s.pe.storeFaults ∧
  t.rd = s.rd ∧ t.li.tenants = s.li.tenants

/-- Nothing outside `cs.windowPeriodUs`, `cs.windowTimer` differs. -/
abbrev OnlyWindowWindowTimer (s t : State) : Prop :=
  t.pending = s.pending ∧ t.pp = s.pp ∧ t.tb = s.tb ∧ t.pu = s.pu ∧ t.hs = s.hs ∧ t.rs = s.rs ∧ t.cs.plans = s.cs.plans ∧
  t.cs.windows = s.cs.windows ∧ t.sq = s.sq ∧ t.pe = s.pe ∧ t.rd = s.rd ∧ t.li = s.li

/-- Nothing outside `cs.plans`, `cs.windowPeriodUs`, `cs.windowTimer` differs. -/
abbrev OnlyPlansWindowWindowTimer (s t : State) : Prop :=
  t.pending = s.pending ∧ t.pp = s.pp ∧ t.tb = s.tb ∧ t.pu = s.pu ∧ t.hs = s.hs ∧ t.rs = s.rs ∧ t.cs.windows = s.cs.windows ∧
  t.sq = s.sq ∧ t.pe = s.pe ∧ t.rd = s.rd ∧ t.li = s.li

/-- Nothing outside `rs.counters`, `rs.unroutedHeads`, `cs.plans`, `sq.streams`, `pe.channels`, `li.lanes`, `li.lossFlags` differs. -/
abbrev OnlyRouteCountsPlansStreamsChannelsOutput (s t : State) : Prop :=
  t.pending = s.pending ∧ t.pp = s.pp ∧ t.tb = s.tb ∧ t.pu = s.pu ∧ t.hs = s.hs ∧ t.rs.paths = s.rs.paths ∧
  t.cs.windowPeriodUs = s.cs.windowPeriodUs ∧ t.cs.windowTimer = s.cs.windowTimer ∧ t.cs.windows = s.cs.windows ∧
  t.sq.store = s.sq.store ∧ t.sq.aborts = s.sq.aborts ∧ t.pe.program = s.pe.program ∧
  t.pe.programFaults = s.pe.programFaults ∧ t.pe.template = s.pe.template ∧ t.pe.templateFaults = s.pe.templateFaults ∧
  t.pe.counters = s.pe.counters ∧ t.pe.storeFaults = s.pe.storeFaults ∧ t.rd = s.rd ∧ t.li.tenants = s.li.tenants

/-- Nothing outside `pu.paths`, `rs.paths`, `rs.counters`, `rs.unroutedHeads`, `sq.streams`, `sq.aborts`, `pe.channels`, `li.lanes`, `li.lossFlags` differs. -/
abbrev OnlyProbingRsStreamsAbortCountsChannelsOutput (s t : State) : Prop :=
  t.pending = s.pending ∧ t.pp = s.pp ∧ t.tb = s.tb ∧ t.pu.startMark = s.pu.startMark ∧ t.pu.peerMark = s.pu.peerMark ∧
  t.pu.peerRestarts = s.pu.peerRestarts ∧ t.hs = s.hs ∧ t.cs = s.cs ∧ t.sq.store = s.sq.store ∧ t.pe.program = s.pe.program ∧
  t.pe.programFaults = s.pe.programFaults ∧ t.pe.template = s.pe.template ∧ t.pe.templateFaults = s.pe.templateFaults ∧
  t.pe.counters = s.pe.counters ∧ t.pe.storeFaults = s.pe.storeFaults ∧ t.rd = s.rd ∧ t.li.tenants = s.li.tenants

/-- Nothing outside `pu.peerMark`, `pu.peerRestarts`, `pe.channels`, `rd.contexts`, `rd.records`, `rd.streamCounters`, `li.lanes`, `li.lossFlags` differs. -/
abbrev OnlyPeerMarkPeerRestartsChannelsContextsReceivedOutput (s t : State) : Prop :=
  t.pending = s.pending ∧ t.pp = s.pp ∧ t.tb = s.tb ∧ t.pu.paths = s.pu.paths ∧ t.pu.startMark = s.pu.startMark ∧
  t.hs = s.hs ∧ t.rs = s.rs ∧ t.cs = s.cs ∧ t.sq = s.sq ∧ t.pe.program = s.pe.program ∧
  t.pe.programFaults = s.pe.programFaults ∧ t.pe.template = s.pe.template ∧ t.pe.templateFaults = s.pe.templateFaults ∧
  t.pe.counters = s.pe.counters ∧ t.pe.storeFaults = s.pe.storeFaults ∧ t.rd.pathCounters = s.rd.pathCounters ∧
  t.li.tenants = s.li.tenants

/-- Nothing outside `pu.paths`, `pu.peerMark`, `pu.peerRestarts`, `pe.channels`, `rd.contexts`, `rd.records`, `rd.streamCounters`, `li.lanes`, `li.lossFlags` differs. -/
abbrev OnlyProbingPeerMarkPeerRestartsChannelsContextsReceivedOutput (s t : State) : Prop :=
  t.pending = s.pending ∧ t.pp = s.pp ∧ t.tb = s.tb ∧ t.pu.startMark = s.pu.startMark ∧ t.hs = s.hs ∧ t.rs = s.rs ∧
  t.cs = s.cs ∧ t.sq = s.sq ∧ t.pe.program = s.pe.program ∧ t.pe.programFaults = s.pe.programFaults ∧
  t.pe.template = s.pe.template ∧ t.pe.templateFaults = s.pe.templateFaults ∧ t.pe.counters = s.pe.counters ∧
  t.pe.storeFaults = s.pe.storeFaults ∧ t.rd.pathCounters = s.rd.pathCounters ∧ t.li.tenants = s.li.tenants

/-- Nothing outside `pu.paths`, `rs.paths`, `rs.counters`, `rs.unroutedHeads`, `sq.streams`, `pe.channels`, `li.lanes`, `li.lossFlags` differs. -/
abbrev OnlyProbingRsStreamsChannelsOutput (s t : State) : Prop :=
  t.pending = s.pending ∧ t.pp = s.pp ∧ t.tb = s.tb ∧ t.pu.startMark = s.pu.startMark ∧ t.pu.peerMark = s.pu.peerMark ∧
  t.pu.peerRestarts = s.pu.peerRestarts ∧ t.hs = s.hs ∧ t.cs = s.cs ∧ t.sq.store = s.sq.store ∧ t.sq.aborts = s.sq.aborts ∧
  t.pe.program = s.pe.program ∧ t.pe.programFaults = s.pe.programFaults ∧ t.pe.template = s.pe.template ∧
  t.pe.templateFaults = s.pe.templateFaults ∧ t.pe.counters = s.pe.counters ∧ t.pe.storeFaults = s.pe.storeFaults ∧
  t.rd = s.rd ∧ t.li.tenants = s.li.tenants

/-- Nothing outside `pp`, `pu.paths`, `rs.paths`, `rs.counters`, `rs.unroutedHeads`, `sq.streams`, `sq.aborts`, `pe.channels`, `li.lanes`, `li.lossFlags` differs. -/
abbrev OnlyPortsProbingRsStreamsAbortCountsChannelsOutput (s t : State) : Prop :=
  t.pending = s.pending ∧ t.tb = s.tb ∧ t.pu.startMark = s.pu.startMark ∧ t.pu.peerMark = s.pu.peerMark ∧
  t.pu.peerRestarts = s.pu.peerRestarts ∧ t.hs = s.hs ∧ t.cs = s.cs ∧ t.sq.store = s.sq.store ∧ t.pe.program = s.pe.program ∧
  t.pe.programFaults = s.pe.programFaults ∧ t.pe.template = s.pe.template ∧ t.pe.templateFaults = s.pe.templateFaults ∧
  t.pe.counters = s.pe.counters ∧ t.pe.storeFaults = s.pe.storeFaults ∧ t.rd = s.rd ∧ t.li.tenants = s.li.tenants

/-- Nothing outside `pp`, `sq.streams` differs. -/
abbrev OnlyPortsStreams (s t : State) : Prop :=
  t.pending = s.pending ∧ t.tb = s.tb ∧ t.pu = s.pu ∧ t.hs = s.hs ∧ t.rs = s.rs ∧ t.cs = s.cs ∧ t.sq.store = s.sq.store ∧
  t.sq.aborts = s.sq.aborts ∧ t.pe = s.pe ∧ t.rd = s.rd ∧ t.li = s.li

/-- Nothing outside `pp`, `rs.counters`, `rs.unroutedHeads`, `sq.streams`, `pe.channels` differs. -/
abbrev OnlyPortsRouteCountsStreamsChannels (s t : State) : Prop :=
  t.pending = s.pending ∧ t.tb = s.tb ∧ t.pu = s.pu ∧ t.hs = s.hs ∧ t.rs.paths = s.rs.paths ∧ t.cs = s.cs ∧
  t.sq.store = s.sq.store ∧ t.sq.aborts = s.sq.aborts ∧ t.pe.program = s.pe.program ∧
  t.pe.programFaults = s.pe.programFaults ∧ t.pe.template = s.pe.template ∧ t.pe.templateFaults = s.pe.templateFaults ∧
  t.pe.counters = s.pe.counters ∧ t.pe.storeFaults = s.pe.storeFaults ∧ t.rd = s.rd ∧ t.li = s.li

/-- Nothing outside `pp`, `rs.counters`, `rs.unroutedHeads`, `cs.plans`, `sq.streams`, `pe.channels` differs. -/
abbrev OnlyPortsRouteCountsPlansStreamsChannels (s t : State) : Prop :=
  t.pending = s.pending ∧ t.tb = s.tb ∧ t.pu = s.pu ∧ t.hs = s.hs ∧ t.rs.paths = s.rs.paths ∧
  t.cs.windowPeriodUs = s.cs.windowPeriodUs ∧ t.cs.windowTimer = s.cs.windowTimer ∧ t.cs.windows = s.cs.windows ∧
  t.sq.store = s.sq.store ∧ t.sq.aborts = s.sq.aborts ∧ t.pe.program = s.pe.program ∧
  t.pe.programFaults = s.pe.programFaults ∧ t.pe.template = s.pe.template ∧ t.pe.templateFaults = s.pe.templateFaults ∧
  t.pe.counters = s.pe.counters ∧ t.pe.storeFaults = s.pe.storeFaults ∧ t.rd = s.rd ∧ t.li = s.li

/-- Nothing outside `pp`, `pe.channels`, `rd.contexts`, `rd.records`, `rd.pathCounters`, `rd.streamCounters`, `li.lanes`, `li.lossFlags` differs. -/
abbrev OnlyPortsChannelsRdOutput (s t : State) : Prop :=
  t.pending = s.pending ∧ t.tb = s.tb ∧ t.pu = s.pu ∧ t.hs = s.hs ∧ t.rs = s.rs ∧ t.cs = s.cs ∧ t.sq = s.sq ∧
  t.pe.program = s.pe.program ∧ t.pe.programFaults = s.pe.programFaults ∧ t.pe.template = s.pe.template ∧
  t.pe.templateFaults = s.pe.templateFaults ∧ t.pe.counters = s.pe.counters ∧ t.pe.storeFaults = s.pe.storeFaults ∧
  t.li.tenants = s.li.tenants

/-- Nothing outside `pp`, `pu.paths`, `pu.peerMark`, `pu.peerRestarts`, `rs.paths`, `rs.counters`, `rs.unroutedHeads`, `sq.streams`, `pe.channels`, `rd.contexts`, `rd.records`, `rd.streamCounters`, `li.lanes`, `li.lossFlags` differs. -/
abbrev OnlyAs_takeControlCell (s t : State) : Prop :=
  t.pending = s.pending ∧ t.tb = s.tb ∧ t.pu.startMark = s.pu.startMark ∧ t.hs = s.hs ∧ t.cs = s.cs ∧
  t.sq.store = s.sq.store ∧ t.sq.aborts = s.sq.aborts ∧ t.pe.program = s.pe.program ∧
  t.pe.programFaults = s.pe.programFaults ∧ t.pe.template = s.pe.template ∧ t.pe.templateFaults = s.pe.templateFaults ∧
  t.pe.counters = s.pe.counters ∧ t.pe.storeFaults = s.pe.storeFaults ∧ t.rd.pathCounters = s.rd.pathCounters ∧
  t.li.tenants = s.li.tenants

/-- Nothing outside nothing differs. -/
abbrev OnlyNothing (s t : State) : Prop :=
  t.pending = s.pending ∧ t.pp = s.pp ∧ t.tb = s.tb ∧ t.pu = s.pu ∧ t.hs = s.hs ∧ t.rs = s.rs ∧ t.cs = s.cs ∧ t.sq = s.sq ∧
  t.pe = s.pe ∧ t.rd = s.rd ∧ t.li = s.li

/-! ## A block of a choice -/

@[simp] theorem State.ite_pending (c : Prop) [Decidable c] (a b : State) : (if c then a else b).pending = if c then a.pending else b.pending :=
  apply_ite State.pending c a b

@[simp] theorem State.ite_pp (c : Prop) [Decidable c] (a b : State) : (if c then a else b).pp = if c then a.pp else b.pp :=
  apply_ite State.pp c a b

@[simp] theorem State.ite_tb (c : Prop) [Decidable c] (a b : State) : (if c then a else b).tb = if c then a.tb else b.tb :=
  apply_ite State.tb c a b

@[simp] theorem State.ite_pu (c : Prop) [Decidable c] (a b : State) : (if c then a else b).pu = if c then a.pu else b.pu :=
  apply_ite State.pu c a b

@[simp] theorem State.ite_hs (c : Prop) [Decidable c] (a b : State) : (if c then a else b).hs = if c then a.hs else b.hs :=
  apply_ite State.hs c a b

@[simp] theorem State.ite_rs (c : Prop) [Decidable c] (a b : State) : (if c then a else b).rs = if c then a.rs else b.rs :=
  apply_ite State.rs c a b

@[simp] theorem State.ite_cs (c : Prop) [Decidable c] (a b : State) : (if c then a else b).cs = if c then a.cs else b.cs :=
  apply_ite State.cs c a b

@[simp] theorem State.ite_sq (c : Prop) [Decidable c] (a b : State) : (if c then a else b).sq = if c then a.sq else b.sq :=
  apply_ite State.sq c a b

@[simp] theorem State.ite_pe (c : Prop) [Decidable c] (a b : State) : (if c then a else b).pe = if c then a.pe else b.pe :=
  apply_ite State.pe c a b

@[simp] theorem State.ite_rd (c : Prop) [Decidable c] (a b : State) : (if c then a else b).rd = if c then a.rd else b.rd :=
  apply_ite State.rd c a b

@[simp] theorem State.ite_li (c : Prop) [Decidable c] (a b : State) : (if c then a else b).li = if c then a.li else b.li :=
  apply_ite State.li c a b

@[simp] theorem TimeBase.ite_count (c : Prop) [Decidable c] (a b : TimeBase) : (if c then a else b).count = if c then a.count else b.count :=
  apply_ite TimeBase.count c a b

@[simp] theorem TimeBase.ite_epoch (c : Prop) [Decidable c] (a b : TimeBase) : (if c then a else b).epoch = if c then a.epoch else b.epoch :=
  apply_ite TimeBase.epoch c a b

@[simp] theorem TimeBase.ite_state (c : Prop) [Decidable c] (a b : TimeBase) : (if c then a else b).state = if c then a.state else b.state :=
  apply_ite TimeBase.state c a b

@[simp] theorem ProbeUnit.ite_paths (c : Prop) [Decidable c] (a b : ProbeUnit) : (if c then a else b).paths = if c then a.paths else b.paths :=
  apply_ite ProbeUnit.paths c a b

@[simp] theorem ProbeUnit.ite_startMark (c : Prop) [Decidable c] (a b : ProbeUnit) : (if c then a else b).startMark = if c then a.startMark else b.startMark :=
  apply_ite ProbeUnit.startMark c a b

@[simp] theorem ProbeUnit.ite_peerMark (c : Prop) [Decidable c] (a b : ProbeUnit) : (if c then a else b).peerMark = if c then a.peerMark else b.peerMark :=
  apply_ite ProbeUnit.peerMark c a b

@[simp] theorem ProbeUnit.ite_peerRestarts (c : Prop) [Decidable c] (a b : ProbeUnit) : (if c then a else b).peerRestarts = if c then a.peerRestarts else b.peerRestarts :=
  apply_ite ProbeUnit.peerRestarts c a b

@[simp] theorem HopSupervisor.ite_hops (c : Prop) [Decidable c] (a b : HopSupervisor) : (if c then a else b).hops = if c then a.hops else b.hops :=
  apply_ite HopSupervisor.hops c a b

@[simp] theorem HopSupervisor.ite_leakPeriodMs (c : Prop) [Decidable c] (a b : HopSupervisor) : (if c then a else b).leakPeriodMs = if c then a.leakPeriodMs else b.leakPeriodMs :=
  apply_ite HopSupervisor.leakPeriodMs c a b

@[simp] theorem HopSupervisor.ite_leakTimer (c : Prop) [Decidable c] (a b : HopSupervisor) : (if c then a else b).leakTimer = if c then a.leakTimer else b.leakTimer :=
  apply_ite HopSupervisor.leakTimer c a b

@[simp] theorem HopSupervisor.ite_counters (c : Prop) [Decidable c] (a b : HopSupervisor) : (if c then a else b).counters = if c then a.counters else b.counters :=
  apply_ite HopSupervisor.counters c a b

@[simp] theorem RouteSelector.ite_paths (c : Prop) [Decidable c] (a b : RouteSelector) : (if c then a else b).paths = if c then a.paths else b.paths :=
  apply_ite RouteSelector.paths c a b

@[simp] theorem RouteSelector.ite_counters (c : Prop) [Decidable c] (a b : RouteSelector) : (if c then a else b).counters = if c then a.counters else b.counters :=
  apply_ite RouteSelector.counters c a b

@[simp] theorem RouteSelector.ite_unroutedHeads (c : Prop) [Decidable c] (a b : RouteSelector) : (if c then a else b).unroutedHeads = if c then a.unroutedHeads else b.unroutedHeads :=
  apply_ite RouteSelector.unroutedHeads c a b

@[simp] theorem Scheduler.ite_plans (c : Prop) [Decidable c] (a b : Scheduler) : (if c then a else b).plans = if c then a.plans else b.plans :=
  apply_ite Scheduler.plans c a b

@[simp] theorem Scheduler.ite_windowPeriodUs (c : Prop) [Decidable c] (a b : Scheduler) : (if c then a else b).windowPeriodUs = if c then a.windowPeriodUs else b.windowPeriodUs :=
  apply_ite Scheduler.windowPeriodUs c a b

@[simp] theorem Scheduler.ite_windowTimer (c : Prop) [Decidable c] (a b : Scheduler) : (if c then a else b).windowTimer = if c then a.windowTimer else b.windowTimer :=
  apply_ite Scheduler.windowTimer c a b

@[simp] theorem Scheduler.ite_windows (c : Prop) [Decidable c] (a b : Scheduler) : (if c then a else b).windows = if c then a.windows else b.windows :=
  apply_ite Scheduler.windows c a b

@[simp] theorem StreamQueues.ite_streams (c : Prop) [Decidable c] (a b : StreamQueues) : (if c then a else b).streams = if c then a.streams else b.streams :=
  apply_ite StreamQueues.streams c a b

@[simp] theorem StreamQueues.ite_store (c : Prop) [Decidable c] (a b : StreamQueues) : (if c then a else b).store = if c then a.store else b.store :=
  apply_ite StreamQueues.store c a b

@[simp] theorem StreamQueues.ite_aborts (c : Prop) [Decidable c] (a b : StreamQueues) : (if c then a else b).aborts = if c then a.aborts else b.aborts :=
  apply_ite StreamQueues.aborts c a b

@[simp] theorem ProgramEngine.ite_program (c : Prop) [Decidable c] (a b : ProgramEngine) : (if c then a else b).program = if c then a.program else b.program :=
  apply_ite ProgramEngine.program c a b

@[simp] theorem ProgramEngine.ite_programFaults (c : Prop) [Decidable c] (a b : ProgramEngine) : (if c then a else b).programFaults = if c then a.programFaults else b.programFaults :=
  apply_ite ProgramEngine.programFaults c a b

@[simp] theorem ProgramEngine.ite_template (c : Prop) [Decidable c] (a b : ProgramEngine) : (if c then a else b).template = if c then a.template else b.template :=
  apply_ite ProgramEngine.template c a b

@[simp] theorem ProgramEngine.ite_templateFaults (c : Prop) [Decidable c] (a b : ProgramEngine) : (if c then a else b).templateFaults = if c then a.templateFaults else b.templateFaults :=
  apply_ite ProgramEngine.templateFaults c a b

@[simp] theorem ProgramEngine.ite_channels (c : Prop) [Decidable c] (a b : ProgramEngine) : (if c then a else b).channels = if c then a.channels else b.channels :=
  apply_ite ProgramEngine.channels c a b

@[simp] theorem ProgramEngine.ite_counters (c : Prop) [Decidable c] (a b : ProgramEngine) : (if c then a else b).counters = if c then a.counters else b.counters :=
  apply_ite ProgramEngine.counters c a b

@[simp] theorem ProgramEngine.ite_storeFaults (c : Prop) [Decidable c] (a b : ProgramEngine) : (if c then a else b).storeFaults = if c then a.storeFaults else b.storeFaults :=
  apply_ite ProgramEngine.storeFaults c a b

@[simp] theorem Receiver.ite_contexts (c : Prop) [Decidable c] (a b : Receiver) : (if c then a else b).contexts = if c then a.contexts else b.contexts :=
  apply_ite Receiver.contexts c a b

@[simp] theorem Receiver.ite_records (c : Prop) [Decidable c] (a b : Receiver) : (if c then a else b).records = if c then a.records else b.records :=
  apply_ite Receiver.records c a b

@[simp] theorem Receiver.ite_pathCounters (c : Prop) [Decidable c] (a b : Receiver) : (if c then a else b).pathCounters = if c then a.pathCounters else b.pathCounters :=
  apply_ite Receiver.pathCounters c a b

@[simp] theorem Receiver.ite_streamCounters (c : Prop) [Decidable c] (a b : Receiver) : (if c then a else b).streamCounters = if c then a.streamCounters else b.streamCounters :=
  apply_ite Receiver.streamCounters c a b

@[simp] theorem LaneInterface.ite_tenants (c : Prop) [Decidable c] (a b : LaneInterface) : (if c then a else b).tenants = if c then a.tenants else b.tenants :=
  apply_ite LaneInterface.tenants c a b

@[simp] theorem LaneInterface.ite_lanes (c : Prop) [Decidable c] (a b : LaneInterface) : (if c then a else b).lanes = if c then a.lanes else b.lanes :=
  apply_ite LaneInterface.lanes c a b

@[simp] theorem LaneInterface.ite_lossFlags (c : Prop) [Decidable c] (a b : LaneInterface) : (if c then a else b).lossFlags = if c then a.lossFlags else b.lossFlags :=
  apply_ite LaneInterface.lossFlags c a b

/-! ## Folds -/

theorem foldl_pending {α : Type} (f : State → α → State) (h : ∀ x a, (f x a).pending = x.pending) (l : List α) (s : State) :
    (l.foldl f s).pending = s.pending := by
  induction l generalizing s with
  | nil => rfl
  | cons a r ih => rw [List.foldl_cons, ih, h]

theorem foldl_pp {α : Type} (f : State → α → State) (h : ∀ x a, (f x a).pp = x.pp) (l : List α) (s : State) :
    (l.foldl f s).pp = s.pp := by
  induction l generalizing s with
  | nil => rfl
  | cons a r ih => rw [List.foldl_cons, ih, h]

theorem foldl_tb {α : Type} (f : State → α → State) (h : ∀ x a, (f x a).tb = x.tb) (l : List α) (s : State) :
    (l.foldl f s).tb = s.tb := by
  induction l generalizing s with
  | nil => rfl
  | cons a r ih => rw [List.foldl_cons, ih, h]

theorem foldl_tb_count {α : Type} (f : State → α → State) (h : ∀ x a, (f x a).tb.count = x.tb.count) (l : List α) (s : State) :
    (l.foldl f s).tb.count = s.tb.count := by
  induction l generalizing s with
  | nil => rfl
  | cons a r ih => rw [List.foldl_cons, ih, h]

theorem foldl_tb_epoch {α : Type} (f : State → α → State) (h : ∀ x a, (f x a).tb.epoch = x.tb.epoch) (l : List α) (s : State) :
    (l.foldl f s).tb.epoch = s.tb.epoch := by
  induction l generalizing s with
  | nil => rfl
  | cons a r ih => rw [List.foldl_cons, ih, h]

theorem foldl_tb_state {α : Type} (f : State → α → State) (h : ∀ x a, (f x a).tb.state = x.tb.state) (l : List α) (s : State) :
    (l.foldl f s).tb.state = s.tb.state := by
  induction l generalizing s with
  | nil => rfl
  | cons a r ih => rw [List.foldl_cons, ih, h]

theorem foldl_pu {α : Type} (f : State → α → State) (h : ∀ x a, (f x a).pu = x.pu) (l : List α) (s : State) :
    (l.foldl f s).pu = s.pu := by
  induction l generalizing s with
  | nil => rfl
  | cons a r ih => rw [List.foldl_cons, ih, h]

theorem foldl_pu_paths {α : Type} (f : State → α → State) (h : ∀ x a, (f x a).pu.paths = x.pu.paths) (l : List α) (s : State) :
    (l.foldl f s).pu.paths = s.pu.paths := by
  induction l generalizing s with
  | nil => rfl
  | cons a r ih => rw [List.foldl_cons, ih, h]

theorem foldl_pu_startMark {α : Type} (f : State → α → State) (h : ∀ x a, (f x a).pu.startMark = x.pu.startMark) (l : List α) (s : State) :
    (l.foldl f s).pu.startMark = s.pu.startMark := by
  induction l generalizing s with
  | nil => rfl
  | cons a r ih => rw [List.foldl_cons, ih, h]

theorem foldl_pu_peerMark {α : Type} (f : State → α → State) (h : ∀ x a, (f x a).pu.peerMark = x.pu.peerMark) (l : List α) (s : State) :
    (l.foldl f s).pu.peerMark = s.pu.peerMark := by
  induction l generalizing s with
  | nil => rfl
  | cons a r ih => rw [List.foldl_cons, ih, h]

theorem foldl_pu_peerRestarts {α : Type} (f : State → α → State) (h : ∀ x a, (f x a).pu.peerRestarts = x.pu.peerRestarts) (l : List α) (s : State) :
    (l.foldl f s).pu.peerRestarts = s.pu.peerRestarts := by
  induction l generalizing s with
  | nil => rfl
  | cons a r ih => rw [List.foldl_cons, ih, h]

theorem foldl_hs {α : Type} (f : State → α → State) (h : ∀ x a, (f x a).hs = x.hs) (l : List α) (s : State) :
    (l.foldl f s).hs = s.hs := by
  induction l generalizing s with
  | nil => rfl
  | cons a r ih => rw [List.foldl_cons, ih, h]

theorem foldl_hs_hops {α : Type} (f : State → α → State) (h : ∀ x a, (f x a).hs.hops = x.hs.hops) (l : List α) (s : State) :
    (l.foldl f s).hs.hops = s.hs.hops := by
  induction l generalizing s with
  | nil => rfl
  | cons a r ih => rw [List.foldl_cons, ih, h]

theorem foldl_hs_leakPeriodMs {α : Type} (f : State → α → State) (h : ∀ x a, (f x a).hs.leakPeriodMs = x.hs.leakPeriodMs) (l : List α) (s : State) :
    (l.foldl f s).hs.leakPeriodMs = s.hs.leakPeriodMs := by
  induction l generalizing s with
  | nil => rfl
  | cons a r ih => rw [List.foldl_cons, ih, h]

theorem foldl_hs_leakTimer {α : Type} (f : State → α → State) (h : ∀ x a, (f x a).hs.leakTimer = x.hs.leakTimer) (l : List α) (s : State) :
    (l.foldl f s).hs.leakTimer = s.hs.leakTimer := by
  induction l generalizing s with
  | nil => rfl
  | cons a r ih => rw [List.foldl_cons, ih, h]

theorem foldl_hs_counters {α : Type} (f : State → α → State) (h : ∀ x a, (f x a).hs.counters = x.hs.counters) (l : List α) (s : State) :
    (l.foldl f s).hs.counters = s.hs.counters := by
  induction l generalizing s with
  | nil => rfl
  | cons a r ih => rw [List.foldl_cons, ih, h]

theorem foldl_rs {α : Type} (f : State → α → State) (h : ∀ x a, (f x a).rs = x.rs) (l : List α) (s : State) :
    (l.foldl f s).rs = s.rs := by
  induction l generalizing s with
  | nil => rfl
  | cons a r ih => rw [List.foldl_cons, ih, h]

theorem foldl_rs_paths {α : Type} (f : State → α → State) (h : ∀ x a, (f x a).rs.paths = x.rs.paths) (l : List α) (s : State) :
    (l.foldl f s).rs.paths = s.rs.paths := by
  induction l generalizing s with
  | nil => rfl
  | cons a r ih => rw [List.foldl_cons, ih, h]

theorem foldl_rs_counters {α : Type} (f : State → α → State) (h : ∀ x a, (f x a).rs.counters = x.rs.counters) (l : List α) (s : State) :
    (l.foldl f s).rs.counters = s.rs.counters := by
  induction l generalizing s with
  | nil => rfl
  | cons a r ih => rw [List.foldl_cons, ih, h]

theorem foldl_rs_unroutedHeads {α : Type} (f : State → α → State) (h : ∀ x a, (f x a).rs.unroutedHeads = x.rs.unroutedHeads) (l : List α) (s : State) :
    (l.foldl f s).rs.unroutedHeads = s.rs.unroutedHeads := by
  induction l generalizing s with
  | nil => rfl
  | cons a r ih => rw [List.foldl_cons, ih, h]

theorem foldl_cs {α : Type} (f : State → α → State) (h : ∀ x a, (f x a).cs = x.cs) (l : List α) (s : State) :
    (l.foldl f s).cs = s.cs := by
  induction l generalizing s with
  | nil => rfl
  | cons a r ih => rw [List.foldl_cons, ih, h]

theorem foldl_cs_plans {α : Type} (f : State → α → State) (h : ∀ x a, (f x a).cs.plans = x.cs.plans) (l : List α) (s : State) :
    (l.foldl f s).cs.plans = s.cs.plans := by
  induction l generalizing s with
  | nil => rfl
  | cons a r ih => rw [List.foldl_cons, ih, h]

theorem foldl_cs_windowPeriodUs {α : Type} (f : State → α → State) (h : ∀ x a, (f x a).cs.windowPeriodUs = x.cs.windowPeriodUs) (l : List α) (s : State) :
    (l.foldl f s).cs.windowPeriodUs = s.cs.windowPeriodUs := by
  induction l generalizing s with
  | nil => rfl
  | cons a r ih => rw [List.foldl_cons, ih, h]

theorem foldl_cs_windowTimer {α : Type} (f : State → α → State) (h : ∀ x a, (f x a).cs.windowTimer = x.cs.windowTimer) (l : List α) (s : State) :
    (l.foldl f s).cs.windowTimer = s.cs.windowTimer := by
  induction l generalizing s with
  | nil => rfl
  | cons a r ih => rw [List.foldl_cons, ih, h]

theorem foldl_cs_windows {α : Type} (f : State → α → State) (h : ∀ x a, (f x a).cs.windows = x.cs.windows) (l : List α) (s : State) :
    (l.foldl f s).cs.windows = s.cs.windows := by
  induction l generalizing s with
  | nil => rfl
  | cons a r ih => rw [List.foldl_cons, ih, h]

theorem foldl_sq {α : Type} (f : State → α → State) (h : ∀ x a, (f x a).sq = x.sq) (l : List α) (s : State) :
    (l.foldl f s).sq = s.sq := by
  induction l generalizing s with
  | nil => rfl
  | cons a r ih => rw [List.foldl_cons, ih, h]

theorem foldl_sq_streams {α : Type} (f : State → α → State) (h : ∀ x a, (f x a).sq.streams = x.sq.streams) (l : List α) (s : State) :
    (l.foldl f s).sq.streams = s.sq.streams := by
  induction l generalizing s with
  | nil => rfl
  | cons a r ih => rw [List.foldl_cons, ih, h]

theorem foldl_sq_store {α : Type} (f : State → α → State) (h : ∀ x a, (f x a).sq.store = x.sq.store) (l : List α) (s : State) :
    (l.foldl f s).sq.store = s.sq.store := by
  induction l generalizing s with
  | nil => rfl
  | cons a r ih => rw [List.foldl_cons, ih, h]

theorem foldl_sq_aborts {α : Type} (f : State → α → State) (h : ∀ x a, (f x a).sq.aborts = x.sq.aborts) (l : List α) (s : State) :
    (l.foldl f s).sq.aborts = s.sq.aborts := by
  induction l generalizing s with
  | nil => rfl
  | cons a r ih => rw [List.foldl_cons, ih, h]

theorem foldl_pe {α : Type} (f : State → α → State) (h : ∀ x a, (f x a).pe = x.pe) (l : List α) (s : State) :
    (l.foldl f s).pe = s.pe := by
  induction l generalizing s with
  | nil => rfl
  | cons a r ih => rw [List.foldl_cons, ih, h]

theorem foldl_pe_program {α : Type} (f : State → α → State) (h : ∀ x a, (f x a).pe.program = x.pe.program) (l : List α) (s : State) :
    (l.foldl f s).pe.program = s.pe.program := by
  induction l generalizing s with
  | nil => rfl
  | cons a r ih => rw [List.foldl_cons, ih, h]

theorem foldl_pe_programFaults {α : Type} (f : State → α → State) (h : ∀ x a, (f x a).pe.programFaults = x.pe.programFaults) (l : List α) (s : State) :
    (l.foldl f s).pe.programFaults = s.pe.programFaults := by
  induction l generalizing s with
  | nil => rfl
  | cons a r ih => rw [List.foldl_cons, ih, h]

theorem foldl_pe_template {α : Type} (f : State → α → State) (h : ∀ x a, (f x a).pe.template = x.pe.template) (l : List α) (s : State) :
    (l.foldl f s).pe.template = s.pe.template := by
  induction l generalizing s with
  | nil => rfl
  | cons a r ih => rw [List.foldl_cons, ih, h]

theorem foldl_pe_templateFaults {α : Type} (f : State → α → State) (h : ∀ x a, (f x a).pe.templateFaults = x.pe.templateFaults) (l : List α) (s : State) :
    (l.foldl f s).pe.templateFaults = s.pe.templateFaults := by
  induction l generalizing s with
  | nil => rfl
  | cons a r ih => rw [List.foldl_cons, ih, h]

theorem foldl_pe_channels {α : Type} (f : State → α → State) (h : ∀ x a, (f x a).pe.channels = x.pe.channels) (l : List α) (s : State) :
    (l.foldl f s).pe.channels = s.pe.channels := by
  induction l generalizing s with
  | nil => rfl
  | cons a r ih => rw [List.foldl_cons, ih, h]

theorem foldl_pe_counters {α : Type} (f : State → α → State) (h : ∀ x a, (f x a).pe.counters = x.pe.counters) (l : List α) (s : State) :
    (l.foldl f s).pe.counters = s.pe.counters := by
  induction l generalizing s with
  | nil => rfl
  | cons a r ih => rw [List.foldl_cons, ih, h]

theorem foldl_pe_storeFaults {α : Type} (f : State → α → State) (h : ∀ x a, (f x a).pe.storeFaults = x.pe.storeFaults) (l : List α) (s : State) :
    (l.foldl f s).pe.storeFaults = s.pe.storeFaults := by
  induction l generalizing s with
  | nil => rfl
  | cons a r ih => rw [List.foldl_cons, ih, h]

theorem foldl_rd {α : Type} (f : State → α → State) (h : ∀ x a, (f x a).rd = x.rd) (l : List α) (s : State) :
    (l.foldl f s).rd = s.rd := by
  induction l generalizing s with
  | nil => rfl
  | cons a r ih => rw [List.foldl_cons, ih, h]

theorem foldl_rd_contexts {α : Type} (f : State → α → State) (h : ∀ x a, (f x a).rd.contexts = x.rd.contexts) (l : List α) (s : State) :
    (l.foldl f s).rd.contexts = s.rd.contexts := by
  induction l generalizing s with
  | nil => rfl
  | cons a r ih => rw [List.foldl_cons, ih, h]

theorem foldl_rd_records {α : Type} (f : State → α → State) (h : ∀ x a, (f x a).rd.records = x.rd.records) (l : List α) (s : State) :
    (l.foldl f s).rd.records = s.rd.records := by
  induction l generalizing s with
  | nil => rfl
  | cons a r ih => rw [List.foldl_cons, ih, h]

theorem foldl_rd_pathCounters {α : Type} (f : State → α → State) (h : ∀ x a, (f x a).rd.pathCounters = x.rd.pathCounters) (l : List α) (s : State) :
    (l.foldl f s).rd.pathCounters = s.rd.pathCounters := by
  induction l generalizing s with
  | nil => rfl
  | cons a r ih => rw [List.foldl_cons, ih, h]

theorem foldl_rd_streamCounters {α : Type} (f : State → α → State) (h : ∀ x a, (f x a).rd.streamCounters = x.rd.streamCounters) (l : List α) (s : State) :
    (l.foldl f s).rd.streamCounters = s.rd.streamCounters := by
  induction l generalizing s with
  | nil => rfl
  | cons a r ih => rw [List.foldl_cons, ih, h]

theorem foldl_li {α : Type} (f : State → α → State) (h : ∀ x a, (f x a).li = x.li) (l : List α) (s : State) :
    (l.foldl f s).li = s.li := by
  induction l generalizing s with
  | nil => rfl
  | cons a r ih => rw [List.foldl_cons, ih, h]

theorem foldl_li_tenants {α : Type} (f : State → α → State) (h : ∀ x a, (f x a).li.tenants = x.li.tenants) (l : List α) (s : State) :
    (l.foldl f s).li.tenants = s.li.tenants := by
  induction l generalizing s with
  | nil => rfl
  | cons a r ih => rw [List.foldl_cons, ih, h]

theorem foldl_li_lanes {α : Type} (f : State → α → State) (h : ∀ x a, (f x a).li.lanes = x.li.lanes) (l : List α) (s : State) :
    (l.foldl f s).li.lanes = s.li.lanes := by
  induction l generalizing s with
  | nil => rfl
  | cons a r ih => rw [List.foldl_cons, ih, h]

theorem foldl_li_lossFlags {α : Type} (f : State → α → State) (h : ∀ x a, (f x a).li.lossFlags = x.li.lossFlags) (l : List α) (s : State) :
    (l.foldl f s).li.lossFlags = s.li.lossFlags := by
  induction l generalizing s with
  | nil => rfl
  | cons a r ih => rw [List.foldl_cons, ih, h]

/-! ## Operations -/

@[simp] theorem State.modPort_frame (s : State) (p : PathId) (f : Port → Port) :
    OnlyPorts s (State.modPort s p f) := by
  simp [OnlyPorts, State.modPort]

@[simp] theorem State.countPort_frame (s : State) (p : PathId) (f : PortCounters → PortCounters) :
    OnlyPorts s (State.countPort s p f) := by
  simp [OnlyPorts, State.countPort]

@[simp] theorem State.modTb_frame (s : State) (f : TimeBase → TimeBase) :
    OnlyTb s (State.modTb s f) := by
  simp [OnlyTb, State.modTb]

@[simp] theorem State.countTb_frame (s : State) (f : TbCounters → TbCounters) :
    OnlyTbTimers s (State.countTb s f) := by
  simp [OnlyTbTimers, State.countTb]

@[simp] theorem State.modPu_frame (s : State) (p : PathId) (f : PuPath → PuPath) :
    OnlyProbing s (State.modPu s p f) := by
  simp [OnlyProbing, State.modPu]

@[simp] theorem State.countPu_frame (s : State) (p : PathId) (f : PuCounters → PuCounters) :
    OnlyProbing s (State.countPu s p f) := by
  simp [OnlyProbing, State.countPu]

@[simp] theorem State.modHop_frame (s : State) (p : PathId) (h : HopId) (f : Hop → Hop) :
    OnlyHops s (State.modHop s p h f) := by
  simp [OnlyHops, State.modHop]

@[simp] theorem State.countHs_frame (s : State) (p : PathId) (f : HsCounters → HsCounters) :
    OnlyHopCounts s (State.countHs s p f) := by
  simp [OnlyHopCounts, State.countHs]

@[simp] theorem State.modPath_frame (s : State) (p : PathId) (f : PathRecord → PathRecord) :
    OnlyPaths s (State.modPath s p f) := by
  simp [OnlyPaths, State.modPath]

@[simp] theorem State.countRs_frame (s : State) (p : PathId) (f : RsCounters → RsCounters) :
    OnlyRouteCounts s (State.countRs s p f) := by
  simp [OnlyRouteCounts, State.countRs]

@[simp] theorem State.modPlan_frame (s : State) (p : PathId) (f : Plan → Plan) :
    OnlyPlans s (State.modPlan s p f) := by
  simp [OnlyPlans, State.modPlan]

@[simp] theorem State.countCs_frame (s : State) (p : PathId) (f : CsCounters → CsCounters) :
    OnlyPlans s (State.countCs s p f) := by
  simp [OnlyPlans, State.countCs]

@[simp] theorem State.modStream_frame (s : State) (st : StreamId) (f : Stream → Stream) :
    OnlyStreams s (State.modStream s st f) := by
  simp [OnlyStreams, State.modStream]

@[simp] theorem State.countSq_frame (s : State) (st : StreamId) (f : SqCounters → SqCounters) :
    OnlyStreams s (State.countSq s st f) := by
  simp [OnlyStreams, State.countSq]

@[simp] theorem State.countAborts_frame (s : State) (p : PathId) (f : AbortCounters → AbortCounters) :
    OnlyAbortCounts s (State.countAborts s p f) := by
  simp [OnlyAbortCounts, State.countAborts]

@[simp] theorem State.modChannel_frame (s : State) (t : TenantId) (c : ChannelId) (f : Channel → Channel) :
    OnlyChannels s (State.modChannel s t c f) := by
  simp [OnlyChannels, State.modChannel]

@[simp] theorem State.countPe_frame (s : State) (t : TenantId) (f : PeCounters → PeCounters) :
    OnlyPeCounts s (State.countPe s t f) := by
  simp [OnlyPeCounts, State.countPe]

@[simp] theorem State.setContext_frame (s : State) (p : PathId) (st : StreamId) (x : Option Context) :
    OnlyContexts s (State.setContext s p st x) := by
  simp [OnlyContexts, State.setContext]

@[simp] theorem State.modRecord_frame (s : State) (st : StreamId) (f : RecvRecord → RecvRecord) :
    OnlyRecords s (State.modRecord s st f) := by
  simp [OnlyRecords, State.modRecord]

@[simp] theorem State.countRdPath_frame (s : State) (p : PathId) (f : RdPathCounters → RdPathCounters) :
    OnlyRdPathCounts s (State.countRdPath s p f) := by
  simp [OnlyRdPathCounts, State.countRdPath]

@[simp] theorem State.countRd_frame (s : State) (st : StreamId) (f : RdStreamCounters → RdStreamCounters) :
    OnlyRdStreamCounts s (State.countRd s st f) := by
  simp [OnlyRdStreamCounts, State.countRd]

@[simp] theorem State.modTenant_frame (s : State) (t : TenantId) (f : Tenant → Tenant) :
    OnlyTenants s (State.modTenant s t f) := by
  simp [OnlyTenants, State.modTenant]

@[simp] theorem State.modLane_frame (s : State) (l : LaneId) (f : Lane → Lane) :
    OnlyLanes s (State.modLane s l f) := by
  simp [OnlyLanes, State.modLane]

@[simp] theorem State.countLane_frame (s : State) (l : LaneId) (f : LaneCounters → LaneCounters) :
    OnlyLanes s (State.countLane s l f) := by
  simp [OnlyLanes, State.countLane]

@[simp] theorem State.setTarget_frame (s : State) (t : TenantId) (c : ChannelId) (x : Option Stamp) :
    OnlyTbTimers s (State.setTarget s t c x) := by
  simp [OnlyTbTimers, State.setTarget]

@[simp] theorem State.setLoss_frame (s : State) (l : LaneId) (b : Bool) :
    OnlyLoss s (State.setLoss s l b) := by
  unfold State.setLoss
  repeat' split
  all_goals simp [OnlyLoss]

@[simp] theorem clearPending_frame (l : LaneId) (e : Entry) (s : State) :
    OnlyChannels s (clearPending l e s) := by
  unfold clearPending
  repeat' split
  all_goals simp [OnlyChannels]

@[simp] theorem pushEntry_frame (l : LaneId) (e : Entry) (s : State) :
    OnlyChannelsOutput s (pushEntry l e s) := by
  unfold pushEntry
  by_cases h : (s.lane l).queue.length < Config.laneEntries
  · simp [OnlyChannelsOutput, h]
  · cases hr : removeOverwritable (s.lane l).queue <;> simp [OnlyChannelsOutput, h, hr]

@[simp] theorem pushNotice_frame (l : LaneId) (n : Notice) (s : State) :
    OnlyChannelsOutput s (pushNotice l n s) := by
  simp [OnlyChannelsOutput, pushNotice]

@[simp] theorem notifyOperator_frame (n : Notice) (s : State) :
    OnlyChannelsOutput s (notifyOperator n s) := by
  simp [OnlyChannelsOutput, notifyOperator]

@[simp] theorem answer_frame (l : LaneId) (tag : Tag) (kind : Byte) (r : Reply) (s : State) :
    OnlyChannelsOutput s (answer l tag kind r s) := by
  simp [OnlyChannelsOutput, answer]

@[simp] theorem State.modHead_frame (s : State) (st : StreamId) (f : Message → Message) :
    OnlyStreams s (State.modHead s st f) := by
  simp [OnlyStreams, State.modHead]

@[simp] theorem applyRoute_frame (fresh : Bool) (st : StreamId) (m : Message) (r : Option Route) (s : State) :
    OnlyRouteCountsStreams s (applyRoute fresh st m r s) := by
  unfold applyRoute
  repeat' split
  all_goals simp [OnlyRouteCountsStreams]

@[simp] theorem chooseFor_frame (fresh : Bool) (st : StreamId) (s : State) :
    OnlyRouteCountsStreams s (chooseFor fresh st s) := by
  unfold chooseFor
  repeat' split
  all_goals simp [OnlyRouteCountsStreams]

@[simp] theorem rechoose_frame (l : List StreamId) (s : State) :
    OnlyRouteCountsStreams s (rechoose l s) := by
  simp [OnlyRouteCountsStreams, rechoose, foldl_pending, foldl_pp, foldl_tb, foldl_pu, foldl_hs, foldl_rs_paths, foldl_cs, foldl_sq_store, foldl_sq_aborts, foldl_pe, foldl_rd, foldl_li]

@[simp] theorem rechooseAll_frame (s : State) :
    OnlyRouteCountsStreams s (rechooseAll s) := by
  simp [OnlyRouteCountsStreams, rechooseAll]

@[simp] theorem rechooseTenant_frame (t : TenantId) (s : State) :
    OnlyRouteCountsStreams s (rechooseTenant t s) := by
  simp [OnlyRouteCountsStreams, rechooseTenant]

@[simp] theorem tellRoom_frame (t : TenantId) (s : State) :
    OnlyChannels s (tellRoom t s) := by
  simp [OnlyChannels, tellRoom, foldl_pending, foldl_pp, foldl_tb, foldl_pu, foldl_hs, foldl_rs, foldl_cs, foldl_sq, foldl_pe_program, foldl_pe_programFaults, foldl_pe_template, foldl_pe_templateFaults, foldl_pe_counters, foldl_pe_storeFaults, foldl_rd, foldl_li]

@[simp] theorem becomeHead_frame (st : StreamId) (s : State) :
    OnlyRouteCountsStreams s (becomeHead st s) := by
  simp [OnlyRouteCountsStreams, becomeHead]

@[simp] theorem removeHead_frame (st : StreamId) (s : State) :
    OnlyRouteCountsStreams s (removeHead st s) := by
  simp [OnlyRouteCountsStreams, removeHead]

@[simp] theorem finishHead_frame (st : StreamId) (s : State) :
    OnlyRouteCountsStreamsChannels s (finishHead st s) := by
  simp [OnlyRouteCountsStreamsChannels, finishHead]

@[simp] theorem dropHead_frame (st : StreamId) (m : Message) (cause : DropCause) (s : State) :
    OnlyRouteCountsStreamsChannelsOutput s (dropHead st m cause s) := by
  simp [OnlyRouteCountsStreamsChannelsOutput, dropHead]

@[simp] theorem admit_frame (st : StreamId) (bytes : List Byte) (stamp : Stamp) (lock : Bool) (source : Source) (s : State) :
    OnlyRouteCountsStreamsCellStore s (admitMessage st bytes stamp lock source s).1 := by
  simp [OnlyRouteCountsStreamsCellStore, admitMessage, apply_ite Prod.fst]

@[simp] theorem startHead_frame (st : StreamId) (m : Message) (s : State) :
    OnlyStreams s (startHead st m s) := by
  simp [OnlyStreams, startHead]

@[simp] theorem reportLaunch_frame (st : StreamId) (name : CopyName) (s : State) :
    OnlyRouteCountsStreamsChannels s (reportLaunch st name s) := by
  unfold reportLaunch
  dsimp only
  generalize headOf _ _ = o
  cases o <;> simp [OnlyRouteCountsStreamsChannels]

@[simp] theorem oweAbort_frame (st : StreamId) (p : PathId) (seq : Seq) (s : State) :
    OnlyStreamsAbortCounts s (oweAbort st p seq s) := by
  simp [OnlyStreamsAbortCounts, oweAbort]

@[simp] theorem cutCopy_frame (st : StreamId) (name : CopyName) (cause : CutCause) (s : State) :
    OnlyStreamsAbortCounts s (cutCopy st name cause s) := by
  unfold cutCopy
  repeat' split
  all_goals simp [OnlyStreamsAbortCounts]

@[simp] theorem settleCut_frame (st : StreamId) (s : State) :
    OnlyRouteCountsStreamsChannelsOutput s (settleCut st s) := by
  unfold settleCut
  repeat' split
  all_goals simp [OnlyRouteCountsStreamsChannelsOutput]

@[simp] theorem cutOn_frame (p : PathId) (cause : CutCause) (st : StreamId) (s : State) :
    OnlyStreamsAbortCounts s (cutOn p cause st s) := by
  unfold cutOn
  repeat' split
  all_goals simp [OnlyStreamsAbortCounts]

@[simp] theorem cutPath_frame (p : PathId) (cause : CutCause) (s : State) :
    OnlyRouteCountsStreamsAbortCountsChannelsOutput s (cutPath p cause s) := by
  simp [OnlyRouteCountsStreamsAbortCountsChannelsOutput, cutPath, foldl_pending, foldl_pp, foldl_tb, foldl_pu, foldl_hs, foldl_rs_paths, foldl_cs, foldl_sq_store, foldl_pe_program, foldl_pe_programFaults, foldl_pe_template, foldl_pe_templateFaults, foldl_pe_counters, foldl_pe_storeFaults, foldl_rd, foldl_li_tenants]

@[simp] theorem withdrawAborts_frame (p : PathId) (s : State) :
    OnlyStreamsAbortCounts s (withdrawAborts p s) := by
  simp [OnlyStreamsAbortCounts, withdrawAborts, foldl_pending, foldl_pp, foldl_tb, foldl_pu, foldl_hs, foldl_rs, foldl_cs, foldl_sq_store, foldl_pe, foldl_rd, foldl_li]

@[simp] theorem startIfRouted_frame (st : StreamId) (s : State) :
    OnlyStreams s (startIfRouted st s) := by
  unfold startIfRouted
  repeat' split
  all_goals simp [OnlyStreams]

@[simp] theorem resetStream_frame (st : StreamId) (s : State) :
    OnlyStreamsAbortCounts s (resetStream st s) := by
  simp [OnlyStreamsAbortCounts, resetStream]

@[simp] theorem clearLatency_frame (p : PathId) (s : State) :
    OnlyPaths s (clearLatency p s) := by
  simp [OnlyPaths, clearLatency]

@[simp] theorem makeDue_frame (p : PathId) (s : State) :
    OnlyProbing s (makeDue p s) := by
  simp [OnlyProbing, makeDue]

@[simp] theorem startProbing_frame (p : PathId) (s : State) :
    OnlyProbingPaths s (startProbing p s) := by
  simp [OnlyProbingPaths, startProbing]

@[simp] theorem stopProbing_frame (p : PathId) (s : State) :
    OnlyProbingPaths s (stopProbing p s) := by
  simp [OnlyProbingPaths, stopProbing]

@[simp] theorem takeFirstMark_frame (s : State) :
    OnlyStartMark s (takeFirstMark s) := by
  simp [OnlyStartMark, takeFirstMark]

@[simp] theorem modHops_frame (p : PathId) (f : Hop → Hop) (s : State) :
    OnlyHops s (modHops p f s) := by
  simp [OnlyHops, modHops]

@[simp] theorem emptyContexts_frame (p : PathId) (s : State) :
    OnlyContexts s (emptyContexts p s) := by
  simp [OnlyContexts, emptyContexts]

@[simp] theorem notifyPath_frame (p : PathId) (old new : PathState) (cause : PathCause) (s : State) :
    OnlyChannelsOutput s (notifyPath p old new cause s) := by
  simp [OnlyChannelsOutput, notifyPath, foldl_pending, foldl_pp, foldl_tb, foldl_pu, foldl_hs, foldl_rs, foldl_cs, foldl_sq, foldl_pe_program, foldl_pe_programFaults, foldl_pe_template, foldl_pe_templateFaults, foldl_pe_counters, foldl_pe_storeFaults, foldl_rd, foldl_li_tenants]

@[simp] theorem recost_frame (p : PathId) (s : State) :
    OnlyPaths s (recost p s) := by
  simp [OnlyPaths, recost]

@[simp] theorem setPathState_frame (p : PathId) (x : PathState) (s : State) :
    OnlyPaths s (setPathState p x s) := by
  simp [OnlyPaths, setPathState]

@[simp] theorem rechooseIfChanged_frame (before : PathRecord) (p : PathId) (s : State) :
    OnlyRouteCountsStreams s (rechooseIfChanged before p s) := by
  simp [OnlyRouteCountsStreams, rechooseIfChanged]

@[simp] theorem leaveDown_frame (p : PathId) (cause : PathCause) (s : State) :
    OnlyRsStreamsChannelsOutput s (leaveDown p cause s) := by
  simp [OnlyRsStreamsChannelsOutput, leaveDown]

@[simp] theorem enterDown_frame (p : PathId) (cause : PathCause) (s : State) :
    OnlyRsStreamsAbortCountsChannelsOutput s (enterDown p cause s) := by
  simp [OnlyRsStreamsAbortCountsChannelsOutput, enterDown]

@[simp] theorem enterService_frame (p : PathId) (cause : PathCause) (s : State) :
    OnlyRsStreamsChannelsOutput s (enterService p cause s) := by
  simp [OnlyRsStreamsChannelsOutput, enterService]

@[simp] theorem rsHop_frame (p : PathId) (cond : HopCondition) (s : State) :
    OnlyRsStreamsAbortCountsChannelsOutput s (rsHop p cond s) := by
  simp [OnlyRsStreamsAbortCountsChannelsOutput, rsHop]

@[simp] theorem handCondition_frame (p : PathId) (s : State) :
    OnlyRsStreamsAbortCountsChannelsOutput s (handCondition p s) := by
  simp [OnlyRsStreamsAbortCountsChannelsOutput, handCondition]

@[simp] theorem rsLatency_frame (p : PathId) (lat : Latency) (s : State) :
    OnlyRsStreamsChannelsOutput s (rsLatency p lat s) := by
  simp [OnlyRsStreamsChannelsOutput, rsLatency]

@[simp] theorem rsLossLimit_frame (p : PathId) (s : State) :
    OnlyRsStreamsAbortCountsChannelsOutput s (rsLossLimit p s) := by
  simp [OnlyRsStreamsAbortCountsChannelsOutput, rsLossLimit]

@[simp] theorem rsPortFault_frame (p : PathId) (s : State) :
    OnlyRsStreamsAbortCountsChannelsOutput s (rsPortFault p s) := by
  simp [OnlyRsStreamsAbortCountsChannelsOutput, rsPortFault]

@[simp] theorem rsPortRecovered_frame (p : PathId) (s : State) :
    OnlyRsStreamsChannelsOutput s (rsPortRecovered p s) := by
  simp [OnlyRsStreamsChannelsOutput, rsPortRecovered]

@[simp] theorem doPathset_frame (p : PathId) (x : PathSettings) (s : State) :
    OnlyPaths s (doPathset p x s).1 := by
  unfold doPathset
  repeat' split
  all_goals simp [OnlyPaths]

@[simp] theorem doPathon_frame (p : PathId) (s : State) :
    OnlyAs_doPathon s (doPathon p s).1 := by
  unfold doPathon
  repeat' split
  all_goals simp [OnlyAs_doPathon]

@[simp] theorem doPathoff_frame (p : PathId) (s : State) :
    OnlyProbingHopsRsStreamsAbortCountsChannelsOutput s (doPathoff p s).1 := by
  unfold doPathoff
  repeat' split
  all_goals simp [OnlyProbingHopsRsStreamsAbortCountsChannelsOutput]

@[simp] theorem doPathrestart_frame (p : PathId) (s : State) :
    OnlyAs_doPathrestart s (doPathrestart p s).1 := by
  unfold doPathrestart
  repeat' split
  all_goals simp [OnlyAs_doPathrestart]

@[simp] theorem deliver_frame (m : Completed) (s : State) :
    OnlyChannelsRdStreamCountsOutput s (deliver m s) := by
  simp [OnlyChannelsRdStreamCountsOutput, deliver]

@[simp] theorem deliverAll_frame (l : List Completed) (s : State) :
    OnlyChannelsRdStreamCountsOutput s (deliverAll l s) := by
  simp [OnlyChannelsRdStreamCountsOutput, deliverAll, foldl_pending, foldl_pp, foldl_tb, foldl_pu, foldl_hs, foldl_rs, foldl_cs, foldl_sq, foldl_pe_program, foldl_pe_programFaults, foldl_pe_template, foldl_pe_templateFaults, foldl_pe_counters, foldl_pe_storeFaults, foldl_rd_contexts, foldl_rd_records, foldl_rd_pathCounters, foldl_li_tenants]

@[simp] theorem freshenDelivering_frame (st : StreamId) (s : State) :
    OnlyChannelsReceivedOutput s (freshenDelivering st s) := by
  simp [OnlyChannelsReceivedOutput, freshenDelivering]

@[simp] theorem freshenDiscarding_frame (st : StreamId) (s : State) :
    OnlyReceived s (freshenDiscarding st s) := by
  simp [OnlyReceived, freshenDiscarding]

@[simp] theorem drain_frame (st : StreamId) (n : Seq) (s : State) :
    OnlyChannelsReceivedOutput s (drain st n s) := by
  simp [OnlyChannelsReceivedOutput, drain]

@[simp] theorem holdMessage_frame (m : Completed) (n : Seq) (s : State) :
    OnlyRecords s (holdMessage m n s) := by
  simp [OnlyRecords, holdMessage]

@[simp] theorem deliverAndDrain_frame (m : Completed) (s : State) :
    OnlyChannelsReceivedOutput s (deliverAndDrain m s) := by
  simp [OnlyChannelsReceivedOutput, deliverAndDrain]

@[simp] theorem skip_frame (st : StreamId) (s : State) :
    OnlyChannelsReceivedOutput s (skip st s) := by
  unfold skip
  repeat' split
  all_goals simp [OnlyChannelsReceivedOutput]

@[simp] theorem resync_frame (m : Completed) (e : Nat) (s : State) :
    OnlyChannelsReceivedOutput s (resync m e s) := by
  simp [OnlyChannelsReceivedOutput, resync]

@[simp] theorem orderedRoom_frame (m : Completed) (s : State) :
    OnlyChannelsReceivedOutput s (orderedRoom m s) := by
  unfold orderedRoom
  repeat' split
  all_goals simp [OnlyChannelsReceivedOutput]

@[simp] theorem fullQueue_frame (m : Completed) (n : Seq) (h : Completed) (s : State) :
    OnlyChannelsReceivedOutput s (fullQueue m n h s) := by
  simp [OnlyChannelsReceivedOutput, fullQueue]

@[simp] theorem ordered_frame (m : Completed) (s : State) :
    OnlyChannelsReceivedOutput s (ordered m s) := by
  unfold ordered
  repeat' split
  all_goals simp [OnlyChannelsReceivedOutput]

@[simp] theorem takeCompleted_frame (m : Completed) (s : State) :
    OnlyChannelsReceivedOutput s (takeCompleted m s) := by
  unfold takeCompleted
  dsimp only
  generalize judge _ _ = v
  rcases v with ⟨v, r⟩
  cases v
  · dsimp only
    generalize PerClass.get _ _ = d
    cases d <;> simp [OnlyChannelsReceivedOutput]
  · simp [OnlyChannelsReceivedOutput]
  · simp [OnlyChannelsReceivedOutput]

@[simp] theorem completeCopy_frame (p : PathId) (st : StreamId) (c : Context) (arrival : Capture) (s : State) :
    OnlyChannelsRdOutput s (completeCopy p st c arrival s) := by
  simp [OnlyChannelsRdOutput, completeCopy]

@[simp] theorem openCopy_frame (p : PathId) (d : DataCell) (arrival : Capture) (s : State) :
    OnlyChannelsRdOutput s (openCopy p d arrival s) := by
  simp [OnlyChannelsRdOutput, openCopy]

@[simp] theorem continueCopy_frame (p : PathId) (d : DataCell) (arrival : Capture) (s : State) :
    OnlyChannelsRdOutput s (continueCopy p d arrival s) := by
  unfold continueCopy
  repeat' split
  all_goals simp [OnlyChannelsRdOutput]

@[simp] theorem takeData_frame (p : PathId) (d : DataCell) (arrival : Capture) (s : State) :
    OnlyChannelsRdOutput s (takeData p d arrival s) := by
  simp [OnlyChannelsRdOutput, takeData]

@[simp] theorem takeAbort_frame (p : PathId) (st : StreamId) (seq : Seq) (s : State) :
    OnlyContextsRdPathCounts s (takeAbort p st seq s) := by
  unfold takeAbort
  repeat' split
  all_goals simp [OnlyContextsRdPathCounts]

@[simp] theorem emptyAllContexts_frame (s : State) :
    OnlyContexts s (emptyAllContexts s) := by
  simp [OnlyContexts, emptyAllContexts]

@[simp] theorem emptyTenantContexts_frame (t : TenantId) (s : State) :
    OnlyContexts s (emptyTenantContexts t s) := by
  simp [OnlyContexts, emptyTenantContexts]

@[simp] theorem countRequest_frame (l : LaneId) (s : State) :
    OnlyLanes s (countRequest l s) := by
  simp [OnlyLanes, countRequest]

@[simp] theorem refuseAccess_frame (l : LaneId) (tag : Tag) (kind : Byte) (s : State) :
    OnlyChannelsOutput s (refuseAccess l tag kind s) := by
  simp [OnlyChannelsOutput, refuseAccess]

@[simp] theorem doCarry_frame (t : TenantId) (r : CarryReq) (s : State) :
    OnlyRouteCountsStreamsCellStore s (doCarry t r s).1 := by
  unfold doCarry
  repeat' split
  all_goals simp [OnlyRouteCountsStreamsCellStore]

@[simp] theorem freshenIfChanged_frame (old : StreamSettings) (t : TenantId) (c : TClass) (s : State) :
    OnlyChannelsReceivedOutput s (freshenIfChanged old t c s) := by
  simp [OnlyChannelsReceivedOutput, freshenIfChanged]

@[simp] theorem doStreamset_frame (t : TenantId) (r : StreamSettings) (s : State) :
    OnlyRouteCountsStreamsChannelsReceivedTenantsOutput s (doStreamset t r s).1 := by
  simp [OnlyRouteCountsStreamsChannelsReceivedTenantsOutput, doStreamset, foldl_pending, foldl_pp, foldl_tb, foldl_pu, foldl_hs, foldl_rs_paths, foldl_cs, foldl_sq_store, foldl_sq_aborts, foldl_pe_program, foldl_pe_programFaults, foldl_pe_template, foldl_pe_templateFaults, foldl_pe_counters, foldl_pe_storeFaults, foldl_rd_contexts, foldl_rd_pathCounters]

@[simp] theorem report_frame (t : TenantId) (c : ChannelId) (kind : ReportKind) (index : Nat) (s : State) :
    OnlyChannelsOutput s (report t c kind index s) := by
  simp [OnlyChannelsOutput, report]

@[simp] theorem reportEnd_frame (t : TenantId) (c : ChannelId) (kind : ReportKind) (index : Nat) (s : State) :
    OnlyChannelsOutput s (reportEnd t c kind index s) := by
  simp [OnlyChannelsOutput, reportEnd]

@[simp] theorem countStoreFault_frame (k : ReportKind) (s : State) :
    OnlyStoreFaults s (countStoreFault k s) := by
  simp [OnlyStoreFaults, countStoreFault]

@[simp] theorem programCheck_frame (t : TenantId) (c : ChannelId) (k : ReportKind) (index : Nat) (s : State) :
    OnlyChannelsPeCountsFaultsOutput s (programCheck t c k index s) := by
  simp [OnlyChannelsPeCountsFaultsOutput, programCheck]

@[simp] theorem reportFetched_frame (t : TenantId) (c : ChannelId) (w : FetchedWord) (i : Nat) (s : State) :
    OnlyChannelsOutput s (reportFetched t c w i s) := by
  simp [OnlyChannelsOutput, reportFetched]

@[simp] theorem fetchTo_frame (t : TenantId) (c : ChannelId) (i : Nat) (s : State) :
    OnlyChannelsPeCountsFaultsOutput s (fetchTo t c i s) := by
  simp [OnlyChannelsPeCountsFaultsOutput, fetchTo]

@[simp] theorem goNext_frame (t : TenantId) (c : ChannelId) (s : State) :
    OnlyChannelsPeCountsFaultsOutput s (goNext t c s) := by
  unfold goNext
  repeat' split
  all_goals simp [OnlyChannelsPeCountsFaultsOutput]

@[simp] theorem endProgram_frame (t : TenantId) (c : ChannelId) (s : State) :
    OnlyChannelsOutput s (endProgram t c s) := by
  simp [OnlyChannelsOutput, endProgram]

@[simp] theorem continueCC_frame (t : TenantId) (c : ChannelId) (s : State) :
    OnlyChannelsPeCountsFaultsOutput s (continueCC t c s) := by
  simp [OnlyChannelsPeCountsFaultsOutput, continueCC]

@[simp] theorem goOn_frame (t : TenantId) (c : ChannelId) (s : State) :
    OnlyChannelsPeCountsFaultsOutput s (goOn t c s) := by
  simp [OnlyChannelsPeCountsFaultsOutput, goOn]

@[simp] theorem runMark_frame (t : TenantId) (c : ChannelId) (s : State) :
    OnlyChannelsPeCountsFaultsOutput s (runMark t c s) := by
  simp [OnlyChannelsPeCountsFaultsOutput, runMark]

@[simp] theorem runBad_frame (t : TenantId) (c : ChannelId) (k : ReportKind) (s : State) :
    OnlyChannelsPeCountsFaultsOutput s (runBad t c k s) := by
  simp [OnlyChannelsPeCountsFaultsOutput, runBad]

@[simp] theorem prefetch_frame (t : TenantId) (c : ChannelId) (s : State) :
    OnlyChannelsOutput s (prefetch t c s) := by
  simp [OnlyChannelsOutput, prefetch]

@[simp] theorem submit_frame (t : TenantId) (c : ChannelId) (w : SendWord) (s : State) :
    OnlyChannelsOutput s (submit t c w s) := by
  simp [OnlyChannelsOutput, submit]

@[simp] theorem afterCopy_frame (t : TenantId) (c : ChannelId) (w : SendWord) (s : State) :
    OnlyChannelsPeCountsFaultsOutput s (afterCopy t c w s) := by
  simp [OnlyChannelsPeCountsFaultsOutput, afterCopy]

@[simp] theorem runText_frame (t : TenantId) (c : ChannelId) (s : State) :
    OnlyChannelsPeCountsFaultsOutput s (runText t c s) := by
  simp [OnlyChannelsPeCountsFaultsOutput, runText]

@[simp] theorem runPatch_frame (t : TenantId) (c : ChannelId) (s : State) :
    OnlyChannelsPeCountsFaultsOutput s (runPatch t c s) := by
  simp [OnlyChannelsPeCountsFaultsOutput, runPatch]

@[simp] theorem fireEntry_frame (t : TenantId) (c : ChannelId) (s : State) :
    OnlyTbTimersChannels s (fireEntry t c s) := by
  simp [OnlyTbTimersChannels, fireEntry]

@[simp] theorem testEntry_frame (t : TenantId) (c : ChannelId) (s : State) :
    OnlyTbTimersChannels s (testEntry t c s) := by
  simp [OnlyTbTimersChannels, testEntry]

@[simp] theorem runWait_frame (t : TenantId) (c : ChannelId) (s : State) :
    OnlyTbTimersChannels s (runWait t c s) := by
  simp [OnlyTbTimersChannels, runWait]

@[simp] theorem admitChannel_frame (t : TenantId) (c : ChannelId) (m : Submission) (s : State) :
    OnlyRouteCountsStreamsCellStore s (admitChannel t c m s).1 := by
  simp [OnlyRouteCountsStreamsCellStore, admitChannel]

@[simp] theorem countAccepted_frame (t : TenantId) (c : ChannelId) (s : State) :
    OnlyChannelsPeCounts s (countAccepted t c s) := by
  simp [OnlyChannelsPeCounts, countAccepted]

@[simp] theorem messageAccepted_frame (t : TenantId) (c : ChannelId) (s : State) :
    OnlyChannelsPeCountsFaultsOutput s (messageAccepted t c s) := by
  simp [OnlyChannelsPeCountsFaultsOutput, messageAccepted]

@[simp] theorem skipWord_frame (t : TenantId) (c : ChannelId) (s : State) :
    OnlyChannelsPeCountsFaultsOutput s (skipWord t c s) := by
  simp [OnlyChannelsPeCountsFaultsOutput, skipWord]

@[simp] theorem messageDiscarded_frame (t : TenantId) (c : ChannelId) (n : Nat) (s : State) :
    OnlyChannelsPeCountsFaultsOutput s (messageDiscarded t c n s) := by
  simp [OnlyChannelsPeCountsFaultsOutput, messageDiscarded]

@[simp] theorem messageHeld_frame (t : TenantId) (c : ChannelId) (m : Submission) (s : State) :
    OnlyChannelsPeCounts s (messageHeld t c m s) := by
  simp [OnlyChannelsPeCounts, messageHeld]

@[simp] theorem answerRunning_frame (t : TenantId) (c : ChannelId) (m : Submission) (a : SqAnswer) (s : State) :
    OnlyChannelsPeCountsFaultsOutput s (answerRunning t c m a s) := by
  unfold answerRunning
  repeat' split
  all_goals simp [OnlyChannelsPeCountsFaultsOutput]

@[simp] theorem answerStopped_frame (t : TenantId) (c : ChannelId) (a : SqAnswer) (s : State) :
    OnlyChannels s (answerStopped t c a s) := by
  unfold answerStopped
  repeat' split
  all_goals simp [OnlyChannels]

@[simp] theorem takeAnswer_frame (t : TenantId) (c : ChannelId) (m : Submission) (a : SqAnswer) (s : State) :
    OnlyChannelsPeCountsFaultsOutput s (takeAnswer t c m a s) := by
  simp [OnlyChannelsPeCountsFaultsOutput, takeAnswer]

@[simp] theorem releaseHeld_frame (t : TenantId) (c : ChannelId) (s : State) :
    OnlyChannelsPeCounts s (releaseHeld t c s) := by
  simp [OnlyChannelsPeCounts, releaseHeld]

@[simp] theorem refuseFire_frame (t : TenantId) (code : RefusalCode) (s : State) :
    OnlyPeCounts s (refuseFire t code s).1 := by
  simp [OnlyPeCounts, refuseFire]

@[simp] theorem doFire_frame (t : TenantId) (r : FireReq) (s : State) :
    OnlyChannelsPeCounts s (doFire t r s).1 := by
  unfold doFire
  repeat' split
  all_goals simp [OnlyChannelsPeCounts]

@[simp] theorem afterFire_frame (t : TenantId) (r : FireReq) (reply : Reply) (s : State) :
    OnlyChannelsPeCountsFaultsOutput s (afterFire t r reply s) := by
  unfold afterFire
  repeat' split
  all_goals simp [OnlyChannelsPeCountsFaultsOutput]

@[simp] theorem serveFire_frame (lane : LaneId) (tag : Tag) (t : TenantId) (parsed : Option FireReq) (s : State) :
    OnlyChannelsPeCountsFaultsOutput s (serveFire lane tag t parsed s) := by
  unfold serveFire
  repeat' split
  all_goals simp [OnlyChannelsPeCountsFaultsOutput]

@[simp] theorem stopChannel_frame (t : TenantId) (c : ChannelId) (s : State) :
    OnlyTbTimersChannels s (stopChannel t c s) := by
  simp [OnlyTbTimersChannels, stopChannel]

@[simp] theorem haltChannel_frame (t : TenantId) (c : ChannelId) (s : State) :
    OnlyTbTimersChannelsPeCountsOutput s (haltChannel t c s) := by
  simp [OnlyTbTimersChannelsPeCountsOutput, haltChannel]

@[simp] theorem doHalt_frame (t : TenantId) (i : Nat) (s : State) :
    OnlyTbTimersChannelsPeCountsOutput s (doHalt t i s).1 := by
  unfold doHalt
  repeat' split
  all_goals simp [OnlyTbTimersChannelsPeCountsOutput]

@[simp] theorem doLoadp_frame (t : TenantId) (r : LoadReq) (s : State) :
    OnlyProgramProgramFaults s (doLoadp t r s).1 := by
  simp [OnlyProgramProgramFaults, doLoadp, apply_ite Prod.fst]

@[simp] theorem doLoadt_frame (t : TenantId) (r : LoadReq) (s : State) :
    OnlyTemplateTemplateFaults s (doLoadt t r s).1 := by
  simp [OnlyTemplateTemplateFaults, doLoadt, apply_ite Prod.fst]

@[simp] theorem testEntries_frame (s : State) :
    OnlyTbTimersChannels s (testEntries s) := by
  simp [OnlyTbTimersChannels, testEntries, foldl_pending, foldl_pp, foldl_tb_count, foldl_tb_epoch, foldl_tb_state, foldl_pu, foldl_hs, foldl_rs, foldl_cs, foldl_sq, foldl_pe_program, foldl_pe_programFaults, foldl_pe_template, foldl_pe_templateFaults, foldl_pe_counters, foldl_pe_storeFaults, foldl_rd, foldl_li]

@[simp] theorem timeStep_frame (count : Nat) (cause : StepCause) (amount : Int) (s : State) :
    OnlyTbChannelsOutput s (timeStep count cause amount s) := by
  simp [OnlyTbChannelsOutput, timeStep]

@[simp] theorem setTimeState_frame (new : TimeState) (s : State) :
    OnlyTbStateChannelsOutput s (setTimeState new s) := by
  simp [OnlyTbStateChannelsOutput, setTimeState]

@[simp] theorem clearRuns_frame (s : State) :
    OnlyTbTimers s (clearRuns s) := by
  simp [OnlyTbTimers, clearRuns]

@[simp] theorem discipline_frame (e : Int) (s : State) :
    OnlyTbTimers s (discipline e s) := by
  simp [OnlyTbTimers, discipline]

@[simp] theorem acquireStep_frame (e : Int) (s : State) :
    OnlyTbChannelsOutput s (acquireStep e s) := by
  simp [OnlyTbChannelsOutput, acquireStep]

@[simp] theorem correct_frame (e : Int) (s : State) :
    OnlyTbChannelsOutput s (correct e s) := by
  simp [OnlyTbChannelsOutput, correct]

@[simp] theorem ppsAcquiring_frame (e : Int) (s : State) :
    OnlyTbChannelsOutput s (ppsAcquiring e s) := by
  simp [OnlyTbChannelsOutput, ppsAcquiring]

@[simp] theorem ppsLocked_frame (e : Int) (s : State) :
    OnlyTbRestChannelsOutput s (ppsLocked e s) := by
  simp [OnlyTbRestChannelsOutput, ppsLocked]

@[simp] theorem ppsHoldover_frame (e : Int) (s : State) :
    OnlyTbChannelsOutput s (ppsHoldover e s) := by
  simp [OnlyTbChannelsOutput, ppsHoldover]

@[simp] theorem takePps_frame (s : State) :
    OnlyTbTimers s (takePps s) := by
  simp [OnlyTbTimers, takePps]

@[simp] theorem missingPps_frame (s : State) :
    OnlyTbRestChannelsOutput s (missingPps s) := by
  unfold missingPps
  repeat' split
  all_goals simp [OnlyTbRestChannelsOutput]

@[simp] theorem enableReference_frame (s : State) :
    OnlyTbRestChannelsOutput s (enableReference s) := by
  simp [OnlyTbRestChannelsOutput, enableReference]

@[simp] theorem disableReference_frame (s : State) :
    OnlyTbRestChannelsOutput s (disableReference s) := by
  simp [OnlyTbRestChannelsOutput, disableReference]

@[simp] theorem doTimecfg_frame (r : TimecfgReq) (s : State) :
    OnlyTbRestChannelsOutput s (doTimecfg r s).1 := by
  unfold doTimecfg
  repeat' split
  all_goals simp [OnlyTbRestChannelsOutput]

@[simp] theorem afterLoad_frame (s : State) :
    OnlyTbRestChannelsOutput s (afterLoad s) := by
  unfold afterLoad
  repeat' split
  all_goals simp [OnlyTbRestChannelsOutput]

@[simp] theorem doTimeset_frame (count : Nat) (s : State) :
    OnlyTbChannelsOutput s (doTimeset count s).1 := by
  unfold doTimeset
  repeat' split
  all_goals simp [OnlyTbChannelsOutput]

@[simp] theorem doTenantset_frame (g : TenantGrant) (t : TenantId) (s : State) :
    OnlyRouteCountsStreamsTenants s (doTenantset g t s).1 := by
  unfold doTenantset
  repeat' split
  all_goals simp [OnlyRouteCountsStreamsTenants]

@[simp] theorem doTenanton_frame (t : TenantId) (s : State) :
    OnlyTenants s (doTenanton t s).1 := by
  simp [OnlyTenants, doTenanton]

@[simp] theorem offChannel_frame (t : TenantId) (c : ChannelId) (s : State) :
    OnlyTbTimersChannels s (offChannel t c s) := by
  simp [OnlyTbTimersChannels, offChannel]

@[simp] theorem doTenantoff_frame (t : TenantId) (s : State) :
    OnlyTbTimersChannelsTenantsLanes s (doTenantoff t s).1 := by
  simp [OnlyTbTimersChannelsTenantsLanes, doTenantoff, apply_ite Prod.fst, foldl_pending, foldl_pp, foldl_tb_count, foldl_tb_epoch, foldl_tb_state, foldl_pu, foldl_hs, foldl_rs, foldl_cs, foldl_sq, foldl_pe_program, foldl_pe_programFaults, foldl_pe_template, foldl_pe_templateFaults, foldl_pe_counters, foldl_pe_storeFaults, foldl_rd, foldl_li_lossFlags]

@[simp] theorem emptyLane_frame (l : LaneId) (s : State) :
    OnlyOutput s (emptyLane l s) := by
  simp [OnlyOutput, emptyLane]

@[simp] theorem resetChannels_frame (t : TenantId) (s : State) :
    OnlyTbTimersChannels s (resetChannels t s) := by
  simp [OnlyTbTimersChannels, resetChannels, foldl_pending, foldl_pp, foldl_tb_count, foldl_tb_epoch, foldl_tb_state, foldl_pu, foldl_hs, foldl_rs, foldl_cs, foldl_sq, foldl_pe_program, foldl_pe_programFaults, foldl_pe_template, foldl_pe_templateFaults, foldl_pe_counters, foldl_pe_storeFaults, foldl_rd, foldl_li]

@[simp] theorem zeroBudgets_frame (t : TenantId) (s : State) :
    OnlyPlans s (zeroBudgets t s) := by
  simp [OnlyPlans, zeroBudgets]

@[simp] theorem doTenantreset_frame (t : TenantId) (s : State) :
    OnlyAs_doTenantreset s (doTenantreset t s).1 := by
  simp [OnlyAs_doTenantreset, doTenantreset, foldl_pending, foldl_pp, foldl_tb_count, foldl_tb_epoch, foldl_tb_state, foldl_pu, foldl_hs, foldl_rs, foldl_cs_windowPeriodUs, foldl_cs_windowTimer, foldl_cs_windows, foldl_sq_store, foldl_pe_program, foldl_pe_programFaults, foldl_pe_template, foldl_pe_templateFaults, foldl_pe_counters, foldl_pe_storeFaults, foldl_rd_pathCounters, foldl_li_tenants]

@[simp] theorem zeroCounters_frame (s : State) :
    OnlyAs_zeroCounters s (zeroCounters s) := by
  simp [OnlyAs_zeroCounters, zeroCounters]

@[simp] theorem doCountclear_frame (u : Unit) (s : State) :
    OnlyAs_zeroCounters s (doCountclear u s).1 := by
  simp [OnlyAs_zeroCounters, doCountclear]

@[simp] theorem restartPu_frame (s : State) :
    OnlyProbingStartMarkPeerMark s (restartPu s) := by
  simp [OnlyProbingStartMarkPeerMark, restartPu]

@[simp] theorem restartPath_frame (p : PathId) (s : State) :
    OnlyProbingHopsRsStreamsAbortCountsChannelsOutput s (restartPath p s) := by
  simp [OnlyProbingHopsRsStreamsAbortCountsChannelsOutput, restartPath]

@[simp] theorem zeroAllBudgets_frame (s : State) :
    OnlyPlans s (zeroAllBudgets s) := by
  simp [OnlyPlans, zeroAllBudgets]

@[simp] theorem restartRd_frame (s : State) :
    OnlyContextsReceived s (restartRd s) := by
  simp [OnlyContextsReceived, restartRd, foldl_pending, foldl_pp, foldl_tb, foldl_pu, foldl_hs, foldl_rs, foldl_cs, foldl_sq, foldl_pe, foldl_rd_pathCounters, foldl_li]

@[simp] theorem emptyLanes_frame (s : State) :
    OnlyOutput s (emptyLanes s) := by
  simp [OnlyOutput, emptyLanes]

@[simp] theorem doRestart_frame (u : Unit) (s : State) :
    OnlyAs_doRestart s (doRestart u s).1 := by
  simp [OnlyAs_doRestart, doRestart, foldl_pending, foldl_tb_count, foldl_tb_epoch, foldl_tb_state, foldl_hs_leakPeriodMs, foldl_hs_leakTimer, foldl_cs_windowPeriodUs, foldl_cs_windowTimer, foldl_pe_program, foldl_pe_programFaults, foldl_pe_template, foldl_pe_templateFaults, foldl_li_tenants]

@[simp] theorem sendEntry_frame (l : LaneId) (e : Entry) (rest : List Entry) (s : State) :
    OnlyChannelsOutput s (sendEntry l e rest s) := by
  simp [OnlyChannelsOutput, sendEntry]

@[simp] theorem notifyHop_frame (p : PathId) (h : HopId) (old : HopState) (cause : HopCause) (s : State) :
    OnlyChannelsOutput s (notifyHop p h old cause s) := by
  simp [OnlyChannelsOutput, notifyHop]

@[simp] theorem notifyOver_frame (p : PathId) (h : HopId) (s : State) :
    OnlyChannelsOutput s (notifyOver p h s) := by
  simp [OnlyChannelsOutput, notifyOver]

@[simp] theorem handIfChanged_frame (before : HopCondition) (p : PathId) (s : State) :
    OnlyRsStreamsAbortCountsChannelsOutput s (handIfChanged before p s) := by
  simp [OnlyRsStreamsAbortCountsChannelsOutput, handIfChanged]

@[simp] theorem dwellUp_frame (p : PathId) (h : HopId) (s : State) :
    OnlyHopsHopCountsChannelsOutput s (dwellUp p h s) := by
  simp [OnlyHopsHopCountsChannelsOutput, dwellUp]

@[simp] theorem degrade_frame (p : PathId) (h : HopId) (level : HopState) (s : State) :
    OnlyHopsHopCountsChannelsOutput s (degrade p h level s) := by
  simp [OnlyHopsHopCountsChannelsOutput, degrade]

@[simp] theorem considerDwell_frame (p : PathId) (h : HopId) (level : HopState) (averaged : Int) (s : State) :
    OnlyHopsHopCountsChannelsOutput s (considerDwell p h level averaged s) := by
  simp [OnlyHopsHopCountsChannelsOutput, considerDwell]

@[simp] theorem judgeReport_frame (p : PathId) (h : HopId) (level : HopState) (averaged : Int) (s : State) :
    OnlyHopsHopCountsChannelsOutput s (judgeReport p h level averaged s) := by
  simp [OnlyHopsHopCountsChannelsOutput, judgeReport]

@[simp] theorem setOver_frame (p : PathId) (h : HopId) (blamed : Option Branch) (s : State) :
    OnlyHopsHopCountsChannelsOutput s (setOver p h blamed s) := by
  simp [OnlyHopsHopCountsChannelsOutput, setOver]

@[simp] theorem addErrors_frame (p : PathId) (h : HopId) (corrected : Nat) (blamed : Branch) (s : State) :
    OnlyHopsHopCountsChannelsOutput s (addErrors p h corrected blamed s) := by
  simp [OnlyHopsHopCountsChannelsOutput, addErrors]

@[simp] theorem handleItem_frame (p : PathId) (h : HopId) (it : HopItem) (s : State) :
    OnlyHopsHopCountsRsStreamsAbortCountsChannelsOutput s (handleItem p h it s) := by
  simp [OnlyHopsHopCountsRsStreamsAbortCountsChannelsOutput, handleItem]

@[simp] theorem takeItem_frame (p : PathId) (it : HopItem) (s : State) :
    OnlyHopsHopCountsRsStreamsAbortCountsChannelsOutput s (takeItem p it s) := by
  unfold takeItem
  repeat' split
  all_goals simp [OnlyHopsHopCountsRsStreamsAbortCountsChannelsOutput]

@[simp] theorem reportTimedOut_frame (p : PathId) (h : HopId) (s : State) :
    OnlyHopsHopCountsChannelsOutput s (reportTimedOut p h s) := by
  simp [OnlyHopsHopCountsChannelsOutput, reportTimedOut]

@[simp] theorem doHopclear_frame (p : PathId) (h : HopId) (s : State) :
    OnlyHopsRsStreamsAbortCountsChannelsOutput s (doHopclear p h s).1 := by
  simp [OnlyHopsRsStreamsAbortCountsChannelsOutput, doHopclear]

@[simp] theorem storeLeakPeriod_frame (r : HopsetReq) (s : State) :
    OnlyLeakPeriodLeakTimer s (storeLeakPeriod r s) := by
  simp [OnlyLeakPeriodLeakTimer, storeLeakPeriod]

@[simp] theorem doHopset_frame (r : HopsetReq) (p : PathId) (h : HopId) (s : State) :
    OnlyHsRsStreamsAbortCountsChannelsOutput s (doHopset r p h s).1 := by
  simp [OnlyHsRsStreamsAbortCountsChannelsOutput, doHopset]

@[simp] theorem setTag_frame (tagged : Bool) (p : PathId) (h : HopId) (s : State) :
    OnlyHopsRsStreamsAbortCountsChannelsOutput s (setTag tagged p h s).1 := by
  simp [OnlyHopsRsStreamsAbortCountsChannelsOutput, setTag]

@[simp] theorem storeWindow_frame (r : PlansetReq) (s : State) :
    OnlyWindowWindowTimer s (storeWindow r s) := by
  simp [OnlyWindowWindowTimer, storeWindow]

@[simp] theorem doPlanset_frame (r : PlansetReq) (p : PathId) (s : State) :
    OnlyPlansWindowWindowTimer s (doPlanset r p s).1 := by
  unfold doPlanset
  repeat' split
  all_goals simp [OnlyPlansWindowWindowTimer]

@[simp] theorem doPlanswap_frame (target : CycleNo) (p : PathId) (s : State) :
    OnlyPlans s (doPlanswap target p s).1 := by
  unfold doPlanswap
  repeat' split
  all_goals simp [OnlyPlans]

@[simp] theorem testSwap_frame (p : PathId) (c : CycleNo) (s : State) :
    OnlyRouteCountsPlansStreamsChannelsOutput s (testSwap p c s) := by
  unfold testSwap
  repeat' split
  all_goals simp [OnlyRouteCountsPlansStreamsChannelsOutput]

@[simp] theorem arbiterGrant_frame (p : PathId) (lent : Bool) (w : TenantId) (s : State) :
    OnlyPlans s (arbiterGrant p lent w s) := by
  simp [OnlyPlans, arbiterGrant]

@[simp] theorem unclaimed_frame (p : PathId) (s : State) :
    OnlyPlans s (unclaimed p s) := by
  simp [OnlyPlans, unclaimed]

@[simp] theorem resolveOpen_frame (p : PathId) (lent : Bool) (s : State) :
    OnlyPlans s (resolveOpen p lent s).2 := by
  unfold resolveOpen
  repeat' split
  all_goals simp [OnlyPlans]

@[simp] theorem resolveSlot_frame (p : PathId) (k : SlotId) (s : State) :
    OnlyPlans s (resolveSlot p k s).2 := by
  unfold resolveSlot
  repeat' split
  all_goals simp [OnlyPlans]

@[simp] theorem probeLost_frame (p : PathId) (s : State) :
    OnlyProbingRsStreamsAbortCountsChannelsOutput s (probeLost p s) := by
  simp [OnlyProbingRsStreamsAbortCountsChannelsOutput, probeLost]

@[simp] theorem makeRoomForRecord_frame (p : PathId) (s : State) :
    OnlyProbingRsStreamsAbortCountsChannelsOutput s (makeRoomForRecord p s) := by
  simp [OnlyProbingRsStreamsAbortCountsChannelsOutput, makeRoomForRecord]

@[simp] theorem launchProbe_frame (p : PathId) (s : State) :
    OnlyProbingRsStreamsAbortCountsChannelsOutput s (launchProbe p s) := by
  simp [OnlyProbingRsStreamsAbortCountsChannelsOutput, launchProbe]

@[simp] theorem launchEcho_frame (p : PathId) (s : State) :
    OnlyProbing s (launchEcho p s) := by
  simp [OnlyProbing, launchEcho]

@[simp] theorem peerRestarted_frame (p : PathId) (old : Mark) (mark : Mark) (s : State) :
    OnlyPeerMarkPeerRestartsChannelsContextsReceivedOutput s (peerRestarted p old mark s) := by
  simp [OnlyPeerMarkPeerRestartsChannelsContextsReceivedOutput, peerRestarted, foldl_pending, foldl_pp, foldl_tb, foldl_pu_paths, foldl_pu_startMark, foldl_hs, foldl_rs, foldl_cs, foldl_sq, foldl_pe_program, foldl_pe_programFaults, foldl_pe_template, foldl_pe_templateFaults, foldl_pe_counters, foldl_pe_storeFaults, foldl_rd_pathCounters, foldl_li_tenants]

@[simp] theorem checkMark_frame (p : PathId) (mark : Mark) (s : State) :
    OnlyPeerMarkPeerRestartsChannelsContextsReceivedOutput s (checkMark p mark s) := by
  unfold checkMark
  repeat' split
  all_goals simp [OnlyPeerMarkPeerRestartsChannelsContextsReceivedOutput]

@[simp] theorem takeProbe_frame (p : PathId) (number : BitVec 8) (t1 : Stamp) (mark : Mark) (t2 : Capture) (s : State) :
    OnlyProbingPeerMarkPeerRestartsChannelsContextsReceivedOutput s (takeProbe p number t1 mark t2 s) := by
  simp [OnlyProbingPeerMarkPeerRestartsChannelsContextsReceivedOutput, takeProbe]

@[simp] theorem firstSample_frame (p : PathId) (x : Nat) (s : State) :
    OnlyRsStreamsChannelsOutput s (firstSample p x s) := by
  simp [OnlyRsStreamsChannelsOutput, firstSample]

@[simp] theorem latencyStep_frame (p : PathId) (old x : Nat) (s : State) :
    OnlyProbingRsStreamsChannelsOutput s (latencyStep p old x s) := by
  simp [OnlyProbingRsStreamsChannelsOutput, latencyStep]

@[simp] theorem outlier_frame (p : PathId) (old x : Nat) (s : State) :
    OnlyProbingRsStreamsChannelsOutput s (outlier p old x s) := by
  simp [OnlyProbingRsStreamsChannelsOutput, outlier]

@[simp] theorem withinGate_frame (p : PathId) (old x : Nat) (s : State) :
    OnlyRsStreamsChannelsOutput s (withinGate p old x s) := by
  simp [OnlyRsStreamsChannelsOutput, withinGate]

@[simp] theorem takeSample_frame (p : PathId) (x : Nat) (s : State) :
    OnlyProbingRsStreamsChannelsOutput s (takeSample p x s) := by
  unfold takeSample
  dsimp only
  generalize Latency.value _ = o
  cases o <;> simp [OnlyProbingRsStreamsChannelsOutput]

@[simp] theorem takeEcho_frame (p : PathId) (number : BitVec 8) (unchanged : Bool) (t1 t2 t3 : Stamp) (farMark : Mark) (t4 : Capture) (s : State) :
    OnlyProbingRsStreamsChannelsOutput s (takeEcho p number unchanged t1 t2 t3 farMark t4 s) := by
  unfold takeEcho
  generalize List.find? _ _ = o
  cases o
  · simp [OnlyProbingRsStreamsChannelsOutput]
  · dsimp only
    generalize oneWay _ _ _ _ _ = w
    cases w <;> simp [OnlyProbingRsStreamsChannelsOutput]

@[simp] theorem putCell_frame (p : PathId) (cell : List Byte) (s : State) :
    OnlyPorts s (putCell p cell s) := by
  simp [OnlyPorts, putCell]

@[simp] theorem launchControl_frame (p : PathId) (s : State) :
    OnlyPortsProbingRsStreamsAbortCountsChannelsOutput s (launchControl p s) := by
  unfold launchControl
  repeat' split
  all_goals simp [OnlyPortsProbingRsStreamsAbortCountsChannelsOutput]

@[simp] theorem launchIdle_frame (p : PathId) (s : State) :
    OnlyPorts s (launchIdle p s) := by
  simp [OnlyPorts, launchIdle]

@[simp] theorem launchAbort_frame (p : PathId) (st : StreamId) (seq : Seq) (s : State) :
    OnlyPortsStreams s (launchAbort p st seq s) := by
  simp [OnlyPortsStreams, launchAbort]

@[simp] theorem launchFragment_frame (p : PathId) (st : StreamId) (name : CopyName) (s : State) :
    OnlyPortsRouteCountsStreamsChannels s (launchFragment p st name s) := by
  unfold launchFragment
  repeat' split
  all_goals simp [OnlyPortsRouteCountsStreamsChannels]

@[simp] theorem launchGrant_frame (p : PathId) (t : TenantId) (s : State) :
    OnlyPortsRouteCountsStreamsChannels s (launchGrant p t s) := by
  unfold launchGrant
  repeat' split
  all_goals simp [OnlyPortsRouteCountsStreamsChannels]

@[simp] theorem launchSlot_frame (p : PathId) (k : SlotId) (s : State) :
    OnlyPortsRouteCountsPlansStreamsChannels s (launchSlot p k s) := by
  have h := resolveSlot_frame p k s
  unfold launchSlot
  revert h
  generalize resolveSlot p k s = v
  rcases v with ⟨o, u⟩
  intro h
  cases o <;> simp_all [OnlyPortsRouteCountsPlansStreamsChannels, OnlyPlans]

@[simp] theorem takeSlotCell_frame (p : PathId) (cell : Option SlotCell) (s : State) :
    OnlyPortsChannelsRdOutput s (takeSlotCell p cell s) := by
  unfold takeSlotCell
  repeat' split
  all_goals simp [OnlyPortsChannelsRdOutput]

@[simp] theorem takeControlCell_frame (p : PathId) (cell : Option ControlCell) (s : State) :
    OnlyAs_takeControlCell s (takeControlCell p cell s) := by
  unfold takeControlCell
  repeat' split
  all_goals simp [OnlyAs_takeControlCell]

@[simp] theorem puPortFault_frame (p : PathId) (s : State) :
    OnlyProbing s (puPortFault p s) := by
  simp [OnlyProbing, puPortFault]

@[simp] theorem puPortRecovered_frame (p : PathId) (s : State) :
    OnlyProbing s (puPortRecovered p s) := by
  simp [OnlyProbing, puPortRecovered]

@[simp] theorem doQuery_frame (t : TenantId) (first : Nat) (s : State) :
    OnlyNothing s (doQuery t first s).1 := by
  simp [OnlyNothing, doQuery]

@[simp] theorem doRead_frame (r : ReadReq) (s : State) :
    OnlyNothing s (doRead r s).1 := by
  unfold doRead
  repeat' split
  all_goals simp [OnlyNothing]

end Sys2Proof.Machine
end

