-- ==== Sys2Proof/Laws/Aborts.lean ====
section
/-!
SUPPORT. Owed aborts (R117 to R119): what one owed ABORT records and counts, and which operations of SQ owe none.
-/

namespace Sys2Proof.Machine

/-! ## Recording one (R119) -/

theorem oweAbort_aborts (st : StreamId) (p q : PathId) (seq : Seq) (s : State) :
    (oweAbort st p seq s).sq.aborts[q] = if q = p then
      { s.sq.aborts[p] with
        owed := satInc s.sq.aborts[p].owed,
        replaced := if (s.stream st).owed[p].isSome then satInc s.sq.aborts[p].replaced else s.sq.aborts[p].replaced }
      else s.sq.aborts[q] := upd_get _ _ _ _

theorem oweAbort_stream (st x : StreamId) (p : PathId) (seq : Seq) (s : State) :
    (oweAbort st p seq s).stream x =
      if x = st then { s.stream st with owed := (s.stream st).owed.set p (some seq) } else s.stream x :=
  State.stream_modStream _ _ _ _

/-! ## Owing none -/

/-- No owed ABORT and no count of one differs. -/
def SameAborts (s t : State) : Prop := t.sq.aborts = s.sq.aborts ∧ ∀ st, (t.stream st).owed = (s.stream st).owed

theorem SameAborts.refl (s : State) : SameAborts s s := ⟨rfl, fun _ => rfl⟩

theorem SameAborts.trans {s t u : State} (h : SameAborts s t) (k : SameAborts t u) : SameAborts s u :=
  ⟨k.1.trans h.1, fun st => (k.2 st).trans (h.2 st)⟩

theorem SameAborts.of_sq {s t : State} (h : t.sq = s.sq) : SameAborts s t :=
  ⟨by rw [h], fun st => by rw [State.stream_of h]⟩

theorem SameAborts.foldl {α : Type} {f : State → α → State} (h : ∀ s a, SameAborts s (f s a)) (l : List α) (s : State) :
    SameAborts s (l.foldl f s) := by
  induction l generalizing s with
  | nil => exact .refl s
  | cons a r ih => exact (h s a).trans (ih (f s a))

theorem modStream_sameAborts (st : StreamId) {f : Stream → Stream} (h : ∀ x, (f x).owed = x.owed) (s : State) :
    SameAborts s (s.modStream st f) := by
  refine ⟨rfl, fun x => ?_⟩
  rw [State.stream_modStream]
  split
  · next e => rw [h, e]
  · rfl

theorem modHead_sameAborts (st : StreamId) (f : Message → Message) (s : State) : SameAborts s (s.modHead st f) :=
  modStream_sameAborts st (f := fun x => { x with queue := x.queue.modifyHead f }) (fun _ => rfl) s

theorem countSq_sameAborts (st : StreamId) (f : SqCounters → SqCounters) (s : State) : SameAborts s (s.countSq st f) :=
  modStream_sameAborts st (f := fun x => { x with counters := f x.counters }) (fun _ => rfl) s

theorem applyRoute_sameAborts (fresh : Bool) (st : StreamId) (m : Message) (r : Option Route) (s : State) :
    SameAborts s (applyRoute fresh st m r s) := by
  unfold applyRoute
  repeat' split
  all_goals exact (modHead_sameAborts st _ s).trans (.of_sq rfl)

theorem chooseFor_sameAborts (fresh : Bool) (st : StreamId) (s : State) : SameAborts s (chooseFor fresh st s) := by
  unfold chooseFor
  repeat' split
  all_goals first | exact applyRoute_sameAborts .. | exact .refl s

theorem rechoose_sameAborts (l : List StreamId) (s : State) : SameAborts s (rechoose l s) :=
  .foldl (fun x st => chooseFor_sameAborts false st x) l s

theorem removeHead_sameAborts (st : StreamId) (s : State) : SameAborts s (removeHead st s) :=
  (modStream_sameAborts st (f := fun x => { x with queue := x.queue.tail }) (fun _ => rfl) s).trans
    ((modHead_sameAborts st _ _).trans (chooseFor_sameAborts true st _))

theorem tellRoom_sameAborts (t : TenantId) (s : State) : SameAborts s (tellRoom t s) := .of_sq (by simp)

theorem finishHead_sameAborts (st : StreamId) (s : State) : SameAborts s (finishHead st s) :=
  (modStream_sameAborts st (f := fun x => { x with completed := satInc x.completed }) (fun _ => rfl) s).trans
    ((removeHead_sameAborts st _).trans (tellRoom_sameAborts _ _))

theorem dropHead_sameAborts (st : StreamId) (m : Message) (cause : DropCause) (s : State) :
    SameAborts s (dropHead st m cause s) := by
  refine (modStream_sameAborts st (f := fun x => { x with dropped := satInc x.dropped, counters := countDrop cause x.counters })
    (fun _ => rfl) s).trans ((removeHead_sameAborts st _).trans (.trans ?_ (tellRoom_sameAborts _ _)))
  split
  · exact .of_sq (by simp)
  · exact .refl _

theorem settleCut_sameAborts (st : StreamId) (s : State) : SameAborts s (settleCut st s) := by
  unfold settleCut
  repeat' split
  · exact .refl s
  · exact .refl s
  · exact finishHead_sameAborts st s
  · exact (modHead_sameAborts st _ s).trans ((countSq_sameAborts st _ _).trans (chooseFor_sameAborts true st _))
  · exact dropHead_sameAborts st _ _ s

/-- A cut with cause SERVICE or STALL owes no ABORT (R117). -/
theorem cutCopy_sameAborts (st : StreamId) (name : CopyName) {cause : CutCause} (h : cause = .service ∨ cause = .stall) (s : State) :
    SameAborts s (cutCopy st name cause s) := by
  unfold cutCopy
  repeat' split
  · exact .refl s
  · exact .refl s
  · exact .refl s
  · next hc => rcases h with rfl | rfl <;> simp at hc
  · exact (modHead_sameAborts st _ s).trans (countSq_sameAborts st _ _)

/-- A path that leaves service by DOWN or PATHRESTART owes no ABORT (R117, R118). -/
theorem cutPath_service_sameAborts (p : PathId) (s : State) : SameAborts s (cutPath p .service s) := by
  refine (SameAborts.foldl (fun x st => ?_) _ s).trans (.foldl (fun x st => settleCut_sameAborts st x) _ _)
  unfold cutOn
  split
  · exact .refl x
  · exact cutCopy_sameAborts st _ (.inl rfl) x

end Sys2Proof.Machine
end

