-- ==== Sys2Proof/Laws/Memory.lean ====
section
/-!
SUPPORT. The stores: every write keeps the canonical form, and a read answers the last byte written at its address.
-/

namespace Sys2Proof.Machine

/-- The bound of the canonical form holds for an address. -/
def aboveBound (lo : Option Nat) (a : Nat) : Prop := ∀ l, lo = some l → l < a

theorem Memory.wfAbove_cons (lo : Option Nat) (k : Nat) (v : Byte) (r : Memory) :
    Memory.wfAbove lo ((k, v) :: r) = true ↔ aboveBound lo k ∧ v ≠ 0 ∧ Memory.wfAbove (some k) r = true := by
  cases lo <;> simp [Memory.wfAbove, aboveBound, and_assoc]

theorem Memory.wfAbove_weaken {lo : Option Nat} {k : Nat} {m : Memory} (h : Memory.wfAbove (some k) m = true)
    (b : aboveBound lo k) : Memory.wfAbove lo m = true := by
  cases m with
  | nil => rfl
  | cons c r =>
    obtain ⟨j, v⟩ := c
    rw [Memory.wfAbove_cons] at h ⊢
    refine ⟨fun l e => ?_, h.2⟩
    have := b l e
    have := h.1 k rfl
    omega

theorem Memory.write_wfAbove {lo : Option Nat} (m : Memory) (a : Nat) (x : Byte) (h : Memory.wfAbove lo m = true)
    (b : aboveBound lo a) : Memory.wfAbove lo (Memory.write m a x) = true := by
  induction m generalizing lo with
  | nil =>
    unfold Memory.write
    split
    · rfl
    · rw [Memory.wfAbove_cons]; exact ⟨b, by assumption, rfl⟩
  | cons c r ih =>
    obtain ⟨k, v⟩ := c
    have h' := h
    rw [Memory.wfAbove_cons] at h
    unfold Memory.write
    split
    · split
      · exact h'
      · rw [Memory.wfAbove_cons, Memory.wfAbove_cons]
        refine ⟨b, by assumption, ?_, h.2⟩
        intro l e; cases e; assumption
    · split
      · subst_vars
        split
        · exact Memory.wfAbove_weaken h.2.2 h.1
        · rw [Memory.wfAbove_cons]; exact ⟨b, by assumption, h.2.2⟩
      · rw [Memory.wfAbove_cons]
        refine ⟨h.1, h.2.1, ih h.2.2 ?_⟩
        intro l e; cases e; omega

/-- A write keeps the canonical form. -/
theorem Memory.write_wf {m : Memory} (h : m.wf = true) (a : Nat) (x : Byte) : (m.write a x).wf = true :=
  Memory.write_wfAbove m a x h fun _ e => nomatch e

/-- Writing a run of bytes keeps the canonical form. -/
theorem Memory.writeList_wf {m : Memory} (h : m.wf = true) (a : Nat) (l : List Byte) : (m.writeList a l).wf = true := by
  induction l generalizing m a with
  | nil => exact h
  | cons x r ih => exact ih (Memory.write_wf h a x) (a + 1)

/-- Filling cells keeps the canonical form. -/
theorem fillCells_wf {m : Memory} (h : m.wf = true) (cells : List Nat) (l : List Byte) : (fillCells cells l m).wf = true := by
  induction cells generalizing m l with
  | nil => exact h
  | cons c r ih => exact ih (Memory.writeList_wf h _ _) _

theorem Memory.read_below {k : Nat} (m : Memory) (a : Nat) (h : Memory.wfAbove (some k) m = true) (b : a ≤ k) :
    m.read a = 0 := by
  induction m generalizing k with
  | nil => rfl
  | cons c r ih =>
    obtain ⟨j, v⟩ := c
    rw [Memory.wfAbove_cons] at h
    have := h.1 k rfl
    rw [Memory.read, if_neg (by omega)]
    exact ih h.2.2 (by omega)

theorem Memory.read_write_above {lo : Option Nat} (m : Memory) (a b : Nat) (x : Byte) (h : Memory.wfAbove lo m = true) :
    (m.write a x).read b = if b = a then x else m.read b := by
  induction m generalizing lo with
  | nil =>
    unfold Memory.write
    split
    · subst_vars; simp [Memory.read]
    · simp [Memory.read, eq_comm]
  | cons c r ih =>
    obtain ⟨k, v⟩ := c
    rw [Memory.wfAbove_cons] at h
    unfold Memory.write
    split
    · rename_i hak
      by_cases hba : b = a
      · subst hba
        have z : Memory.read r b = 0 := Memory.read_below r b h.2.2 (by omega)
        split
        · subst_vars; simp [Memory.read, z, show k ≠ b by omega]
        · simp [Memory.read]
      · split <;> simp [Memory.read, Ne.symm hba]
    · split
      · rename_i hak
        subst hak
        by_cases hba : b = a
        · subst hba
          have z : Memory.read r b = 0 := Memory.read_below r b h.2.2 (Nat.le_refl _)
          split <;> simp_all [Memory.read]
        · split <;> simp [Memory.read, Ne.symm hba]
      · by_cases hkb : k = b
        · subst hkb
          rw [Memory.read, if_pos rfl, if_neg (by omega), Memory.read, if_pos rfl]
        · rw [Memory.read, if_neg hkb, ih h.2.2, Memory.read, if_neg hkb]

/-- A read after a write: the byte written at its address, the old byte elsewhere. -/
theorem Memory.read_write {m : Memory} (h : m.wf = true) (a b : Nat) (x : Byte) :
    (m.write a x).read b = if b = a then x else m.read b := Memory.read_write_above m a b x h

/-- A read after a run of bytes is written: the byte of the run at its place, the old byte elsewhere. -/
theorem Memory.read_writeList {m : Memory} (h : m.wf = true) (a b : Nat) (l : List Byte) :
    (m.writeList a l).read b = if a ≤ b ∧ b < a + l.length then l.getD (b - a) 0 else m.read b := by
  induction l generalizing m a with
  | nil => rw [Memory.writeList, if_neg (by simp)]
  | cons x r ih =>
    rw [Memory.writeList, ih (Memory.write_wf h a x), Memory.read_write h]
    by_cases e : b = a
    · subst e
      rw [if_neg (by omega), if_pos rfl, if_pos (by simp)]
      simp
    · by_cases c : a + 1 ≤ b ∧ b < a + 1 + r.length
      · rw [if_pos c, if_pos (by simp; omega)]
        obtain ⟨i, hi⟩ : ∃ i, b - a = i + 1 := ⟨b - a - 1, by omega⟩
        rw [hi, List.getD_cons_succ, show b - (a + 1) = i by omega]
      · rw [if_neg c, if_neg e, if_neg (by simp; omega)]

/-- Byte i of a run that is read. -/
theorem Memory.readList_getD (m : Memory) (a n i : Nat) : (m.readList a n).getD i 0 = if i < n then m.read (a + i) else 0 := by
  induction n generalizing a i with
  | zero => simp [Memory.readList]
  | succ n ih =>
    cases i with
    | zero => simp [Memory.readList]
    | succ i =>
      rw [Memory.readList, List.getD_cons_succ, ih, Nat.add_assoc, Nat.add_comm 1 i]
      simp

@[simp] theorem Memory.readList_length (m : Memory) (a n : Nat) : (m.readList a n).length = n := by
  induction n generalizing a with
  | zero => rfl
  | succ n ih => simp [Memory.readList, ih]

end Sys2Proof.Machine
end

