-- ==== Sys2Proof/WellFormed.lean ====
section
/-!
DEFINITION. Which commands can reach the part: a complete slot cell is 62 bytes, a complete control cell 32 bytes
(section 11.3), and the body of a lane message that passed the header tests has at most 1,492 bytes (R171).
A hop report frame may have any length: its length is one of PP's own tests (R14).
-/

namespace Sys2Proof.WellFormed

/-- The number of bytes an arriving slot cell has (section 11.3). -/
def slotCellBytes : Nat := 62
/-- The number of bytes an arriving control cell has (section 11.3). -/
def controlCellBytes : Nat := 32

/-- A body that fits in a lane frame (R171). -/
def bodyOk (body : List Byte) : Bool := body.length ≤ Config.bodyMax

/-- A command whose operands have the lengths the formats give. -/
def wellFormed : Instr → Bool
  | .cellArrival _ cell => cell.length == slotCellBytes
  | .controlCellArrival _ cell => cell.length == controlCellBytes
  | .timecfg _ _ body => bodyOk body
  | .timeset _ _ body => bodyOk body
  | .hopclear _ _ body => bodyOk body
  | .hopset _ _ body => bodyOk body
  | .hoptag _ _ body => bodyOk body
  | .hopuntag _ _ body => bodyOk body
  | .pathset _ _ body => bodyOk body
  | .pathon _ _ body => bodyOk body
  | .pathoff _ _ body => bodyOk body
  | .pathrestart _ _ body => bodyOk body
  | .planset _ _ body => bodyOk body
  | .planswap _ _ body => bodyOk body
  | .carry _ _ body => bodyOk body
  | .loadp _ _ body => bodyOk body
  | .loadt _ _ body => bodyOk body
  | .fire _ _ body => bodyOk body
  | .halt _ _ body => bodyOk body
  | .streamset _ _ body => bodyOk body
  | .query _ _ body => bodyOk body
  | .read _ _ body => bodyOk body
  | .tenantset _ _ body => bodyOk body
  | .tenanton _ _ body => bodyOk body
  | .tenantoff _ _ body => bodyOk body
  | .tenantreset _ _ body => bodyOk body
  | .countclear _ _ body => bodyOk body
  | .restart _ _ body => bodyOk body
  | .powerOnReset => true
  | .cycleStart _ => true
  | .controlOpportunity _ => true
  | .slotOpportunity _ => true
  | .hopReportFrame _ _ => true
  | .portFault _ => true
  | .portRecovered _ => true
  | .ppsArrival => true
  | .ppsMissing => true
  | .slewPeriodEnd => true
  | .compareFire _ _ => true
  | .probeTimerExpiry _ => true
  | .probeExpiry _ _ => true
  | .reportTimeout _ _ => true
  | .dwellExpiry _ _ => true
  | .leakPulse => true
  | .budgetWindowExpiry => true
  | .channelSubmission _ _ => true
  | .submissionAnswer _ _ => true
  | .resubmission _ _ => true
  | .routeWaitExpiry _ => true
  | .stallExpiry _ _ => true
  | .text _ _ => true
  | .patch _ _ => true
  | .wait _ _ => true
  | .mark _ _ => true
  | .reasmTimeout _ _ => true
  | .holdTimerExpiry _ => true
  | .frameCheckError _ => true
  | .malformedMessage _ => true
  | .entrySent _ => true
  | .undefinedOpWord _ _ => true

end Sys2Proof.WellFormed
end

