-- ==== Sys2Proof/Tests/Slice0.lean ====
section
/-!
SUPPORT. Tests of one step each, whose expected values come from the spec's rules, tables and worked cases (named beside each), and
the witnesses: for each statement with hypotheses, states and operands that meet them.
-/

namespace Sys2Proof.Tests

-- One proof at a time: many kernel evaluations at once need more memory than they save time.
set_option Elab.async false

open Sys2Proof.Machine Sys2Proof.Safety Sys2Proof.Claims

/-! ## Small states -/

/-- The state that a command leads to. -/
def after (c : Instr) (s : State) : State :=
  match exec c s with
  | .next t => t
  | .fault _ => s
  | .refused _ => s

def urgent (t : TenantId) : StreamId := { tenant := t, cls := .u }
def market (t : TenantId) : StreamId := { tenant := t, cls := .m }
def bulk (t : TenantId) : StreamId := { tenant := t, cls := .b }

/-- A path in the state of its one hop, with its port WORKING before the control opportunity and every slot usable. -/
def up (p : PathId) (x : PathState) (worst : HopState) (latency : Nat) (s : State) : State :=
  let s := s.modPort p fun y => { y with faultState := .working, position := .control, cycle := 40962, parity := .even }
  let s := s.modHop p 0 fun h => { h with state := worst, unreported := false, rateStep := 7 }
  recost p (s.modPath p fun r =>
    { r with admin := true, state := x, port := .working, hopCond := s.condition p,
             latency := { value := some latency, fresh := true } })

/-- A tenant enabled, with every path in its masks and open to it. -/
def joined (t : TenantId) (s : State) : State :=
  s.modTenant t fun x => { x with
    enabled := true,
    grant := { x.grant with
      quota := 64, masks := { u := 63, m := 63, b := 63 }, openAccess := 63,
      budgets := .replicate 6 { clear := 2, watch := 2, fading := 2 },
      programBase := 0, programSize := 64, templateBase := 0, templateSize := 4 } }

/-- Path 1 in WATCH, path 3 in CLEAR, tenant 2 enabled (7.6). -/
def lit : State := joined 2 (up 3 .clear .clear 63230100 (up 1 .watch .watch 63223852 State.reset))

/-- The owner of slot k of path p in the EVEN plan of bank A. -/
def owned (p : PathId) (k : SlotId) (t : TenantId) (s : State) : State :=
  s.modPlan p fun x => { x with bankA := { x.bankA with even := x.bankA.even.set k (.tenant t) } }

/-- A message whose cells are the first ones of the store. -/
def message (length : Nat) : Message :=
  { length := length, cells := List.range (cellsFor length), originStamp := 7, originLock := true, source := .carry }

/-- A head routed to path 1. -/
def routedHead (length : Nat) : Message :=
  { message length with life := .headRouted, routeWait := some 32000000, copyA := some { path := 1 } }

/-- A head launching on path 1, with a next fragment. -/
def launchingHead (length frag : Nat) : Message :=
  { message length with
    life := .launching, seq := some 5312,
    copyA := some { path := 1, state := .launching, nextFrag := frag, stall := some 32000000 } }

def withHead (st : StreamId) (m : Message) (s : State) : State := s.modStream st fun x => { x with queue := [m] }

/-- The port of a path at a slot. -/
def atSlot (p : PathId) (k : SlotId) (s : State) : State := s.modPort p fun x => { x with position := .slot k }

/-- A channel running at a word. -/
def runningAt (t : TenantId) (c : ChannelId) (word : List Byte) (s : State) : State :=
  s.modChannel t c fun x => { x with state := .running, index := 10, word := some { bytes := word, fault := false } }

/-- A send word of Table 11-9: op, flags, class, count, offset. -/
def textWord (op flags cls count offset : Nat) : List Byte :=
  [BitVec.ofNat 8 op, BitVec.ofNat 8 flags, BitVec.ofNat 8 cls] ++ toBE 2 count ++ toBE 2 offset ++ [0]

/-- A word of op PATCH: its offset is one byte. -/
def patchWord (flags cls count offset : Nat) : List Byte :=
  [2, BitVec.ofNat 8 flags, BitVec.ofNat 8 cls] ++ toBE 2 count ++ [0, BitVec.ofNat 8 offset, 0]

def waitWord (flags : Nat) (target : Stamp) : List Byte := [3, BitVec.ofNat 8 flags] ++ toBE 6 target.toNat

/-- A completed message of a stream. -/
def completed (st : StreamId) (q : Seq) : Completed :=
  { stream := st, seq := q, payload := [1, 2], path := 1, dual := false, relaunched := false, originStamp := 0, originLock := false,
    arrivalStamp := 0, arrivalLock := false }

/-- The record of T5.U at the start of Table 9-5. -/
def gapRecord : RecvRecord := { fresh := false, highest := 99, window := 3, nextSeq := some 100 }

def ordered5 : State :=
  ((joined 5 State.reset).modTenant 5 fun x =>
      { x with settings := { x.settings with delivery := { x.settings.delivery with u := .ordered } } }).modRecord (urgent 5)
    fun _ => gapRecord

/-- A DATA cell of T2.U. -/
def dataCellOf (frag count bytes : Nat) : DataCell :=
  { stream := urgent 2, seq := 5312, frag := frag, fragCount := count, byteCount := bytes, dual := true, relaunched := false,
    originLock := true, originStamp := 99, payload := List.replicate 44 5 }

/-- The outstanding probe of 3.7 on path 1, with the count and marks of its ECHO's arrival. -/
def probing : State :=
  let s := (up 1 .watch .watch 63224403 State.reset).modPath 1 fun r =>
    { r with settings := { r.settings with asymmetry := -8000 }, latency := { r.latency with losses := 1 } }
  let s := s.modPu 1 fun y => { y with records := [{ number := 42, t1 := 1000000000, epoch := 3, expiry := some 800000000 }] }
  let s := s.modTb fun b => { b with count := 1126487000, epoch := 3 }
  { s with pu := { s.pu with peerMark := some 77, startMark := some 5 } }

def echo42 (t2 t3 : Stamp) : List Byte := encodeControlCell (.echo 42 true 1000000000 t2 t3 77)

/-- A lane with a queue. -/
def queued (l : LaneId) (q : List Entry) (s : State) : State := s.modLane l fun x => { x with queue := q }

/-! ## Formats -/

/-- The check value of the CRC-32 that R174 describes. -/
theorem test_crc32_check_value : crc32 [0x31, 0x32, 0x33, 0x34, 0x35, 0x36, 0x37, 0x38, 0x39] = 0xCBF43926 := by decide +kernel

/-- Table 11-7: kind 3, stream byte 0x0A for T2.M, sequence 5,310. -/
theorem test_abort_cell_bytes :
    (encodeSlotCell (.abort (market 2) 5310)).take 6 = [3, 0x0A, 0, 0x14, 0xBE, 0] ∧
      (encodeSlotCell (.abort (market 2) 5310)).length = 62 := by decide +kernel

/-- Table 11-9: TEXT with CD and CC, 24 bytes from offset 0x0102. -/
theorem test_send_word_fields :
    decodeWord [1, 3, 0, 0, 24, 1, 2, 0] =
      { op := 1, cd := true, cc := true, wr := false, sr := false, pf := false, sl := false, cls := some .u, count := 24,
        textOffset := 0x0102, patchOffset := 2, target := 0x000018010200 } := by decide +kernel

/-- R161, R171: a good frame is its request, a bad check and a bad version are counted. -/
theorem test_frames_are_told_apart :
    decodeFrame 8 (laneFrame (laneMessage 0x12 7 [3])) = .pathon 8 7 [3] ∧
      decodeFrame 8 ((laneFrame (laneMessage 0x12 7 [3])).set 20 9) = .frameCheckError 8 ∧
      decodeFrame 2 (laneFrame ((laneMessage 0x01 7 [0, 0, 0]).set 0 2)) = .malformedMessage 2 ∧
      decodeFrame 2 (laneFrame (laneMessage 0x08 7 [])) = .malformedMessage 2 := by decide +kernel

/-! ## Well-formed commands -/

theorem test_wellformed_commands :
    WellFormed.wellFormed (.cellArrival 0 (encodeSlotCell .idle)) = true ∧
      WellFormed.wellFormed (.controlCellArrival 0 (encodeControlCell .empty)) = true ∧
      WellFormed.wellFormed (.pathon 8 0 [1]) = true := by decide +kernel

theorem test_illformed_slot_cell : WellFormed.wellFormed (.cellArrival 0 (List.replicate 61 0)) = false := by decide
theorem test_illformed_control_cell : WellFormed.wellFormed (.controlCellArrival 0 (List.replicate 33 0)) = false := by decide
theorem test_illformed_body : WellFormed.wellFormed (.carry 0 0 (List.replicate 1493 0)) = false := by decide +kernel

/-! ## Time -/

/-- The time base of 2.3. -/
def lockedAt (count : BitVec 64) : State :=
  State.reset.modTb fun b => { b with count := count, trim := 120, state := .locked, refEnable := true, watch := some 1 }

/-- The time base of 2.4 at a PPS. -/
def acquiringAt (count : BitVec 64) (trim : Int) (inRun : Nat) : State :=
  State.reset.modTb fun b =>
    { b with count := count, trim := trim, inRun := inRun, state := .acquiring, refEnable := true, watch := some 1 }

/-- 2.3: E is +350. -/
theorem test_pps_in_locked :
    (after .ppsArrival (lockedAt 160000000350)).tb.slew = -87 ∧ (after .ppsArrival (lockedAt 160000000350)).tb.trim = 99 ∧
      (after .ppsArrival (lockedAt 160000000350)).tb.state = .locked := by decide +kernel

/-- 2.4, PPS 1 and PPS 3. -/
theorem test_pps_in_acquiring :
    (after .ppsArrival (acquiringAt 48000200000 0 0)).tb.count = 48000000000 ∧
      (after .ppsArrival (acquiringAt 48000200000 0 0)).tb.epoch = 1 ∧
      (after .ppsArrival (acquiringAt 79999998300 (-56) 1)).tb.slew = 425 ∧
      (after .ppsArrival (acquiringAt 79999998300 (-56) 1)).tb.trim = 50 := by decide +kernel

/-- R27, 2.4: the watch runs out in LOCKED. -/
theorem test_pps_missing_in_locked :
    (after .ppsMissing (lockedAt 5)).tb.state = .holdover ∧ (after .ppsMissing (lockedAt 5)).tb.counters.ppsMissing = 1 := by
  decide +kernel

/-- R19. -/
theorem test_slew_period_end :
    (after .slewPeriodEnd (State.reset.modTb fun b => { b with slew := -87, slewTimer := some 0 })).tb.slew = 0 := by decide +kernel

/-- 2.4: TIMECFG with the enable ON: a TIME_STATE notice, then the answer. -/
theorem test_timecfg_enables :
    let t := after (.timecfg 8 9 ([1] ++ toBE 4 16000 ++ toBE 4 1600 ++ [2, 4])) State.reset
    t.tb.state = .acquiring ∧ (t.lane 8).queue =
      [.notice 0 false (.timeState .free .acquiring 0), .answer { kind := 0x1E, tag := 9, reply := .accepted }] := by decide +kernel

/-- R28: the greatest count that is taken, and the least that is refused. -/
theorem test_timeset_bound :
    (after (.timeset 8 0 (toBE 8 (2 ^ 63 - 1))) State.reset).tb.count = BitVec.ofNat 64 (2 ^ 63 - 1) ∧
      (after (.timeset 8 0 (toBE 8 (2 ^ 63))) State.reset).tb.count = 0 := by decide +kernel

/-! ## Probes -/

/-- 3.7: the sample is 63,220,000 and L becomes 63,223,852. -/
theorem test_echo_becomes_sample :
    let t := after (.controlCellArrival 1 (echo42 1063228800 1063259800)) probing
    (t.path 1).latency = { value := some 63223852, fresh := true, outlierRun := 0, losses := 0 } ∧ (t.puPath 1).records = [] ∧
      (t.puPath 1).counters.samples = 1 := by decide +kernel

/-- R45: a hold of one tu above the round trip. -/
theorem test_echo_with_long_hold :
    ((after (.controlCellArrival 1 (echo42 0 126487001)) probing).puPath 1).counters.arithRejects = 1 := by decide +kernel

/-- R40, 1.8: a due probe goes with T1 and the start mark. -/
theorem test_probe_launch :
    let s := probing.modPu 1 fun y => { y with due := true, number := 42, records := [] }
    let t := after (.controlOpportunity 1) s
    (t.port 1).txCell = encodeControlCell (.probe 42 1126487000 5) ∧ (t.puPath 1).number = 43 ∧ (t.port 1).position = .slot 0 := by
  decide +kernel

/-- R39: the interval is 10 ms, and an uncarried probe is a slip. -/
theorem test_probe_timer :
    let t := after (.probeTimerExpiry 1) (probing.modPu 1 fun y => { y with timer := some 0, due := true })
    (t.puPath 1).timer = some 160000000 ∧ (t.puPath 1).counters.slips = 1 := by decide +kernel

/-- 3.9: the third loss takes the path DOWN, and it moves on to PROVING. -/
theorem test_probe_losses_take_path_down :
    let t := after (.probeExpiry 1 42) (probing.modPath 1 fun r => { r with latency := { r.latency with losses := 2 } })
    (t.path 1).state = .proving ∧ (t.path 1).latency.value = none ∧ (t.path 1).latency.losses = 0 := by decide +kernel

/-- 3.10: another start mark is a peer restart. -/
theorem test_peer_restart :
    let t := after (.controlCellArrival 1 (encodeControlCell (.probe 1 2 78))) probing
    t.pu.peerMark = some 78 ∧ t.pu.peerRestarts = 1 ∧ (t.puPath 1).echoes.length = 1 := by decide +kernel

/-! ## Hops -/

/-- Hop 5 of path 1 in 4.8, before a report. -/
def fading (x : HopState) (ring : List Int) (rate : Nat) : State :=
  ((up 1 .watch .watch 63223852 State.reset).modPath 1 fun r =>
      { r with settings := { r.settings with hopCount := 9, dwellMs := 1950 } }).modHop 1 5 fun h =>
    { h with state := x, unreported := false, ring := ring, offset := -10, rateStep := rate }

def hopReport (margin : Int) (rate uncorrectable : Nat) : List Byte :=
  withCrc ([1, 5] ++ toBEInt 2 margin ++ [BitVec.ofNat 8 rate] ++ toBE 2 0 ++ toBE 2 uncorrectable)

/-- 4.8 at 400 ms: the averaged margin is 69. -/
theorem test_report_moves_hop :
    let t := after (.hopReportFrame 1 (hopReport 30 3 2)) (fading .watch [170, 130, 96, 60] 4)
    (t.hop 1 5).state = .fading ∧ (t.hop 1 5).averaged = some 69 := by decide +kernel

/-- 4.8 at 800 ms and 900 ms: 25 does not qualify for leaving LOST, and 61 does. -/
theorem test_report_starts_dwell :
    ((after (.hopReportFrame 1 (hopReport 110 4 0)) (fading .lost [30, 8, -15, 40] 2)).hop 1 5).dwellTimer = none ∧
      ((after (.hopReportFrame 1 (hopReport 150 5 0)) (fading .lost [8, -15, 40, 110] 4)).hop 1 5).dwellTimer = some 31200000000 := by
  decide +kernel

/-- R64: the dwell runs out and the hop moves one state up. -/
theorem test_dwell_expiry :
    ((after (.dwellExpiry 1 5) ((fading .lost [] 5).modHop 1 5 fun h => { h with dwellTimer := some 0 })).hop 1 5).state = .fading := by
  decide +kernel

/-- R65. -/
theorem test_report_timeout :
    let t := after (.reportTimeout 1 5) ((fading .clear [1, 2] 5).modHop 1 5 fun h => { h with reportTimer := some 0 })
    (t.hop 1 5).state = .lost ∧ (t.hop 1 5).ring = [] ∧ (t.hop 1 5).rateStep = 0 := by decide +kernel

/-- Hop 2 of path 4 in 4.9. -/
def leaky (secondary errors : Nat) : State :=
  (up 4 .clear .clear 1 State.reset).modHop 4 2 fun h => { h with secondary := secondary, errorCount := errors, leakDivider := 2 }

/-- 4.9: leak pulses at secondary counts 1 and 2. -/
theorem test_leak_pulse :
    ((after .leakPulse (leaky 1 998)).hop 4 2).secondary = 2 ∧ ((after .leakPulse (leaky 1 998)).hop 4 2).errorCount = 998 ∧
      ((after .leakPulse (leaky 2 1001)).hop 4 2).secondary = 0 ∧ ((after .leakPulse (leaky 2 1001)).hop 4 2).errorCount = 1000 := by
  decide +kernel

/-- 4.9: HOPCLEAR. -/
theorem test_hopclear :
    let t := after (.hopclear 8 0 [4, 2]) ((leaky 1 1004).modHop 4 2 fun h => { h with overFlag := true, blamed := some .diversity })
    (t.hop 4 2).errorCount = 0 ∧ (t.hop 4 2).overFlag = false ∧ (t.hop 4 2).secondary = 0 := by decide +kernel

/-- R69: a threshold at the error count sets the flag with no branch. -/
theorem test_hopset_sets_flag :
    let t := after (.hopset 8 0 ([4, 2, 2, 0, 0] ++ toBE 2 998 ++ [2] ++ toBE 2 500 ++ [31, 0] ++ toBE 2 0)) (leaky 1 998)
    (t.hop 4 2).overFlag = true ∧ (t.hop 4 2).blamed = none ∧ (t.hop 4 2).secondary = 1 := by decide +kernel

/-- 5.7: a tagged hop costs 160,000. -/
theorem test_hoptag_and_untag :
    ((after (.hoptag 8 0 [3, 0]) lit).path 3).cost = some 63390100 ∧
      ((after (.hopuntag 8 0 [3, 0]) (after (.hoptag 8 0 [3, 0]) lit)).hop 3 0).tagged = false := by decide +kernel

/-! ## Ports, paths and plans -/

/-- 1.8: cycle 40,963 is ODD. -/
theorem test_cycle_start :
    ((after (.cycleStart 1) lit).port 1).cycle = 40963 ∧ ((after (.cycleStart 1) lit).port 1).parity = .odd := by decide +kernel

/-- R15, R82: a fault takes the path DOWN; R16, R83: with no hop LOST the recovery leads to PROVING. -/
theorem test_port_fault_and_recovery :
    ((after (.portFault 1) lit).path 1).state = .down ∧ ((after (.portFault 1) lit).port 1).position = .none ∧
      ((after (.portRecovered 1) (after (.portFault 1) lit)).path 1).state = .proving := by decide +kernel

/-- R79, R52: PATHON leads to PROVING, and the first one takes the start mark, 1 for a count of 0. -/
theorem test_pathon :
    ((after (.pathon 8 0 [5]) State.reset).path 5).state = .proving ∧ (after (.pathon 8 0 [5]) State.reset).pu.startMark = some 1 := by
  decide +kernel

/-- R117, R119: PATHOFF owes an ABORT for the copy it cuts, counted as one that replaces where the stream owed one; PATHRESTART owes none. -/
theorem test_pathoff_counts_aborts :
    let s := (withHead (urgent 2) (launchingHead 100 1) lit).modStream (urgent 2) fun x => { x with owed := x.owed.set 1 (some 5000) }
    (after (.pathoff 8 0 [1]) s).sq.aborts[(1 : PathId)] = ⟨1, 1, 0⟩ ∧
      ((after (.pathoff 8 0 [1]) s).stream (urgent 2)).owed[(1 : PathId)] = some 5312 ∧
      (after (.pathrestart 8 0 [1]) s).sq.aborts[(1 : PathId)] = ⟨0, 0, 0⟩ ∧
      ((after (.pathrestart 8 0 [1]) s).stream (urgent 2)).owed[(1 : PathId)] = some 5000 := by decide +kernel

/-- R84, R85. -/
theorem test_pathoff_and_restart :
    ((after (.pathoff 8 0 [1]) lit).path 1).state = .off ∧ ((after (.pathoff 8 0 [1]) lit).path 1).latency.value = none ∧
      ((after (.pathrestart 8 0 [1]) lit).path 1).state = .proving := by decide +kernel

/-- A PATHSET body with given kind, hop count and margin thresholds. -/
def pathsetBody (p kind hops watch fade lost : Nat) : List Byte :=
  [BitVec.ofNat 8 p, BitVec.ofNat 8 kind, BitVec.ofNat 8 hops, 9] ++ toBE 3 16000 ++ toBE 4 0 ++ toBE 3 1 ++ toBE 3 2 ++ toBE 3 3 ++
    toBE 3 4 ++ toBE 3 5 ++ toBE 2 0 ++ toBE 2 50 ++ [3] ++ toBE 2 2000 ++ toBE 2 watch ++ toBE 2 fade ++ toBE 2 lost ++ [20] ++
    toBE 2 2000

/-- R77: clamping of the hop count, filter shift and probe interval; equal thresholds are refused; BUSY where not OFF. -/
theorem test_pathset :
    ((after (.pathset 8 0 (pathsetBody 0 0 13 150 80 20)) State.reset).path 0).settings.hopCount = 12 ∧
      ((after (.pathset 8 0 (pathsetBody 0 0 13 150 80 20)) State.reset).path 0).settings.filterShift = 7 ∧
      ((after (.pathset 8 0 (pathsetBody 0 0 13 150 150 20)) State.reset).lane 8).queue =
        [.answer { kind := 0x10, tag := 0, reply := .refused .badValue }] ∧
      ((after (.pathset 8 0 (pathsetBody 1 0 13 150 80 20)) lit).lane 8).queue =
        [.answer { kind := 0x10, tag := 0, reply := .refused .busy }] := by decide +kernel

/-- 5.7: path 1 first, path 3 its partner. -/
def choosing : State :=
  let s := owned 1 0 2 (owned 3 0 2 (owned 5 0 2 (up 5 .clear .clear 96000000 lit)))
  let s := s.modPath 5 fun r => { r with settings := { r.settings with kind := .wireline } }
  s.modTenant 2 fun x => { x with settings := { x.settings with dualU := .onDegrade }, grant := { x.grant with fallbackU := true } }

theorem test_route_with_partner : chooseRoute choosing (urgent 2) = some { first := 1, partner := some 3 } := by decide +kernel

/-- Table 5-3 for the head of 5.7: one first-path choice of path 1, one partner choice of path 3. -/
theorem test_choice_is_counted :
    let t := after (.carry 2 9 [0, 0, 1, 7]) choosing
    t.rs.counters[(1 : PathId)].firstChoices = 1 ∧ t.rs.counters[(3 : PathId)].partnerChoices = 1 ∧
      t.rs.counters[(3 : PathId)].firstChoices = 0 ∧ t.rs.unroutedHeads = 0 := by decide +kernel

/-- A message record shows the stream byte of T2.M (Table 11-1), then its length (Table 7-1). -/
theorem test_message_record_names_its_stream : (messageBytes (market 2) (message 100)).take 3 = [0x0A, 0, 100] := by decide +kernel

/-- 5.8: SPREAD with admitted counts 14, 15 and 17 over paths 0, 2 and 4. -/
def tied (admitted : Counter) : State :=
  let s := up 0 .clear .clear 64000000 (up 2 .clear .clear 64000000 (up 4 .clear .clear 64000000 State.reset))
  let s := (joined 4 s).modTenant 4 fun x => { x with settings := { x.settings with tie := .spread } }
  s.modStream (bulk 4) fun x => { x with admitted := admitted }

theorem test_spread_ties :
    chooseRoute (tied 14) (bulk 4) = some { first := 2, partner := none } ∧
      chooseRoute (tied 15) (bulk 4) = some { first := 4, partner := none } ∧
      chooseRoute (tied 17) (bulk 4) = some { first := 0, partner := none } := by decide +kernel

/-- 6.7: targets 3, 65,000 and 32,900 at cycle 65,531. -/
def swapping (target : CycleNo) : State :=
  (lit.modPort 4 fun y => { y with faultState := .working, cycle := 65530 }).modPlan 4 fun x => { x with pendingSwap := some target }

theorem test_swap_targets :
    ((after (.cycleStart 4) (swapping 3)).plan 4).active = .a ∧ ((after (.cycleStart 4) (swapping 65000)).plan 4).active = .b ∧
      ((after (.cycleStart 4) (swapping 32900)).plan 4).active = .b := by decide +kernel

/-- R96, R95: PLANSWAP records its target, and PLANSET is then refused. -/
theorem test_planswap_and_planset :
    ((after (.planswap 8 0 [4, 0, 3]) lit).plan 4).pendingSwap = some 3 ∧
      ((after (.planset 8 0 ([4, 0, 0, 0] ++ List.replicate 64 255)) (swapping 3)).lane 8).queue =
        [.answer { kind := 0x18, tag := 0, reply := .refused .busy }] ∧
      ((after (.planset 8 0 ([4, 1, 0, 5] ++ List.replicate 64 2)) lit).plan 4).bankB.odd[31] = .tenant 2 := by decide +kernel

/-- R103. -/
theorem test_budget_window :
    let t := after .budgetWindowExpiry (lit.modPlan 0 fun x => { x with used := .replicate 8 4 })
    (t.plan 0).used = .replicate 8 0 ∧ t.cs.windowTimer = some 1600000 ∧ t.cs.windows = 1 := by decide +kernel

/-! ## Streams -/

/-- Table 1-4: the last fragment of a message of 100 bytes carries 12, and the message is DONE. -/
theorem test_last_fragment :
    let t := after (.slotOpportunity 1) (atSlot 1 2 (owned 1 2 2 (withHead (urgent 2) (launchingHead 100 2) lit)))
    (t.port 1).txCell.drop 5 = (encodeSlotCell (.data { stream := urgent 2, seq := 5312, frag := 2, fragCount := 3, byteCount := 12,
                                                        dual := false, relaunched := false, originLock := true, originStamp := 7,
                                                        payload := List.replicate 44 0 })).drop 5 ∧
      (t.stream (urgent 2)).queue = [] ∧ (t.stream (urgent 2)).completed = 1 := by decide +kernel

/-- 6.6, slot 4: lent to the next eligible tenant; R100: shed at the usable slot count. -/
theorem test_lent_and_shed_slots :
    let s := atSlot 1 4 (owned 1 4 5 (withHead (urgent 2) (launchingHead 200 1) lit))
    ((after (.slotOpportunity 1) s).plan 1).pointer = 2 ∧ ((after (.slotOpportunity 1) s).plan 1).used[2] = 1 ∧
      ((after (.slotOpportunity 1) s).plan 1).counters.lentGrants = 1 ∧
      ((after (.slotOpportunity 1) (s.modPath 1 fun r => { r with hopCond := { r.hopCond with usable := 4 } })).plan 1).counters.shedSlots = 1 := by
  decide +kernel

/-- Table 7-6: FULL at 8 records, QUOTA above the quota. -/
def crowded : State :=
  (((joined 6 State.reset).modTenant 6 fun x => { x with grant := { x.grant with quota := 12 } }).modStream (urgent 6) fun x =>
    { x with queue := (List.range 8).map fun i => { message 10 with cells := [i], life := if i = 0 then .headUnrouted else .queued } })

theorem test_carry_full_and_quota :
    ((after (.carry 6 1 ([0, 0, 10] ++ List.replicate 10 7)) crowded).lane 6).queue =
        [.answer { kind := 1, tag := 1, reply := .refused .full }] ∧
      ((after (.carry 6 1 ([2, 1, 0] ++ List.replicate 256 7)) crowded).lane 6).queue =
        [.answer { kind := 1, tag := 1, reply := .refused .quota }] ∧
      (((after (.carry 6 1 ([2, 0, 150] ++ List.replicate 150 7)) crowded).stream (bulk 6)).queue.map Message.cells) =
        [[8, 9, 10, 11]] := by decide +kernel

/-- R112: a drop of class U is notified on the tenant's lane. -/
theorem test_route_wait_expiry :
    let t := after (.routeWaitExpiry (urgent 2)) (withHead (urgent 2) { message 10 with life := .headUnrouted, routeWait := some 0 } lit)
    (t.stream (urgent 2)).queue = [] ∧ (t.stream (urgent 2)).dropped = 1 ∧ (t.lane 2).queue =
      [.notice 0 false (.drop (urgent 2) .expired none 0 .carry true 7)] := by decide +kernel

/-- R117, R118: the only copy is cut, and the message relaunches with its sequence. -/
theorem test_stall_expiry :
    let t := after (.stallExpiry (urgent 2) .a) (withHead (urgent 2) (launchingHead 100 1) lit)
    (t.stream (urgent 2)).queue.map Message.relaunchCount = [1] ∧ (t.stream (urgent 2)).queue.map Message.seq = [some 5312] ∧
      (t.stream (urgent 2)).owed[(1 : PathId)] = none ∧ (t.stream (urgent 2)).counters.cutsStall = 1 := by decide +kernel

/-! ## Channels -/

/-- Channel 1 of tenant 3 in Table 8-8, at word 15 with the second order assembled up to its trailer. -/
def atWord15 : State :=
  (runningAt 3 1 (patchWord 4 0 16 16) (joined 3 State.reset)).modChannel 3 1 fun x =>
    { x with index := 15, buffer := List.replicate 16 1, patchBlock := List.replicate 28 9, submitted := 1 }

/-- Table 8-8, word 15: 12 bytes of the block and four of zero; patch-short is set. -/
theorem test_patch_word_past_its_block :
    let x := (after (.patch 3 1) atWord15).channel 3 1
    x.patchShort = true ∧ x.buffer = [] ∧
      x.outstanding.map (fun o => o.message.bytes) = some (List.replicate 16 1 ++ List.replicate 12 9 ++ [0, 0, 0, 0]) := by decide +kernel

/-- Table 8-8: SQ answers FULL, and WR holds the message. -/
theorem test_submission_answer_with_wr :
    let o : Outstanding := { message := { cls := .u, bytes := List.replicate 32 1, originStamp := 5, originLock := false }, answer := some .full }
    let x := (after (.submissionAnswer 3 1) (atWord15.modChannel 3 1 fun x => { x with buffer := [], outstanding := some o })).channel 3 1
    x.state = .waitingRoom ∧ x.held.map Submission.originStamp = some 5 := by decide +kernel

/-- 8.10, the second variant: HALT discards the held 32 bytes, its REPORT ahead of the answer. -/
theorem test_halt_of_a_held_message :
    let m : Submission := { cls := .u, bytes := List.replicate 32 1, originStamp := 5, originLock := false }
    let t := after (.halt 3 4 [1]) (atWord15.modChannel 3 1 fun x => { x with state := .waitingRoom, buffer := [], held := some m })
    (t.lane 3).queue =
      [.report { channel := 1, kind := .halted, index := 15, submitted := 1, refused := 0, discarded := 32, patchShort := false,
                 stamp := 0, lock := false, clearsPending := true },
        .answer { kind := 3, tag := 4, reply := .stopped }] := by decide +kernel

/-- A state with one word loaded at word 10 of tenant 3. -/
def loaded (word : List Byte) : State := after (.loadp 3 0 ([0, 10, 1] ++ word)) (joined 3 State.reset)

/-- R126, R131: a loaded word is the one that FIRE fetches. -/
theorem test_fire_fetches_the_loaded_word :
    let x := (after (.fire 3 0 [1, 0, 10, 2, 8, 9]) (loaded (waitWord 2 500))).channel 3 1
    x.state = .running ∧ x.word = some { bytes := waitWord 2 500, fault := false } ∧ x.patchBlock = [8, 9] := by decide +kernel

/-- R127, R133: a TEXT word copies the bytes that LOADT wrote. -/
theorem test_text_word_copies :
    let s := after (.loadt 3 0 [0, 24, 0, 2, 7, 8]) (runningAt 3 1 (textWord 1 3 0 2 24) (joined 3 State.reset))
    ((after (.text 3 1) s).channel 3 1).buffer = [7, 8] := by decide +kernel

/-- R34, R137: a target 2^47 − 1 ahead waits; a passed one fires at once and the channel is RUNNING, its word finished. -/
theorem test_wait_word :
    let s (d : Nat) := after (.wait 3 1) (runningAt 3 1 (waitWord 0 (BitVec.ofNat 48 d)) (joined 3 State.reset))
    ((s (2 ^ 47 - 1)).channel 3 1).state = .waitingTime ∧ ((s (2 ^ 47)).channel 3 1).state = .running ∧
      ((s (2 ^ 47)).channel 3 1).finished = true ∧ (s (2 ^ 47)).target 3 1 = none := by decide +kernel

/-- Channel 1 of tenant 3 just after its entry fired, at a WAIT word whose CC is clear. -/
def fired3 : State :=
  after (.compareFire 3 1) (((runningAt 3 1 (waitWord 0 500) (joined 3 State.reset)).modChannel 3 1 fun x =>
    { x with state := .waitingTime }).setTarget 3 1 (some 500))

/-- R36, R142: a HALT taken after the fire finds a RUNNING channel and is answered STOPPED, after its REPORT HALTED. -/
theorem test_halt_after_the_fire :
    (fired3.channel 3 1).state = .running ∧ fired3.target 3 1 = none ∧
      ((after (.halt 3 4 [1]) fired3).lane 3).queue =
        [.report { channel := 1, kind := .halted, index := 10, submitted := 0, refused := 0, discarded := 0, patchShort := false,
                   stamp := 0, lock := false, clearsPending := true },
          .answer { kind := 3, tag := 4, reply := .stopped }] := by decide +kernel

/-- R138: with no HALT the channel continues, and its program ends. -/
theorem test_fired_channel_continues :
    ((idleStep fired3).channel 3 1).state = .idle ∧ ((idleStep fired3).channel 3 1).reportPending = true ∧
      (idleStep fired3).tb.count = fired3.tb.count := by decide +kernel

/-- R137, R138: with CC set, the word that executes after the fire is the next one, and a command of another kind cannot occur. -/
theorem test_word_after_the_fire :
    let s := fired3.modChannel 3 1 fun x => { x with word := some { bytes := waitWord 2 500, fault := false } }
    let s := after (.loadp 3 0 ([0, 11, 1] ++ textWord 1 3 0 2 24)) s
    ((after (.text 3 1) s).channel 3 1).buffer.length = 2 ∧ ((after (.text 3 1) s).channel 3 1).index = 12 ∧ after (.patch 3 1) s = s := by
  decide +kernel

/-- R132: op 9 is a BAD_OP check. -/
theorem test_bad_word :
    ((after (.undefinedOpWord 3 1) (runningAt 3 1 [9, 0, 0, 0, 0, 0, 0, 0] (joined 3 State.reset))).lane 3).queue.map
      (fun e => match e with | .report r => some r.kind | _ => none) = [some .badOp] := by decide +kernel

/-! ## Receive and delivery -/

/-- Table 9-5: 101 completes. -/
theorem test_message_ahead_is_held :
    let r := (takeCompleted (completed (urgent 5) 101) ordered5).record (urgent 5)
    r.highest = 101 ∧ r.window = 0b1110#64 ∧ r.nextSeq = some 100 ∧ r.hold.map Completed.seq = [101] ∧ r.holdTimer = some 3200000 := by
  decide +kernel

/-- Table 9-5: the hold timer runs out with 101 and 102 held. -/
def holding : State :=
  ordered5.modRecord (urgent 5) fun r =>
    { r with highest := 102, hold := [completed (urgent 5) 101, completed (urgent 5) 102], holdTimer := some 0 }

theorem test_hold_timer_expiry :
    let t := after (.holdTimerExpiry (urgent 5)) holding
    (t.record (urgent 5)).nextSeq = some 103 ∧ (t.record (urgent 5)).hold = [] ∧ (t.record (urgent 5)).holdTimer = none ∧
      (t.lane 5).queue = [.deliver (completed (urgent 5) 101), .deliver (completed (urgent 5) 102)] ∧
      t.rd.streamCounters[streamIdx (urgent 5)].gaps = 1 := by decide +kernel

/-- R150: T5.U takes 99, 101, 101 + 2^23 − 1 (late), 99 (late) and 101 again; 101 is held once. -/
theorem test_no_sequence_is_held_twice :
    let take (q : Seq) (s : State) := takeCompleted (completed (urgent 5) q) s
    let s := take 101 (ordered5.modRecord (urgent 5) fun r => { r with hold := [] })
    let t := take 101 (take 99 (take (101 + BitVec.ofNat 24 (2 ^ 23 - 1)) s))
    (t.record (urgent 5)).hold = [completed (urgent 5) 101] ∧ t.rd.streamCounters[streamIdx (urgent 5)].accepted = 4 ∧
      t.rd.streamCounters[streamIdx (urgent 5)].late = 2 ∧ (t.lane 5).queue = [] := by decide +kernel

/-- 9.7, arrivals 1 and 2; 1.9: a fragment out of order empties the context. -/
theorem test_cells_reassemble :
    let s := after (.cellArrival 1 (encodeSlotCell (.data (dataCellOf 0 3 44)))) lit
    (s.context 1 (urgent 2)).map Context.nextFrag = some 1 ∧
      (after (.cellArrival 1 (encodeSlotCell (.data (dataCellOf 2 3 12)))) s).context 1 (urgent 2) = none ∧
      (after (.reasmTimeout 1 (urgent 2)) s).context 1 (urgent 2) = none := by decide +kernel

/-! ## Lanes and tenants -/

/-- 10.5: lane 4, shortened to its kinds: the oldest DELIVER of class B leaves for an ANSWER. -/
theorem test_eviction :
    let q := .report { channel := 0, kind := .mark, index := 0, submitted := 0, refused := 0, discarded := 0, patchShort := false,
                       stamp := 0, lock := false, clearsPending := false } :: List.replicate 63 (.deliver (completed (bulk 4) 1))
    let t := answer 4 0 7 .accepted (queued 4 q State.reset)
    (t.lane 4).queue.length = 64 ∧ (t.lane 4).counters.evictions = 1 ∧ (t.lane 4).counters.overwrites = 0 ∧
      t.li.lossFlags[(4 : TenantId)] = true := by decide +kernel

/-- R170: the DELIVER that leaves takes the loss flag with it. -/
theorem test_entry_sent :
    let t := after (.entrySent 4) ((queued 4 [.deliver (completed (bulk 4) 1)] State.reset).setLoss 4 true)
    (t.lane 4).queue = [] ∧ (t.lane 4).counters.sent = 1 ∧ t.li.lossFlags[(4 : TenantId)] = false ∧
      byteAt (t.lane 4).txFrame 27 = 4 := by decide +kernel

/-- R162: an operator request on a tenant's lane. -/
theorem test_wrong_side :
    ((after (.restart 2 3 []) State.reset).lane 2).queue = [.answer { kind := 0x22, tag := 3, reply := .refused .badValue }] := by
  decide +kernel

/-- A TENANTSET body for a tenant with a program partition and a quota. -/
def grantBody (t base size quota : Nat) : List Byte :=
  [BitVec.ofNat 8 t] ++ toBE 2 base ++ toBE 2 size ++ toBE 2 0 ++ toBE 2 0 ++ toBE 2 quota ++ [63, 63, 63, 1, 63] ++ List.replicate 36 0

/-- R163: at the end of the store, one beyond it, and over another tenant's partition. -/
theorem test_tenantset :
    ((after (.tenantset 8 0 (grantBody 0 4000 96 10)) lit).tenant 0).grant.programSize = 96 ∧
      ((after (.tenantset 8 0 (grantBody 0 4000 97 10)) lit).lane 8).queue = [.answer { kind := 0x1A, tag := 0, reply := .refused .range }] ∧
      ((after (.tenantset 8 0 (grantBody 0 63 1 10)) lit).lane 8).queue = [.answer { kind := 0x1A, tag := 0, reply := .refused .overlap }] := by
  decide +kernel

/-- 7.7: TENANTRESET drops what is queued. -/
theorem test_tenantreset :
    let t := after (.tenantreset 8 0 [6]) crowded
    (t.stream (urgent 6)).queue = [] ∧ (t.stream (urgent 6)).dropped = 8 ∧ occupancy t 6 = 0 := by decide +kernel

/-- R119, R120: the ABORT owed for the cut copy counts as owed, and as replaced where the stream owed one already; a copy that has
launched nothing owes none. -/
theorem test_tenantreset_counts_aborts :
    let s := withHead (urgent 2) (launchingHead 100 1) lit
    let again := s.modStream (urgent 2) fun x => { x with owed := x.owed.set 1 (some 5000) }
    (after (.tenantreset 8 0 [2]) s).sq.aborts[(1 : PathId)] = ⟨1, 0, 0⟩ ∧
      (after (.tenantreset 8 0 [2]) again).sq.aborts[(1 : PathId)] = ⟨1, 1, 0⟩ ∧
      ((after (.tenantreset 8 0 [2]) again).stream (urgent 2)).owed[(1 : PathId)] = some 5312 ∧
      (after (.tenantreset 8 0 [2]) (withHead (urgent 2) (launchingHead 100 0) lit)).sq.aborts[(1 : PathId)] = ⟨0, 0, 0⟩ := by
  decide +kernel

/-- R164. -/
theorem test_tenanton_and_off :
    ((after (.tenanton 8 0 [0]) lit).tenant 0).enabled = true ∧ ((after (.tenantoff 8 0 [2]) lit).tenant 2).enabled = false := by
  decide +kernel

/-- R165: a route wait limit of 0 becomes 1, and a changed delivery mode makes the record fresh. -/
theorem test_streamset :
    let body := [2, 0, 1] ++ toBE 2 0 ++ toBE 2 500 ++ toBE 2 10000 ++ [0, 0, 0] ++ toBE 2 20 ++ toBE 2 20 ++ toBE 2 20
    let t := after (.streamset 5 0 body) holding
    (t.tenant 5).settings.routeWait.u = 1 ∧ (t.tenant 5).settings.dualU = .always ∧ (t.record (urgent 5)).fresh = true ∧
      (t.lane 5).queue.length = 3 := by decide +kernel

/-- R166, R172: an index outside its area. -/
theorem test_read_bad_index :
    ((after (.read 8 0 [0, 0, 6, 0, 0]) lit).lane 8).queue = [.answer { kind := 0x20, tag := 0, reply := .refused .badIndex }] := by
  decide +kernel

/-- R167. -/
theorem test_countclear_and_restart :
    ((after (.countclear 8 0 []) (after (.cycleStart 1) lit)).port 1).counters = {} ∧
      ((after (.restart 8 0 []) lit).path 1).state = .proving ∧ ((after (.restart 8 0 []) lit).lane 8).queue =
        [.answer { kind := 0x22, tag := 0, reply := .accepted }] := by decide +kernel

/-! ## Witnesses: states and operands that meet the hypotheses of each statement -/

/-- A state that keeps every invariant: two paths in service, a head launching, a channel at work, a message held. -/
def lively : State :=
  let s := (withHead (urgent 2) (launchingHead 100 1) lit).modStream (urgent 2) fun x => { x with admitted := 1 }
  let s := runningAt 2 0 (textWord 1 3 0 2 24) s
  let s := s.modTenant 2 fun x => { x with settings := { x.settings with delivery := { x.settings.delivery with m := .ordered } } }
  let s := s.modRecord (market 2) fun r =>
    { r with fresh := false, highest := 101, nextSeq := some 100, hold := [completed (market 2) 101], holdTimer := some 5 }
  { s with pending := [.cycleStart 1] }

theorem witness_StepRunsFrontCommand : lively.pending = .cycleStart 1 :: [] := rfl

theorem witness_step_of_lively : ∃ t, step lively = .next t := ⟨_, rfl⟩

/-- Nothing to do, channels 1 of tenants 3 and 5 that have yet to continue, and an event that is due. -/
theorem witness_EmptyQueueLetsTimePass :
    (State.reset.pending = [] ∧ dueEvents State.reset = [] ∧ ∀ u c, ¬hasFinished (State.reset.channel u c)) ∧
      (let s := fired3.modChannel 5 1 fun _ => fired3.channel 3 1
       s.pending = [] ∧ dueEvents s = [] ∧ hasFinished (s.channel 3 1) ∧ hasFinished (s.channel 5 1) ∧
         ∀ v d, hasFinished (s.channel v d) → 4 * (3 : TenantId).val + (1 : ChannelId).val ≤ 4 * v.val + d.val) ∧
      let s := State.reset.modTb fun b => { b with slewTimer := some 0 }
      s.pending = [] ∧ dueEvents s = .slewPeriodEnd :: [] := by
  unfold hasFinished
  decide +kernel

theorem witness_StepKeepsPortsAndHopErrorCounts : PortsOk lively ∧ HopsOk lively := by
  constructor
  · intro p; unfold PortOk; revert p; decide +kernel
  · intro p h; unfold HopOk; revert p h; decide +kernel

theorem witness_StepKeepsPathRecords : PathsOk lively := fun p =>
  { settings := by revert p; decide +kernel
    admin := by revert p; decide +kernel
    port := by revert p; decide +kernel
    fresh := by revert p; decide +kernel
    absent := by revert p; decide +kernel
    cost := by revert p; decide +kernel
    serving := by revert p; decide +kernel
    proving := by revert p; decide +kernel
    silent := by revert p; decide +kernel
    faulted := by revert p; decide +kernel }

theorem witness_StepKeepsHopConditions : ConditionsOk lively := by unfold ConditionsOk; decide +kernel

theorem witness_StepKeepsCellAllocation : CellsOk lively where
  quota := by decide +kernel
  total := by decide +kernel
  once := by decide +kernel
  inside := by decide +kernel
  sized := by rintro ⟨t, c⟩; cases c <;> (revert t; decide +kernel)

theorem witness_StepKeepsAccountingAndHeads : AccountsOk lively ∧ HeadsOk lively := by
  constructor
  · rintro ⟨t, c⟩; unfold AccountOk; cases c <;> (revert t; decide +kernel)
  · rintro ⟨t, c⟩; unfold HeadOk waitingAsAdmitted; cases c <;> (revert t; decide +kernel)

theorem witness_StepKeepsCopiesOnPathsInService : AllCopiesOk lively := by
  rintro ⟨t, c⟩ m hm
  have h : (⟨t, c⟩ : StreamId) = urgent 2 ∧ m = launchingHead 100 1 := by
    cases c <;> fin_cases t <;> first | (cases hm; done) | exact ⟨rfl, (Option.some.inj hm).symm⟩
  obtain ⟨-, rfl⟩ := h
  exact
    { unrouted := by decide
      routed := by decide
      launching := by decide
      apart := by decide
      servedA := by unfold CopyServed; decide +kernel
      servedB := by unfold CopyServed; decide +kernel
      relaunches := by decide
      waiting := by decide }

theorem witness_StepKeepsReceiveRecords : RecordsOk lively := fun ⟨t, c⟩ =>
  { fresh := by cases c <;> (revert t; decide +kernel)
    mode := by cases c <;> (revert t; decide +kernel)
    empty := by cases c <;> (revert t; decide +kernel)
    order := by
      cases c <;> fin_cases t <;> intro n hn <;> first | (cases hn; done) | (cases hn; exact ⟨⟨by decide, trivial⟩, by decide⟩)
    own := by cases c <;> (revert t; decide +kernel)
    timer := by cases c <;> (revert t; decide +kernel)
    size := by cases c <;> (revert t; decide +kernel) }

theorem witness_StepKeepsChannels : ChannelsOk lively := fun t c =>
  { index := by revert t c; decide +kernel
    ahead := by revert t c; decide +kernel
    armed := by revert t c; decide +kernel
    held := by revert t c; decide +kernel
    idle := by revert t c; decide +kernel
    busy := by revert t c; decide +kernel
    finished := by revert t c; decide +kernel
    outstanding := by revert t c; decide +kernel
    submitted := by revert t c; decide +kernel
    sizes := by revert t c; decide +kernel }

theorem witness_StepKeepsQueueSizesAndStores : SizesOk lively ∧ StoresOk lively :=
  ⟨{ records := by decide +kernel
     echoes := by decide +kernel
     rings := by decide +kernel
     streams := by rintro ⟨t, c⟩; cases c <;> (revert t; decide +kernel)
     lanes := by decide +kernel }, by unfold StoresOk; decide +kernel⟩

theorem witness_StepKeepsTimeDiscipline : TimeOk lively.tb :=
  { trim := by decide
    slew := by decide
    period := by decide
    frac := by decide
    free := by decide
    watch := by decide
    still := by decide
    inRun := by decide
    outRun := by decide
    window := by decide
    threshold := by decide
    shifts := by decide }

theorem witness_CountFallsOnlyWithNewEpoch :
    ∃ t, step lively = .next t ∧ lively.pending.head? ≠ some .powerOnReset ∧ t.tb.epoch = lively.tb.epoch :=
  ⟨_, rfl, by decide, rfl⟩

theorem witness_TenantRequestsStayWithTheirTenant :
    RecordsOk lively ∧ requestParts (.carry 2 7 [0, 0, 0]) = some (false, tenantLane 2, 7, 0x01, [0, 0, 0]) ∧
      ∃ t, exec (.carry 2 7 [0, 0, 0]) lively = .next t := ⟨witness_StepKeepsReceiveRecords, rfl, _, rfl⟩

/-- A first, an inner and a last fragment, one empty; a frame of 1 item and one of 12. -/
theorem witness_CellsAndHopReportsDecodeAsLaidOut :
    (∀ d ∈ [dataCellOf 0 1 0, dataCellOf 0 6 44, dataCellOf 5 6 1],
      1 ≤ d.fragCount ∧ d.fragCount ≤ 6 ∧ d.frag < d.fragCount ∧ byteCountOk d.frag d.fragCount d.byteCount = true ∧
        d.payload.length = 44) ∧
      ∀ n ∈ [1, 12], ∀ i ∈ List.replicate n
          { index := 255, margin := -2 ^ 15, rateStep := 15, branch := .diversity, corrected := 65535, uncorrectable := 65535 : HopItem },
        i.index < 256 ∧ -2 ^ 15 ≤ i.margin ∧ i.margin < 2 ^ 15 ∧ i.rateStep < 16 ∧ i.corrected < 2 ^ 16 ∧ i.uncorrectable < 2 ^ 16 := by
  decide +kernel

theorem witness_RequestFramesBecomeTheirRequest :
    (List.replicate 1492 (7 : Byte)).length ≤ 1492 ∧
      requestOf 8 9 (List.replicate 1492 7) (0x20 : Byte).toNat = some (.read 8 9 (List.replicate 1492 7)) :=
  ⟨by decide +kernel, rfl⟩

def anAnswer : Entry := .answer { kind := 7, tag := 0, reply := .accepted }

/-- Queues of 63 and 64, with and without an entry that may be overwritten. -/
theorem witness_EntriesJoinALaneQueue :
    let old := Entry.deliver (completed (bulk 4) 1)
    ((queued 4 (List.replicate 63 anAnswer) lit).lane 4).queue.length < 64 ∧
      (let q := ((queued 4 (anAnswer :: old :: List.replicate 62 anAnswer) lit).lane 4).queue
       64 ≤ q.length ∧ q = [anAnswer] ++ old :: List.replicate 62 anAnswer ∧ mayBeOverwritten old = true ∧
        ∀ x ∈ [anAnswer], mayBeOverwritten x = false) ∧
      let q := ((queued 4 (List.replicate 64 anAnswer) lit).lane 4).queue
      64 ≤ q.length ∧ ∀ x ∈ q, mayBeOverwritten x = false := by decide +kernel

/-- A request of each side on the other's lane, and bodies that fail at a bound. -/
theorem witness_RequestsRefusedByTheLane :
    (requestParts (.restart 2 0 []) = some (true, 2, 0, 0x22, []) ∧ true ≠ decide ((2 : LaneId) = mgmtLane)) ∧
      (requestParts (.halt 8 0 [1]) = some (false, 8, 0, 0x03, [1]) ∧ false ≠ decide ((8 : LaneId) = mgmtLane)) ∧
      (requestParts (.halt 2 0 []) = some (false, 2, 0, 0x03, []) ∧ false = decide ((2 : LaneId) = mgmtLane) ∧ bodyFails 0x03 []) ∧
      requestParts (.read 8 0 [13, 0, 0, 0, 0]) = some (true, 8, 0, 0x20, [13, 0, 0, 0, 0]) ∧
        true = decide ((8 : LaneId) = mgmtLane) ∧ bodyFails 0x20 [13, 0, 0, 0, 0] :=
  ⟨⟨rfl, by decide⟩, ⟨rfl, by decide⟩, ⟨rfl, rfl, show (0 : Nat) ≠ 1 by decide⟩, rfl, rfl,
    show (5 : Nat) ≠ 5 ∨ 12 < nat1 [13, 0, 0, 0, 0] 0 from Or.inr (by decide)⟩

theorem witness_LaneEventsCountAndSend :
    (State.reset.lane 4).queue = [] ∧ ((queued 4 [anAnswer] lit).lane 4).queue = anAnswer :: [] := by decide +kernel

/-- Swap targets 1 and 2^15 − 1 ahead of the new cycle number 65,531. -/
theorem witness_CycleStart_swap_stays :
    (lit.port 1).faultState = .working ∧ (lit.plan 1).pendingSwap = none ∧
      ((swapping 65532).port 4).faultState = .working ∧ ((swapping 65532).plan 4).pendingSwap = some 65532 ∧
      ((swapping 65532).port 4).cycle = 65530 ∧ ((65532 : CycleNo) - (65530 + 1)).toNat = 1 ∧
      ((swapping 32762).plan 4).pendingSwap = some 32762 ∧ ((swapping 32762).port 4).cycle = 65530 ∧
      ((32762 : CycleNo) - (65530 + 1)).toNat = 2 ^ 15 - 1 := by decide +kernel

/-- Swap targets 0 and 2^15 ahead of the new cycle number 65,531. -/
theorem witness_CycleStart_swap_is_due :
    ((swapping 65531).port 4).faultState = .working ∧ ((swapping 65531).plan 4).pendingSwap = some 65531 ∧
      ((swapping 65531).port 4).cycle = 65530 ∧ ((65531 : CycleNo) - (65530 + 1)).toNat = 0 ∧
      ((swapping 32763).plan 4).pendingSwap = some 32763 ∧ ((swapping 32763).port 4).cycle = 65530 ∧
      ((32763 : CycleNo) - (65530 + 1)).toNat = 2 ^ 15 := by decide +kernel

theorem witness_ControlOpportunityLaunchesOneControlCell :
    (probing.port 1).faultState = .working ∧ (probing.port 1).position = .control ∧ probing.pu.startMark = some 5 ∧
      (probing.puPath 1).echoes = [] ∧ (probing.puPath 1).due = false ∧
      (let s := probing.modPu 1 fun y => { y with due := true }
       (s.puPath 1).echoes = [] ∧ (s.puPath 1).due = true ∧ s.pu.startMark = some 5 ∧ (s.puPath 1).records.length < 8) ∧
      (let s := probing.modPu 1 fun y => { y with due := true, records := List.replicate 8 { number := 1, t1 := 0, epoch := 0, expiry := none } }
       (s.puPath 1).due = true ∧ 8 ≤ (s.puPath 1).records.length) ∧
      let e : EchoEntry := { number := 17, t1 := 1, t2 := 2, farEpoch := 3 }
      let s := probing.modPu 1 fun y => { y with echoes := [e] }
      (s.puPath 1).echoes = e :: [] ∧ s.pu.startMark = some 5 := by decide +kernel

/-- A slot at and below the usable slot count. -/
theorem witness_SlotOpportunity_shed_and_owner :
    (let s := atSlot 0 0 (State.reset.modPort 0 fun y => { y with faultState := .working })
     (s.port 0).faultState = .working ∧ (s.port 0).position = .slot 0 ∧ (s.path 0).hopCond.usable ≤ (0 : SlotId).val) ∧
      let s := atSlot 1 31 (owned 1 31 2 (withHead (urgent 2) (routedHead 100) lit))
      (s.port 1).position = .slot 31 ∧ (31 : SlotId).val < (s.path 1).hopCond.usable ∧ (s.port 1).parity = .even ∧
        (activeBank (s.plan 1)).even[(31 : SlotId)] = .tenant 2 ∧ traffic s 2 1 := by
  refine ⟨by decide +kernel, by decide +kernel, by decide +kernel, by decide +kernel, by decide +kernel, by decide +kernel, Or.inr ?_⟩
  exact ⟨by decide +kernel, .u, routedHead 100, by decide +kernel, Or.inl ⟨_, rfl, rfl, Or.inl rfl⟩⟩

/-- Slot 31 of tenant 2, which owes ABORTs of classes M and B beside a class U head that has a cell. -/
def owing : State :=
  let owe (st : StreamId) (q : Seq) (s : State) : State := s.modStream st fun x => { x with owed := x.owed.set 1 (some q) }
  owe (market 2) 5310 (owe (bulk 2) 7 (atSlot 1 31 (owned 1 31 2 (withHead (urgent 2) (routedHead 100) lit))))

theorem witness_SlotOpportunity_owed_aborts :
    (owing.port 1).position = .slot 31 ∧ (31 : SlotId).val < (owing.path 1).hopCond.usable ∧ (owing.port 1).parity = .even ∧
      (activeBank (owing.plan 1)).even[(31 : SlotId)] = .tenant 2 ∧ traffic owing 2 1 ∧
      ((owing.stream (urgent 2)).owed[(1 : PathId)] = none ∧ (owing.stream (market 2)).owed[(1 : PathId)] = some 5310 ∧
        (owing.stream (bulk 2)).owed[(1 : PathId)] = some 7) ∧
      ∀ x : StreamId, x.tenant = 2 ∧ (owing.stream x).owed[(1 : PathId)].isSome = true → classCode .m ≤ classCode x.cls := by
  refine ⟨by decide +kernel, by decide +kernel, by decide +kernel, by decide +kernel,
    ⟨by decide +kernel, Or.inl ⟨.m, by decide +kernel⟩⟩, by decide +kernel, ?_⟩
  rintro ⟨w, c⟩ ⟨h, hx⟩
  cases h
  cases c <;> revert hx <;> decide +kernel

/-- The ABORT of the first class that owes one leaves, before the DATA of a class above it (R113). -/
theorem test_owed_abort_leaves_first :
    ((after (.slotOpportunity 1) owing).port 1).txCell = encodeSlotCell (.abort (market 2) 5310) := by decide +kernel

/-- Slot 4 of tenant 5, with the budget-used count of tenant 2. -/
def lending (used : Nat) : State :=
  (atSlot 1 4 (owned 1 4 5 (withHead (urgent 2) (routedHead 100) lit))).modPlan 1 fun x => { x with used := x.used.set 2 used, pointer := 1 }

theorem lending_asks : asks (lending 1) 2 1 ∧ asks (lending 2) 2 1 :=
  ⟨⟨by decide +kernel, by decide +kernel, Or.inr ⟨by decide +kernel, .u, routedHead 100, by decide +kernel, Or.inl ⟨_, rfl, rfl, Or.inl rfl⟩⟩⟩,
    by decide +kernel, by decide +kernel, Or.inr ⟨by decide +kernel, .u, routedHead 100, by decide +kernel, Or.inl ⟨_, rfl, rfl, Or.inl rfl⟩⟩⟩

/-- No tenant but tenant 2 has a path open to it. -/
theorem only_tenant_two (n : Nat) (w : TenantId) (hw : w ≠ 2) : ¬asks (lending n) w 1 := by
  have h : ∀ v : TenantId, v ≠ 2 → ((lending 0).tenant v).grant.openAccess.getLsbD (1 : PathId).val = false := by decide +kernel
  intro hn
  have ht : (lending n).tenant w = (lending 0).tenant w := rfl
  have := hn.1
  rw [ht, h w hw] at this
  cases this

/-- The lent slot, with one budget-used count below the budget of 2. -/
theorem witness_SlotOpportunity_lent :
    (4 : SlotId).val < ((lending 1).path 1).hopCond.usable ∧ (activeBank ((lending 1).plan 1)).even[(4 : SlotId)] = .tenant 5 ∧
      ¬traffic (lending 1) 5 1 ∧ mayWin (lending 1) 2 1 ∧
      ∀ v, mayWin (lending 1) v 1 → turn ((lending 1).plan 1).pointer 2 ≤ turn ((lending 1).plan 1).pointer v := by
  refine ⟨by decide +kernel, by decide +kernel, fun h => absurd h.1 (by decide +kernel), ⟨lending_asks.1, by decide +kernel⟩,
    fun v _ => ?_⟩
  have h : turn ((lending 1).plan 1).pointer 2 = 0 := by decide +kernel
  rw [h]
  exact Nat.zero_le _

/-- The budget reached, and no tenant that asks. -/
theorem witness_SlotOpportunity_unclaimed :
    ((∀ w, ¬mayWin (lending 2) w 1) ∧ ∃ w, asks (lending 2) w 1) ∧
      let s := atSlot 1 4 (owned 1 4 5 (up 1 .watch .watch 1 State.reset))
      (4 : SlotId).val < (s.path 1).hopCond.usable ∧ ¬traffic s 5 1 ∧ ∀ w, ¬asks s w 1 := by
  refine ⟨⟨fun w h => ?_, 2, lending_asks.2⟩, by decide +kernel, fun h => absurd h.1 (by decide +kernel), fun w h => ?_⟩
  · by_cases hw : w = 2
    · subst hw
      exact absurd h.2 (by decide +kernel)
    · exact only_tenant_two 2 w hw h.1
  · have h1 : ∀ v : TenantId, ((up 1 .watch .watch 1 State.reset).tenant v).grant.openAccess.getLsbD (1 : PathId).val = false := by
      decide +kernel
    have h2 : ((up 1 .watch .watch 1 State.reset).tenant w).grant.openAccess.getLsbD (1 : PathId).val = true := h.1
    rw [h1 w] at h2
    cases h2

/-- Slot 0 of path 1, of an owner, with a head of class M of tenant 2. -/
def carrying (owner : SlotOwner) (m : Message) : State :=
  atSlot 1 0 ((withHead (market 2) m lit).modPlan 1 fun x => { x with bankA := { x.bankA with even := x.bankA.even.set 0 owner } })

theorem carrying_traffic (owner : SlotOwner) {m : Message} {name : CopyName} {c : Copy} (hc : getCopy m name = some c)
    (hp : c.path = 1) (hl : m.life = .headRouted ∨ m.life = .launching ∧ c.state = .launching) : traffic (carrying owner m) 2 1 := by
  refine ⟨rfl, Or.inr ⟨Or.inr (Or.inl rfl), .m, m, rfl, ?_⟩⟩
  cases name
  · exact Or.inl ⟨c, hc, hp, hl⟩
  · exact Or.inr ⟨c, hc, hp, hl⟩

/-- The slot goes to tenant 2 as its owner, as an open slot, and lent by tenant 5, which has no traffic. -/
theorem carrying_granted (owner : SlotOwner) (ho : owner = .tenant 2 ∨ owner = .openSlot ∨ owner = .tenant 5) {m : Message}
    (ht : traffic (carrying owner m) 2 1) : grantedTo 2 (carrying owner m) 1 0 := by
  have hoff : (lit.tenant 5).enabled = false := by decide +kernel
  have h5 : ∀ o m, ¬traffic (carrying o m) 5 1 := fun _ _ h => Bool.false_ne_true (hoff.symm.trans h.1)
  have hopen : ∀ v : TenantId, (lit.tenant v).grant.openAccess.getLsbD (1 : PathId).val = true → v = 2 := by decide +kernel
  have haccess : (lit.tenant 2).grant.openAccess.getLsbD (1 : PathId).val = true := by decide +kernel
  have hbudget : (lit.plan 1).used[2] < (lit.tenant 2).grant.budgets[1].watch := by decide +kernel
  have hwins : mayWin (carrying owner m) 2 1 := ⟨⟨haccess, ht⟩, by
    rintro b ⟨⟩
    exact hbudget⟩
  have hfirst : ∀ v, mayWin (carrying owner m) v 1 →
      turn ((carrying owner m).plan 1).pointer 2 ≤ turn ((carrying owner m).plan 1).pointer v := by
    rintro v ⟨⟨hv, -⟩, -⟩
    obtain rfl := hopen v hv
    exact le_refl _
  obtain rfl | rfl | rfl := ho
  · exact Or.inl ⟨rfl, ht⟩
  · exact Or.inr ⟨by rintro v ⟨⟩, hwins, hfirst⟩
  · exact Or.inr ⟨by rintro v ⟨⟩; exact h5 _ _, hwins, hfirst⟩

/-- The heads of the statement's clauses, with the copy on path 1: started with one copy, with a partner, and from copy B; of one fragment,
with one copy and with two; with fragment 1 next; with the last fragment next, beside no copy, one that still launches, and one that is
LAUNCHED or CUT. -/
def slotForms : List (CopyName × Message × Copy) :=
  let launching (frag : Nat) : Copy := { path := 1, state := .launching, nextFrag := frag, stall := some 32000000 }
  [(.a, routedHead 100, { path := 1 }),
    (.a, { routedHead 100 with copyB := some { path := 3 } }, { path := 1 }),
    (.b, { routedHead 100 with copyA := some { path := 3 }, copyB := some { path := 1 } }, { path := 1 }),
    (.a, routedHead 44, { path := 1 }),
    (.a, { routedHead 0 with copyB := some { path := 3 } }, { path := 1 }),
    (.a, launchingHead 100 1, launching 1),
    (.a, launchingHead 100 2, launching 2),
    (.a, { launchingHead 100 2 with copyB := some { path := 3, state := .launching, stall := some 1 } }, launching 2),
    (.b, { launchingHead 100 2 with copyA := some { path := 3, state := .launched }, copyB := some (launching 2) }, launching 2),
    (.a, { launchingHead 100 2 with copyB := some { path := 3, state := .cut } }, launching 2)]

/-- Every one of these heads meets the hypotheses of its clause in an owner's, an open and a lent slot. -/
theorem witness_SlotCarriesTheNextFragment :
    (∀ owner ∈ [SlotOwner.tenant 2, .openSlot, .tenant 5], ∀ x ∈ slotForms, grantedTo 2 (carrying owner x.2.1) 1 0) ∧
    (∀ owner ∈ [SlotOwner.tenant 2, .openSlot, .tenant 5], ∀ x ∈ slotForms,
      let m := x.2.1
      let s := carrying owner m
      (s.port 1).faultState = .working ∧ (s.port 1).position = .slot 0 ∧ (0 : SlotId).val < (s.path 1).hopCond.usable ∧
        ((s.stream (urgent 2)).owed[(1 : PathId)] = none ∧ (s.stream (market 2)).owed[(1 : PathId)] = none ∧
          (s.stream (bulk 2)).owed[(1 : PathId)] = none) ∧
        streamServable s 1 (urgent 2) = false ∧ (s.stream (market 2)).queue.head? = some m ∧ m.copyA.isSome = true ∧
        getCopy m x.1 = some x.2.2 ∧ x.2.2.path = 1 ∧
        (∀ o ∈ getCopy m (match x.1 with | .a => .b | .b => .a), o.path ≠ 1) ∧
        (m.life = .headRouted ∨ m.life = .launching ∧ m.seq = some 5312 ∧ x.2.2.state = .launching)) ∧
      1 < cellsFor 100 ∧ cellsFor 44 = 1 ∧ cellsFor 0 = 1 ∧ 1 + 1 < cellsFor 100 ∧ 2 + 1 = cellsFor 100 ∧
      (∀ cls, classCode cls < classCode (market 2).cls → cls = .u) := by
  refine ⟨fun owner ho x hx => ?_, by decide +kernel, by decide, by decide, by decide, by decide, by decide, ?_⟩
  · have hc : ∀ y ∈ slotForms, getCopy y.2.1 y.1 = some y.2.2 ∧ y.2.2.path = 1 ∧
        (y.2.1.life = .headRouted ∨ y.2.1.life = .launching ∧ y.2.2.state = .launching) := by decide +kernel
    obtain ⟨h1, h2, h3⟩ := hc x hx
    exact carrying_granted owner (by simpa using ho) (carrying_traffic owner h1 h2 h3)
  · intro cls h
    cases cls <;> revert h <;> decide

/-- Cells that fail the field tests: kind 0, class 3, fragment count 7, byte count 45, an inner fragment of 43 bytes. -/
theorem witness_malformed_cells :
    (∀ h ∈ ([[0], [3, 0x18], [1, 2, 0, 0, 0, 56, 1], [1, 2, 0, 0, 0, 8, 45], [1, 2, 0, 0, 0, 16, 43]] : List (List Byte)),
      crcGood (withCrc (padTo 58 h)) = true) ∧
      malformedSlotCell (withCrc (padTo 58 [0])) ∧ malformedSlotCell (withCrc (padTo 58 [3, 0x18])) ∧
      malformedSlotCell (withCrc (padTo 58 [1, 2, 0, 0, 0, 56, 1])) ∧ malformedSlotCell (withCrc (padTo 58 [1, 2, 0, 0, 0, 8, 45])) ∧
      malformedSlotCell (withCrc (padTo 58 [1, 2, 0, 0, 0, 16, 43])) := by
  refine ⟨by decide +kernel, ?_, ?_, ?_, ?_, ?_⟩ <;> (unfold malformedSlotCell; decide +kernel)

/-- A context of path 1 and T2.U that expects a fragment. -/
def assembling (next : Nat) : State :=
  lit.setContext 1 (urgent 2) (some
    { seq := 5312, fragCount := 3, nextFrag := next, bytes := List.replicate (44 * next) 5, originStamp := 99, originLock := true,
      dual := true, relaunched := false, timer := some 5 })

theorem witness_SlotCellArrival_tests :
    (lit.port 1).faultState = .working ∧ crcGood (List.replicate 62 1) = false ∧
      (crcGood (encodeSlotCell .idle) = true ∧ (byteAt (encodeSlotCell .idle) 0).toNat = 2) ∧
      (let cell := encodeSlotCell (.abort (urgent 2) 5312)
       crcGood cell = true ∧ decodeSlotCell cell = some (.abort (urgent 2) 5312)) ∧
      ∀ d ∈ [dataCellOf 0 3 44, dataCellOf 0 1 0, dataCellOf 1 3 44, dataCellOf 2 3 12],
        crcGood (encodeSlotCell (.data d)) = true ∧ decodeSlotCell (encodeSlotCell (.data d)) = some (.data d) := by decide +kernel

/-- The tenant enabled or not, and a context that is absent, expects the cell, or expects another. -/
theorem witness_SlotCellArrival_contexts :
    ((up 1 .watch .watch 1 State.reset).tenant 2).enabled = false ∧ (lit.tenant 2).enabled = true ∧
      lit.context 1 (urgent 2) = none ∧
      ((assembling 1).context 1 (urgent 2)).map Context.seq = some 5312 ∧
      ((assembling 1).context 1 (urgent 2)).map Context.nextFrag = some 1 ∧
      ((assembling 2).context 1 (urgent 2)).map Context.nextFrag = some 2 ∧
      ((assembling 2).context 1 (urgent 2)).map Context.fragCount = some 3 := by decide +kernel

/-- A part that knows its peer and holds two messages of T5.U. -/
def restarting : State :=
  { probing with
    li := ordered5.li
    rd := (ordered5.modRecord (urgent 5) fun r =>
      { r with hold := [completed (urgent 5) 102, completed (urgent 5) 103], holdTimer := some 1 }).rd }

theorem witness_ProbeArrivalChecksTheMarkAndQueuesAnEcho :
    (probing.port 1).faultState = .working ∧ crcGood (List.replicate 32 1) = false ∧
      (crcGood (withCrc (padTo 28 [7])) = true ∧ (byteAt (withCrc (padTo 28 [7])) 0).toNat = 7) ∧
      (crcGood (encodeControlCell .empty) = true ∧ (byteAt (encodeControlCell .empty) 0).toNat = 6) ∧
      (let cell := encodeControlCell (.probe 1 2 77)
       crcGood cell = true ∧ decodeControlCell cell = some (.probe 1 2 77)) ∧
      (let cell := encodeControlCell (.probe 1 2 78)
       crcGood cell = true ∧ decodeControlCell cell = some (.probe 1 2 78)) ∧
      probing.pu.peerMark = some 77 ∧ lit.pu.peerMark = none ∧ (probing.lane mgmtLane).queue.length < 64 ∧
      restarting.pu.peerMark = some 77 ∧ (restarting.port 1).faultState = .working ∧
      (allStreams.flatMap fun st => (restarting.record st).hold) = [completed (urgent 5) 102, completed (urgent 5) 103] := by
  decide +kernel

/-- A peer restart delivers what is held (R151). -/
theorem test_peer_restart_delivers :
    ((after (.controlCellArrival 1 (encodeControlCell (.probe 1 2 78))) restarting).lane 5).queue =
      [.deliver (completed (urgent 5) 102), .deliver (completed (urgent 5) 103)] := by decide +kernel

/-- The ECHO of 3.7, in each of the states that decide its outcome. -/
theorem witness_EchoBecomesALatencySample :
    let cell := echo42 1063228800 1063259800
    let x : ProbeRecord := { number := 42, t1 := 1000000000, epoch := 3, expiry := some 800000000 }
    (probing.port 1).faultState = .working ∧ crcGood cell = true ∧
      decodeControlCell cell = some (.echo 42 true 1000000000 1063228800 1063259800 77) ∧
      (∀ z ∈ (lit.puPath 1).records, ¬(z.number = 42 ∧ z.t1 = 1000000000)) ∧
      (probing.puPath 1).records = [] ++ x :: [] ∧ x.number = 42 ∧ x.t1 = 1000000000 ∧
      ((probing.path 1).state ≠ .down ∧ probing.pu.peerMark = some 77 ∧ probing.tb.epoch = x.epoch) ∧
      ((probing.modPath 1 fun r => { r with state := .down }).path 1).state = .down ∧
      (let s : State := { probing with pu := { probing.pu with peerMark := none } }
       s.pu.peerMark ≠ some 77) ∧
      (probing.modTb fun b => { b with epoch := 4 }).tb.epoch ≠ x.epoch := by decide +kernel

/-- The sample against the filtered latency: absent, equal but for rounding, within the gate, at the gate, and beyond it with an outlier
run of 1 and of 2. -/
theorem witness_Echo_filter :
    let rt := (BitVec.ofNat 48 probing.tb.count.toNat - (1000000000 : Stamp)).toNat
    let held := ((1063259800 : Stamp) - 1063228800).toNat
    let estimate : Int := ((rt - held) / 2 : Nat) + (probing.path 1).settings.asymmetry
    rt < 2 ^ 40 ∧ held < 2 ^ 40 ∧ held ≤ rt ∧ estimate < 2 ^ 32 ∧ estimate = 63220000 ∧
      (probing.path 1).latency.value = some 63224403 ∧ (probing.path 1).settings.outlierGate = 16000 ∧
      (probing.path 1).settings.filterShift = 3 ∧ ((63220000 : Int) - 63224403).natAbs ≤ 16000 ∧
      (63224403 : Int) + (63220000 - 63224403) / (2 ^ 3 : Nat) ≠ 63224403 ∧
      ((63220000 : Int) - 63219993).natAbs ≤ 16000 ∧ (63219993 : Int) + (63220000 - 63219993) / (2 ^ 3 : Nat) = 63219993 ∧
      16000 < ((63220000 : Int) - 63203999).natAbs := by decide +kernel

/-- An estimate of 2^32 or more passes the other tests. -/
theorem witness_Echo_far_sample :
    let s := probing.modTb fun b => { b with count := 1000000000 + 8589950592 }
    let rt := (BitVec.ofNat 48 s.tb.count.toNat - (1000000000 : Stamp)).toNat
    rt < 2 ^ 40 ∧ (2 ^ 32 : Int) ≤ ((rt - 0) / 2 : Nat) + (s.path 1).settings.asymmetry := by decide +kernel

/-- A round trip of 2^40, a hold of 2^40, and a hold of one tu above the round trip. -/
theorem witness_ImpossibleRoundTripsAreRejected :
    let x : ProbeRecord := { number := 42, t1 := 1000000000, epoch := 3, expiry := some 800000000 }
    let late := probing.modTb fun b => { b with count := 1000000000 + 1099511627776 }
    let rt (s : State) := (BitVec.ofNat 48 s.tb.count.toNat - x.t1).toNat
    (crcGood (echo42 0 0) = true ∧ decodeControlCell (echo42 0 0) = some (.echo x.number true 1000000000 0 0 77)) ∧
      (crcGood (echo42 0 1099511627776) = true ∧
        decodeControlCell (echo42 0 1099511627776) = some (.echo x.number true 1000000000 0 1099511627776 77)) ∧
      (crcGood (echo42 0 126487001) = true ∧
        decodeControlCell (echo42 0 126487001) = some (.echo x.number true 1000000000 0 126487001 77)) ∧
      (∀ s ∈ [probing, late], (s.port 1).faultState = .working ∧ (s.puPath 1).records = [] ++ x :: [] ∧ (s.path 1).state ≠ .down ∧
        s.pu.peerMark = some 77 ∧ s.tb.epoch = x.epoch) ∧
      rt late = 2 ^ 40 ∧ ((1099511627776 : Stamp) - 0).toNat = 2 ^ 40 ∧ rt probing + 1 = ((126487001 : Stamp) - 0).toNat := by
  decide +kernel

theorem witness_OneSecondAdvancesTheCount :
    TimeOk (lockedAt 160000000350).tb ∧ (lockedAt 160000000350).tb.count.toNat + 16000081536 < 2 ^ 64 :=
  ⟨{ trim := by decide
     slew := by decide
     period := by decide
     frac := by decide
     free := by decide
     watch := by decide
     still := by decide
     inRun := by decide
     outRun := by decide
     window := by decide
     threshold := by decide
     shifts := by decide }, by decide +kernel⟩

/-- Phase errors at the lock window, one beyond it, at the step threshold and one beyond it; the in-window run at 2 and 3 and the
out-of-window run at 1 and 2. -/
theorem witness_PpsEventsDisciplineTheCount :
    State.reset.tb.state = .free ∧ (acquiringAt 1600 0 2).tb.state = .acquiring ∧ (lockedAt 1600).tb.state = .locked ∧
      (acquiringAt 1600 0 2).tb.params.lockWindow = 1600 ∧ (acquiringAt 1600 0 2).tb.params.stepThreshold = 16000 ∧
      ((errorOf 1600).natAbs = 1600 ∧ (errorOf 15999998399).natAbs = 1601 ∧ (errorOf 16000).natAbs = 16000 ∧
        (errorOf 16001).natAbs = 16001) ∧
      ((acquiringAt 1600 0 2).tb.inRun < 3 ∧ 3 ≤ (acquiringAt 1600 0 3).tb.inRun) ∧
      (let s (n : Nat) := (lockedAt 1601).modTb fun b => { b with outRun := n }
       (s 1).tb.outRun < 2 ∧ 2 ≤ (s 2).tb.outRun) ∧
      ((lockedAt 5).tb.watch.isSome = true ∧ (acquiringAt 5 0 0).tb.watch.isSome = true) ∧
      (State.reset.modTb fun b => { b with slewTimer := some 0 }).tb.slewTimer.isSome = true ∧
      ((acquiringAt 16001 0 0).lane mgmtLane).queue.length < 64 := by decide +kernel

theorem witness_PpsInHoldover :
    (let s (count : BitVec 64) := (lockedAt count).modTb fun b => { b with state := .holdover }
     (s 16000).tb.state = .holdover ∧ (s 16000).tb.params.lockWindow ≤ (s 16000).tb.params.stepThreshold ∧
       (s 16001).tb.state = .holdover ∧ (s 16001).tb.params.stepThreshold = 16000) ∧
      (errorOf 16000).natAbs ≤ 16000 ∧ 16000 < (errorOf 16001).natAbs := by decide +kernel

/-- TIMECFG with the enable on and off, and a window above the threshold; TIMESET below and at 2^63. -/
theorem witness_TimeRequestsSetTheDisciplineAndTheCount :
    (let good : List Byte := [1] ++ toBE 4 1600 ++ toBE 4 1600 ++ [2, 4]
     let bad : List Byte := [0] ++ toBE 4 1599 ++ toBE 4 1600 ++ [2, 4]
     good.length = 11 ∧ byteAt good 0 ≠ 0 ∧ fieldNat good 5 4 ≤ fieldNat good 1 4 ∧ bad.length = 11 ∧ byteAt bad 0 = 0 ∧
       fieldNat bad 1 4 < fieldNat bad 5 4) ∧
      (toBE 8 (2 ^ 63 - 1)).length = 8 ∧ fieldNat (toBE 8 (2 ^ 63 - 1)) 0 8 < 2 ^ 63 ∧ 2 ^ 63 ≤ fieldNat (toBE 8 (2 ^ 63)) 0 8 ∧
      (State.reset.lane mgmtLane).queue.length + 2 ≤ 64 := by decide +kernel

/-! ### Channels -/

/-- Channel 1 of tenant 3 at a word. -/
def at3 (word : List Byte) : State := runningAt 3 1 word (joined 3 State.reset)

theorem executes_at3 (word : List Byte) : executes ((at3 word).channel 3 1) { bytes := word, fault := false } := ⟨rfl, rfl, rfl, rfl⟩

/-- TEXT up to and beyond the partition of 256 bytes, and up to and beyond a message of 256 bytes, good and faulty; PATCH. -/
theorem witness_CopyWordsAssembleAndSubmit :
    (∀ word ∈ [textWord 1 3 0 24 232, textWord 1 3 0 24 233, patchWord 3 0 24 0, patchWord 0 2 24 0],
      let w := decodeWord word
      ¬(w.wr = true ∧ w.sr = true) ∧ (w.cd = false → w.cls.isSome = true)) ∧
      (decodeWord (textWord 1 3 0 24 232)).op = 1 ∧ (decodeWord (patchWord 0 2 24 0)).op = 2 ∧
      ((at3 []).tenant 3).grant.templateSize = 4 ∧ ¬64 * 4 < 232 + 24 ∧ 64 * 4 < 233 + 24 ∧
      ((at3 []).channel 3 1).buffer.length + 24 ≤ 256 ∧
      256 < (((at3 []).modChannel 3 1 fun x => { x with buffer := List.replicate 233 0 }).channel 3 1).buffer.length + 24 ∧
      (let s : State := { at3 [] with pe := { (at3 []).pe with templateFaults := [255] } }
       ∃ k ∈ s.pe.templateFaults, 64 * (s.tenant 3).grant.templateBase + 232 ≤ k ∧ k < 64 * (s.tenant 3).grant.templateBase + 232 + 24) := by
  decide +kernel

/-- WAIT one tu short of a passed target and at it, MARK, and bad words; a waiting channel with its entry armed, and a fired one. -/
theorem witness_WaitMarkAndBadWords :
    (∀ word ∈ [waitWord 2 (BitVec.ofNat 48 (2 ^ 47 - 1)), waitWord 0 (BitVec.ofNat 48 (2 ^ 47)), [4, 0, 0, 0, 0, 0, 0, 0]],
      let w := decodeWord word
      w.cd = false ∧ ¬(w.wr = true ∧ w.sr = true)) ∧
      ((decodeWord (waitWord 2 (BitVec.ofNat 48 (2 ^ 47 - 1)))).op = 3 ∧ (decodeWord [4, 0, 0, 0, 0, 0, 0, 0]).op = 4) ∧
      ((decodeWord (waitWord 2 (BitVec.ofNat 48 (2 ^ 47 - 1)))).target - BitVec.ofNat 48 (at3 []).tb.count.toNat).toNat < 2 ^ 47 ∧
      2 ^ 47 ≤ ((decodeWord (waitWord 0 (BitVec.ofNat 48 (2 ^ 47)))).target - BitVec.ofNat 48 (at3 []).tb.count.toNat).toNat ∧
      (decodeWord [5, 0, 0, 0, 0, 0, 0, 0]).op = 5 ∧ (decodeWord [0, 0, 0, 0, 0, 0, 0, 0]).op = 0 ∧
      ((decodeWord (waitWord 1 0)).op = 3 ∧ (decodeWord (waitWord 1 0)).cd = true) ∧
      ((decodeWord (textWord 1 12 0 1 0)).wr = true ∧ (decodeWord (textWord 1 12 0 1 0)).sr = true) ∧
      (decodeWord (textWord 1 0 3 1 0)).cls = none ∧
      (let s := ((at3 (waitWord 2 9)).modChannel 3 1 fun x => { x with state := .waitingTime }).setTarget 3 1 (some 9)
       (s.channel 3 1).state = .waitingTime ∧ (s.target 3 1).isSome = true) ∧
      hasFinished (fired3.channel 3 1) := by
  unfold hasFinished
  decide +kernel

/-- FIRE of a channel out of range, of a disabled tenant, of a busy channel, beyond the partition and at its last word; HALT likewise. -/
theorem witness_FireStartsAndHaltStopsARun :
    (let body : List Byte := [1, 0, 63, 1, 7]
     body.length = 4 + nat1 body 3 ∧ nat1 body 3 ≤ 32 ∧ nat1 body 0 = (1 : ChannelId).val ∧ fieldNat body 1 2 = 63) ∧
      fieldNat [1, 0, 64, 0] 1 2 = 64 ∧ 4 ≤ nat1 [4, 0, 0, 0] 0 ∧
      (State.reset.tenant 3).enabled = false ∧ ((joined 3 State.reset).tenant 3).enabled = true ∧
      ((joined 3 State.reset).tenant 3).grant.programSize = 64 ∧
      (let x := (joined 3 State.reset).channel 3 1
       x.state = .idle ∧ x.reportPending = false ∧ x.outstanding = none) ∧
      ((at3 []).channel 3 1).state ≠ .idle ∧
      (((joined 3 State.reset).modChannel 3 1 fun x => { x with reportPending := true }).channel 3 1).reportPending = true ∧
      ([1] : List Byte).length = 1 ∧ 4 ≤ nat1 [4] 0 := by decide +kernel

def submission : Submission := { cls := .u, bytes := [1, 2], originStamp := 5, originLock := false }

/-- A submission in transit, each answer with WR and without, and a held message with one resubmission to take. -/
theorem witness_SubmissionsMeetTheQueueAndTheirFlags :
    (∀ a ∈ [none, some SqAnswer.accepted, some .full, some .quota],
      let s := (at3 (patchWord 4 0 16 16)).modChannel 3 1 fun x => { x with outstanding := some { message := submission, answer := a } }
      (s.channel 3 1).outstanding = some { message := submission, answer := a } ∧ (s.channel 3 1).state = .running ∧
        (wordOf (s.channel 3 1)).wr = true) ∧
      (wordOf ((at3 (patchWord 10 0 16 16)).channel 3 1)).wr = false ∧ (wordOf ((at3 (patchWord 10 0 16 16)).channel 3 1)).sr = true ∧
      (wordOf ((at3 (patchWord 10 0 16 16)).channel 3 1)).cc = true ∧
      (let s := State.reset.modChannel 3 1 fun x => { x with outstanding := some { message := submission, answer := some .full } }
       (s.channel 3 1).state ≠ .running) ∧
      let s := (at3 []).modChannel 3 1 fun x => { x with state := .waitingRoom, held := some submission, resubmissions := 1 }
      (s.channel 3 1).state = .waitingRoom ∧ (s.channel 3 1).held = some submission ∧ 0 < (s.channel 3 1).resubmissions := by
  decide +kernel

/-- Loads of no word or byte, up to the end of the partition, and one beyond it. -/
theorem witness_LoadsWriteTheirPartition :
    lit.pe.program.wf = true ∧ lit.pe.template.wf = true ∧ (lit.tenant 2).grant.programSize = 64 ∧
      (lit.tenant 2).grant.templateSize = 4 ∧ nat1 [0, 0, 0] 2 = 0 ∧ fieldNat [0, 0, 0, 0] 2 2 = 0 ∧
      (let body : List Byte := [0, 62, 2] ++ List.replicate 16 7
       body.length = 3 + 8 * nat1 body 2 ∧ 1 ≤ nat1 body 2 ∧ nat1 body 2 ≤ 128) ∧
      (fieldNat [0, 62, 2] 0 2 + 2 ≤ 64 ∧ 64 < fieldNat [0, 63, 2] 0 2 + 2) ∧
      (let body : List Byte := [0, 254, 0, 2, 8, 9]
       body.length = 4 + fieldNat body 2 2 ∧ 1 ≤ fieldNat body 2 2 ∧ fieldNat body 2 2 ≤ 1024) ∧
      fieldNat [0, 254, 0, 2] 0 2 + 2 ≤ 64 * 4 ∧ 64 * 4 < fieldNat [0, 255, 0, 2] 0 2 + 2 := by decide +kernel

/-! ### Streams -/

/-- A payload of 256 bytes, and the three answers: the queue full, the quota passed by one cell, and room in an empty and in another queue. -/
theorem witness_CarryIsAdmittedOrRefused :
    (List.replicate 256 (7 : Byte)).length ≤ 256 ∧ (State.reset.tenant 6).enabled = false ∧ (crowded.tenant 6).enabled = true ∧
      8 ≤ (crowded.stream (urgent 6)).queue.length ∧ ¬32 ≤ (crowded.stream (bulk 6)).queue.length ∧
      (crowded.tenant 6).grant.quota < occupancy crowded 6 + 5 ∧ ¬(crowded.tenant 6).grant.quota < occupancy crowded 6 + 4 ∧
      (crowded.stream (bulk 6)).queue = [] ∧ (lively.stream (urgent 2)).queue ≠ [] ∧ lively.sq.store.wf = true := by decide +kernel

/-- A head that has not launched, and a launching copy whose partner is absent, launching, launched or cut. -/
theorem witness_ExpiredHeadsLeaveOrRelaunch :
    (let m : Message := { message 10 with life := .headUnrouted, routeWait := some 0 }
     ((withHead (urgent 2) m lit).stream (urgent 2)).queue = m :: [] ∧ m.life ≠ .launching ∧ m.routeWait.isSome = true) ∧
      (let m := launchingHead 100 1
       let c : Copy := { path := 1, state := .launching, nextFrag := 1, stall := some 32000000 }
       ((withHead (urgent 2) m lit).stream (urgent 2)).queue = m :: [] ∧ m.life = .launching ∧ m.copyA = some c ∧
         c.state = .launching ∧ c.stall.isSome = true ∧ (∀ o ∈ m.copyB, o.state = .cut) ∧ m.relaunchCount < 2) ∧
      (let m : Message := { launchingHead 100 1 with relaunchCount := 2, relaunched := true, copyB := some { path := 3, state := .cut } }
       (∀ o ∈ m.copyB, o.state = .cut) ∧ 2 ≤ m.relaunchCount) ∧
      (let m : Message := { launchingHead 100 1 with copyB := some { path := 3, state := .launching, stall := some 1 } }
       m.copyB.map Copy.state = some .launching ∧ m.copyB.isSome = true) ∧
      let m : Message := { launchingHead 100 1 with copyB := some { path := 3, state := .launched } }
      m.copyB.map Copy.state = some .launched := by decide +kernel

/-! ### Receive and delivery -/

/-- Sequences 0, 1 and 2^23 − 1 ahead of H, 64 behind it with the window flag set and clear, and 65 behind it. -/
theorem witness_DuplicateRemovalByWindow :
    (State.reset.record (urgent 5)).fresh = true ∧
      (let r := ordered5.record (urgent 5)
       r.fresh = false ∧ ((99 : Seq) - r.highest).toNat = 0 ∧ ((100 : Seq) - r.highest).toNat = 1 ∧
         ((8388706 : Seq) - r.highest).toNat = 2 ^ 23 - 1 ∧ 2 ^ 23 ≤ ((35 : Seq) - r.highest).toNat ∧ (r.highest - (35 : Seq)).toNat = 64 ∧
         r.window.getLsbD (64 - 1) = false ∧ 2 ^ 23 ≤ ((34 : Seq) - r.highest).toNat ∧ (r.highest - (34 : Seq)).toNat = 65) ∧
      let r : RecvRecord := { gapRecord with window := 0x8000000000000000 }
      r.window.getLsbD (64 - 1) = true := by decide +kernel

/-- Messages 0, 1, 63, 64, 2^23 − 2 and 2^23 − 1 from the next expected, a queue that drains, and a full queue. -/
theorem witness_OrderedDeliveryHoldsSkipsAndResynchronises :
    ((joined 5 State.reset).tenant 5).enabled = true ∧ (State.reset.tenant 5).enabled = false ∧
      ((State.reset.record (urgent 5)).nextSeq = none ∧ (State.reset.record (urgent 5)).hold = []) ∧
      (ordered5.record (urgent 5)).nextSeq = some 100 ∧
      (((100 : Seq) - 100).toNat = 0 ∧ ((101 : Seq) - 100).toNat = 1 ∧ ((163 : Seq) - 100).toNat = 63 ∧ ((164 : Seq) - 100).toNat = 64 ∧
        ((8388706 : Seq) - 100).toNat = 2 ^ 23 - 2 ∧ ((8388707 : Seq) - 100).toNat = 2 ^ 23 - 1) ∧
      (holding.record (urgent 5)).nextSeq = some 100 ∧ (holding.record (urgent 5)).hold.head? = some (completed (urgent 5) 101) ∧
      (holding.record (urgent 5)).holdTimer.isSome = true ∧
      (let full := (List.range 16).map fun i => completed (urgent 5) (BitVec.ofNat 24 (102 + 2 * i))
       full.length = 16 ∧ full = completed (urgent 5) 102 :: full.tail ∧ 1 < ((102 : Seq) - 100).toNat ∧
         ((102 : Seq) - 100).toNat < ((103 : Seq) - 100).toNat) ∧
      (((assembling 1).context 1 (urgent 2)).isSome = true) := by decide +kernel

theorem witness_hold_queue_drains : drainsInto 101 [completed (urgent 5) 101, completed (urgent 5) 102, completed (urgent 5) 104]
    [completed (urgent 5) 101, completed (urgent 5) 102] [completed (urgent 5) 104] := by
  refine ⟨rfl, ?_, by decide⟩
  intro i h
  match i, h with
  | 0, _ => rfl
  | 1, _ => rfl

/-! ### Tenants and the operator's requests -/

theorem witness_StreamsetStoresAndTakesEffect (cls : TClass) :
    let x : StreamSettings := { routeWait := { u := 0, m := 1, b := 65535 }, hold := { u := 0, m := 1, b := 65535 } }
    x.routeWait.get cls < 65536 ∧ x.hold.get cls < 65536 := by cases cls <;> decide

/-- The tests of TENANTSET at their bounds, and each of its refusals. -/
theorem witness_TenantsAreSetAndSwitched :
    (grantBody 0 4000 96 10).length = 52 ∧ (fieldNat (grantBody 0 4000 96 10) 1 2 + fieldNat (grantBody 0 4000 96 10) 3 2 = 4096) ∧
      4096 < fieldNat (grantBody 0 4000 97 10) 1 2 + fieldNat (grantBody 0 4000 97 10) 3 2 ∧
      8 ≤ nat1 (grantBody 8 0 0 0) 0 ∧ nat1 (grantBody 7 0 0 0) 0 = (7 : TenantId).val ∧
      (lit.tenant 2).grant.programSize = 64 ∧ fieldNat (grantBody 0 63 1 10) 1 2 = 63 ∧
      ((at3 []).channel 3 1).state ≠ .idle ∧ ((at3 []).tenant 3).grant.programSize ≠ 96 ∧
      min 2048 (fieldNat (grantBody 6 0 0 7) 9 2) < occupancy crowded 6 ∧ ¬min 2048 (fieldNat (grantBody 6 0 0 8) 9 2) < occupancy crowded 6 ∧
      ([7] : List Byte).length = 1 ∧ 8 ≤ nat1 [8] 0 ∧ nat1 [7] 0 = (7 : TenantId).val ∧ (lit.tenant 2).enabled = true ∧
      (lit.tenant 7).enabled = false := by decide +kernel

theorem witness_a_partition_is_shared : share 63 1 0 64 ∧ ¬share 64 1 0 64 := by
  refine ⟨⟨63, by decide, by decide, by decide, by decide⟩, ?_⟩
  rintro ⟨k, h1, -, -, h4⟩
  omega

theorem witness_TenantResetClearsTheTenant :
    ([6] : List Byte).length = 1 ∧ nat1 [6] 0 = (6 : TenantId).val ∧ 8 ≤ nat1 [8] 0 ∧ (crowded.stream (market 6)).queue = [] ∧
      (crowded.stream (urgent 6)).queue ≠ [] ∧ nat1 [2] 0 = (2 : TenantId).val ∧ cutsThatOwe lively 1 (urgent 2) = 1 ∧
      (lively.stream (urgent 2)).owed[(1 : PathId)] = none ∧ cutsThatOwe lively 3 (urgent 2) = 0 := by decide +kernel

/-- QUERY, and READ of the last index of an area and of one beyond it. -/
theorem witness_ViewsAnswerWholeItems :
    ([0, 0] : List Byte).length = 2 ∧ ([12, 0, 0, 0, 0] : List Byte).length = 5 ∧ nat1 [12, 0, 0, 0, 0] 0 = (12 : Fin 13).val ∧
      fieldNat [12, 0, 0, 0, 0] 1 2 < ([6, 72, 6, 8, 24, 32, 24, 144, 6, 1, 6, 9, 1] : List Nat).getD (12 : Fin 13) 0 ∧
      ([6, 72, 6, 8, 24, 32, 24, 144, 6, 1, 6, 9, 1] : List Nat).getD (12 : Fin 13) 0 ≤ fieldNat [12, 0, 1, 0, 0] 1 2 := by decide

theorem witness_RestartActsInEveryBlock : PathsOk lively ∧ (lively.path 1).admin = true ∧ (lively.path 0).admin = false :=
  ⟨witness_StepKeepsPathRecords, by decide +kernel, by decide +kernel⟩

/-! ### Supervision -/

theorem witness_SupervisionTimersAct :
    (let s := probing.modPu 1 fun y => { y with timer := some 0 }
     (s.puPath 1).timer.isSome = true) ∧
      (let x : ProbeRecord := { number := 42, t1 := 1000000000, epoch := 3, expiry := some 800000000 }
       (probing.puPath 1).records = [] ++ x :: [] ∧ (probing.path 1).latency.losses + 1 < (probing.path 1).settings.lossLimit ∧
         let s := probing.modPath 1 fun r => { r with latency := { r.latency with losses := 2 } }
         (s.path 1).settings.lossLimit ≤ (s.path 1).latency.losses + 1) ∧
      (let s := (fading .clear [] 5).modHop 1 5 fun h => { h with reportTimer := some 0 }
       (s.hop 1 5).reportTimer.isSome = true) ∧
      (let s := (fading .lost [] 5).modHop 1 5 fun h => { h with dwellTimer := some 0 }
       (s.hop 1 5).dwellTimer.isSome = true ∧ badness (s.hop 1 5).state = badness .fading + 1) ∧
      ((leaky 2 1001).hop 4 2).secondary = ((leaky 2 1001).hop 4 2).leakDivider ∧
      ((leaky 1 998).hop 4 2).secondary ≠ ((leaky 1 998).hop 4 2).leakDivider := by decide +kernel

/-- A frame of `n` items. -/
def itemFrame (n : Nat) : List Byte := withCrc (BitVec.ofNat 8 n :: List.replicate (8 * n) 0)

theorem itemFrame_good (n : Nat) : crcGood (itemFrame n) = true := by
  unfold itemFrame crcGood withCrc beforeCheck
  generalize BitVec.ofNat 8 n :: List.replicate (8 * n) 0 = l
  have h : ∀ v, (toBE 4 v).length = 4 := fun v => rfl
  simp [h]

/-- Frames of 1 item and of 12; of no item, of 13, and one byte short; an item inside the hop count and one at it. -/
theorem witness_HopReportFrames :
    (let s := fading .watch [170, 130, 96, 60] 4
     (s.port 1).faultState = .working ∧ (s.path 1).state ≠ .off ∧ (5 : HopId).val < (s.path 1).settings.hopCount ∧
       (s.path 1).settings.hopCount ≤ 9 ∧ (State.reset.path 1).state = .off) ∧
      (crcGood (itemFrame 1) = true ∧ nat1 (itemFrame 1) 0 = 1 ∧ (itemFrame 1).length = 5 + 8 * 1) ∧
      (crcGood (itemFrame 12) = true ∧ nat1 (itemFrame 12) 0 = 12 ∧ (itemFrame 12).length = 5 + 8 * 12) ∧
      ¬1 ≤ nat1 (itemFrame 0) 0 ∧ ¬nat1 (itemFrame 13) 0 ≤ 12 ∧ (withCrc (1 :: List.replicate 7 0)).length ≠ 5 + 8 * 1 := by
  refine ⟨by decide +kernel, ⟨itemFrame_good 1, rfl, rfl⟩, ⟨itemFrame_good 12, rfl, rfl⟩, by decide, by decide, by decide⟩

/-- The rows of Table 4-5 at 0, 400, 800, 900 and 1,000 ms, the first report of a hop, and a dwell of 0 ms. -/
theorem witness_reports_are_judged :
    let cfg : PathSettings := { dwellMs := 1950 }
    (∀ x : Hop, x.unreported = true → Judged cfg .clear 190 x { x with state := .clear, unreported := false } none) ∧
      (let x := (fading .watch [] 4).hop 1 5
       Judged cfg (levelOf cfg 69 3 2) 69 x { x with state := .fading, dwellTimer := none } (some .report)) ∧
      (let x := (fading .lost [] 2).hop 1 5
       Judged cfg (levelOf cfg 25 4 0) 25 x { x with dwellTimer := none } none ∧
         Judged cfg (levelOf cfg 40 4 0) 40 x { x with dwellTimer := some (1950 * 16000000) } none ∧
         Judged cfg (levelOf cfg 105 5 0) 105 { x with dwellTimer := some 9 } { x with dwellTimer := some 9 } none ∧
         Judged { cfg with dwellMs := 0 } (levelOf cfg 61 5 0) 61 x { x with state := .fading } (some .dwell)) := by
  refine ⟨fun x h => .first h, ?_, ?_, ?_, ?_, ?_⟩
  · exact .worse (by decide +kernel) (by decide +kernel)
  · exact .stays (by decide +kernel) (by decide +kernel) fun h => absurd h.2 (by decide +kernel)
  · exact .starts (by decide +kernel) (by decide +kernel) ⟨by decide +kernel, by decide +kernel⟩ (by decide +kernel) (by decide)
  · exact .dwells (by decide +kernel) (by decide +kernel) ⟨by decide +kernel, by decide +kernel⟩ rfl
  · exact .rises (by decide +kernel) (by decide +kernel) ⟨by decide +kernel, by decide +kernel⟩ (by decide +kernel) rfl .fading
      (by decide +kernel)

/-- A path or hop outside its range, and the greatest of each; a threshold at the error count. -/
theorem witness_HopRequestsActOnOneHop :
    ([5, 11] : List Byte).length = 2 ∧ nat1 [5, 11] 0 = (5 : PathId).val ∧ nat1 [5, 11] 1 = (11 : HopId).val ∧
      (6 ≤ nat1 [6, 0] 0 ∨ 12 ≤ nat1 [6, 0] 1) ∧ (6 ≤ nat1 [0, 12] 0 ∨ 12 ≤ nat1 [0, 12] 1) ∧
      (let body : List Byte := [4, 2, 2, 0, 0] ++ toBE 2 998 ++ [2] ++ toBE 2 500 ++ [31, 0] ++ toBE 2 0
       body.length = 14 ∧ nat1 body 0 = (4 : PathId).val ∧ nat1 body 1 = (2 : HopId).val ∧
         ((leaky 1 998).hop 4 2).overFlag = false ∧ max 1 (fieldNat body 5 2) ≤ ((leaky 1 998).hop 4 2).errorCount ∧
         ¬max 1 (fieldNat body 5 2) ≤ ((leaky 1 997).hop 4 2).errorCount) := by decide +kernel

theorem witness_PortsFaultAndRecover :
    (State.reset.port 1).faultState = .fault ∧ (lit.port 1).faultState = .working ∧ (State.reset.path 1).state = .off ∧
      (let s := after (.portFault 1) lit
       (s.port 1).faultState = .fault ∧ (s.path 1).state ≠ .off) := by decide +kernel

theorem witness_PathsetWritesAnOffPath :
    (pathsetBody 5 1 0 22 21 20).length = 42 ∧ nat1 (pathsetBody 5 1 0 22 21 20) 1 ≤ 1 ∧ 6 ≤ nat1 (pathsetBody 6 0 1 22 21 20) 0 ∧
      nat1 (pathsetBody 5 1 0 22 21 20) 0 = (5 : PathId).val ∧ (State.reset.path 5).state = .off ∧ (lit.path 1).state ≠ .off ∧
      (fieldInt (pathsetBody 5 1 0 22 21 20) 35 2 < fieldInt (pathsetBody 5 1 0 22 21 20) 33 2 ∧
        fieldInt (pathsetBody 5 1 0 22 21 20) 37 2 < fieldInt (pathsetBody 5 1 0 22 21 20) 35 2) ∧
      ¬fieldInt (pathsetBody 5 1 0 21 21 20) 35 2 < fieldInt (pathsetBody 5 1 0 21 21 20) 33 2 := by decide +kernel

theorem witness_PathsSwitchOnOffAndRestart :
    PathsOk lively ∧ AllCopiesOk lively ∧ ([5] : List Byte).length = 1 ∧ nat1 [5] 0 = (5 : PathId).val ∧ 6 ≤ nat1 [6] 0 ∧ (lively.path 5).admin = false ∧
      (lively.path 1).admin = true ∧ (lively.stream (urgent 2)).queue.head? = some (launchingHead 100 1) ∧
      (lively.port 1).faultState = .working ∧ launchingStreams lively = [urgent 2] ∧ cutsThatOwe lively 1 (urgent 2) = 1 :=
  ⟨witness_StepKeepsPathRecords, witness_StepKeepsCopiesOnPathsInService, by decide +kernel⟩

/-- A path in every state of Table 5-2 and the inputs that move it. -/
theorem witness_PathStatesFollowTable52 :
    (State.reset.path 0).state = .off ∧ servesNow (lit.path 1).state ∧
      (let r := (after (.pathrestart 8 0 [1]) lit).path 1
       r.state = .proving ∧ r.latency.fresh = false) ∧
      (let r := (lit.modPath 1 fun r => { r with state := .proving }).path 1
       r.state = .proving ∧ r.latency.fresh = true ∧ r.hopCond.worst ≠ .lost) ∧
      (let r := (after (.portFault 1) lit).path 1
       r.state = .down ∧ r.hopCond.worst ≠ .lost ∧ r.port = .fault) ∧
      serving .watch = (lit.path 1).state ∧ serving .fading ≠ (lit.path 1).state ∧
      (lit.path 1).hopCond.worst ≠ .lost ∧ (lit.path 1).port = .working := by
  unfold servesNow
  decide +kernel

/-- A route, a stream with none, a partner asked for and one not asked for. -/
theorem witness_RoutesAreTheCheapestCandidates :
    chooseRoute choosing (urgent 2) = some { first := 1, partner := some 3 } ∧ partnerAsked choosing (urgent 2) 1 ∧
      chooseRoute (tied 14) (bulk 4) = some { first := 2, partner := none } ∧ ¬partnerAsked (tied 14) (bulk 4) 2 ∧
      chooseRoute State.reset (urgent 0) = none :=
  ⟨test_route_with_partner, Or.inr ⟨by decide +kernel, Or.inl (by decide +kernel)⟩, test_spread_ties.1, fun h => h,
    by decide +kernel⟩

/-- PLANSET with every slot named and with owner 8, with and without a swap pending; PLANSWAP. -/
theorem witness_PlansAreWrittenSwappedAndWindowed :
    (let body : List Byte := [5, 1, 0, 0] ++ List.replicate 64 7
     body.length = 68 ∧ nat1 body 0 = (5 : PathId).val ∧ ∀ i < 64, (byteAt body (4 + i)).toNat < 8 ∨ (byteAt body (4 + i)).toNat = 255) ∧
      (let body : List Byte := [5, 1, 0, 0] ++ List.replicate 63 255 ++ [8]
       ¬∀ i < 64, (byteAt body (4 + i)).toNat < 8 ∨ (byteAt body (4 + i)).toNat = 255) ∧
      6 ≤ nat1 [6, 0, 0] 0 ∧ ([5, 0, 3] : List Byte).length = 3 ∧ (lit.plan 5).pendingSwap = none ∧
      ((swapping 3).plan 4).pendingSwap.isSome = true := by decide +kernel

/-- After power-on reset nothing that these commands take stands or waits. -/
theorem witness_CommandsThatCannotOccurChangeNothing :
    let s := State.reset
    s.tb.watch = none ∧ s.tb.slewTimer = none ∧ (∀ p, (s.port p).position ≠ .control ∧ (∀ k, (s.port p).position ≠ .slot k) ∧
      (s.puPath p).timer = none ∧ (s.puPath p).records = []) ∧
      (∀ p h, (s.hop p h).reportTimer = none ∧ (s.hop p h).dwellTimer = none) ∧
      (s.context 1 (urgent 2) = none ∧ (s.stream (urgent 2)).queue = [] ∧ (s.record (urgent 2)).holdTimer = none) ∧
      ∀ u c, s.target u c = none ∧ (s.channel u c).outstanding = none ∧ (s.channel u c).held = none ∧ (s.channel u c).state ≠ .running := by
  decide +kernel

/-- A CARRY into an empty queue that has a route; a head that is alone and one that another follows; a launching copy without a partner. -/
theorem witness_RouteChoicesAreCounted :
    ((choosing.tenant 2).enabled = true ∧ (choosing.stream (urgent 2)).queue = [] ∧
        occupancy choosing 2 + (256 + 43) / 44 ≤ (choosing.tenant 2).grant.quota ∧ (List.replicate 256 (7 : Byte)).length ≤ 256) ∧
      (let s := lit.modStream (urgent 2) fun x => { x with queue := [routedHead 100, message 45] }
       (s.stream (urgent 2)).queue = routedHead 100 :: [message 45] ∧
         ((withHead (urgent 2) (routedHead 100) lit).stream (urgent 2)).queue = routedHead 100 :: [] ∧
         (routedHead 100).life ≠ .launching ∧ (routedHead 100).routeWait.isSome = true) ∧
      let m := launchingHead 100 1
      let c : Copy := { path := 1, state := .launching, nextFrag := 1, stall := some 32000000 }
      ((withHead (urgent 2) m lit).stream (urgent 2)).queue = m :: [] ∧ m.life = .launching ∧ m.copyA = some c ∧
        c.state = .launching ∧ c.stall.isSome = true ∧ (∀ o ∈ m.copyB, o.state = .cut) ∧ m.relaunchCount < 2 := by
  decide +kernel

end Sys2Proof.Tests
end

