-- ==== Sys2Proof/Proofs/ResetState.lean ====
section
/-!
The part after power-on reset: what every row of every table reads, from which the reset values of the chapters and the invariants
follow.
-/

namespace Sys2Proof.Proofs

open Sys2Proof.Machine Sys2Proof.Safety Sys2Proof.Claims

/-- The part after power-on reset, with the commands that still wait (log 6). -/
def afterReset (waiting : List Instr) : State := { State.reset with pending := waiting }

theorem exec_powerOnReset (s : State) : exec .powerOnReset s = .next (afterReset s.pending) := rfl

theorem reset_eq_afterReset : State.reset = afterReset [] := rfl

section rows
variable (w : List Instr)

@[simp] theorem afterReset_port (p : PathId) : (afterReset w).port p = {} := replicate_get _ p
@[simp] theorem afterReset_target (t : TenantId) (c : ChannelId) : (afterReset w).target t c = none :=
  replicate_get _ (chanIdx t c)
@[simp] theorem afterReset_puPath (p : PathId) : (afterReset w).puPath p = {} := replicate_get _ p
@[simp] theorem afterReset_hop (p : PathId) (h : HopId) : (afterReset w).hop p h = {} := by
  simp [State.hop, afterReset, State.reset]
@[simp] theorem afterReset_path (p : PathId) : (afterReset w).path p = {} := replicate_get _ p
@[simp] theorem afterReset_plan (p : PathId) : (afterReset w).plan p = {} := replicate_get _ p
@[simp] theorem afterReset_stream (st : StreamId) : (afterReset w).stream st = {} := replicate_get _ (streamIdx st)
@[simp] theorem afterReset_channel (t : TenantId) (c : ChannelId) : (afterReset w).channel t c = {} :=
  replicate_get _ (chanIdx t c)
@[simp] theorem afterReset_context (p : PathId) (st : StreamId) : (afterReset w).context p st = none :=
  replicate_get _ (ctxIdx p st)
@[simp] theorem afterReset_record (st : StreamId) : (afterReset w).record st = {} := replicate_get _ (streamIdx st)
@[simp] theorem afterReset_tenant (t : TenantId) : (afterReset w).tenant t = {} := replicate_get _ t
@[simp] theorem afterReset_lane (l : LaneId) : (afterReset w).lane l = {} := replicate_get _ l

@[simp] theorem afterReset_tb : (afterReset w).tb = {} := rfl
@[simp] theorem afterReset_hs : (afterReset w).hs = {} := rfl
@[simp] theorem afterReset_pe : (afterReset w).pe = {} := rfl
@[simp] theorem afterReset_sq : (afterReset w).sq = {} := rfl
@[simp] theorem afterReset_pu : (afterReset w).pu = {} := rfl
@[simp] theorem afterReset_rs : (afterReset w).rs = {} := rfl
@[simp] theorem afterReset_cs : (afterReset w).cs = {} := rfl
@[simp] theorem afterReset_rd : (afterReset w).rd = {} := rfl
@[simp] theorem afterReset_li : (afterReset w).li = {} := rfl

end rows

/-- No message waits anywhere, so no cell is allocated. -/
theorem afterReset_allocatedCells (w : List Instr) : allocatedCells (afterReset w) = [] := by
  simp [allocatedCells, cellsHeld]

theorem afterReset_occupancy (w : List Instr) (t : TenantId) : occupancy (afterReset w) t = 0 := by
  simp [occupancy, cellsHeld]

/-- Settles O4: every row of every table holds its default, the value its chapter gives. -/
theorem powerOnResetState : Obligations.PowerOnResetState := by
  unfold Obligations.PowerOnResetState
  intro s
  refine ⟨afterReset s.pending, exec_powerOnReset s, rfl, ?_⟩
  simp [Memory.read, Config.tuPerMs, Config.tuPerUs]

theorem afterReset_pathOk (w : List Instr) (p : PathId) : PathOk (afterReset w) p := by
  constructor <;> simp [inService, pathCost]

theorem afterReset_cellsOk (w : List Instr) : CellsOk (afterReset w) where
  quota t := by simp [afterReset_occupancy]
  total := by simp
  once := by simp [afterReset_allocatedCells]
  inside := by simp [afterReset_allocatedCells]
  sized := by simp

theorem afterReset_timeOk (w : List Instr) : TimeOk (afterReset w).tb := by
  constructor <;> simp 
  decide

theorem afterReset_recordOk (w : List Instr) (st : StreamId) : RecordOk (afterReset w) st := by
  constructor <;> simp 

theorem afterReset_channelOk (w : List Instr) (t : TenantId) (c : ChannelId) : ChannelOk (afterReset w) t c := by
  constructor <;> simp [untaken]

/-- Settles O5, invariant by invariant. -/
theorem resetStateSatisfiesInvariants : Obligations.ResetStateSatisfiesInvariants := by
  unfold Obligations.ResetStateSatisfiesInvariants
  rw [reset_eq_afterReset]
  exact {
    ports p := by simp [PortOk, parityOf]
    time := afterReset_timeOk []
    paths := afterReset_pathOk []
    conditions p := by simp
    hops p h := by simp [HopOk]
    stores := by simp [StoresOk, Memory.wf, Memory.wfAbove]
    cells := afterReset_cellsOk []
    accounts st := by simp [AccountOk]
    heads st := by simp [HeadOk]
    copies st := by simp
    records := afterReset_recordOk []
    channels := afterReset_channelOk []
    sizes := by constructor <;> simp }
end Sys2Proof.Proofs
end

