-- ==== Sys2Proof/Proofs/Requests.lean ====
section
/-!
Taking a request leaves everything but the lanes to the request's owner: a property that no lane and no channel can change is kept by a
request when its owner keeps it.
-/

namespace Sys2Proof.Proofs

open Sys2Proof.Machine

/-- The property depends on nothing that queueing an entry on a lane can change. -/
def IgnoresOutput (P : State → Prop) : Prop := ∀ s u, OnlyChannelsOutput s u → P s → P u

section keeps
variable {P : State → Prop} {s : State} (hP : IgnoresOutput P)
include hP

theorem answer_keeps (l : LaneId) (tag : Tag) (kind : Byte) (r : Reply) (h : P s) : P (answer l tag kind r s) :=
  hP s _ (answer_frame l tag kind r s) h

theorem countRequest_keeps (l : LaneId) (h : P s) : P (countRequest l s) := hP s _ (by simp [OnlyChannelsOutput]) h

theorem refuseAccess_keeps (l : LaneId) (tag : Tag) (kind : Byte) (h : P s) : P (refuseAccess l tag kind s) :=
  hP s _ (refuseAccess_frame l tag kind s) h

theorem serve_keeps {α : Type} (l : LaneId) (tag : Tag) (kind : Byte) {parsed : Option α} {act : α → State → State × Reply}
    (hact : ∀ x, parsed = some x → ∀ u, P u → P (act x u).1) (h : P s) : P (serve l tag kind parsed act s) := by
  unfold serve
  split
  · exact answer_keeps hP _ _ _ _ h
  · next x => exact answer_keeps hP _ _ _ _ (hact x rfl s h)

theorem operatorRequest_keeps {α : Type} (l : LaneId) (tag : Tag) (kind : Byte) {parsed : Option α}
    {act : α → State → State × Reply} (hact : ∀ x, parsed = some x → ∀ u, P u → P (act x u).1) (h : P s) :
    P (operatorRequest l tag kind parsed act s) := by
  unfold operatorRequest
  split
  · exact serve_keeps hP _ _ _ hact (countRequest_keeps hP l h)
  · exact refuseAccess_keeps hP _ _ _ (countRequest_keeps hP l h)

theorem tenantRequest_keeps {α : Type} (l : LaneId) (tag : Tag) (kind : Byte) {parsed : Option α}
    {act : TenantId → α → State → State × Reply} (hact : ∀ t x, parsed = some x → ∀ u, P u → P (act t x u).1) (h : P s) :
    P (tenantRequest l tag kind parsed act s) := by
  unfold tenantRequest
  split
  · exact refuseAccess_keeps hP _ _ _ (countRequest_keeps hP l h)
  · next t _ => exact serve_keeps hP _ _ _ (hact t) (countRequest_keeps hP l h)

end keeps

theorem atIndex_keeps {P : State → Prop} {n i : Nat} {act : Fin n → State → State × Reply} {s : State}
    (hact : ∀ j u, P u → P (act j u).1) (h : P s) : P (atIndex i act s).1 := by
  unfold atIndex
  split
  · exact h
  · next j _ => exact hact j s h

theorem atHop_keeps {P : State → Prop} {i : Nat × Nat} {act : PathId → HopId → State → State × Reply} {s : State}
    (hact : ∀ p k u, P u → P (act p k u).1) (h : P s) : P (atHop i act s).1 :=
  atIndex_keeps (fun p _ hu => atIndex_keeps (fun k u hu => hact p k u hu) hu) h

theorem foldl_keeps {α : Type} {P : State → Prop} {f : State → α → State} (h : ∀ x a, P x → P (f x a)) (l : List α) {s : State}
    (hs : P s) : P (l.foldl f s) := by
  induction l generalizing s with
  | nil => exact hs
  | cons a r ih => exact ih (h s a hs)

end Sys2Proof.Proofs
end

