-- ==== Sys2Proof/Proofs/PortPlaces.lean ====
section
/-!
The place of a port: cycle number, parity, fault state and next opportunity. Launching a cell and counting leave it.
-/

namespace Sys2Proof.Proofs

open Sys2Proof.Machine Sys2Proof.Safety

/-- Every port stands where it was: at most its counters and its transmit line differ. -/
structure SamePlaces (s t : State) : Prop where
  place : ∀ q, (t.port q).cycle = (s.port q).cycle ∧ (t.port q).parity = (s.port q).parity ∧
    (t.port q).faultState = (s.port q).faultState ∧ (t.port q).position = (s.port q).position

theorem SamePlaces.trans {s t u : State} (h : SamePlaces s t) (k : SamePlaces t u) : SamePlaces s u where
  place q := by
    obtain ⟨c, a, f, x⟩ := h.place q
    obtain ⟨c', a', f', x'⟩ := k.place q
    exact ⟨c'.trans c, a'.trans a, f'.trans f, x'.trans x⟩

theorem SamePlaces.of_pp {s t : State} (h : t.pp = s.pp) : SamePlaces s t where
  place q := by rw [State.port_of h]; exact ⟨rfl, rfl, rfl, rfl⟩

theorem modPort_samePlaces (s : State) (p : PathId) {f : Port → Port} (hc : ∀ x, (f x).cycle = x.cycle)
    (ha : ∀ x, (f x).parity = x.parity) (hf : ∀ x, (f x).faultState = x.faultState) (hx : ∀ x, (f x).position = x.position) :
    SamePlaces s (s.modPort p f) where
  place q := by
    rw [State.port_modPort]
    split
    · next e => rw [e]; exact ⟨hc _, ha _, hf _, hx _⟩
    · exact ⟨rfl, rfl, rfl, rfl⟩

theorem countPort_samePlaces (s : State) (p : PathId) (f : PortCounters → PortCounters) : SamePlaces s (s.countPort p f) :=
  modPort_samePlaces s p (f := fun x => { x with counters := f x.counters }) (fun _ => rfl) (fun _ => rfl) (fun _ => rfl)
    fun _ => rfl

theorem putCell_samePlaces (p : PathId) (cell : List Byte) (s : State) : SamePlaces s (putCell p cell s) :=
  modPort_samePlaces s p (f := fun x => { x with txCell := cell }) (fun _ => rfl) (fun _ => rfl) (fun _ => rfl) fun _ => rfl

/-! What follows the launch or the count of a cell touches no port. -/

theorem modStream_samePlaces (s : State) (st : StreamId) (f : Stream → Stream) : SamePlaces s (s.modStream st f) := .of_pp rfl

theorem reportLaunch_samePlaces (st : StreamId) (name : CopyName) (s : State) : SamePlaces s (reportLaunch st name s) :=
  .of_pp (by simp)

theorem startIfRouted_samePlaces (st : StreamId) (s : State) : SamePlaces s (startIfRouted st s) := .of_pp (by simp)

theorem launchEcho_samePlaces (p : PathId) (s : State) : SamePlaces s (launchEcho p s) := .of_pp (by simp)

theorem launchProbe_samePlaces (p : PathId) (s : State) : SamePlaces s (launchProbe p s) := .of_pp (by simp)

theorem takeData_samePlaces (p : PathId) (d : DataCell) (c : Capture) (s : State) : SamePlaces s (takeData p d c s) :=
  .of_pp (by simp)

theorem takeAbort_samePlaces (p : PathId) (st : StreamId) (q : Seq) (s : State) : SamePlaces s (takeAbort p st q s) :=
  .of_pp (by simp)

theorem takeProbe_samePlaces (p : PathId) (n : BitVec 8) (t1 : Stamp) (mk : Mark) (c : Capture) (s : State) :
    SamePlaces s (takeProbe p n t1 mk c s) := .of_pp (by simp)

theorem takeEcho_samePlaces (p : PathId) (n : BitVec 8) (b : Bool) (t1 t2 t3 : Stamp) (mk : Mark) (c : Capture) (s : State) :
    SamePlaces s (takeEcho p n b t1 t2 t3 mk c s) := .of_pp (by simp)

theorem takeItem_samePlaces (p : PathId) (it : HopItem) (s : State) : SamePlaces s (takeItem p it s) := .of_pp (by simp)

theorem launchIdle_samePlaces (p : PathId) (s : State) : SamePlaces s (launchIdle p s) :=
  (putCell_samePlaces p _ s).trans (countPort_samePlaces _ p _)

theorem launchAbort_samePlaces (p : PathId) (st : StreamId) (seq : Seq) (s : State) : SamePlaces s (launchAbort p st seq s) :=
  ((putCell_samePlaces p _ s).trans (countPort_samePlaces _ p _)).trans (modStream_samePlaces _ st _)

theorem launchFragment_samePlaces (p : PathId) (st : StreamId) (name : CopyName) (s : State) :
    SamePlaces s (launchFragment p st name s) := by
  unfold launchFragment
  split
  · exact .of_pp rfl
  · split
    · exact .of_pp rfl
    · exact ((putCell_samePlaces p _ s).trans (countPort_samePlaces _ p _)).trans (reportLaunch_samePlaces ..)

theorem launchGrant_samePlaces (p : PathId) (t : TenantId) (s : State) : SamePlaces s (launchGrant p t s) := by
  unfold launchGrant
  split
  · exact launchIdle_samePlaces p s
  · exact launchAbort_samePlaces p _ _ s
  · exact (startIfRouted_samePlaces _ s).trans (launchFragment_samePlaces p _ _ _)

theorem launchSlot_samePlaces (p : PathId) (k : SlotId) (s : State) : SamePlaces s (launchSlot p k s) := by
  have hpp : (resolveSlot p k s).2.pp = s.pp := by simp
  unfold launchSlot
  split
  · next s1 hr => rw [hr] at hpp; exact SamePlaces.trans (.of_pp hpp) (launchIdle_samePlaces p s1)
  · next t s1 hr => rw [hr] at hpp; exact SamePlaces.trans (.of_pp hpp) (launchGrant_samePlaces p t s1)

theorem launchControl_samePlaces (p : PathId) (s : State) : SamePlaces s (launchControl p s) := by
  have cell (x : List Byte) (f : PortCounters → PortCounters) : SamePlaces s ((putCell p x s).countPort p f) :=
    (putCell_samePlaces p x s).trans (countPort_samePlaces _ p f)
  unfold launchControl
  split
  · exact (cell _ _).trans (launchEcho_samePlaces ..)
  · split
    · exact (cell _ _).trans (launchProbe_samePlaces ..)
    · exact cell _ _

theorem takeSlotCell_samePlaces (p : PathId) (cell : Option SlotCell) (s : State) : SamePlaces s (takeSlotCell p cell s) := by
  unfold takeSlotCell
  split
  · exact countPort_samePlaces s p _
  · exact (countPort_samePlaces s p _).trans (takeData_samePlaces ..)
  · exact (countPort_samePlaces s p _).trans (takeAbort_samePlaces ..)
  · exact countPort_samePlaces s p _

theorem takeControlCell_samePlaces (p : PathId) (cell : Option ControlCell) (s : State) :
    SamePlaces s (takeControlCell p cell s) := by
  unfold takeControlCell
  split
  · exact countPort_samePlaces s p _
  · exact (countPort_samePlaces s p _).trans (takeProbe_samePlaces ..)
  · exact (countPort_samePlaces s p _).trans (takeEcho_samePlaces ..)
  · exact countPort_samePlaces s p _

theorem zeroCounters_port (s : State) (q : PathId) : (zeroCounters s).port q = { s.port q with counters := {} } :=
  mapAll_get _ _ _

theorem zeroCounters_samePlaces (s : State) : SamePlaces s (zeroCounters s) where
  place q := by rw [zeroCounters_port]; exact ⟨rfl, rfl, rfl, rfl⟩

end Sys2Proof.Proofs
end

