-- ==== Sys2Proof/Proofs/PortsAndHops.lean ====
section
/-!
What every step keeps of the ports and of the hop records (R1 to R3, R15, R66). Most commands touch neither; each of the others keeps
the parity of a port and the ranges of a hop.
-/

namespace Sys2Proof.Proofs

open Sys2Proof.Machine Sys2Proof.Safety

/-! ## Commands that touch neither -/

/-- The ports and the hop records stand. -/
structure Stands (s t : State) : Prop where
  pp : t.pp = s.pp
  hops : t.hs.hops = s.hs.hops

theorem Stands.trans {s t u : State} (h : Stands s t) (k : Stands t u) : Stands s u := ⟨k.pp.trans h.pp, k.hops.trans h.hops⟩

theorem Stands.ignoresOutput (s : State) : IgnoresOutput (Stands s) := fun a u h k => k.trans ⟨by simp [h], by simp [h]⟩

/-- The commands of the time base, of the supervision of probes, and of the queues, the channels, RD and the lanes. -/
def standing : Instr → Bool
  | .ppsArrival | .ppsMissing | .slewPeriodEnd | .compareFire _ _ | .timecfg _ _ _ | .timeset _ _ _ => true
  | .probeTimerExpiry _ | .probeExpiry _ _ => true
  | .pathset _ _ _ | .planset _ _ _ | .planswap _ _ _ | .budgetWindowExpiry => true
  | .carry _ _ _ | .channelSubmission _ _ | .submissionAnswer _ _ | .resubmission _ _ | .routeWaitExpiry _ | .stallExpiry _ _ => true
  | .loadp _ _ _ | .loadt _ _ _ | .fire _ _ _ | .text _ _ | .patch _ _ | .wait _ _ | .mark _ _ | .halt _ _ _ => true
  | .undefinedOpWord _ _ | .reasmTimeout _ _ | .holdTimerExpiry _ => true
  | .streamset _ _ _ | .query _ _ _ | .read _ _ _ | .tenantset _ _ _ | .tenanton _ _ _ | .tenantoff _ _ _ | .tenantreset _ _ _ => true
  | .frameCheckError _ | .malformedMessage _ | .entrySent _ => true
  | _ => false

theorem runWord_stands (k : WordKind) {run : State → State} (h : ∀ x, Stands x (run x)) (u : TenantId) (c : ChannelId) (s : State) :
    Stands s (runWord k run u c s) := by
  unfold runWord
  split
  · exact Stands.trans ⟨by simp, by simp⟩ (h _)
  · exact ⟨rfl, rfl⟩

/-- A request of the operator whose owner touches neither ports nor hops. -/
theorem operatorRequest_stands {α : Type} (l : LaneId) (tag : Tag) (kind : Byte) (parsed : Option α)
    {act : α → State → State × Reply} (h : ∀ x u, Stands u (act x u).1) (s : State) :
    Stands s (operatorRequest l tag kind parsed act s) :=
  operatorRequest_keeps (Stands.ignoresOutput s) l tag kind (fun x _ u hu => hu.trans (h x u)) ⟨rfl, rfl⟩

theorem tenantRequest_stands {α : Type} (l : LaneId) (tag : Tag) (kind : Byte) (parsed : Option α)
    {act : TenantId → α → State → State × Reply} (h : ∀ t x u, Stands u (act t x u).1) (s : State) :
    Stands s (tenantRequest l tag kind parsed act s) :=
  tenantRequest_keeps (Stands.ignoresOutput s) l tag kind (fun t x _ u hu => hu.trans (h t x u)) ⟨rfl, rfl⟩

theorem atIndex_stands {n : Nat} (i : Nat) {act : Fin n → State → State × Reply} (h : ∀ j u, Stands u (act j u).1) (s : State) :
    Stands s (atIndex i act s).1 :=
  atIndex_keeps (fun j u (hu : Stands s u) => hu.trans (h j u)) ⟨rfl, rfl⟩

theorem exec_stands {i : Instr} (hi : standing i = true) {s t : State} (h : exec i s = .next t) : Stands s t := by
  cases i <;> cases hi <;> cases h
  case ppsArrival => split <;> exact ⟨by simp, by simp⟩
  case ppsMissing | slewPeriodEnd | compareFire | probeTimerExpiry | probeExpiry | budgetWindowExpiry | stallExpiry | frameCheckError |
      malformedMessage | holdTimerExpiry => exact ⟨by simp, by simp⟩
  case timecfg | timeset | read =>
    exact operatorRequest_stands _ _ _ _ (fun _ _ => ⟨by simp, by simp⟩) s
  case pathset | planset | planswap | tenantset | tenanton | tenantoff | tenantreset =>
    exact operatorRequest_stands _ _ _ _ (fun _ => atIndex_stands _ fun _ _ => ⟨by simp, by simp⟩) s
  case carry | loadp | loadt | halt | streamset | query =>
    exact tenantRequest_stands _ _ _ _ (fun _ _ _ => ⟨by simp, by simp⟩) s
  case fire => split <;> exact ⟨by simp, by simp⟩
  case text | patch | wait | mark =>
    exact runWord_stands _ (fun _ => ⟨by simp, by simp⟩) _ _ s
  case undefinedOpWord u c =>
    split
    · exact runWord_stands _ (fun _ => ⟨by simp, by simp⟩) u c s
    · exact ⟨rfl, rfl⟩
  case channelSubmission | submissionAnswer | routeWaitExpiry | reasmTimeout | entrySent =>
    split <;> exact ⟨by simp, by simp⟩
  case resubmission =>
    split
    · exact ⟨rfl, rfl⟩
    · exact ⟨by simp, by simp⟩

/-! ## Ports -/

theorem SamePlaces.portsOk {s t : State} (h : SamePlaces s t) (k : PortsOk s) : PortsOk t := fun q => by
  obtain ⟨hc, ha, hf, hx⟩ := h.place q
  unfold PortOk
  rw [hc, ha, hf, hx]
  exact k q

theorem portsOk_of_pp {s t : State} (h : t.pp = s.pp) (k : PortsOk s) : PortsOk t := (SamePlaces.of_pp h).portsOk k

theorem portsOk_ignoresOutput : IgnoresOutput PortsOk := fun _ _ h => portsOk_of_pp (by simp [h])

theorem modPort_portsOk {s : State} {p : PathId} {f : Port → Port} (h : PortOk (s.port p) → PortOk (f (s.port p)))
    (k : PortsOk s) : PortsOk (s.modPort p f) := fun q => by
  rw [State.port_modPort]
  split
  · exact h (k p)
  · exact k q

theorem portWorks_iff (s : State) (p : PathId) : portWorks s p = true ↔ (s.port p).faultState = .working := by
  simp [portWorks]

/-- A next opportunity keeps a working port's invariant. -/
theorem modPosition_portsOk {s : State} {p : PathId} (h : portWorks s p = true) (x : CyclePos) (k : PortsOk s) :
    PortsOk (s.modPort p fun y => { y with position := x }) :=
  modPort_portsOk (fun hp => ⟨hp.1, fun e => by rw [portWorks_iff] at h; exact absurd (h.symm.trans e) (by decide)⟩) k

theorem doRestart_samePlaces (x : Unit) (s : State) : SamePlaces s (doRestart x s).1 :=
  SamePlaces.trans (.of_pp (by simp [foldl_pp])) (zeroCounters_samePlaces _)

/-- The commands of the ports, and those that zero the counters. -/
theorem exec_portsOk {i : Instr} (hi : standing i = false) {s t : State} (h : exec i s = .next t) (k : PortsOk s) : PortsOk t := by
  cases i <;> cases hi <;> cases h
  case powerOnReset => exact fun p => by simp [State.port, State.reset, PortOk, parityOf]
  case cycleStart p =>
    split
    · next hw =>
      refine portsOk_of_pp (s := s.modPort p startCycle) (by simp) (modPort_portsOk (fun _ => ⟨rfl, fun e => ?_⟩) k)
      rw [portWorks_iff] at hw
      exact absurd (hw.symm.trans e) (by decide)
    · exact k
  case controlOpportunity p =>
    split
    · next hw =>
      exact (launchControl_samePlaces p _).portsOk (modPosition_portsOk (Bool.and_eq_true .. ▸ hw).1 _ k)
    · exact k
  case slotOpportunity p =>
    split
    · next hw =>
      split
      · exact (launchSlot_samePlaces p _ _).portsOk (modPosition_portsOk hw _ k)
      · exact k
      · exact k
    · exact k
  case cellArrival p cell =>
    split
    · split
      · exact (takeSlotCell_samePlaces p _ s).portsOk k
      · exact (countPort_samePlaces s p _).portsOk k
    · exact k
  case controlCellArrival p cell =>
    split
    · split
      · exact (takeControlCell_samePlaces p _ s).portsOk k
      · exact (countPort_samePlaces s p _).portsOk k
    · exact k
  case hopReportFrame p frame =>
    split
    · split
      · exact (countPort_samePlaces s p _).portsOk k
      · exact foldl_keeps (fun x it h => (takeItem_samePlaces p it x).portsOk h) _
          ((countPort_samePlaces s p _).portsOk k)
    · exact k
  case portFault p =>
    split
    · exact portsOk_of_pp (s := s.modPort p faultPort) (by simp) (modPort_portsOk (fun hp => ⟨hp.1, fun _ => rfl⟩) k)
    · exact k
  case portRecovered p =>
    split
    · exact k
    · refine portsOk_of_pp (s := s.modPort p fun x => { x with faultState := .working }) (by simp)
        (modPort_portsOk (fun hp => ⟨hp.1, ?_⟩) k)
      exact fun e => nomatch e
  case countclear =>
    exact operatorRequest_keeps portsOk_ignoresOutput _ _ _ (fun _ _ u hu => (zeroCounters_samePlaces u).portsOk hu) k
  case restart =>
    exact operatorRequest_keeps portsOk_ignoresOutput _ _ _ (fun x _ u hu => (doRestart_samePlaces x u).portsOk hu) k
  case reportTimeout | dwellExpiry | leakPulse => exact portsOk_of_pp (by simp) k
  case hopset =>
    exact operatorRequest_keeps portsOk_ignoresOutput _ _ _ (fun _ _ _ hu => atHop_keeps (fun _ _ _ hv => portsOk_of_pp (by simp) hv) hu) k
  case hopclear | hoptag | hopuntag =>
    exact operatorRequest_keeps portsOk_ignoresOutput _ _ _ (fun _ _ _ hu => atHop_keeps (fun _ _ _ hv => portsOk_of_pp (by simp) hv) hu) k
  case pathon | pathoff | pathrestart =>
    exact operatorRequest_keeps portsOk_ignoresOutput _ _ _ (fun _ _ _ hu => atIndex_keeps (fun _ _ hv => portsOk_of_pp (by simp) hv) hu) k

/-! ## Hops -/

theorem hopsOk_of_hops {s t : State} (h : t.hs.hops = s.hs.hops) (k : HopsOk s) : HopsOk t := fun p i => by
  have : t.hop p i = s.hop p i := by simp only [State.hop, h]
  rw [this]
  exact k p i

theorem hopsOk_ignoresOutput : IgnoresOutput HopsOk := fun _ _ h => hopsOk_of_hops (by simp [h])

theorem modHop_hopsOk {s : State} {p : PathId} {h : HopId} {f : Hop → Hop} (hf : HopOk (s.hop p h) → HopOk (f (s.hop p h)))
    (k : HopsOk s) : HopsOk (s.modHop p h f) := fun q i => by
  rw [State.hop_modHop]
  split
  · exact hf (k p h)
  · exact k q i

/-- A change that leaves the error count, the threshold and the flag. -/
theorem modHop_hopsOk_of_same {s : State} (p : PathId) (h : HopId) {f : Hop → Hop} (hc : ∀ x, (f x).errorCount = x.errorCount)
    (ht : ∀ x, (f x).errorThreshold = x.errorThreshold) (ho : ∀ x, (f x).overFlag = x.overFlag) (k : HopsOk s) :
    HopsOk (s.modHop p h f) :=
  modHop_hopsOk (fun hk => by unfold HopOk; rw [hc, ht, ho]; exact hk) k

/-- A record whose errors have been cleared. -/
theorem hopOk_of_cleared {x y : Hop} (hc : y.errorCount = 0) (ht : y.errorThreshold = x.errorThreshold) (k : HopOk x) :
    HopOk y := by
  obtain ⟨_, hpos, _⟩ := k
  unfold HopOk
  rw [hc, ht]
  exact ⟨by omega, hpos, fun h => by omega⟩

theorem modHops_hop (p q : PathId) (i : HopId) (f : Hop → Hop) (s : State) :
    (modHops p f s).hop q i = if q = p then f (s.hop p i) else s.hop q i := by
  by_cases e : q = p
  · subst e
    simp only [State.hop, modHops, upd_same, mapAll_get, if_true]
  · simp only [State.hop, modHops, upd_other _ _ _ _ e, e, if_false]

theorem modHops_hopsOk {s : State} (p : PathId) {f : Hop → Hop} (hf : ∀ x, HopOk x → HopOk (f x)) (k : HopsOk s) :
    HopsOk (modHops p f s) := fun q i => by
  rw [modHops_hop]
  split
  · exact hf _ (k p i)
  · exact k q i

/-- The same change of every hop record of the part. -/
theorem mapHops_hopsOk {s t : State} {f : Hop → Hop} (h : t.hs.hops = mapAll s.hs.hops fun _ v => mapAll v fun _ x => f x)
    (hf : ∀ x, HopOk x → HopOk (f x)) (k : HopsOk s) : HopsOk t := fun q i => by
  have : t.hop q i = f (s.hop q i) := by simp only [State.hop, h, mapAll_get]
  rw [this]
  exact hf _ (k q i)

theorem leakHop_hopOk {x : Hop} (k : HopOk x) : HopOk (leakHop x) := by
  obtain ⟨hmax, hpos, hflag⟩ := k
  unfold leakHop
  split
  · exact ⟨Nat.le_trans (Nat.sub_le _ _) hmax, hpos, fun h => hflag (Nat.le_trans h (Nat.sub_le _ _))⟩
  · exact ⟨hmax, hpos, hflag⟩

/-! ### The over-threshold flag (R66, R69) -/

theorem setOver_hops (p : PathId) (h : HopId) (b : Option Branch) (s : State) :
    (setOver p h b s).hs.hops = (s.modHop p h fun x => { x with overFlag := true, blamed := b }).hs.hops := by
  simp [setOver]

/-- The flag sets where it is due, with its blamed branch. -/
def flagIfDue (b : Option Branch) (x : Hop) : Hop := if overDue x then { x with overFlag := true, blamed := b } else x

theorem flagIfDue_hopOk {x : Hop} (b : Option Branch) (hmax : x.errorCount ≤ 65535) (hpos : 1 ≤ x.errorThreshold) :
    HopOk (flagIfDue b x) := by
  unfold flagIfDue
  split
  · exact ⟨hmax, hpos, fun _ => rfl⟩
  · next h => exact ⟨hmax, hpos, fun e => by simpa [overDue, e] using h⟩

/-- A change of a hop, after which the flag sets where it is due. -/
theorem setOver_if_hop (p : PathId) (h : HopId) (b : Option Branch) (f : Hop → Hop) (s : State) (q : PathId) (i : HopId) :
    (if overDue ((s.modHop p h f).hop p h) then setOver p h b (s.modHop p h f) else s.modHop p h f).hop q i =
      if q = p ∧ i = h then flagIfDue b (f (s.hop p h)) else s.hop q i := by
  rw [State.hop_modHop_same]
  unfold flagIfDue
  split
  · have : (setOver p h b (s.modHop p h f)).hop q i =
        ((s.modHop p h f).modHop p h fun x => { x with overFlag := true, blamed := b }).hop q i := by
      simp only [State.hop, setOver_hops]
    rw [this, State.hop_modHop, State.hop_modHop, State.hop_modHop]
    split <;> simp
  · rw [State.hop_modHop]

theorem addErrors_hop (p : PathId) (h : HopId) (c : Nat) (b : Branch) (s : State) (q : PathId) (i : HopId) :
    (addErrors p h c b s).hop q i = if q = p ∧ i = h then
      flagIfDue (some b) { s.hop p h with errorCount := min 65535 ((s.hop p h).errorCount + c) } else s.hop q i :=
  setOver_if_hop p h (some b) (fun x => { x with errorCount := min 65535 (x.errorCount + c) }) s q i

theorem addErrors_hopsOk (p : PathId) (h : HopId) (c : Nat) (b : Branch) {s : State} (k : HopsOk s) :
    HopsOk (addErrors p h c b s) := fun q i => by
  rw [addErrors_hop]
  split
  · exact flagIfDue_hopOk _ (Nat.min_le_left _ _) (k p h).2.1
  · exact k q i

/-! ### Reports and the timers of a hop -/

theorem dwellUp_hopsOk (p : PathId) (h : HopId) {s : State} (k : HopsOk s) : HopsOk (dwellUp p h s) :=
  hopsOk_of_hops (s := s.modHop p h fun x => { x with state := oneUp x.state, dwellTimer := none }) (by simp [dwellUp])
    (modHop_hopsOk_of_same p h (fun _ => rfl) (fun _ => rfl) (fun _ => rfl) k)

theorem degrade_hopsOk (p : PathId) (h : HopId) (level : HopState) {s : State} (k : HopsOk s) : HopsOk (degrade p h level s) :=
  hopsOk_of_hops (s := s.modHop p h fun x => { x with state := level, dwellTimer := none }) (by simp [degrade])
    (modHop_hopsOk_of_same p h (fun _ => rfl) (fun _ => rfl) (fun _ => rfl) k)

theorem considerDwell_hopsOk (p : PathId) (h : HopId) (level : HopState) (avg : Int) {s : State} (k : HopsOk s) :
    HopsOk (considerDwell p h level avg s) := by
  unfold considerDwell
  dsimp only
  split
  · split
    · exact k
    · split
      · exact dwellUp_hopsOk p h k
      · exact modHop_hopsOk_of_same p h (fun _ => rfl) (fun _ => rfl) (fun _ => rfl) k
  · exact modHop_hopsOk_of_same p h (fun _ => rfl) (fun _ => rfl) (fun _ => rfl) k

theorem judgeReport_hopsOk (p : PathId) (h : HopId) (level : HopState) (avg : Int) {s : State} (k : HopsOk s) :
    HopsOk (judgeReport p h level avg s) := by
  unfold judgeReport
  dsimp only
  split
  · exact modHop_hopsOk_of_same p h (fun _ => rfl) (fun _ => rfl) (fun _ => rfl) k
  · split
    · exact degrade_hopsOk p h level k
    · exact considerDwell_hopsOk p h level avg k

theorem handIfChanged_hopsOk (before : HopCondition) (p : PathId) {s : State} (k : HopsOk s) : HopsOk (handIfChanged before p s) :=
  hopsOk_of_hops (by simp) k

theorem handleItem_hopsOk (p : PathId) (h : HopId) (it : HopItem) {s : State} (k : HopsOk s) : HopsOk (handleItem p h it s) := by
  have counted : HopsOk (s.countHs p fun c => { c with taken := satInc c.taken }) := hopsOk_of_hops rfl k
  exact handIfChanged_hopsOk _ p (addErrors_hopsOk p h _ _ (judgeReport_hopsOk p h _ _
    (modHop_hopsOk_of_same p h (fun _ => rfl) (fun _ => rfl) (fun _ => rfl) counted)))

theorem takeItem_hopsOk (p : PathId) (it : HopItem) {s : State} (k : HopsOk s) : HopsOk (takeItem p it s) := by
  unfold takeItem
  split
  · exact hopsOk_of_hops rfl k
  · split
    · exact hopsOk_of_hops rfl k
    · split
      · exact handleItem_hopsOk p _ it k
      · exact hopsOk_of_hops rfl k

theorem reportTimedOut_hopsOk (p : PathId) (h : HopId) {s : State} (k : HopsOk s) : HopsOk (reportTimedOut p h s) :=
  hopsOk_of_hops (s := s.modHop p h fun x =>
      { x with state := .lost, ring := [], averaged := none, rateStep := 0, dwellTimer := none, reportTimer := none })
    (by simp [reportTimedOut]) (modHop_hopsOk_of_same p h (fun _ => rfl) (fun _ => rfl) (fun _ => rfl) k)

/-! ### The operator's requests -/

theorem doHopclear_hopsOk (p : PathId) (h : HopId) {s : State} (k : HopsOk s) : HopsOk (doHopclear p h s).1 :=
  hopsOk_of_hops (s := s.modHop p h fun x => { x with errorCount := 0, secondary := 0, overFlag := false, blamed := none })
    (by simp [doHopclear]) (modHop_hopsOk (hopOk_of_cleared rfl rfl) k)

theorem parseHopset_threshold {b : List Byte} {r : HopsetReq} (h : parseHopset b = some r) : 1 ≤ r.errorThreshold := by
  unfold parseHopset sized at h
  split at h
  · cases h
    exact Nat.le_max_left _ _
  · cases h

theorem doHopset_hopsOk {r : HopsetReq} (hr : 1 ≤ r.errorThreshold) (p : PathId) (h : HopId) {s : State} (k : HopsOk s) :
    HopsOk (doHopset r p h s).1 := by
  have due : (storeLeakPeriod r (s.modHop p h (storeHopset r))).hop p h = (s.modHop p h (storeHopset r)).hop p h := by
    simp [State.hop]
  have hops : (doHopset r p h s).1.hs.hops = (if overDue ((s.modHop p h (storeHopset r)).hop p h) then
      setOver p h none (s.modHop p h (storeHopset r)) else s.modHop p h (storeHopset r)).hs.hops := by
    unfold doHopset
    dsimp only
    rw [due]
    split <;> simp [setOver_hops, State.modHop]
  intro q i
  have row : (doHopset r p h s).1.hop q i = if q = p ∧ i = h then flagIfDue none (storeHopset r (s.hop p h)) else s.hop q i := by
    rw [← setOver_if_hop p h none (storeHopset r) s q i]
    simp only [State.hop, hops]
  rw [row]
  split
  · exact flagIfDue_hopOk _ (k p h).1 hr
  · exact k q i

theorem setTag_hopsOk (tagged : Bool) (p : PathId) (h : HopId) {s : State} (k : HopsOk s) : HopsOk (setTag tagged p h s).1 :=
  hopsOk_of_hops (s := s.modHop p h fun x => { x with tagged := tagged }) (by simp [setTag])
    (modHop_hopsOk_of_same p h (fun _ => rfl) (fun _ => rfl) (fun _ => rfl) k)

theorem doPathon_hopsOk (p : PathId) {s : State} (k : HopsOk s) : HopsOk (doPathon p s).1 := by
  unfold doPathon
  split
  · exact k
  · exact hopsOk_of_hops (s := modHops p resetHop s) (by simp [modHops])
      (modHops_hopsOk p (fun _ => hopOk_of_cleared rfl rfl) k)

theorem doPathoff_hopsOk (p : PathId) {s : State} (k : HopsOk s) : HopsOk (doPathoff p s).1 := by
  unfold doPathoff
  split
  · exact hopsOk_of_hops (s := modHops p stopHop s) (by simp [modHops]) (modHops_hopsOk p (fun _ h => h) k)
  · exact k

theorem doPathrestart_hopsOk (p : PathId) {s : State} (k : HopsOk s) : HopsOk (doPathrestart p s).1 := by
  unfold doPathrestart
  split
  · exact hopsOk_of_hops (s := modHops p restartHop s) (by simp [modHops]) (modHops_hopsOk p (fun _ h => h) k)
  · exact k

theorem restartPath_hopsOk (p : PathId) {s : State} (k : HopsOk s) : HopsOk (restartPath p s) :=
  hopsOk_of_hops (s := modHops p restartHop s) (by simp [restartPath]) (modHops_hopsOk p (fun _ h => h) k)

theorem doRestart_hopsOk (x : Unit) {s : State} (k : HopsOk s) : HopsOk (doRestart x s).1 := by
  unfold doRestart
  refine hopsOk_of_hops (s := List.foldl _ _ _) (by simp; rfl) (foldl_keeps (fun u p hu => restartPath_hopsOk p hu) allPaths ?_)
  exact hopsOk_of_hops (by simp) k

theorem exec_hopsOk {i : Instr} (hi : standing i = false) {s t : State} (h : exec i s = .next t) (k : HopsOk s) : HopsOk t := by
  cases i <;> cases hi <;> cases h
  case powerOnReset => exact fun p i => by simp [State.hop, State.reset, HopOk]
  case cycleStart | controlOpportunity | portFault | portRecovered => exact hopsOk_of_hops (by simp) k
  case slotOpportunity =>
    split
    · split <;> exact hopsOk_of_hops (by simp) k
    · exact k
  case cellArrival | controlCellArrival => exact hopsOk_of_hops (by simp) k
  case hopReportFrame p frame =>
    split
    · split
      · exact hopsOk_of_hops (by simp) k
      · exact foldl_keeps (fun x it h => takeItem_hopsOk p it h) _ (hopsOk_of_hops (by simp) k)
    · exact k
  case countclear => exact operatorRequest_keeps hopsOk_ignoresOutput _ _ _ (fun _ _ u hu => hopsOk_of_hops (by simp) hu) k
  case restart => exact operatorRequest_keeps hopsOk_ignoresOutput _ _ _ (fun x _ u hu => doRestart_hopsOk x hu) k
  case reportTimeout p h =>
    split
    · exact handIfChanged_hopsOk _ p (reportTimedOut_hopsOk p h k)
    · exact k
  case dwellExpiry p h =>
    split
    · exact handIfChanged_hopsOk _ p (dwellUp_hopsOk p h k)
    · exact k
  case leakPulse => exact mapHops_hopsOk rfl (fun _ => leakHop_hopOk) k
  case hopset =>
    exact operatorRequest_keeps hopsOk_ignoresOutput _ _ _
      (fun r hr _ hu => atHop_keeps (fun p h _ hv => doHopset_hopsOk (parseHopset_threshold hr) p h hv) hu) k
  case hopclear =>
    exact operatorRequest_keeps hopsOk_ignoresOutput _ _ _
      (fun _ _ _ hu => atHop_keeps (fun p h _ hv => doHopclear_hopsOk p h hv) hu) k
  case hoptag | hopuntag =>
    exact operatorRequest_keeps hopsOk_ignoresOutput _ _ _ (fun _ _ _ hu => atHop_keeps (fun p h _ hv => setTag_hopsOk _ p h hv) hu) k
  case pathon =>
    exact operatorRequest_keeps hopsOk_ignoresOutput _ _ _ (fun _ _ _ hu => atIndex_keeps (fun p _ hv => doPathon_hopsOk p hv) hu) k
  case pathoff =>
    exact operatorRequest_keeps hopsOk_ignoresOutput _ _ _ (fun _ _ _ hu => atIndex_keeps (fun p _ hv => doPathoff_hopsOk p hv) hu) k
  case pathrestart =>
    exact operatorRequest_keeps hopsOk_ignoresOutput _ _ _
      (fun _ _ _ hu => atIndex_keeps (fun p _ hv => doPathrestart_hopsOk p hv) hu) k

/-! ## Every step -/

theorem exec_keeps {i : Instr} {s t : State} (h : exec i s = .next t) : (PortsOk s → PortsOk t) ∧ (HopsOk s → HopsOk t) := by
  cases hi : standing i
  · exact ⟨exec_portsOk hi h, exec_hopsOk hi h⟩
  · obtain ⟨hpp, hhops⟩ := exec_stands hi h
    exact ⟨portsOk_of_pp hpp, hopsOk_of_hops hhops⟩

theorem idleStep_keeps (s : State) : (PortsOk s → PortsOk (idleStep s)) ∧ (HopsOk s → HopsOk (idleStep s)) := by
  unfold idleStep
  split
  · exact ⟨id, id⟩
  · exact ⟨portsOk_of_pp (by simp), hopsOk_of_hops (by simp)⟩
  · exact ⟨portsOk_of_pp rfl, mapHops_hopsOk (f := tickHop) rfl fun _ h => h⟩

/-- Settles O1. -/
theorem stepRunsFrontCommand : Obligations.StepRunsFrontCommand := by
  unfold Obligations.StepRunsFrontCommand
  intro s c rest h
  simp only [step, h]

/-- Settles O6: a step is the command at the front of the queue or, on an empty queue, the part's own step, and each keeps both
invariants. -/
theorem stepKeepsPortsAndHopErrorCounts : Obligations.StepKeepsPortsAndHopErrorCounts := by
  unfold Obligations.StepKeepsPortsAndHopErrorCounts
  intro s t h
  unfold step at h
  split at h
  · have kept := exec_keeps h
    exact kept
  · cases h
    exact idleStep_keeps s

end Sys2Proof.Proofs
end

