-- ==== Sys2Proof/Proofs/CountClear.lean ====
section
/-!
COUNTCLEAR (R167): what zeroing the counters leaves of every row.
-/

namespace Sys2Proof.Proofs

open Sys2Proof.Machine Sys2Proof.Claims

section rows
variable (s : State)

theorem zeroCounters_puPath (p : PathId) : (zeroCounters s).puPath p = { s.puPath p with counters := {} } := by
  simp only [State.puPath, zeroCounters, mapAll_get]
theorem zeroCounters_plan (p : PathId) : (zeroCounters s).plan p = { s.plan p with counters := {} } := by
  simp only [State.plan, zeroCounters, mapAll_get]
theorem zeroCounters_stream (st : StreamId) : (zeroCounters s).stream st = { s.stream st with counters := {} } := by
  simp only [State.stream, zeroCounters, mapAll_get]
theorem zeroCounters_lane (l : LaneId) : (zeroCounters s).lane l = { s.lane l with counters := {} } := by
  simp only [State.lane, zeroCounters, mapAll_get]

theorem zeroCounters_rsCounters (p : PathId) : (zeroCounters s).rs.counters[p] = {} := replicate_get _ p
theorem zeroCounters_hsCounters (p : PathId) : (zeroCounters s).hs.counters[p] = {} := replicate_get _ p
theorem zeroCounters_aborts (p : PathId) : (zeroCounters s).sq.aborts[p] = {} := replicate_get _ p
theorem zeroCounters_peCounters (u : TenantId) : (zeroCounters s).pe.counters[u] = {} := replicate_get _ u
theorem zeroCounters_pathCounters (p : PathId) : (zeroCounters s).rd.pathCounters[p] = {} := replicate_get _ p
theorem zeroCounters_streamCounters (i : Fin 24) : (zeroCounters s).rd.streamCounters[i] = {} := replicate_get _ i

end rows

/-- A lane's counters are all that taking a request changes of it. -/
theorem countRequest_lane (l k : LaneId) (s : State) :
    { (countRequest l s).lane k with counters := {} } = { s.lane k with counters := {} } := by
  unfold countRequest
  simp only [State.countLane_lane]

/-- COUNTCLEAR on the management lane passes every test of a request. -/
theorem exec_countclear (s : State) (tag : Tag) : exec (.countclear mgmtLane tag []) s =
    .next (answer mgmtLane tag 0x21 .accepted (zeroCounters (countRequest mgmtLane s))) := rfl

/-- Settles O48: the counters are zeroed row by row, and the request was counted before. -/
theorem countclearZeroesTheCounters : Obligations.CountclearZeroesTheCounters := by
  unfold Obligations.CountclearZeroesTheCounters
  intro s tag
  refine ⟨zeroCounters (countRequest mgmtLane s), exec_countclear s tag, rfl, fun p => ?_, rfl, fun p => ?_, rfl,
    rfl, zeroCounters_hsCounters _, rfl, zeroCounters_rsCounters _, fun p => ?_, rfl, fun st => ?_,
    zeroCounters_aborts _, by simp, rfl, zeroCounters_peCounters _, rfl, zeroCounters_pathCounters _, zeroCounters_streamCounters _,
    fun l => (zeroCounters_lane _ l).trans (countRequest_lane mgmtLane l s), rfl⟩
  · rw [zeroCounters_port, State.port_of (s := s) (by simp)]
  · rw [zeroCounters_puPath, State.puPath_of (s := s) (by simp)]
  · rw [zeroCounters_plan, State.plan_of (s := s) (by simp)]
  · rw [zeroCounters_stream, State.stream_of (s := s) (by simp)]

end Sys2Proof.Proofs
end

