-- ==== Sys2Proof/Proofs/Blocks.lean ====
section
/-!
When two states are equal, what the saturating counters add up to, and rows of a vector that a write leaves.
-/

namespace Sys2Proof.Proofs

open Sys2Proof.Machine

/-- States that agree on every table and register of every block are equal: with it a frame becomes an equation of states. -/
theorem state_ext {s t : State} (h : s.pending = t.pending ∧ s.pp = t.pp ∧ s.tb = t.tb ∧
    (s.pu.paths = t.pu.paths ∧ s.pu.startMark = t.pu.startMark ∧ s.pu.peerMark = t.pu.peerMark ∧
      s.pu.peerRestarts = t.pu.peerRestarts) ∧
    (s.hs.hops = t.hs.hops ∧ s.hs.leakPeriodMs = t.hs.leakPeriodMs ∧ s.hs.leakTimer = t.hs.leakTimer ∧
      s.hs.counters = t.hs.counters) ∧
    (s.rs.paths = t.rs.paths ∧ s.rs.counters = t.rs.counters ∧ s.rs.unroutedHeads = t.rs.unroutedHeads) ∧
    (s.cs.plans = t.cs.plans ∧ s.cs.windowPeriodUs = t.cs.windowPeriodUs ∧ s.cs.windowTimer = t.cs.windowTimer ∧
      s.cs.windows = t.cs.windows) ∧
    (s.sq.streams = t.sq.streams ∧ s.sq.store = t.sq.store ∧ s.sq.aborts = t.sq.aborts) ∧
    (s.pe.program = t.pe.program ∧ s.pe.programFaults = t.pe.programFaults ∧ s.pe.template = t.pe.template ∧
      s.pe.templateFaults = t.pe.templateFaults ∧ s.pe.channels = t.pe.channels ∧ s.pe.counters = t.pe.counters ∧
      s.pe.storeFaults = t.pe.storeFaults) ∧
    (s.rd.contexts = t.rd.contexts ∧ s.rd.records = t.rd.records ∧ s.rd.pathCounters = t.rd.pathCounters ∧
      s.rd.streamCounters = t.rd.streamCounters) ∧
    s.li.tenants = t.li.tenants ∧ s.li.lanes = t.li.lanes ∧ s.li.lossFlags = t.li.lossFlags) : s = t := by
  rcases s with ⟨_, _, _, ⟨_, _, _, _⟩, ⟨_, _, _, _⟩, ⟨_, _, _⟩, ⟨_, _, _, _⟩, ⟨_, _, _⟩, ⟨_, _, _, _, _, _, _⟩, ⟨_, _, _, _⟩,
    ⟨_, _, _⟩⟩
  rcases t with ⟨_, _, _, ⟨_, _, _, _⟩, ⟨_, _, _, _⟩, ⟨_, _, _⟩, ⟨_, _, _, _⟩, ⟨_, _, _⟩, ⟨_, _, _, _, _, _, _⟩, ⟨_, _, _, _⟩,
    ⟨_, _, _⟩⟩
  obtain ⟨rfl, rfl, rfl, ⟨rfl, rfl, rfl, rfl⟩, ⟨rfl, rfl, rfl, rfl⟩, ⟨rfl, rfl, rfl⟩, ⟨rfl, rfl, rfl, rfl⟩, ⟨rfl, rfl, rfl⟩,
    ⟨rfl, rfl, rfl, rfl, rfl, rfl, rfl⟩, ⟨rfl, rfl, rfl, rfl⟩, rfl, rfl, rfl⟩ := h
  rfl

/-! ## Saturating counters (00_scope.md, Counters) -/

theorem satInc_toNat (c : Counter) : (satInc c).toNat = min (c.toNat + 1) (2 ^ 32 - 1) := by
  have hc := c.isLt
  unfold satInc
  split
  · next h => subst h; decide
  · next h =>
    have : c.toNat ≠ 2 ^ 32 - 1 := fun e => h (BitVec.eq_of_toNat_eq (by simpa using e))
    rw [BitVec.toNat_add, show (1 : Counter).toNat = 1 from rfl, Nat.mod_eq_of_lt (by omega)]
    omega

theorem satAdd_toNat (c : Counter) (n : Nat) : (satAdd c n).toNat = min (c.toNat + n) (2 ^ 32 - 1) := by
  rw [satAdd, BitVec.toNat_ofNat]
  exact Nat.mod_eq_of_lt (by omega)

@[simp] theorem satAdd_zero (c : Counter) : satAdd c 0 = c := by
  have hc := c.isLt
  refine BitVec.eq_of_toNat_eq ?_
  rw [satAdd_toNat]
  omega

@[simp] theorem satAdd_one (c : Counter) : satAdd c 1 = satInc c :=
  BitVec.eq_of_toNat_eq (by rw [satAdd_toNat, satInc_toNat])

theorem satAdd_satInc (c : Counter) (n : Nat) : satAdd (satInc c) n = satAdd c (n + 1) := by
  refine BitVec.eq_of_toNat_eq ?_
  rw [satAdd_toNat, satAdd_toNat, satInc_toNat]
  omega

/-! ## Vectors -/

/-- Writing what a row holds already changes nothing. -/
theorem vector_set_same {α : Type} {n : Nat} {v : Vector α n} {i : Fin n} {x : α} (h : v[i] = x) : v.set i x = v := by
  subst h
  simp

end Sys2Proof.Proofs
end
-- ==== Sys2Proof/Proofs/PortFaults.lean ====
section
/-!
Fault and recovery of a port (R15, R16): which events a port in FAULT ignores, and what PU and SQ do after RS.
-/

namespace Sys2Proof.Proofs

open Sys2Proof.Machine Sys2Proof.Claims

/-! ## Withdrawing the owed ABORTs of a path (R119) -/

/-- SQ withdraws the ABORT that one stream owes on a path. -/
def withdrawOne (p : PathId) (st : StreamId) (s : State) : State :=
  if (s.stream st).owed[p].isSome then
    (s.modStream st fun y => { y with owed := y.owed.set p none }).countAborts p fun c => { c with withdrawn := satInc c.withdrawn }
  else s

theorem withdrawAborts_eq (p : PathId) (s : State) :
    withdrawAborts p s = allStreams.foldl (fun x st => withdrawOne p st x) s := rfl

theorem withdrawOne_stream (p : PathId) (st x : StreamId) (s : State) : (withdrawOne p st s).stream x =
    if x = st then { s.stream st with owed := (s.stream st).owed.set p none } else s.stream x := by
  unfold withdrawOne
  split
  · exact State.stream_modStream s st x _
  · next h =>
    split
    · next e =>
      subst e
      rw [vector_set_same (by simpa using h)]
    · rfl

/-- How many of some streams owe an ABORT on a path. -/
def owing (p : PathId) (s : State) (l : List StreamId) : Nat := l.countP fun st => (s.stream st).owed[p].isSome

theorem withdrawOne_aborts (p q : PathId) (st : StreamId) (s : State) : (withdrawOne p st s).sq.aborts[q] =
    if q = p then { s.sq.aborts[q] with withdrawn := satAdd s.sq.aborts[q].withdrawn (owing p s [st]) } else s.sq.aborts[q] := by
  unfold withdrawOne owing
  split
  · next h =>
    rw [State.countAborts, upd_get]
    split
    · next e => subst e; simp only [List.countP_cons, List.countP_nil, h, if_true, Nat.zero_add, satAdd_one]; rfl
    · rfl
  · next h => simp only [List.countP_cons, List.countP_nil, h, Bool.false_eq_true, if_false, Nat.zero_add, satAdd_zero, ite_self]

theorem withdraw_stream (p : PathId) (x : StreamId) (l : List StreamId) (s : State) :
    (l.foldl (fun y st => withdrawOne p st y) s).stream x =
      if x ∈ l then { s.stream x with owed := (s.stream x).owed.set p none } else s.stream x := by
  induction l generalizing s with
  | nil => simp
  | cons a r ih =>
    rw [List.foldl_cons, ih, withdrawOne_stream]
    by_cases e : x = a
    · subst e; simp
    · simp [e]

theorem withdraw_aborts (p q : PathId) {l : List StreamId} (hl : l.Nodup) (s : State) :
    (l.foldl (fun y st => withdrawOne p st y) s).sq.aborts[q] = if q = p then
      { s.sq.aborts[q] with withdrawn := satAdd s.sq.aborts[q].withdrawn (owing p s l) } else s.sq.aborts[q] := by
  induction l generalizing s with
  | nil => simp [owing]
  | cons a r ih =>
    obtain ⟨hfresh, hr⟩ := List.nodup_cons.mp hl
    have later : owing p (withdrawOne p a s) r = owing p s r := List.countP_congr fun x hx => by
      rw [withdrawOne_stream, if_neg fun e : x = a => hfresh (e ▸ hx)]
    rw [List.foldl_cons, ih hr, later, withdrawOne_aborts]
    split
    · simp only [owing, List.countP_cons, List.countP_nil]
      split <;> simp [satAdd_satInc]
    · rfl

theorem allStreams_nodup : allStreams.Nodup := by
  refine List.nodup_flatMap.mpr ⟨fun u _ => by simp [streamsOf, allClasses], ?_⟩
  refine List.Nodup.pairwise_of_forall_ne (l := allTenants) (by decide) fun u _ v _ h st hu hv => h ?_
  rw [mem_streamsOf] at hu hv
  exact hu.symm.trans hv

theorem withdrawAborts_stream (p : PathId) (st : StreamId) (s : State) :
    (withdrawAborts p s).stream st = { s.stream st with owed := (s.stream st).owed.set p none } := by
  rw [withdrawAborts_eq, withdraw_stream, if_pos (mem_allStreams st)]

theorem withdrawAborts_aborts (p q : PathId) (s : State) : (withdrawAborts p s).sq.aborts[q] = if q = p then
    { s.sq.aborts[q] with withdrawn := satAdd s.sq.aborts[q].withdrawn (owing p s allStreams) } else s.sq.aborts[q] := by
  rw [withdrawAborts_eq]
  exact withdraw_aborts p q allStreams_nodup s

/-! ## What RS leaves for PU -/

/-- RS's answer to a recovered port never takes a path out of OFF or into it, and leaves its settings. -/
theorem rsPortRecovered_path (p : PathId) (s : State) :
    ((rsPortRecovered p s).path p).settings = (s.path p).settings ∧
      (((rsPortRecovered p s).path p).state = .off ↔ (s.path p).state = .off) := by
  unfold rsPortRecovered leaveDown
  dsimp only
  split
  · next h =>
    rw [State.path_modPath_same] at h
    have hp : ((rechooseAll (notifyPath p .down .proving .portRecovered
        (setPathState p .proving (s.modPath p fun r => { r with port := .working })))).path p) =
        { s.path p with port := .working, state := .proving } := by
      rw [State.path_of (s := setPathState p .proving (s.modPath p fun r => { r with port := .working })) (by simp)]
      simp [setPathState]
    rw [hp]
    have hd : (s.path p).state = .down := h.1
    simp [hd]
  · simp

theorem makeDue_puPath {p : PathId} {s : State} (h : (s.port p).faultState = .working) :
    (makeDue p s).puPath p = { s.puPath p with due := true, timer := some (probeInterval s p) } := by
  simp [makeDue, h]

theorem makeDue_probesBut (p : PathId) (s : State) : probesBut p s (makeDue p s) := by
  refine ⟨fun q hq => ?_, ?_⟩
  · unfold makeDue
    split
    · rw [State.puPath_modPu, if_neg hq]
    · rfl
  · unfold makeDue
    split <;> rfl

theorem modPu_probesBut (p : PathId) (f : PuPath → PuPath) (s : State) : probesBut p s (s.modPu p f) :=
  ⟨fun q hq => by rw [State.puPath_modPu, if_neg hq], rfl⟩

theorem modPort_portsBut (p : PathId) (f : Port → Port) (s : State) : portsBut p s (s.modPort p f) := fun q hq => by
  rw [State.port_modPort, if_neg hq]

/-! ## The events -/

section events
variable {s : State} {p : PathId}

theorem portWorks_of_working (h : (s.port p).faultState = .working) : portWorks s p = true := by simp [portWorks, h]

theorem portWorks_of_fault (h : (s.port p).faultState = .fault) : portWorks s p = false := by simp [portWorks, h]

/-- A port in FAULT ignores the start of a cycle, every opportunity, every arrival and a second fault. -/
theorem exec_port_in_fault (h : (s.port p).faultState = .fault) :
    exec (.portFault p) s = .next s ∧ exec (.cycleStart p) s = .next s ∧ exec (.controlOpportunity p) s = .next s ∧
      exec (.slotOpportunity p) s = .next s ∧ ∀ b, exec (.cellArrival p b) s = .next s ∧
        exec (.controlCellArrival p b) s = .next s ∧ exec (.hopReportFrame p b) s = .next s := by
  simp [exec, execPortFault, execCycleStart, execControlOpportunity, execSlotOpportunity, execCellArrival, execControlCellArrival,
    execHopReportFrame, portWorks_of_fault h]

theorem exec_portFault (h : (s.port p).faultState = .working) :
    exec (.portFault p) s = .next (withdrawAborts p (puPortFault p (rsPortFault p (s.modPort p faultPort)))) := by
  simp [exec, execPortFault, portWorks_of_working h]

theorem exec_portRecovered_working (h : (s.port p).faultState = .working) : exec (.portRecovered p) s = .next s := by
  simp [exec, execPortRecovered, portWorks_of_working h]

theorem exec_portRecovered (h : (s.port p).faultState = .fault) : exec (.portRecovered p) s =
    .next (puPortRecovered p (rsPortRecovered p (s.modPort p fun x => { x with faultState := .working }))) := by
  simp [exec, execPortRecovered, portWorks_of_fault h]

end events

/-- Settles O53: a port in FAULT takes nothing but its recovery, a working port nothing but its fault; then RS, PU and SQ in turn. -/
theorem portsFaultAndRecover : Obligations.PortsFaultAndRecover := by
  unfold Obligations.PortsFaultAndRecover
  intro s p x
  refine ⟨exec_port_in_fault, exec_portRecovered_working, fun h => ?_, fun h => ?_⟩
  · refine ⟨s.modPort p faultPort, _, exec_portFault h, modPort_portsBut p faultPort s, rfl, State.port_modPort_same s p faultPort, ?_⟩
    intro v
    have hpu : (withdrawAborts p (puPortFault p v)).pu = (puPortFault p v).pu := by simp
    obtain ⟨hbut, hshape⟩ := modPu_probesBut p (fun x => { x with due := false, timer := none, echoes := [] }) v
    refine ⟨⟨fun q hq => ?_, ?_⟩, ?_, fun st => ?_, fun q => ?_, state_ext (by simp [v])⟩
    · rw [State.puPath_of hpu]; exact hbut q hq
    · rw [hpu]; exact hshape
    · rw [State.puPath_of hpu]; exact State.puPath_modPu_same ..
    · rw [withdrawAborts_stream]; rfl
    · rw [withdrawAborts_aborts]; rfl
  · refine ⟨s.modPort p fun x => { x with faultState := .working }, _, exec_portRecovered h, modPort_portsBut p _ s, rfl,
      State.port_modPort_same .., ?_⟩
    intro v
    obtain ⟨hset, hoff⟩ := rsPortRecovered_path p (s.modPort p fun x => { x with faultState := .working })
    have hworks : (v.port p).faultState = .working := by
      rw [State.port_of (s := s.modPort p fun x => { x with faultState := .working }) (by simp [v])]
      simp
    refine ⟨fun off => if_pos (hoff.mpr off), fun on => ?_⟩
    have hdue : puPortRecovered p v = makeDue p v := if_neg fun e => on (hoff.mp e)
    change probesBut p v (puPortRecovered p v) ∧ _
    rw [hdue]
    refine ⟨makeDue_probesBut p v, state_ext (by simp), ?_⟩
    rw [makeDue_puPath hworks, probeInterval, hset]
    rfl

end Sys2Proof.Proofs
end

