-- ==== Sys2Proof/Proofs/CycleStart.lean ====
section
/-!
The start of a cycle (R2, R3) and the test of a pending plan swap (R97).
-/

namespace Sys2Proof.Proofs

open Sys2Proof.Machine Sys2Proof.Claims

theorem parityOf_eq (c : CycleNo) : parityOf c = if c.toNat % 2 = 0 then .even else .odd := by
  have : c.getLsbD 0 = decide (c.toNat % 2 = 1) := by simp [BitVec.getLsbD, Nat.testBit_zero]
  rw [parityOf, this]
  rcases Nat.mod_two_eq_zero_or_one c.toNat with h | h <;> simp [h]

theorem startCycle_eq (x : Port) : startCycle x = { x with
    cycle := x.cycle + 1, parity := (if (x.cycle + 1).toNat % 2 = 0 then .even else .odd), position := .control,
    counters := { x.counters with cyclesStarted := satInc x.counters.cyclesStarted } } := by
  rw [startCycle, parityOf_eq]

/-- The swap takes effect at its target cycle and from half the number circle behind it on (R97). -/
theorem swapDue_iff (target c : CycleNo) : swapDue target c = true ↔ (target - c).toNat = 0 ∨ 2 ^ 15 ≤ (target - c).toNat := by
  have : target = c ↔ (target - c).toNat = 0 := by bv_omega
  simp [swapDue, this]

/-- The plan after its pending swap: the other bank is active and the swap is counted. -/
def swapped (pl : Plan) : Plan :=
  { pl with active := otherBank pl.active, pendingSwap := none,
            counters := { pl.counters with planSwaps := satInc pl.counters.planSwaps } }

theorem swapped_eq (pl : Plan) : swapped pl = { pl with
    active := (if pl.active = .a then .b else .a), pendingSwap := none,
    counters := { pl.counters with planSwaps := satInc pl.counters.planSwaps } } := by
  unfold swapped
  cases pl.active <;> rfl

section
variable {s : State} {p : PathId} {c : CycleNo}

theorem testSwap_none (h : (s.plan p).pendingSwap = none) : testSwap p c s = s := by simp [testSwap, h]

theorem testSwap_waits {target : CycleNo} (h : (s.plan p).pendingSwap = some target) (hw : swapDue target c = false) :
    testSwap p c s = s := by simp [testSwap, h, hw]

theorem upd_upd {α : Type} {n : Nat} (v : Vector α n) (i : Fin n) (f g : α → α) :
    upd (upd v i f) i g = upd v i fun x => g (f x) := by
  simp [upd]

theorem testSwap_due {target : CycleNo} (h : (s.plan p).pendingSwap = some target) (hd : swapDue target c = true) :
    testSwap p c s = rechooseAll (notifyOperator (.planSwap p ((s.modPlan p swapped).plan p).active c) (s.modPlan p swapped)) := by
  simp only [testSwap, h, hd, if_true, State.countCs, State.modPlan, upd_upd]
  rfl

end

theorem modPlan_plansBut (p : PathId) (f : Plan → Plan) (s : State) : plansBut p s (s.modPlan p f) :=
  ⟨fun q hq => by rw [State.plan_modPlan, if_neg hq], rfl⟩

theorem exec_cycleStart {s : State} {p : PathId} (h : (s.port p).faultState = .working) :
    exec (.cycleStart p) s = .next (testSwap p ((s.port p).cycle + 1) (s.modPort p startCycle)) := by
  simp [exec, execCycleStart, portWorks_of_working h, startCycle]

/-- Settles O23: the port starts its cycle, then the swap is tested against the new cycle number. -/
theorem cycleStartAdvancesTheCycleAndTestsTheSwap : Obligations.CycleStartAdvancesTheCycleAndTestsTheSwap := by
  unfold Obligations.CycleStartAdvancesTheCycleAndTestsTheSwap
  intro s p h c k pl
  refine ⟨s.modPort p startCycle, modPort_portsBut p startCycle s, rfl, ?_, fun hn => ?_, fun target ht => ⟨fun hw => ?_, fun hd => ?_⟩⟩
  · rw [State.port_modPort_same, startCycle_eq]
  · rw [exec_cycleStart h, testSwap_none (s := s.modPort p startCycle) hn]
  · have hnot : swapDue target c = false := by
      rw [Bool.eq_false_iff, ne_eq, swapDue_iff]
      omega
    rw [exec_cycleStart h, testSwap_waits (s := s.modPort p startCycle) ht hnot]
  · refine ⟨(s.modPort p startCycle).modPlan p swapped, modPlan_plansBut p swapped _, rfl, ?_, ?_⟩
    · rw [State.plan_modPlan_same, swapped_eq]
      rfl
    · rw [exec_cycleStart h, testSwap_due (s := s.modPort p startCycle) ht ((swapDue_iff target c).mpr hd)]

end Sys2Proof.Proofs
end

