-- ==== Sys2Proof/Proofs/ControlCells.lean ====
section
/-!
The control opportunity (R7 to R9, R40): an ECHO, else a due PROBE, else EMPTY.
-/

namespace Sys2Proof.Proofs

open Sys2Proof.Machine Sys2Proof.Claims

/-! ## Two changes of one row -/

theorem modPort_modPort (s : State) (p : PathId) (f g : Port → Port) :
    (s.modPort p f).modPort p g = s.modPort p fun x => g (f x) := by
  simp only [State.modPort, upd_upd]

theorem modPu_modPu (s : State) (p : PathId) (f g : PuPath → PuPath) :
    (s.modPu p f).modPu p g = s.modPu p fun x => g (f x) := by
  simp only [State.modPu, upd_upd]

/-- A port puts a cell on its line and counts it. -/
theorem putCell_countPort (p : PathId) (cell : List Byte) (f : PortCounters → PortCounters) (s : State) :
    (putCell p cell s).countPort p f = s.modPort p fun x => { x with txCell := cell, counters := f x.counters } :=
  modPort_modPort s p _ _

/-! ## The three control cells -/

section
variable {s : State} {p : PathId}

theorem echoCell_of_mark {mark : Mark} (h : s.pu.startMark = some mark) (e : EchoEntry) : echoCell e s =
    .echo e.number (decide (e.farEpoch = s.tb.epoch)) e.t1 e.t2 (BitVec.ofNat 48 s.tb.count.toNat) mark := by
  simp [echoCell, markSent, h, capture, beq_eq_decide]

theorem probeCell_of_mark {mark : Mark} (h : s.pu.startMark = some mark) :
    probeCell p s = .probe (s.puPath p).number (BitVec.ofNat 48 s.tb.count.toNat) mark := by
  simp [probeCell, markSent, h, capture]

/-- The port at its control opportunity after a cell has left. -/
def afterControl (cell : ControlCell) (f : PortCounters → PortCounters) (x : Port) : Port :=
  { x with position := .slot 0, txCell := encodeControlCell cell, counters := f x.counters }

theorem exec_controlOpportunity (h : (s.port p).faultState = .working) (hc : (s.port p).position = .control) :
    exec (.controlOpportunity p) s = .next (launchControl p (s.modPort p fun x => { x with position := .slot 0 })) := by
  simp [exec, execControlOpportunity, portWorks_of_working h, hc]

theorem launchControl_echo {e : EchoEntry} {rest : List EchoEntry} (he : (s.puPath p).echoes = e :: rest) :
    launchControl p (s.modPort p fun x => { x with position := .slot 0 }) =
      launchEcho p (s.modPort p (afterControl (echoCell e s) fun c => { c with echoLaunched := satInc c.echoLaunched })) := by
  have he' : ((s.modPort p fun x => { x with position := .slot 0 }).puPath p).echoes = e :: rest := he
  simp only [launchControl, he', putCell_countPort, modPort_modPort]
  rfl

theorem launchControl_probe (he : (s.puPath p).echoes = []) (hd : (s.puPath p).due = true) :
    launchControl p (s.modPort p fun x => { x with position := .slot 0 }) =
      launchProbe p (s.modPort p (afterControl (probeCell p s) fun c => { c with probeLaunched := satInc c.probeLaunched })) := by
  have he' : ((s.modPort p fun x => { x with position := .slot 0 }).puPath p).echoes = [] := he
  have hd' : ((s.modPort p fun x => { x with position := .slot 0 }).puPath p).due = true := hd
  simp only [launchControl, he', hd', if_true, putCell_countPort, modPort_modPort]
  rfl

theorem launchControl_empty (he : (s.puPath p).echoes = []) (hd : (s.puPath p).due = false) :
    launchControl p (s.modPort p fun x => { x with position := .slot 0 }) =
      s.modPort p (afterControl .empty fun c => { c with emptyLaunched := satInc c.emptyLaunched }) := by
  have he' : ((s.modPort p fun x => { x with position := .slot 0 }).puPath p).echoes = [] := he
  have hd' : ((s.modPort p fun x => { x with position := .slot 0 }).puPath p).due = false := hd
  simp only [launchControl, he', hd', Bool.false_eq_true, if_false, putCell_countPort, modPort_modPort]
  rfl

end

/-! ## The record of a PROBE (R40, R41) -/

/-- A loss changes nothing of PU but the path's count. -/
theorem probeLost_pu (p : PathId) (s : State) :
    (probeLost p s).pu = (s.countPu p fun c => { c with losses := satInc c.losses }).pu := by
  unfold probeLost
  dsimp only
  split <;> simp

/-- The probe state once there is room for one more record. -/
def madeRoom (y : PuPath) : PuPath :=
  if y.records.length < 8 then y
  else { y with records := y.records.tail, counters := { y.counters with losses := satInc y.counters.losses } }

theorem makeRoomForRecord_pu (p : PathId) (s : State) : (makeRoomForRecord p s).pu = (s.modPu p madeRoom).pu := by
  unfold makeRoomForRecord
  split
  · next h =>
    rw [probeLost_pu]
    have row : madeRoom (s.puPath p) = { s.puPath p with
        records := (s.puPath p).records.tail,
        counters := { (s.puPath p).counters with losses := satInc (s.puPath p).counters.losses } } := if_neg (by omega)
    rw [State.countPu, modPu_modPu, State.modPu, State.modPu, upd, upd, show madeRoom s.pu.paths[p] = _ from row]
    rfl
  · next h =>
    have row : madeRoom (s.puPath p) = s.puPath p := if_pos (by omega)
    simp only [State.modPu, upd]
    rw [show madeRoom s.pu.paths[p] = s.pu.paths[p] from row, vector_set_same rfl]

/-- The probe state after a PROBE has begun to leave. -/
def probeLaunched (r : ProbeRecord) (y : PuPath) : PuPath :=
  let z := madeRoom { y with number := y.number + 1, due := false }
  { z with records := z.records ++ [r] }

/-- The record of the PROBE that leaves on a path now. -/
def probeRecord (p : PathId) (s : State) : ProbeRecord :=
  { number := (s.puPath p).number, t1 := BitVec.ofNat 48 s.tb.count.toNat, epoch := s.tb.epoch,
    expiry := some ((s.path p).settings.probeTimeoutMs * 16000000) }

theorem launchProbe_pu (p : PathId) (s : State) : (launchProbe p s).pu = (s.modPu p (probeLaunched (probeRecord p s))).pu := by
  have room := makeRoomForRecord_pu p (s.modPu p fun x => { x with number := x.number + 1, due := false })
  unfold launchProbe
  dsimp only
  rw [State.modPu, room, modPu_modPu]
  simp only [State.modPu, upd_upd]
  rfl

theorem launchProbe_state (p : PathId) (s : State) (h : (s.puPath p).records.length < 8) :
    launchProbe p s = s.modPu p (probeLaunched (probeRecord p s)) := by
  have room : makeRoomForRecord p (s.modPu p fun x => { x with number := x.number + 1, due := false }) =
      s.modPu p fun x => { x with number := x.number + 1, due := false } := by
    rw [makeRoomForRecord, State.puPath_modPu_same, if_neg (by simpa using h)]
  unfold launchProbe
  dsimp only
  rw [room, modPu_modPu]
  refine state_ext ?_
  have row : ∀ r, probeLaunched r (s.puPath p) = { s.puPath p with
      number := (s.puPath p).number + 1, due := false, records := (s.puPath p).records ++ [r] } := fun r => by
    simp [probeLaunched, madeRoom, h]
  simp only [State.modPu, upd]
  rw [show probeLaunched _ s.pu.paths[p] = _ from row _]
  simp [probeRecord, capture, probeTimeout, Config.tuPerMs, State.puPath]

/-- Settles O24: which of the three cells leaves follows the queue of echoes, then the due flag. -/
theorem controlOpportunityLaunchesOneControlCell : Obligations.ControlOpportunityLaunchesOneControlCell := by
  unfold Obligations.ControlOpportunityLaunchesOneControlCell
  intro s p h hc x k y now
  refine ⟨fun e rest mark he hm => ?_, fun mark he hd hm => ?_, fun he hd => ?_⟩
  · refine ⟨_, exec_controlOpportunity h hc, ?_⟩
    rw [launchControl_echo he, echoCell_of_mark hm]
    refine ⟨modPort_portsBut p _ s, modPu_probesBut p (fun x => { x with echoes := x.echoes.tail }) s, rfl,
      State.port_modPort_same s p _, ?_⟩
    unfold launchEcho
    rw [State.puPath_modPu_same]
    change { y with echoes := y.echoes.tail } = _
    rw [he]
    rfl
  · refine ⟨_, exec_controlOpportunity h hc, ?_⟩
    rw [launchControl_probe he hd, probeCell_of_mark hm]
    set u := s.modPort p (afterControl (.probe y.number now mark) fun c => { c with probeLaunched := satInc c.probeLaunched })
      with hu
    have hport : (launchProbe p u).pp = u.pp := by simp
    have hpu := launchProbe_pu p u
    have hrow : (launchProbe p u).puPath p = probeLaunched (probeRecord p s) y := by
      rw [State.puPath_of hpu, State.puPath_modPu_same]
      rfl
    obtain ⟨hbut, hshape⟩ := modPu_probesBut p (probeLaunched (probeRecord p u)) s
    refine ⟨fun q hq => ?_, ⟨fun q hq => ?_, ?_⟩, ?_, ?_, ?_, ?_, fun hlen => ⟨?_, ?_⟩, fun hlen => ?_⟩
    · rw [State.port_of hport]; exact modPort_portsBut p _ s q hq
    · rw [State.puPath_of hpu]; exact hbut q hq
    · rw [hpu]; exact hshape
    · rw [State.port_of hport]; exact State.port_modPort_same s p _
    · rw [hrow]; unfold probeLaunched madeRoom; dsimp only; split <;> rfl
    · rw [hrow]; unfold probeLaunched madeRoom; dsimp only; split <;> rfl
    · rw [hrow]; unfold probeLaunched madeRoom; dsimp only; split <;> rfl
    · rw [launchProbe_state p u hlen]; rfl
    · rw [hrow]; unfold probeLaunched madeRoom; dsimp only; rw [if_pos hlen]
    · rw [hrow]; unfold probeLaunched madeRoom; dsimp only; rw [if_neg (by omega)]
  · refine ⟨_, exec_controlOpportunity h hc, ?_⟩
    rw [launchControl_empty he hd]
    exact ⟨modPort_portsBut p _ s, rfl, State.port_modPort_same s p _⟩

end Sys2Proof.Proofs
end

