-- ==== Sys2Proof/Proofs/Layouts.lean ====
section
/-!
The layouts of sections 11.3 and 11.4: what a field reads of the bytes laid out before and at it, and that cells and hop
report frames decode to what was encoded.
-/

namespace Sys2Proof.Proofs

open Sys2Proof.Machine

/-! ## Numbers in bytes -/

@[simp] theorem length_toBE (n v : Nat) : (toBE n v).length = n := by
  induction n with
  | zero => rfl
  | succ n ih => simp [toBE, ih]

/-- Reading on from a number already read. -/
theorem foldl_toBE (n v acc : Nat) :
    (toBE n v).foldl (fun acc b => acc * 256 + b.toNat) acc = acc * 256 ^ n + v % 256 ^ n := by
  induction n generalizing acc with
  | zero => simp [toBE, Nat.mod_one]
  | succ n ih =>
    have split : v % 256 ^ (n + 1) = v % 256 ^ n + 256 ^ n * (v / 256 ^ n % 2 ^ 8) := Nat.mod_mul
    rw [toBE, List.foldl_cons, ih, BitVec.toNat_ofNat, split]
    ring

theorem beNat_toBE (n v : Nat) : beNat (toBE n v) = v % 256 ^ n := by
  simp [beNat, foldl_toBE]

/-! ## Reading a layout from its first byte on -/

section
variable {i m : Nat} (l : List Byte)

theorem fieldNat_toBE {n v : Nat} (h : v < 256 ^ n) : fieldNat (toBE n v ++ l) 0 n = v := by
  have taken : (toBE n v ++ l).take n = toBE n v := by simp
  rw [fieldNat, List.drop_zero, taken, beNat_toBE, Nat.mod_eq_of_lt h]

@[simp] theorem fieldNat_word {w n : Nat} (h : w ≤ 8 * n) (v : BitVec w) : fieldNat (toBE n v.toNat ++ l) 0 n = v.toNat :=
  fieldNat_toBE l (v.isLt.trans_le (by rw [show 256 = 2 ^ 8 from rfl, ← pow_mul]; exact Nat.pow_le_pow_right (by norm_num) h))

@[simp] theorem fieldNat_cons (h : 0 < i) (b : Byte) (n : Nat) : fieldNat (b :: l) i n = fieldNat l (i - 1) n := by
  obtain ⟨j, rfl⟩ := Nat.exists_eq_add_of_lt h
  simp [fieldNat]

@[simp] theorem drop_past (h : m ≤ i) (v : Nat) : (toBE m v ++ l).drop i = l.drop (i - m) := by
  simp [List.drop_append, List.drop_eq_nil_of_le, h]

@[simp] theorem fieldNat_past (h : m ≤ i) (v n : Nat) : fieldNat (toBE m v ++ l) i n = fieldNat l (i - m) n := by
  simp [fieldNat, h]

@[simp] theorem byteAt_zero (b : Byte) : byteAt (b :: l) 0 = b := rfl

@[simp] theorem byteAt_cons (h : 0 < i) (b : Byte) : byteAt (b :: l) i = byteAt l (i - 1) := by
  obtain ⟨j, rfl⟩ := Nat.exists_eq_add_of_lt h
  simp [byteAt]

@[simp] theorem byteAt_past (h : m ≤ i) (v : Nat) : byteAt (toBE m v ++ l) i = byteAt l (i - m) := by
  simp [byteAt, List.getD_eq_getElem?_getD, List.getElem?_append_right, h]

end

/-! ## Padding and the check -/

theorem length_padTo {n : Nat} {l : List Byte} (h : l.length ≤ n) : (padTo n l).length = n := by
  simp [padTo]; omega

@[simp] theorem length_withCrc (l : List Byte) : (withCrc l).length = l.length + 4 := by
  simp [withCrc]

/-- The check put after the bytes is the one that is tested (R174). -/
theorem crcGood_withCrc (l : List Byte) : crcGood (withCrc l) = true := by
  simp [crcGood, beforeCheck, withCrc]

/-- A cell's bytes padded and with their check: its length, the check, and the bytes it begins with. -/
theorem padded_withCrc {n : Nat} {l : List Byte} (h : l.length ≤ n) :
    (withCrc (padTo n l)).length = n + 4 ∧ crcGood (withCrc (padTo n l)) = true ∧
      ∃ rest, withCrc (padTo n l) = l ++ rest :=
  ⟨by rw [length_withCrc, length_padTo h], crcGood_withCrc _, _, by rw [withCrc, padTo, List.append_assoc]⟩

/-! ## The shared encodings (Table 11-1) -/

@[simp] theorem streamOf_streamByte (st : StreamId) : streamOf (streamByte st) = some st := by
  obtain ⟨w, cls⟩ := st
  cases cls <;> revert w <;> decide

/-- A branch as bits 5:4 of an item's byte. -/
def branchBits : Branch → Nat
  | .none => 0
  | .main => 1
  | .diversity => 2

theorem branchOf_bits (b : Branch) : branchOf (branchBits b) = b := by
  cases b <;> rfl

theorem branchBits_lt (b : Branch) : branchBits b < 3 := by
  cases b <;> decide

/-- The three flag bits of a DATA cell. -/
theorem dataFlags_bits (a b c : Bool) :
    let x : Byte := BitVec.ofNat 8 (flagBit a 0 + flagBit b 1 + flagBit c 2)
    x[0] = a ∧ x[1] = b ∧ x[2] = c := by
  revert a b c; decide

@[simp] theorem flagByte_bit (a : Bool) : (flagByte a)[0] = a := by
  revert a; decide

/-! ## Cells -/

/-- The bytes of a DATA cell, then more, are read back field by field. -/
theorem decodeSlotCell_dataBytes {d : DataCell} (hcount : 1 ≤ d.fragCount) (hmax : d.fragCount ≤ 6)
    (hfrag : d.frag < d.fragCount) (hbytes : byteCountOk d.frag d.fragCount d.byteCount = true)
    (hpayload : d.payload.length = 44) (rest : List Byte) :
    decodeSlotCell (([1, streamByte d.stream] ++ toBE 3 d.seq.toNat ++
      [BitVec.ofNat 8 (d.frag + 8 * d.fragCount), BitVec.ofNat 8 d.byteCount,
        BitVec.ofNat 8 (flagBit d.dual 0 + flagBit d.relaunched 1 + flagBit d.originLock 2)] ++
      toBE 6 d.originStamp.toNat ++ d.payload) ++ rest) = some (.data d) := by
  have hbyte : d.byteCount < 256 := by
    unfold byteCountOk at hbytes
    split at hbytes <;> simp at hbytes <;> omega
  have hfragBits : (d.frag + 8 * d.fragCount) % 256 % 8 = d.frag := by omega
  have hcountBits : (d.frag + 8 * d.fragCount) % 256 / 8 % 8 = d.fragCount := by omega
  obtain ⟨hdual, hrelaunched, hlock⟩ := dataFlags_bits d.dual d.relaunched d.originLock
  have hkept : (d.payload ++ rest).take 44 = d.payload := by rw [← hpayload]; simp
  simp [decodeSlotCell, decodeData, hfragBits, hcountBits, Nat.mod_eq_of_lt hbyte, hcount, hmax, hfrag, hbytes,
    hdual, hrelaunched, hlock, hkept]

theorem decodeSlotCell_abortBytes (st : StreamId) (q : Seq) (rest : List Byte) :
    decodeSlotCell (([3, streamByte st] ++ toBE 3 q.toNat) ++ rest) = some (.abort st q) := by
  simp [decodeSlotCell]

theorem encodeSlotCell_data {d : DataCell} (hcount : 1 ≤ d.fragCount) (hmax : d.fragCount ≤ 6)
    (hfrag : d.frag < d.fragCount) (hbytes : byteCountOk d.frag d.fragCount d.byteCount = true)
    (hpayload : d.payload.length = 44) :
    (encodeSlotCell (.data d)).length = 62 ∧ crcGood (encodeSlotCell (.data d)) = true ∧
      decodeSlotCell (encodeSlotCell (.data d)) = some (.data d) := by
  obtain ⟨hlen, hcrc, rest, hrest⟩ := padded_withCrc (n := 58) (l := [1, streamByte d.stream] ++ toBE 3 d.seq.toNat ++
    [BitVec.ofNat 8 (d.frag + 8 * d.fragCount), BitVec.ofNat 8 d.byteCount,
      BitVec.ofNat 8 (flagBit d.dual 0 + flagBit d.relaunched 1 + flagBit d.originLock 2)] ++
    toBE 6 d.originStamp.toNat ++ d.payload) (by simp [hpayload])
  refine ⟨hlen, hcrc, ?_⟩
  rw [encodeSlotCell, hrest]
  exact decodeSlotCell_dataBytes hcount hmax hfrag hbytes hpayload rest

theorem encodeSlotCell_abort (st : StreamId) (q : Seq) :
    (encodeSlotCell (.abort st q)).length = 62 ∧ crcGood (encodeSlotCell (.abort st q)) = true ∧
      decodeSlotCell (encodeSlotCell (.abort st q)) = some (.abort st q) := by
  obtain ⟨hlen, hcrc, rest, hrest⟩ := padded_withCrc (n := 58) (l := [3, streamByte st] ++ toBE 3 q.toNat) (by simp)
  refine ⟨hlen, hcrc, ?_⟩
  rw [encodeSlotCell, hrest]
  exact decodeSlotCell_abortBytes st q rest

theorem encodeSlotCell_idle : (encodeSlotCell .idle).length = 62 ∧ crcGood (encodeSlotCell .idle) = true ∧
    decodeSlotCell (encodeSlotCell .idle) = some .idle := by
  obtain ⟨hlen, hcrc, rest, hrest⟩ := padded_withCrc (n := 58) (l := [2]) (by simp)
  refine ⟨hlen, hcrc, ?_⟩
  rw [encodeSlotCell, hrest]
  rfl

theorem encodeControlCell_decodes (c : ControlCell) : (encodeControlCell c).length = 32 ∧
    crcGood (encodeControlCell c) = true ∧ decodeControlCell (encodeControlCell c) = some c := by
  cases c with
  | probe n t1 mark =>
    obtain ⟨hlen, hcrc, rest, hrest⟩ := padded_withCrc (n := 28)
      (l := [4, n] ++ toBE 6 t1.toNat ++ [0] ++ toBE 4 mark.toNat) (by simp)
    refine ⟨hlen, hcrc, ?_⟩
    rw [encodeControlCell, hrest]
    simp [decodeControlCell]
  | echo n unchanged t1 t2 t3 mark =>
    obtain ⟨hlen, hcrc, rest, hrest⟩ := padded_withCrc (n := 28) (l := [5, n, flagByte unchanged] ++ toBE 6 t1.toNat ++
      toBE 6 t2.toNat ++ toBE 6 t3.toNat ++ toBE 4 mark.toNat) (by simp)
    refine ⟨hlen, hcrc, ?_⟩
    rw [encodeControlCell, hrest]
    simp [decodeControlCell]
  | empty =>
    obtain ⟨hlen, hcrc, rest, hrest⟩ := padded_withCrc (n := 28) (l := [6]) (by simp)
    refine ⟨hlen, hcrc, ?_⟩
    rw [encodeControlCell, hrest]
    rfl

/-! ## Hop report frames -/

/-- The 8 bytes of an item (Table 11-8). -/
def hopItemBytes (i : HopItem) : List Byte :=
  [BitVec.ofNat 8 i.index] ++ toBEInt 2 i.margin ++
    [BitVec.ofNat 8 (i.rateStep + 16 * branchBits i.branch)] ++
    toBE 2 i.corrected ++ toBE 2 i.uncorrectable

/-- The fields of an item fit their places in the layout. -/
def HopItemFits (i : HopItem) : Prop :=
  i.index < 256 ∧ -2 ^ 15 ≤ i.margin ∧ i.margin < 2 ^ 15 ∧ i.rateStep < 16 ∧ i.corrected < 2 ^ 16 ∧ i.uncorrectable < 2 ^ 16

theorem length_hopItemBytes (i : HopItem) : (hopItemBytes i).length = 8 := by
  simp [hopItemBytes, toBEInt]

/-- Two's complement of two bytes. -/
theorem fieldInt_toBEInt {v : Int} (hlo : -2 ^ 15 ≤ v) (hhi : v < 2 ^ 15) (b : Byte) (l : List Byte) :
    fieldInt (b :: (toBEInt 2 v ++ l)) 1 2 = v := by
  have hread : fieldNat (b :: (toBEInt 2 v ++ l)) 1 2 = (v % (2 : Int) ^ 16).toNat := by
    rw [fieldNat_cons _ (by norm_num), toBEInt, fieldNat_toBE _ (by norm_num; omega)]
  rw [fieldInt, hread]
  norm_num
  split <;> omega

theorem decodeHopItem_bytes {i : HopItem} (h : HopItemFits i) : decodeHopItem (hopItemBytes i) = i := by
  obtain ⟨hindex, hlo, hhi, hrate, hcorrected, huncorrectable⟩ := h
  have hbranch := branchBits_lt i.branch
  have hrateBits : (i.rateStep + 16 * branchBits i.branch) % 256 % 16 = i.rateStep := by omega
  have hbranchBits : (i.rateStep + 16 * branchBits i.branch) % 256 / 16 % 4 = branchBits i.branch := by omega
  have hmargin := fun b l => fieldInt_toBEInt hlo hhi b l
  simp only [toBEInt] at hmargin
  norm_num at hmargin
  have hlast : fieldNat (toBE 2 i.uncorrectable) 0 2 = i.uncorrectable := by
    simpa using fieldNat_toBE [] (n := 2) huncorrectable
  simp [decodeHopItem, hopItemBytes, toBEInt, Nat.mod_eq_of_lt hindex, hrateBits, hbranchBits, branchOf_bits, hmargin,
    fieldNat_toBE _ (n := 2) hcorrected, hlast]

/-- Items read on from the first byte of an item. -/
theorem decodeHopItems_bytes {items : List HopItem} (h : ∀ i ∈ items, HopItemFits i) (rest : List Byte) :
    decodeHopItems items.length (items.flatMap hopItemBytes ++ rest) = items := by
  induction items with
  | nil => rfl
  | cons i items ih =>
    have hi := length_hopItemBytes i
    obtain ⟨hfits, htail⟩ := List.forall_mem_cons.mp h
    rw [List.length_cons, decodeHopItems, List.flatMap_cons, List.append_assoc, List.take_left' hi, List.drop_left' hi,
      ih htail, decodeHopItem_bytes hfits]

theorem length_hopItems (items : List HopItem) : (items.flatMap hopItemBytes).length = 8 * items.length := by
  induction items with
  | nil => rfl
  | cons i items ih => rw [List.flatMap_cons, List.length_append, ih, length_hopItemBytes, List.length_cons]; omega

theorem decodeHopFrame_bytes {items : List HopItem} (hone : 1 ≤ items.length) (hmax : items.length ≤ 12)
    (h : ∀ i ∈ items, HopItemFits i) :
    decodeHopFrame (withCrc (BitVec.ofNat 8 items.length :: items.flatMap hopItemBytes)) = some items := by
  have hcount : (byteAt (withCrc (BitVec.ofNat 8 items.length :: items.flatMap hopItemBytes)) 0).toNat = items.length := by
    simp [withCrc]; omega
  have hlen : (withCrc (BitVec.ofNat 8 items.length :: items.flatMap hopItemBytes)).length = 1 + 8 * items.length + 4 := by
    rw [length_withCrc, List.length_cons, length_hopItems]; omega
  have hitems : decodeHopItems items.length
      ((withCrc (BitVec.ofNat 8 items.length :: items.flatMap hopItemBytes)).drop 1) = items :=
    decodeHopItems_bytes h _
  unfold decodeHopFrame
  dsimp only
  rw [hcount, hitems, if_pos (by simp [crcGood_withCrc, hone, hmax, hlen])]

/-- Settles O18: the fields are read back one after another from the first byte on. -/
theorem cellsAndHopReportsDecodeAsLaidOut : Obligations.CellsAndHopReportsDecodeAsLaidOut := by
  unfold Obligations.CellsAndHopReportsDecodeAsLaidOut
  exact ⟨fun d hcount hmax hfrag hbytes hpayload => encodeSlotCell_data hcount hmax hfrag hbytes hpayload,
    encodeSlotCell_abort, encodeSlotCell_idle, encodeControlCell_decodes,
    fun items hone hmax h => decodeHopFrame_bytes hone hmax h⟩

end Sys2Proof.Proofs
end

