-- ==== Sys2Proof/Proofs/SlotArrivals.lean ====
section
/-!
A slot cell that arrives (R10 to R12): its tests, and what its reassembly context makes of it (R146, R147, R149).
-/

namespace Sys2Proof.Proofs

open Sys2Proof.Machine Sys2Proof.Claims

/-! ## The field tests of R11 -/

theorem streamOf_class3 {b : Byte} (h : b.toNat / 8 % 4 = 3) : streamOf b = none := by
  simp [streamOf, h, classOf]

theorem decodeData_none {l : List Byte}
    (h : (byteAt l 1).toNat / 8 % 4 = 3 ∨ (byteAt l 5).toNat / 8 % 8 = 0 ∨ 6 < (byteAt l 5).toNat / 8 % 8 ∨
      (byteAt l 5).toNat / 8 % 8 ≤ (byteAt l 5).toNat % 8 ∨
      ((byteAt l 5).toNat % 8 + 1 < (byteAt l 5).toNat / 8 % 8 ∧ (byteAt l 6).toNat ≠ 44) ∨
      ((byteAt l 5).toNat % 8 + 1 = (byteAt l 5).toNat / 8 % 8 ∧
        (44 < (byteAt l 6).toNat ∨ ((byteAt l 6).toNat = 0 ∧ (byteAt l 5).toNat / 8 % 8 ≠ 1)))) :
    decodeData l = none := by
  unfold decodeData
  split
  · rfl
  · next st hst =>
    have hclass : (byteAt l 1).toNat / 8 % 4 ≠ 3 := fun e => by rw [streamOf_class3 e] at hst; cases hst
    refine if_neg fun ht => ?_
    simp only [byteCountOk, Bool.and_eq_true, decide_eq_true_eq] at ht
    split at ht <;> simp at ht <;> omega

theorem decodeSlotCell_malformed {l : List Byte} (h : malformedSlotCell l) : decodeSlotCell l = none := by
  unfold malformedSlotCell at h
  unfold decodeSlotCell
  rcases h with ⟨h1, h2, h3⟩ | ⟨h3, hclass⟩ | ⟨h1, hdata⟩
  · split
    · next e => exact absurd e h1
    · next e => exact absurd e h2
    · next e => exact absurd e h3
    · rfl
  · simp [h3, streamOf_class3 hclass]
  · simp [h1, decodeData_none hdata]

theorem decodeSlotCell_idle {l : List Byte} (h : (byteAt l 0).toNat = 2) : decodeSlotCell l = some .idle := by
  simp [decodeSlotCell, h]

/-! ## What an arrival leaves -/

/-- A slot cell has been counted by its port, and one context and the counters of its path are as given. -/
def received (p : PathId) (st : StreamId) (f : PortCounters → PortCounters) (g : RdPathCounters → RdPathCounters)
    (c : Option Context) (s : State) : State :=
  ((s.countPort p f).countRdPath p g).setContext p st c

section
variable (p : PathId) (st : StreamId) (f : PortCounters → PortCounters) (g : RdPathCounters → RdPathCounters)
  (c : Option Context) (s : State)

theorem countPort_portsBut : portsBut p s (s.countPort p f) ∧
    (s.countPort p f).port p = { s.port p with counters := f (s.port p).counters } :=
  ⟨modPort_portsBut p _ s, State.port_modPort_same s p _⟩

theorem received_ports : portsBut p s (received p st f g c s) ∧
    (received p st f g c s).port p = { s.port p with counters := f (s.port p).counters } :=
  countPort_portsBut p f s

theorem received_context : (received p st f g c s).context p st = c := State.context_setContext_same _ p st c

theorem received_only : contextsBut p st s (received p st f g c s) ∧ received p st f g c s =
    { s with pp := (received p st f g c s).pp,
             rd := { s.rd with contexts := (received p st f g c s).rd.contexts,
                               pathCounters := (received p st f g c s).rd.pathCounters } } :=
  ⟨fun q x h => by rw [received, State.context_setContext, if_neg h]; rfl, rfl⟩

theorem received_path : (∀ q, q ≠ p → (received p st f g c s).rd.pathCounters[q] = s.rd.pathCounters[q]) ∧
    (received p st f g c s).rd.pathCounters[p] = g s.rd.pathCounters[p] :=
  ⟨fun q h => (upd_get _ p q g).trans (if_neg h), (upd_get _ p p g).trans (if_pos rfl)⟩

theorem countRdPath_countRdPath (g' : RdPathCounters → RdPathCounters) :
    (s.countRdPath p g).countRdPath p g' = s.countRdPath p fun x => g' (g x) := by
  simp only [State.countRdPath, upd_upd]

/-- The context is left as it is. -/
theorem received_same : received p st f g (s.context p st) s = (s.countPort p f).countRdPath p g := by
  have h : (s.rd.contexts.set (ctxIdx p st) (s.context p st)) = s.rd.contexts := vector_set_same rfl
  unfold received State.setContext
  simp only [State.countRdPath, State.countPort, State.modPort, h]

end

/-! ## ABORT and DATA at their context -/

section
variable {s : State} {p : PathId} {f : PortCounters → PortCounters}

theorem exec_cellArrival (h : (s.port p).faultState = .working) {cell : List Byte} (hcrc : crcGood cell = true)
    {x : Option SlotCell} (hx : decodeSlotCell cell = x) : exec (.cellArrival p cell) s = .next (takeSlotCell p x s) := by
  simp [exec, execCellArrival, portWorks_of_working h, hcrc, hx]

theorem takeAbort_disabled {st : StreamId} {q : Seq} (h : (s.tenant st.tenant).enabled = false) :
    takeAbort p st q (s.countPort p f) =
      received p st f (fun x => { x with disabledCells := satInc x.disabledCells }) (s.context p st) s := by
  rw [received_same]
  exact if_neg (by rw [State.tenant_of (s := s) (t := s.countPort p f) rfl, h]; decide)

theorem takeAbort_matching {st : StreamId} {q : Seq} {c : Context} (h : (s.tenant st.tenant).enabled = true)
    (hc : s.context p st = some c) (hq : c.seq = q) :
    takeAbort p st q (s.countPort p f) = received p st f (fun x => { x with abort := satInc x.abort }) none s := by
  have hm : abortMatches (s.countPort p f) p st q = true := by
    simp [abortMatches, State.context_of (s := s) (t := s.countPort p f) rfl, hc, hq]
  unfold takeAbort
  rw [State.tenant_of (s := s) (t := s.countPort p f) rfl, if_pos h, if_pos hm]
  rfl

theorem takeAbort_unmatched {st : StreamId} {q : Seq} (h : (s.tenant st.tenant).enabled = true)
    (hq : ∀ c, s.context p st = some c → c.seq ≠ q) : takeAbort p st q (s.countPort p f) =
      received p st f (fun x => { x with unmatchedAborts := satInc x.unmatchedAborts }) (s.context p st) s := by
  have hm : abortMatches (s.countPort p f) p st q ≠ true := by
    unfold abortMatches
    rw [State.context_of (s := s) (t := s.countPort p f) rfl]
    split
    · decide
    · next c hc => simpa using hq c hc
  rw [received_same]
  unfold takeAbort
  rw [State.tenant_of (s := s) (t := s.countPort p f) rfl, if_pos h, if_neg hm]

variable {d : DataCell} {a : Capture}

theorem takeData_disabled (h : (s.tenant d.stream.tenant).enabled = false) : takeData p d a (s.countPort p f) =
    received p d.stream f (fun x => { x with disabledCells := satInc x.disabledCells }) (s.context p d.stream) s := by
  rw [received_same]
  exact if_neg (by rw [State.tenant_of (s := s) (t := s.countPort p f) rfl, h]; decide)

theorem takeData_zero (h : (s.tenant d.stream.tenant).enabled = true) (hd : d.frag = 0) :
    takeData p d a (s.countPort p f) = openCopy p d a (s.countPort p f) := by
  unfold takeData
  rw [State.tenant_of (s := s) (t := s.countPort p f) rfl, if_pos h, if_pos hd]

theorem takeData_later (h : (s.tenant d.stream.tenant).enabled = true) (hd : 0 < d.frag) :
    takeData p d a (s.countPort p f) = continueCopy p d a (s.countPort p f) := by
  unfold takeData
  rw [State.tenant_of (s := s) (t := s.countPort p f) rfl, if_pos h, if_neg (by omega)]

/-- The counters of a path when a copy is opened: a copy in progress was overrun (R146). -/
def overran (c : Option Context) (x : RdPathCounters) : RdPathCounters :=
  if c.isSome then { x with overrun := satInc x.overrun } else x

theorem overran_completed (c : Option Context) (x : RdPathCounters) : (overran c x).completed = x.completed := by
  unfold overran
  split <;> rfl

/-- `openCopy` first counts the copy it overruns. -/
theorem count_overran (p : PathId) (d : DataCell) (s : State) :
    (if (s.context p d.stream).isSome then s.countRdPath p fun x => { x with overrun := satInc x.overrun } else s) =
      s.countRdPath p (overran (s.context p d.stream)) := by
  unfold overran
  split
  · rfl
  · have h : upd s.rd.pathCounters p (fun x => x) = s.rd.pathCounters := vector_set_same rfl
    simp only [State.countRdPath, h]

theorem openCopy_many (hd : d.fragCount ≠ 1) : openCopy p d a (s.countPort p f) =
    received p d.stream f (overran (s.context p d.stream)) (some (openContext d (reasmLimit s p))) s := by
  unfold openCopy
  dsimp only
  rw [count_overran, if_neg hd]
  rfl

theorem openCopy_single (hd : d.fragCount = 1) : openCopy p d a (s.countPort p f) =
    takeCompleted (completedOf d.stream p (openContext d (reasmLimit s p)) a) (received p d.stream f
      (fun x => { overran (s.context p d.stream) x with completed := satInc x.completed }) none s) := by
  unfold openCopy
  dsimp only
  rw [count_overran, if_pos hd]
  unfold completeCopy
  rw [countRdPath_countRdPath]
  simp only [overran_completed]
  rfl

theorem continueCopy_orphan (hc : s.context p d.stream = none) : continueCopy p d a (s.countPort p f) =
    received p d.stream f (fun x => { x with orphans := satInc x.orphans }) none s := by
  rw [← hc, received_same]
  unfold continueCopy
  rw [State.context_of (s := s) (t := s.countPort p f) rfl, hc]

theorem expectedCell_iff {c : Context} : expectedCell c d = true ↔ d.seq = c.seq ∧ d.fragCount = c.fragCount ∧ d.frag = c.nextFrag := by
  simp [expectedCell, and_assoc]

/-- The context once the expected cell has been added. -/
def longer (d : DataCell) (lim : Nat) (c : Context) : Context :=
  { c with bytes := c.bytes ++ cellBytes d, nextFrag := c.nextFrag + 1, timer := some lim }

variable {c : Context}

theorem continueCopy_unexpected (hc : s.context p d.stream = some c)
    (he : ¬(d.seq = c.seq ∧ d.fragCount = c.fragCount ∧ d.frag = c.nextFrag)) : continueCopy p d a (s.countPort p f) =
    received p d.stream f (fun x => { x with order := satInc x.order }) none s := by
  unfold continueCopy
  rw [State.context_of (s := s) (t := s.countPort p f) rfl, hc]
  dsimp only
  rw [if_neg (mt expectedCell_iff.mp he)]
  rfl

theorem continueCopy_expected (hc : s.context p d.stream = some c)
    (he : d.seq = c.seq ∧ d.fragCount = c.fragCount ∧ d.frag = c.nextFrag) (hd : d.frag + 1 ≠ d.fragCount) :
    continueCopy p d a (s.countPort p f) = received p d.stream f id (some (longer d (reasmLimit s p) c)) s := by
  have h : upd s.rd.pathCounters p id = s.rd.pathCounters := vector_set_same rfl
  unfold continueCopy
  rw [State.context_of (s := s) (t := s.countPort p f) rfl, hc]
  dsimp only
  rw [if_pos (expectedCell_iff.mpr he), if_neg hd]
  simp only [received, State.countRdPath, State.countPort, State.modPort, h]
  rfl

theorem continueCopy_last (hc : s.context p d.stream = some c)
    (he : d.seq = c.seq ∧ d.fragCount = c.fragCount ∧ d.frag = c.nextFrag) (hd : d.frag + 1 = d.fragCount) :
    continueCopy p d a (s.countPort p f) = takeCompleted (completedOf d.stream p (longer d (reasmLimit s p) c) a)
      (received p d.stream f (fun x => { x with completed := satInc x.completed }) none s) := by
  unfold continueCopy
  rw [State.context_of (s := s) (t := s.countPort p f) rfl, hc]
  dsimp only
  rw [if_pos (expectedCell_iff.mpr he), if_pos hd]
  rfl

end

/-- Settles O27: what `takeAbort` and `takeData` do to the context, case by case. -/
theorem slotCellArrivalReachesItsContext : Obligations.SlotCellArrivalReachesItsContext := by
  unfold Obligations.SlotCellArrivalReachesItsContext
  intro s p cell h k counted path onlyContext
  refine ⟨fun hcrc => ?_, fun hcrc hm => ?_, fun hcrc hi => ?_, fun st q hcrc hx => ?_, fun d hcrc hx => ?_⟩
  · have hexec : exec (.cellArrival p cell) s = .next (s.countPort p fun c => { c with cellCrcErrors := satInc c.cellCrcErrors }) := by
      simp [exec, execCellArrival, portWorks_of_working h, hcrc]
    exact ⟨_, hexec, rfl, countPort_portsBut p _ s⟩
  · exact ⟨_, exec_cellArrival h hcrc (decodeSlotCell_malformed hm), rfl, countPort_portsBut p _ s⟩
  · exact ⟨_, exec_cellArrival h hcrc (decodeSlotCell_idle hi), rfl, countPort_portsBut p _ s⟩
  · by_cases he : (s.tenant st.tenant).enabled = true
    · by_cases hq : ∃ c, s.context p st = some c ∧ c.seq = q
      · obtain ⟨c, hc, hq⟩ := hq
        exact ⟨_, (exec_cellArrival h hcrc hx).trans (congrArg _ (takeAbort_matching he hc hq)), received_ports .., received_only ..,
          fun hno => absurd he (by simp [hno]), fun _ _ _ _ => ⟨received_context .., received_path ..⟩,
          fun _ hno => absurd hq (hno c hc)⟩
      · have hno : ∀ c, s.context p st = some c → c.seq ≠ q := fun c hc hs => hq ⟨c, hc, hs⟩
        exact ⟨_, (exec_cellArrival h hcrc hx).trans (congrArg _ (takeAbort_unmatched he hno)), received_ports .., received_only ..,
          fun hno => absurd he (by simp [hno]), fun c _ hc hs => absurd hs (hno c hc),
          fun _ _ => ⟨received_context .., received_path ..⟩⟩
    · have hoff : (s.tenant st.tenant).enabled = false := by simpa using he
      exact ⟨_, (exec_cellArrival h hcrc hx).trans (congrArg _ (takeAbort_disabled hoff)), received_ports .., received_only ..,
        fun _ => ⟨received_context .., received_path ..⟩, fun _ hon => absurd hon he, fun hon => absurd hon he⟩
  · have arrives {t : State} (ht : takeData p d (capture s) (s.countPort p fun c => { c with dataReceived := satInc c.dataReceived }) = t) :
        exec (.cellArrival p cell) s = .next t := (exec_cellArrival h hcrc hx).trans (congrArg _ ht)
    refine ⟨fun hoff => ?_, fun hon hd => ⟨fun hn => ?_, fun hn => ?_⟩, fun hon hd hc => ?_,
      fun c hon hd hc => ⟨fun hne => ?_, fun hexp hn => ?_, fun hexp hn => ?_⟩⟩
    · exact ⟨_, arrives (takeData_disabled hoff), received_ports .., received_only .., received_context .., received_path ..⟩
    · exact ⟨_, arrives ((takeData_zero hon hd).trans (openCopy_many (by omega))), received_ports .., received_only ..,
        received_context .., received_path ..⟩
    · exact ⟨_, arrives ((takeData_zero hon hd).trans (openCopy_single hn)), received_ports .., received_only ..,
        received_context .., received_path ..⟩
    · exact ⟨_, arrives ((takeData_later hon hd).trans (continueCopy_orphan hc)), received_ports .., received_only ..,
        received_context .., received_path ..⟩
    · exact ⟨_, arrives ((takeData_later hon hd).trans (continueCopy_unexpected hc hne)), received_ports .., received_only ..,
        received_context .., received_path ..⟩
    · exact ⟨_, arrives ((takeData_later hon hd).trans (continueCopy_expected hc hexp (by omega))), received_ports ..,
        received_only .., received_context .., received_path ..⟩
    · exact ⟨_, arrives ((takeData_later hon hd).trans (continueCopy_last hc hexp hn)), received_ports ..,
        received_only .., received_context .., received_path ..⟩

end Sys2Proof.Proofs
end

