-- ==== Sys2Proof/Proofs/LaneOutput.lean ====
section
/-!
What an entry handed to a lane changes, and what of the state it depends on (R159, R168, R169).
-/

namespace Sys2Proof.Proofs

open Sys2Proof.Machine

theorem setLoss_li {x y : State} (h : x.li = y.li) (l : LaneId) (b : Bool) : (x.setLoss l b).li = (y.setLoss l b).li := by
  unfold State.setLoss
  split
  · exact h
  · simp only [h]

/-- The lanes after a push depend on the lanes before it only. -/
theorem pushEntry_li {x y : State} (h : x.li = y.li) (l : LaneId) (e : Entry) : (pushEntry l e x).li = (pushEntry l e y).li := by
  have hlane : x.lane l = y.lane l := State.lane_of h l
  have hmod : ∀ f, (x.modLane l f).li = (y.modLane l f).li := fun f => by simp only [State.modLane, h]
  have hcount : ∀ (a b : State) f, a.li = b.li → (a.countLane l f).li = (b.countLane l f).li := fun a b f hab => by
    simp only [State.countLane, State.modLane, hab]
  unfold pushEntry
  rw [hlane]
  dsimp only
  split
  · exact hmod _
  split
  · exact setLoss_li (hcount _ _ _ (hmod _)) l true
  · simp only [clearPending_frame]
    split
    · exact setLoss_li (hcount _ _ _ h) l true
    · exact hcount _ _ _ h

theorem pushNotice_li {x y : State} (htb : x.tb = y.tb) (h : x.li = y.li) (l : LaneId) (n : Notice) :
    (pushNotice l n x).li = (pushNotice l n y).li := by
  have hc : capture x = capture y := by simp only [capture, htb]
  rw [pushNotice, pushNotice, hc]
  exact pushEntry_li h l _

/-- Only a REPORT touches a channel when it is lost. -/
theorem pushEntry_pe {e : Entry} (he : ∀ r, e ≠ .report r) (l : LaneId) (s : State) : (pushEntry l e s).pe = s.pe := by
  have hclear : ∀ x, clearPending l e x = x := fun x => by
    unfold clearPending
    split
    · exact absurd rfl (he _)
    · rfl
  unfold pushEntry
  dsimp only
  split
  · rfl
  split
  · simp
  · rw [hclear]
    split <;> simp

/-- A push reaches its own lane only. -/
theorem pushEntry_lane {l k : LaneId} (hk : k ≠ l) (e : Entry) (s : State) : (pushEntry l e s).lane k = s.lane k := by
  have hloss : ∀ (x : State) b, (x.setLoss l b).lane k = x.lane k := fun x b => by
    unfold State.setLoss
    split <;> rfl
  have hclear : ∀ x : State, (clearPending l e x).lane k = x.lane k := fun x => State.lane_of (by simp) k
  unfold pushEntry
  dsimp only
  split
  · rw [State.lane_modLane, if_neg hk]
  split
  · rw [hloss, State.countLane, State.lane_modLane, if_neg hk, State.lane_modLane, if_neg hk]
  · rw [hclear]
    split
    · rw [hloss, State.countLane, State.lane_modLane, if_neg hk]
    · rw [State.countLane, State.lane_modLane, if_neg hk]

/-- A queue with room takes the entry at its end. -/
theorem pushEntry_room {l : LaneId} {s : State} (h : (s.lane l).queue.length < 64) (e : Entry) :
    (pushEntry l e s).lane l = { s.lane l with queue := (s.lane l).queue ++ [e] } := by
  unfold pushEntry
  dsimp only
  rw [if_pos (show _ < Config.laneEntries from h), State.lane_modLane_same]

theorem mgmtLane_ne_tenantLane (u : TenantId) : mgmtLane ≠ tenantLane u := by
  revert u; decide

/-! ## Deliveries -/

theorem deliver_pe (m : Completed) (s : State) : (deliver m s).pe = s.pe := by
  unfold deliver
  split
  · rw [pushEntry_pe (fun r => by simp)]; rfl
  · rfl

theorem deliverAll_pe (l : List Completed) (s : State) : (deliverAll l s).pe = s.pe := by
  induction l generalizing s with
  | nil => rfl
  | cons m l ih => exact (ih _).trans (deliver_pe m s)

theorem deliver_mgmtLane (m : Completed) (s : State) : (deliver m s).lane mgmtLane = s.lane mgmtLane := by
  unfold deliver
  split
  · rw [pushEntry_lane (mgmtLane_ne_tenantLane _)]; rfl
  · rfl

theorem deliverAll_mgmtLane (l : List Completed) (s : State) : (deliverAll l s).lane mgmtLane = s.lane mgmtLane := by
  induction l generalizing s with
  | nil => rfl
  | cons m l ih => exact (ih _).trans (deliver_mgmtLane m s)

/-- Two states that a delivery treats alike: the lanes, the tenants and the receive counters are the same. -/
def DeliversAlike (x y : State) : Prop := x.li = y.li ∧ x.rd.streamCounters = y.rd.streamCounters

theorem deliver_alike {x y : State} (h : DeliversAlike x y) (m : Completed) : DeliversAlike (deliver m x) (deliver m y) := by
  obtain ⟨hli, hcounters⟩ := h
  have hcount : ∀ f, (x.countRd m.stream f).rd.streamCounters = (y.countRd m.stream f).rd.streamCounters := fun f => by
    simp only [State.countRd, hcounters]
  unfold deliver
  rw [State.tenant_of (s := y) (t := x) (by rw [hli])]
  split
  · exact ⟨pushEntry_li (by simpa using hli) _ _, by simpa using hcount _⟩
  · exact ⟨hli, hcount _⟩

theorem deliverAll_alike {x y : State} (h : DeliversAlike x y) (l : List Completed) :
    DeliversAlike (deliverAll l x) (deliverAll l y) := by
  induction l generalizing x y with
  | nil => exact h
  | cons m l ih => exact ih (deliver_alike h m)

theorem deliverAll_append (a b : List Completed) (s : State) : deliverAll (a ++ b) s = deliverAll b (deliverAll a s) :=
  List.foldl_append

/-! ## Records made fresh one after another (R151) -/

/-- Make the records of some streams fresh, each delivering what it held. -/
def freshenAll (l : List StreamId) (s : State) : State := l.foldl (fun x st => freshenDelivering st x) s

theorem freshenDelivering_record (a b : StreamId) (s : State) :
    (freshenDelivering a s).record b = if b = a then freshRecord (s.record a) else s.record b := by
  have hkept : ∀ st, (deliverAll (s.record a).hold s).record st = s.record st := fun st => by
    simp [State.record]
  rw [freshenDelivering, State.record_modRecord, hkept, hkept]

theorem freshenDelivering_pe (st : StreamId) (s : State) : (freshenDelivering st s).pe = s.pe := deliverAll_pe _ s

theorem freshenAll_pe (l : List StreamId) (s : State) : (freshenAll l s).pe = s.pe := by
  induction l generalizing s with
  | nil => rfl
  | cons st l ih => exact (ih _).trans (freshenDelivering_pe st s)

/-- The messages that some streams hold, in order. -/
def heldBy (s : State) (l : List StreamId) : List Completed := l.flatMap fun st => (s.record st).hold

/-- Made fresh one after another, the streams hand over what they held, stream by stream. -/
theorem freshenAll_alike {l : List StreamId} (hl : l.Nodup) {s x y : State} (h : DeliversAlike x y)
    (hrec : ∀ st ∈ l, x.record st = s.record st) : DeliversAlike (freshenAll l x) (deliverAll (heldBy s l) y) := by
  induction l generalizing x y with
  | nil => exact h
  | cons st l ih =>
    obtain ⟨hnew, hl⟩ := List.nodup_cons.mp hl
    rw [heldBy, List.flatMap_cons, deliverAll_append]
    refine ih hl ?_ fun k hk => ?_
    · rw [← hrec st List.mem_cons_self]
      exact deliverAll_alike h _
    · have hne : k ≠ st := fun e => hnew (e ▸ hk)
      rw [freshenDelivering_record, if_neg hne]
      exact hrec k (List.mem_cons_of_mem _ hk)

/-- A record just made fresh. -/
def IsFresh (r : RecvRecord) : Prop :=
  r.fresh = true ∧ r.window = 0 ∧ r.nextSeq = none ∧ r.hold = [] ∧ r.holdTimer = none

theorem freshenAll_fresh {l : List StreamId} {st : StreamId} {s : State} (h : st ∈ l ∨ IsFresh (s.record st)) :
    IsFresh ((freshenAll l s).record st) := by
  induction l generalizing s with
  | nil => exact h.resolve_left (by simp)
  | cons a l ih =>
    have made : st = a ∨ IsFresh (s.record st) → IsFresh ((freshenDelivering a s).record st) := fun ha => by
      rw [freshenDelivering_record]
      split
      · exact ⟨rfl, rfl, rfl, rfl, rfl⟩
      · next hne => exact ha.resolve_left hne
    refine ih ?_
    rcases h with h | h
    · rcases List.mem_cons.mp h with h | h
      · exact .inr (made (.inl h))
      · exact .inl h
    · exact .inr (made (.inr h))

@[simp] theorem freshenAll_frame (l : List StreamId) (s : State) : OnlyChannelsReceivedOutput s (freshenAll l s) := by
  induction l generalizing s with
  | nil => simp [freshenAll, OnlyChannelsReceivedOutput]
  | cons st l ih => simpa [freshenAll, OnlyChannelsReceivedOutput] using ih (freshenDelivering st s)

end Sys2Proof.Proofs
end
-- ==== Sys2Proof/Proofs/ProbeArrivals.lean ====
section
/-!
A control cell that arrives: its tests, the start mark of a PROBE and its echo entry (R10, R11, R13, R42, R53).
-/

namespace Sys2Proof.Proofs

open Sys2Proof.Machine Sys2Proof.Claims

section
variable {s : State} {p : PathId}

theorem exec_controlCellArrival (h : (s.port p).faultState = .working) {cell : List Byte} (hcrc : crcGood cell = true)
    {x : Option ControlCell} (hx : decodeControlCell cell = x) :
    exec (.controlCellArrival p cell) s = .next (takeControlCell p x s) := by
  simp [exec, execControlCellArrival, portWorks_of_working h, hcrc, hx]

theorem decodeControlCell_malformed {l : List Byte} (h4 : (byteAt l 0).toNat ≠ 4) (h5 : (byteAt l 0).toNat ≠ 5)
    (h6 : (byteAt l 0).toNat ≠ 6) : decodeControlCell l = none := by
  unfold decodeControlCell
  split
  · next e => exact absurd e h4
  · next e => exact absurd e h5
  · next e => exact absurd e h6
  · rfl

theorem decodeControlCell_empty {l : List Byte} (h : (byteAt l 0).toNat = 6) : decodeControlCell l = some .empty := by
  simp [decodeControlCell, h]

/-! ## The start mark (R53) -/

theorem checkMark_first {mark : Mark} (h : s.pu.peerMark = none) :
    checkMark p mark s = { s with pu := { s.pu with peerMark := some mark } } := by
  simp [checkMark, h]

theorem checkMark_known {mark : Mark} (h : s.pu.peerMark = some mark) : checkMark p mark s = s := by
  simp [checkMark, h]

theorem checkMark_restarted {old mark : Mark} (h : s.pu.peerMark = some old) (hne : old ≠ mark) :
    checkMark p mark s = peerRestarted p old mark s := by
  simp [checkMark, h, hne]

/-- RD's contexts emptied and PU's new mark. -/
def cleared (mark : Mark) (s : State) : State :=
  let s1 := emptyAllContexts s
  { s1 with pu := { s1.pu with peerMark := some mark, peerRestarts := satInc s1.pu.peerRestarts } }

theorem peerRestarted_eq (old mark : Mark) : peerRestarted p old mark s =
    notifyOperator (.peerRestart p (some old) mark) (cleared mark (freshenAll allStreams s)) := by
  unfold peerRestarted cleared freshenAll
  rfl

theorem freshenStreams_alike {u : State} (hrd : u.rd = s.rd) (hli : u.li = s.li) :
    DeliversAlike (freshenAll allStreams u) (deliverAll (heldBy s allStreams) s) :=
  freshenAll_alike allStreams_nodup ⟨hli, congrArg Receiver.streamCounters hrd⟩ fun st _ => State.record_of hrd st

theorem cleared_li (mark : Mark) (s : State) : (cleared mark s).li = s.li := rfl

theorem cleared_streamCounters (mark : Mark) (s : State) : (cleared mark s).rd.streamCounters = s.rd.streamCounters := rfl

theorem cleared_record (mark : Mark) (s : State) (st : StreamId) : (cleared mark s).record st = s.record st := rfl

theorem cleared_pe (mark : Mark) (s : State) : (cleared mark s).pe = s.pe := rfl

theorem cleared_tb (mark : Mark) (s : State) : (cleared mark s).tb = s.tb := rfl

theorem cleared_context (mark : Mark) (s : State) (q : PathId) (st : StreamId) : (cleared mark s).context q st = none := by
  simp [cleared, emptyAllContexts, State.context]

theorem cleared_pu (mark : Mark) (s : State) :
    (cleared mark s).pu = { s.pu with peerMark := some mark, peerRestarts := satInc s.pu.peerRestarts } := rfl

theorem notifyOperator_pe (n : Notice) (s : State) : (notifyOperator n s).pe = s.pe :=
  pushEntry_pe (fun r => by simp) _ s

theorem peerRestarted_pe (old mark : Mark) : (peerRestarted p old mark s).pe = s.pe := by
  rw [peerRestarted_eq, notifyOperator_pe, cleared_pe, freshenAll_pe]

theorem peerRestarted_pu (old mark : Mark) : (peerRestarted p old mark s).pu =
    { s.pu with peerMark := some mark, peerRestarts := satInc s.pu.peerRestarts } := by
  have h : (freshenAll allStreams s).pu = s.pu := by simp
  have hnotice (n : Notice) (x : State) : (notifyOperator n x).pu = x.pu := by simp
  rw [peerRestarted_eq, hnotice, cleared_pu, h]

/-- The receive counters and the lanes are those of the deliveries, then of the notice; RD and LI, and for the notice TB, are
all that counts of the state in which the restart is found. -/
theorem peerRestarted_streamCounters {u : State} (hrd : u.rd = s.rd) (hli : u.li = s.li) (old mark : Mark) :
    (peerRestarted p old mark u).rd.streamCounters = (deliverAll (heldBy s allStreams) s).rd.streamCounters := by
  have hnotice (n : Notice) (x : State) : (notifyOperator n x).rd = x.rd := by simp
  rw [peerRestarted_eq, hnotice, cleared_streamCounters, (freshenStreams_alike hrd hli).2]

theorem peerRestarted_li {u : State} (hrd : u.rd = s.rd) (hli : u.li = s.li) (htb : u.tb = s.tb) (old mark : Mark) :
    (peerRestarted p old mark u).li =
      (notifyOperator (.peerRestart p (some old) mark) (deliverAll (heldBy s allStreams) s)).li := by
  rw [peerRestarted_eq]
  refine pushNotice_li ?_ ((cleared_li mark _).trans (freshenStreams_alike hrd hli).1) _ _
  have hall : (deliverAll (heldBy s allStreams) s).tb = s.tb := by simp
  have hfresh : (freshenAll allStreams u).tb = u.tb := by simp
  rw [cleared_tb, hall, hfresh, htb]

theorem peerRestarted_fresh (old mark : Mark) (st : StreamId) : IsFresh ((peerRestarted p old mark s).record st) := by
  rw [peerRestarted_eq, State.record_of (s := cleared mark (freshenAll allStreams s)) (by simp), cleared_record]
  exact freshenAll_fresh (.inl (mem_allStreams st))

theorem peerRestarted_context (old mark : Mark) (q : PathId) (st : StreamId) :
    (peerRestarted p old mark s).context q st = none := by
  rw [peerRestarted_eq, State.context_of (s := cleared mark (freshenAll allStreams s)) (by simp), cleared_context]

theorem peerRestarted_mgmtLane (old mark : Mark) (h : (s.lane mgmtLane).queue.length < 64) :
    ((peerRestarted p old mark s).lane mgmtLane).queue = (s.lane mgmtLane).queue ++
      [.notice (capture s).stamp (capture s).lock (.peerRestart p (some old) mark)] := by
  have hkept := deliverAll_mgmtLane (heldBy s allStreams) s
  have hcap : capture (deliverAll (heldBy s allStreams) s) = capture s := by simp [capture]
  rw [State.lane_of (peerRestarted_li rfl rfl rfl old mark), notifyOperator, pushNotice, pushEntry_room (by rwa [hkept]), hkept, hcap]

theorem checkMark_peerMark (mark : Mark) : (checkMark p mark s).pu.peerMark = some mark := by
  rcases hm : s.pu.peerMark with _ | old
  · rw [checkMark_first hm]
  · by_cases h : old = mark
    · rw [checkMark_known (h ▸ hm), hm, h]
    · rw [checkMark_restarted hm h, peerRestarted_pu]

/-! ## The echo entry (R42) -/

theorem modPu_congr {f g : PuPath → PuPath} (h : f (s.puPath p) = g (s.puPath p)) : s.modPu p f = s.modPu p g := by
  unfold State.modPu upd
  rw [show f s.pu.paths[p] = g s.pu.paths[p] from h]

/-- PU's row after a PROBE has been queued for an ECHO, or counted. -/
def echoQueued (state : PathState) (e : EchoEntry) (y : PuPath) : PuPath :=
  if state = .off then { y with counters := { y.counters with whileOff := satInc y.counters.whileOff } }
  else if y.echoes.length < 4 then { y with echoes := y.echoes ++ [e] }
  else { y with counters := { y.counters with echoOverflows := satInc y.counters.echoOverflows } }

theorem takeProbe_eq (number : BitVec 8) (t1 : Stamp) (mark : Mark) (t2 : Capture) : takeProbe p number t1 mark t2 s =
    (checkMark p mark s).modPu p (echoQueued (s.path p).state { number := number, t1 := t1, t2 := t2.stamp, farEpoch := t2.epoch }) := by
  have hpath : (checkMark p mark s).path p = s.path p := State.path_of (by simp) p
  unfold takeProbe
  dsimp only
  rw [hpath]
  split
  · next h => exact modPu_congr (by rw [echoQueued, if_pos h])
  · next h =>
    split
    · next hfull => exact modPu_congr (by rw [echoQueued, if_neg h, if_neg (by omega)])
    · next hroom => exact modPu_congr (by rw [echoQueued, if_neg h, if_pos (by omega)])

end

/-- Settles O28: the start mark is checked first, then the PROBE is queued on what that left. -/
theorem probeArrivalChecksTheMarkAndQueuesAnEcho : Obligations.ProbeArrivalChecksTheMarkAndQueuesAnEcho := by
  unfold Obligations.ProbeArrivalChecksTheMarkAndQueuesAnEcho
  intro s p cell h k y counted
  refine ⟨fun hcrc => ?_, fun hcrc h4 h5 h6 => ?_, fun hcrc h6 => ?_, fun number t1 mark hcrc hx => ?_⟩
  · have hexec : exec (.controlCellArrival p cell) s =
        .next (s.countPort p fun c => { c with controlCrcErrors := satInc c.controlCrcErrors }) := by
      simp [exec, execControlCellArrival, portWorks_of_working h, hcrc]
    exact ⟨_, hexec, rfl, countPort_portsBut p _ s⟩
  · exact ⟨_, exec_controlCellArrival h hcrc (decodeControlCell_malformed h4 h5 h6), rfl, countPort_portsBut p _ s⟩
  · exact ⟨_, exec_controlCellArrival h hcrc (decodeControlCell_empty h6), rfl, countPort_portsBut p _ s⟩
  · intro held entry queued
    set u := s.countPort p fun c => { c with probeReceived := satInc c.probeReceived } with hu
    have hexec : exec (.controlCellArrival p cell) s = .next ((checkMark p mark u).modPu p (echoQueued (s.path p).state entry)) := by
      rw [exec_controlCellArrival h hcrc hx, takeControlCell, takeProbe_eq]
      rfl
    have hrow (q : PathId) : (checkMark p mark u).puPath q = s.puPath q := by simp [State.puPath, hu]
    have hport (q : PathId) : ((checkMark p mark u).modPu p (echoQueued (s.path p).state entry)).port q = u.port q :=
      State.port_of (by simp) q
    obtain ⟨hothers, hcounted⟩ := countPort_portsBut p (fun c => { c with probeReceived := satInc c.probeReceived }) s
    refine ⟨_, hexec, ⟨fun q hq => (hport q).trans (hothers q hq), (hport p).trans hcounted⟩, ?_, fun q hq => ?_,
      checkMark_peerMark mark, ?_, fun hm => ?_, fun old hold hne => ?_⟩
    · rw [State.puPath_modPu_same, hrow]; rfl
    · rw [State.puPath_modPu, if_neg hq, hrow]
    · simp [hu]
    · rcases hm with hm | hm
      · rw [checkMark_first (s := u) hm]
        exact ⟨rfl, rfl⟩
      · rw [checkMark_known (s := u) hm]
        exact ⟨rfl, rfl⟩
    · rw [checkMark_restarted (s := u) hold hne]
      have hfresh := peerRestarted_fresh (s := u) (p := p) old mark
      have hempty := peerRestarted_context (s := u) (p := p) old mark
      have hpu := peerRestarted_pu (s := u) (p := p) old mark
      have hpe := peerRestarted_pe (s := u) (p := p) old mark
      have hcounters := peerRestarted_streamCounters (p := p) (s := s) (u := u) rfl rfl old mark
      have hli := peerRestarted_li (p := p) (s := s) (u := u) rfl rfl rfl old mark
      have hlane := peerRestarted_mgmtLane (p := p) (s := u) old mark
      have hframe := peerRestarted_frame p old mark u
      generalize peerRestarted p old mark u = v at *
      refine ⟨hfresh, hempty, congrArg ProbeUnit.peerRestarts hpu, ?_, ?_, hli, hlane⟩
      · exact state_ext (by simp [hframe, hpe, hu])
      · change v.rd = { s.rd with
          contexts := v.rd.contexts, records := v.rd.records,
          streamCounters := (deliverAll (heldBy s allStreams) s).rd.streamCounters }
        have hpaths : v.rd.pathCounters = s.rd.pathCounters := by simp [hframe, hu]
        simp only [← hcounters, ← hpaths]

end Sys2Proof.Proofs
end

