-- ==== Sys2Proof/Proofs/HopReports.lean ====
section
/-!
A hop report frame, and what each item of it does to its hop (R14, R57 to R66, R72, R73).
-/

namespace Sys2Proof.Proofs

open Sys2Proof.Machine Sys2Proof.Claims

/-! ## Notices to the operator -/

theorem notifyOperator_tb (n : Notice) (s : State) : (notifyOperator n s).tb = s.tb := by simp

/-- A notice changes LI only. -/
theorem notifyOperator_eq (n : Notice) (s : State) : notifyOperator n s = { s with li := (notifyOperator n s).li } :=
  state_ext (by simp [notifyOperator_pe])

theorem notified_append (l : List Notice) (n : Notice) (s : State) : notified (l ++ [n]) s = notifyOperator n (notified l s) := by
  simp [notified]

theorem notified_tb (l : List Notice) (s : State) : (notified l s).tb = s.tb := by
  induction l generalizing s with
  | nil => rfl
  | cons n l ih => exact (ih _).trans (notifyOperator_tb n s)

/-! ## One hop, the counters of its path, and the notices of an event -/

/-- The state after an event has made a hop record, its path's counters and some notices. -/
def hopTold (p : PathId) (h : HopId) (y : Hop) (k : HsCounters) (l : List Notice) (s : State) : State :=
  { (s.modHop p h fun _ => y).countHs p fun _ => k with li := (notified l s).li }

section
variable (p : PathId) (h : HopId) (y : Hop) (k : HsCounters) (l : List Notice) (s : State)

theorem hopTold_start : hopTold p h (s.hop p h) s.hs.counters[p] [] s = s := by
  have hrow : upd s.hs.hops[p] h (fun _ => s.hop p h) = s.hs.hops[p] := vector_set_same rfl
  have hhops : upd s.hs.hops p (fun v => upd v h fun _ => s.hop p h) = s.hs.hops := vector_set_same hrow.symm
  have hcounters : upd s.hs.counters p (fun _ => s.hs.counters[p]) = s.hs.counters := vector_set_same rfl
  unfold hopTold State.countHs State.modHop
  rw [hhops, hcounters]
  rfl

theorem hopTold_hop : (hopTold p h y k l s).hop p h = y := State.hop_modHop_same s p h fun _ => y

theorem hopTold_path (q : PathId) : (hopTold p h y k l s).path q = s.path q := rfl

theorem hopTold_counters : (hopTold p h y k l s).hs.counters[p] = k := (upd_get _ p p _).trans (if_pos rfl)

theorem hopTold_hopsBut : hopsBut p h s (hopTold p h y k l s) := fun q i hi =>
  (State.hop_modHop s p q h i fun _ => y).trans (if_neg hi)

theorem hopTold_countersBut : hopCountersBut p s (hopTold p h y k l s) :=
  ⟨fun q hq => (upd_get _ p q _).trans (if_neg hq), rfl⟩

theorem hopTold_only : hopTold p h y k l s = { s with hs := (hopTold p h y k l s).hs, li := (hopTold p h y k l s).li } := rfl

theorem hopTold_modHop (f : Hop → Hop) : (hopTold p h y k l s).modHop p h f = hopTold p h (f y) k l s := by
  simp only [hopTold, State.modHop, State.countHs, upd_upd]

theorem hopTold_countHs (f : HsCounters → HsCounters) : (hopTold p h y k l s).countHs p f = hopTold p h y (f k) l s := by
  simp only [hopTold, State.countHs, upd_upd]

theorem hopTold_notify (n : Notice) : notifyOperator n (hopTold p h y k l s) = hopTold p h y k (l ++ [n]) s := by
  have hli : (notifyOperator n (hopTold p h y k l s)).li = (notified (l ++ [n]) s).li := by
    rw [notified_append]
    exact pushNotice_li (x := hopTold p h y k l s) (notified_tb l s).symm rfl mgmtLane n
  rw [notifyOperator_eq, hli]
  rfl

end

/-! ## The usable slot count (R71) -/

theorem usableOf_congr (cfg : PathSettings) {v w : Vector Hop 12} (h : ∀ i : HopId, hopRate v[i] = hopRate w[i]) :
    usableOf cfg (pathHops cfg v) = usableOf cfg (pathHops cfg w) := by
  unfold usableOf pathHops
  simp only [List.foldl_map, h]

/-- What a report's errors change is no part of the usable slot count. -/
theorem hopTold_usable (p : PathId) (h : HopId) {y z : Hop} (hrate : z.rateStep = y.rateStep)
    (hunreported : z.unreported = y.unreported) (k k' : HsCounters) (l l' : List Notice) (s : State) :
    ((hopTold p h z k l s).condition p).usable = ((hopTold p h y k' l' s).condition p).usable := by
  refine usableOf_congr _ fun i => ?_
  change hopRate ((hopTold p h z k l s).hop p i) = hopRate ((hopTold p h y k' l' s).hop p i)
  by_cases hi : i = h
  · rw [hi, hopTold_hop, hopTold_hop, hopRate, hopRate, hrate, hunreported]
  · have hne : ¬(p = p ∧ i = h) := fun e => hi e.2
    rw [hopTold_hopsBut p h z k l s p i hne, hopTold_hopsBut p h y k' l' s p i hne]

/-! ## The report's level (R60 to R64) -/

theorem worseThan_iff (a b : HopState) : worseThan a b = true ↔ badness b < badness a := by
  cases a <;> cases b <;> decide

theorem qualifies_iff (cfg : PathSettings) (state level : HopState) (avg : Int) :
    qualifies cfg state level avg = true ↔ recovers cfg state level avg := by
  cases state <;> simp [qualifies, leavingThreshold, recovers, worseThan_iff, badness]

theorem oneUp_of_badness {a b : HopState} (h : badness a = badness b + 1) : oneUp a = b := by
  cases a <;> cases b <;> simp [badness, oneUp] at h ⊢

/-- The counters after a report has been judged (R62, R64). -/
def judgedCounters (cause : Option HopCause) (k : HsCounters) : HsCounters :=
  match cause with
  | some .report => { k with degradations := satInc k.degradations }
  | some .dwell => { k with recoveries := satInc k.recoveries }
  | _ => k

/-- The notice of a move that a report makes (R73). -/
def moveNotices (p : PathId) (h : HopId) (old : HopState) (y : Hop) (usable : Nat) (cause : Option HopCause) : List Notice :=
  match cause with
  | none => []
  | some c => if enabledFor y.enables c y.state then [.hopState p h old y.state c y.averaged y.rateStep usable] else []

theorem moveNotices_eq {y : Hop} {e : Enables} {avg : Option Int} {rate : Nat} (he : y.enables = e) (ha : y.averaged = avg)
    (hr : y.rateStep = rate) (p : PathId) (h : HopId) (old : HopState) {usable : Nat} (cause : Option HopCause) :
    moveNotices p h old y usable cause = match cause with
      | none => []
      | some c => if enabledFor e c y.state = true then [.hopState p h old y.state c avg rate usable] else [] := by
  unfold moveNotices
  rw [he, ha, hr]

theorem degrade_told (p : PathId) (h : HopId) (level : HopState) (x : Hop) (k : HsCounters) (s : State) :
    let y := { x with state := level, dwellTimer := none }
    degrade p h level (hopTold p h x k [] s) = hopTold p h y (judgedCounters (some .report) k)
      (moveNotices p h x.state y ((hopTold p h y k [] s).condition p).usable (some .report)) s := by
  intro y
  have henabled : worseEnabled y.enables level = enabledFor y.enables .report y.state := by
    cases level <;> rfl
  unfold degrade moveNotices
  dsimp only
  rw [hopTold_hop, hopTold_modHop, hopTold_countHs, hopTold_hop, henabled]
  split
  · rw [notifyHop, hopTold_hop, hopTold_notify]
    rfl
  · rfl

theorem dwellUp_told (p : PathId) (h : HopId) (x : Hop) (k : HsCounters) (s : State) :
    let y := { x with state := oneUp x.state, dwellTimer := none }
    dwellUp p h (hopTold p h x k [] s) = hopTold p h y (judgedCounters (some .dwell) k)
      (moveNotices p h x.state y ((hopTold p h y k [] s).condition p).usable (some .dwell)) s := by
  intro y
  have henabled : y.enables.recovery = enabledFor y.enables .dwell y.state := rfl
  unfold dwellUp moveNotices
  dsimp only
  rw [hopTold_hop, hopTold_modHop, hopTold_countHs, hopTold_hop, henabled]
  split
  · rw [notifyHop, hopTold_hop, hopTold_notify]
    rfl
  · rfl

/-- A report moves the hop, its counters and the lanes as `Judged` says. -/
theorem judgeReport_told {p : PathId} {h : HopId} {level : HopState} {avg : Int} {x y : Hop} {cause : Option HopCause}
    {k : HsCounters} {s : State} (hj : Judged (s.path p).settings level avg x y cause) :
    judgeReport p h level avg (hopTold p h x k [] s) = hopTold p h y (judgedCounters cause k)
      (moveNotices p h x.state y ((hopTold p h y k [] s).condition p).usable cause) s := by
  have hsame (b : badness level ≤ badness x.state) : worseThan level x.state ≠ true := by
    rw [Ne, worseThan_iff]; omega
  unfold judgeReport
  dsimp only
  rw [hopTold_hop]
  cases hj with
  | first hu => rw [if_pos hu, hopTold_modHop]; rfl
  | worse hu hb => rw [if_neg (by simp [hu]), if_pos ((worseThan_iff _ _).mpr hb), degrade_told]
  | dwells hu hb hr hd =>
    rw [if_neg (by simp [hu]), if_neg (hsame hb), considerDwell]
    rw [hopTold_hop, hopTold_path, if_pos ((qualifies_iff _ _ _ _).mpr hr), if_pos hd]
    rfl
  | starts hu hb hr hd hms =>
    rw [if_neg (by simp [hu]), if_neg (hsame hb), considerDwell]
    rw [hopTold_hop, hopTold_path, if_pos ((qualifies_iff _ _ _ _).mpr hr), if_neg (by simp [hd]), if_neg (Nat.ne_of_gt hms),
      hopTold_modHop]
    rfl
  | rises hu hb hr hd hms up hup =>
    have hy : { x with state := oneUp x.state, dwellTimer := none } = { x with state := up } := by
      rw [oneUp_of_badness hup, ← hd]
    rw [if_neg (by simp [hu]), if_neg (hsame hb), considerDwell]
    rw [hopTold_hop, hopTold_path, if_pos ((qualifies_iff _ _ _ _).mpr hr), if_neg (by simp [hd]), if_pos hms, dwellUp_told, hy]
  | stays hu hb hr =>
    rw [if_neg (by simp [hu]), if_neg (hsame hb), considerDwell]
    rw [hopTold_hop, hopTold_path, if_neg (mt (qualifies_iff _ _ _ _).mp hr), hopTold_modHop]
    rfl

/-! ## Corrected blocks (R66) -/

/-- The counters after the errors of a report have been added. -/
def erredCounters (x : Hop) (k : HsCounters) : HsCounters :=
  if overDue x then { k with overEvents := satInc k.overEvents } else k

/-- The notice of a flag that sets (R73). -/
def overNotices (p : PathId) (h : HopId) (b : Branch) (x : Hop) : List Notice :=
  if overDue x then
    if x.enables.overEnable then [.overThreshold p h x.errorCount x.errorThreshold (some b)] else []
  else []

/-- A hop with the corrected blocks of a report in its error count. -/
def withErrors (c : Nat) (x : Hop) : Hop := { x with errorCount := min 65535 (x.errorCount + c) }

theorem addErrors_told (p : PathId) (h : HopId) (c : Nat) (b : Branch) (x : Hop) (k : HsCounters) (l : List Notice) (s : State) :
    addErrors p h c b (hopTold p h x k l s) = hopTold p h (flagIfDue (some b) (withErrors c x))
      (erredCounters (withErrors c x) k) (l ++ overNotices p h b (withErrors c x)) s := by
  unfold addErrors flagIfDue erredCounters overNotices
  dsimp only
  rw [hopTold_modHop, hopTold_hop]
  change (if overDue (withErrors c x) then setOver p h (some b) (hopTold p h (withErrors c x) k l s) else _) = _
  split
  · rw [setOver, hopTold_modHop, hopTold_countHs, hopTold_hop]
    dsimp only
    split
    · rw [notifyOver, hopTold_hop, hopTold_notify]
    · rw [List.append_nil]
  · rw [List.append_nil]
    rfl

/-! ## An item -/

theorem handIfChanged_eq (p : PathId) (s u : State) : handIfChanged (s.condition p) p u = handsOver p s u := rfl

/-- An item for a hop moves the hop, its counters and the lanes as `Judged` and R66 say, and hands the condition over. -/
theorem handleItem_eq {p : PathId} {h : HopId} {it : HopItem} {s : State} {base y : Hop} {avg : Int} {cause : Option HopCause}
    (hbase : takeMargin (clampInt (-1000) 1000 it.margin) (min it.rateStep 7) (s.hop p h) = base) (havg : averageOf base = avg)
    (hj : Judged (s.path p).settings (reportLevel (s.path p).settings avg (min it.rateStep 7) it.uncorrectable) avg base y cause) :
    let k := { s.hs.counters[p] with taken := satInc s.hs.counters[p].taken }
    handleItem p h it s = handsOver p s (hopTold p h (flagIfDue (some it.branch) (withErrors it.corrected y))
      (erredCounters (withErrors it.corrected y) (judgedCounters cause k))
      (moveNotices p h base.state y ((hopTold p h y k [] s).condition p).usable cause ++
        overNotices p h it.branch (withErrors it.corrected y)) s) := by
  intro k
  have hstart : (s.countHs p fun c => { c with taken := satInc c.taken }).modHop p h
      (takeMargin (clampInt (-1000) 1000 it.margin) (min it.rateStep 7)) = hopTold p h base k [] s := by
    conv_lhs => rw [← hopTold_start p h s]
    rw [hopTold_countHs, hopTold_modHop, hbase]
  unfold handleItem
  dsimp only
  rw [hstart, hopTold_hop, hopTold_path, havg, judgeReport_told hj, addErrors_told, handIfChanged_eq]

/-- What no report's level touches. -/
theorem judged_keeps {cfg : PathSettings} {level : HopState} {avg : Int} {x y : Hop} {cause : Option HopCause}
    (hj : Judged cfg level avg x y cause) : y.overFlag = x.overFlag ∧ y.errorCount = x.errorCount ∧
      y.errorThreshold = x.errorThreshold ∧ y.enables = x.enables ∧ y.averaged = x.averaged ∧ y.rateStep = x.rateStep := by
  cases hj <;> exact ⟨rfl, rfl, rfl, rfl, rfl, rfl⟩

theorem overDue_iff (x : Hop) : overDue x = true ↔ x.overFlag = false ∧ x.errorThreshold ≤ x.errorCount := by
  simp [overDue]

theorem flagIfDue_keeps (b : Option Branch) (x : Hop) :
    (flagIfDue b x).rateStep = x.rateStep ∧ (flagIfDue b x).unreported = x.unreported := by
  unfold flagIfDue
  split <;> exact ⟨rfl, rfl⟩

theorem erredCounters_moves (x : Hop) (k : HsCounters) : (erredCounters x k).taken = k.taken ∧
    (erredCounters x k).degradations = k.degradations ∧ (erredCounters x k).recoveries = k.recoveries := by
  unfold erredCounters
  split <;> exact ⟨rfl, rfl, rfl⟩

theorem judgedCounters_moves (cause : Option HopCause) (k : HsCounters) : (judgedCounters cause k).taken = k.taken ∧
    (judgedCounters cause k).degradations = (if cause = some .report then satInc k.degradations else k.degradations) ∧
    (judgedCounters cause k).recoveries = (if cause = some .dwell then satInc k.recoveries else k.recoveries) ∧
    (judgedCounters cause k).overEvents = k.overEvents := by
  rcases cause with _ | _ | _ | _ <;> exact ⟨rfl, rfl, rfl, rfl⟩

/-- `handleItem_eq`, told by what the event leaves; the notice's usable slot count is the one then. -/
theorem handleItem_told {p : PathId} {h : HopId} {it : HopItem} {s : State} {base y : Hop} {avg : Int} {cause : Option HopCause}
    (hbase : takeMargin (clampInt (-1000) 1000 it.margin) (min it.rateStep 7) (s.hop p h) = base) (havg : averageOf base = avg)
    (hj : Judged (s.path p).settings (reportLevel (s.path p).settings avg (min it.rateStep 7) it.uncorrectable) avg base y cause) :
    ∃ u, handleItem p h it s = handsOver p s u ∧ hopsBut p h s u ∧ hopCountersBut p s u ∧
      u.hop p h = flagIfDue (some it.branch) (withErrors it.corrected y) ∧
      u.hs.counters[p] = erredCounters (withErrors it.corrected y)
        (judgedCounters cause { s.hs.counters[p] with taken := satInc s.hs.counters[p].taken }) ∧
      u.li = (notified (moveNotices p h base.state y (u.condition p).usable cause ++
        overNotices p h it.branch (withErrors it.corrected y)) s).li ∧
      u = { s with hs := u.hs, li := u.li } := by
  obtain ⟨hrate, hunreported⟩ := flagIfDue_keeps (some it.branch) (withErrors it.corrected y)
  refine ⟨_, handleItem_eq hbase havg hj, hopTold_hopsBut p h _ _ _ s, hopTold_countersBut p h _ _ _ s, hopTold_hop ..,
    hopTold_counters .., ?_, hopTold_only ..⟩
  exact congrArg (fun n => (notified (moveNotices p h base.state y n cause ++ _) s).li)
    (hopTold_usable p h (y := y) hrate hunreported _ _ _ _ s).symm

/-! ## The tests of a frame (R14) and of an item (R57) -/

theorem length_decodeHopItems (n : Nat) (l : List Byte) : (decodeHopItems n l).length = n := by
  induction n generalizing l with
  | zero => rfl
  | succ n ih => rw [decodeHopItems, List.length_cons, ih]

/-- The tests that a hop report frame has to pass. -/
def HopFrameGood (frame : List Byte) : Prop :=
  crcGood frame = true ∧ 1 ≤ nat1 frame 0 ∧ nat1 frame 0 ≤ 12 ∧ frame.length = 5 + 8 * nat1 frame 0

theorem decodeHopFrame_good {frame : List Byte} (h : HopFrameGood frame) :
    decodeHopFrame frame = some (decodeHopItems (nat1 frame 0) (frame.drop 1)) := by
  obtain ⟨hcrc, hone, hmax, hlen⟩ := h
  refine if_pos ?_
  simp only [Bool.and_eq_true, decide_eq_true_eq]
  exact ⟨⟨⟨hcrc, hone⟩, hmax⟩, by rw [hlen, nat1]; omega⟩

theorem decodeHopFrame_bad {frame : List Byte} (h : ¬HopFrameGood frame) : decodeHopFrame frame = none := by
  refine if_neg fun ht => h ?_
  simp only [Bool.and_eq_true, decide_eq_true_eq] at ht
  obtain ⟨⟨⟨hcrc, hone⟩, hmax⟩, hlen⟩ := ht
  exact ⟨hcrc, hone, hmax, by rw [hlen, nat1]; omega⟩

theorem countHs_countersBut (p : PathId) (f : HsCounters → HsCounters) (s : State) :
    hopCountersBut p s (s.countHs p f) ∧ (s.countHs p f).hs.counters[p] = f s.hs.counters[p] ∧
      s.countHs p f = { s with hs := { s.hs with counters := (s.countHs p f).hs.counters } } :=
  ⟨⟨fun q hq => (upd_get _ p q _).trans (if_neg hq), rfl⟩, (upd_get _ p p _).trans (if_pos rfl), rfl⟩

theorem takeItem_off {p : PathId} {it : HopItem} {s : State} (h : (s.path p).state = .off) :
    takeItem p it s = s.countHs p fun c => { c with whileOff := satInc c.whileOff } := by
  simp [takeItem, h]

theorem takeItem_badIndex {p : PathId} {it : HopItem} {s : State} (h : (s.path p).state ≠ .off)
    (hi : (s.path p).settings.hopCount ≤ it.index ∨ 12 ≤ it.index) :
    takeItem p it s = s.countHs p fun c => { c with badIndex := satInc c.badIndex } := by
  unfold takeItem
  rw [if_neg h]
  split
  · rfl
  · next i hidx =>
    have hlt : it.index < 12 := by
      by_contra hge
      simp [indexOf, hge] at hidx
    rw [if_neg (by omega)]

theorem takeItem_hop {p : PathId} {it : HopItem} {s : State} {h : HopId} (hoff : (s.path p).state ≠ .off)
    (hi : it.index = h.val) (hlt : it.index < (s.path p).settings.hopCount) : takeItem p it s = handleItem p h it s := by
  have hidx : indexOf 12 it.index = some h := by simp [indexOf, hi]
  simp only [takeItem, if_neg hoff, hidx, if_pos hlt]

/-- Settles O51: the frame's tests, then the item that no hop takes, then the item that its hop takes. -/
theorem hopReportsDriveTheHop : Obligations.HopReportsDriveTheHop := by
  unfold Obligations.HopReportsDriveTheHop
  refine ⟨fun s p frame hw => ?_, fun s p i => ?_⟩
  · intro k n passes
    by_cases hp : HopFrameGood frame
    · obtain ⟨hbut, hport⟩ := countPort_portsBut p (fun c => { c with reportFrames := satInc c.reportFrames }) s
      refine ⟨_, hbut, rfl, fun hno => absurd hp hno, fun _ => ⟨_, decodeHopFrame_good hp, length_decodeHopItems _ _, ?_, hport⟩⟩
      simp only [exec, execHopReportFrame, portWorks_of_working hw, if_true, decodeHopFrame_good hp]
    · obtain ⟨hbut, hport⟩ := countPort_portsBut p (fun c => { c with reportFrameErrors := satInc c.reportFrameErrors }) s
      refine ⟨_, hbut, rfl, fun _ => ⟨?_, hport⟩, fun hyes => absurd hyes hp⟩
      simp only [exec, execHopReportFrame, portWorks_of_working hw, if_true, decodeHopFrame_bad hp]
  · intro cfg k counted
    refine ⟨fun hoff => ?_, fun hoff hi => ?_, fun h hoff hi hlt => ?_⟩
    · simp only [counted, takeItem_off hoff]
      exact countHs_countersBut p _ s
    · simp only [counted, takeItem_badIndex hoff hi]
      exact countHs_countersBut p _ s
    · intro x ring n avg rate level base y cause hj errors sets
      obtain ⟨hflag, hcount, hthreshold, henables, haveraged, hrate⟩ := judged_keeps hj
      have herrors : withErrors i.corrected y = { y with errorCount := errors } := by
        simp only [withErrors, hcount]
        rfl
      have hsets : overDue (withErrors i.corrected y) = true ↔ sets := by
        rw [overDue_iff, herrors]
        dsimp only
        rw [hflag, hthreshold]
      obtain ⟨u, hitem, hhops, hcounters, hhop, hk, hli, honly⟩ := handleItem_told (p := p) (h := h) (it := i) (s := s)
        (base := base) rfl rfl hj
      have hflagged (flagged : List Notice) (hset : sets → flagged = if x.enables.overEnable = true then
          [.overThreshold p h errors x.errorThreshold (some i.branch)] else []) (hclear : ¬sets → flagged = []) :
          flagged = overNotices p h i.branch (withErrors i.corrected y) := by
        unfold overNotices
        by_cases hs : sets
        · rw [hset hs, if_pos (hsets.mpr hs), herrors]
          dsimp only
          rw [henables, hthreshold]
        · rw [hclear hs, if_neg (mt hsets.mp hs)]
      obtain ⟨htaken, hdegradations, hrecoveries⟩ :=
        erredCounters_moves (withErrors i.corrected y) (judgedCounters cause { k with taken := satInc k.taken })
      obtain ⟨htaken', hdegradations', hrecoveries', hover'⟩ := judgedCounters_moves cause { k with taken := satInc k.taken }
      refine ⟨u, (takeItem_hop hoff hi hlt).trans hitem, hhops, hcounters, fun hs => ?_, fun hs => ?_,
        ⟨?_, ?_, ?_, fun hs => ?_, fun hs => ?_⟩, fun flagged hset hclear => ?_, honly⟩
      · rw [hhop, flagIfDue, if_pos (hsets.mpr hs), herrors]
      · rw [hhop, flagIfDue, if_neg (mt hsets.mp hs), herrors]
      · rw [hk, htaken, htaken']
      · rw [hk, hdegradations, hdegradations']
      · rw [hk, hrecoveries, hrecoveries']
      · rw [hk, erredCounters, if_pos (hsets.mpr hs)]
        exact congrArg satInc hover'
      · rw [hk, erredCounters, if_neg (mt hsets.mp hs)]
        exact hover'
      · rw [hli, hflagged flagged hset hclear]
        exact congrArg (fun l => (notified (l ++ _) s).li) (moveNotices_eq henables haveraged hrate p h base.state cause)

end Sys2Proof.Proofs
end

