-- ==== Sys2Proof/Proofs/SlotGrants.lean ====
section
/-!
The resolution of a slot opportunity (R98 to R102): who has traffic, who may win, and which of the five outcomes it is.
-/

namespace Sys2Proof.Proofs

open Sys2Proof.Machine Sys2Proof.Claims

/-! ## The first of a list in a rising order -/

theorem find?_first {α : Type} {f : α → Bool} {g : α → Nat} {l : List α} (hl : l.Pairwise (g · < g ·)) {w : α} (hw : w ∈ l)
    (hf : f w = true) (hmin : ∀ v ∈ l, f v = true → g w ≤ g v) : l.find? f = some w := by
  induction l with
  | nil => cases hw
  | cons a l ih =>
    obtain ⟨ha, hl⟩ := List.pairwise_cons.mp hl
    rcases List.mem_cons.mp hw with rfl | hmem
    · exact List.find?_cons_of_pos hf
    · have hno : ¬f a = true := fun h => absurd (hmin a List.mem_cons_self h) (Nat.not_le.mpr (ha w hmem))
      rw [List.find?_cons_of_neg hno]
      exact ih hl hmem fun v hv => hmin v (List.mem_cons_of_mem a hv)

theorem find?_least {α : Type} {f : α → Bool} {g : α → Nat} {l : List α} (hl : l.Pairwise (g · < g ·)) {w : α}
    (h : l.find? f = some w) {v : α} (hv : v ∈ l) (hf : f v = true) : g w ≤ g v := by
  induction l with
  | nil => cases hv
  | cons a l ih =>
    obtain ⟨ha, hl⟩ := List.pairwise_cons.mp hl
    by_cases hfa : f a = true
    · rw [List.find?_cons_of_pos hfa] at h
      cases h
      rcases List.mem_cons.mp hv with rfl | hmem
      · exact Nat.le_refl _
      · exact Nat.le_of_lt (ha v hmem)
    · rw [List.find?_cons_of_neg hfa] at h
      rcases List.mem_cons.mp hv with rfl | hmem
      · exact absurd hf hfa
      · exact ih hl h hmem

/-- The streams of a tenant stand in class order. -/
theorem streamsOf_pairwise (w : TenantId) : (streamsOf w).Pairwise (classCode ·.cls < classCode ·.cls) := by
  simp [streamsOf, allClasses, classCode]

/-- The arbiter examines the tenants in the order of their turns. -/
theorem roundRobin_pairwise (pointer : TenantId) : (roundRobin pointer).Pairwise (turn pointer · < turn pointer ·) := by
  revert pointer; decide

theorem mem_roundRobin (pointer w : TenantId) : w ∈ roundRobin pointer := by
  revert pointer w; decide

/-! ## Traffic (R98) -/

theorem inService_iff (x : PathState) : inService x = true ↔ x = .clear ∨ x = .watch ∨ x = .fading := by
  cases x <;> simp [inService]

/-- A copy that a grant on the path could serve. -/
def servable (m : Message) (p : PathId) (c : Option Copy) : Bool :=
  match c with
  | none => false
  | some x => x.path == p && (match m.life with
    | .launching => x.state == .launching
    | .headRouted => true
    | _ => false)

theorem servable_iff {m : Message} {p : PathId} {o : Option Copy} :
    servable m p o = true ↔ ∃ c, o = some c ∧ carriesOn m p c := by
  cases o with
  | none => simp [servable]
  | some c => cases hl : m.life <;> simp [servable, carriesOn, hl]

theorem servableOn_eq (m : Message) (p : PathId) :
    servableOn m p = if servable m p m.copyA then some .a else if servable m p m.copyB then some .b else none := rfl

/-- The copy that `servableOn` names can carry a cell of the path. -/
theorem servableOn_copy {m : Message} {p : PathId} {name : CopyName} (h : servableOn m p = some name) :
    ∃ c, getCopy m name = some c ∧ carriesOn m p c := by
  rw [servableOn_eq] at h
  split at h
  · next ha => cases h; exact servable_iff.mp ha
  · split at h
    · next hb => cases h; exact servable_iff.mp hb
    · cases h

theorem streamServable_iff {s : State} {p : PathId} {st : StreamId} : streamServable s p st = true ↔
    ∃ m, (s.stream st).queue.head? = some m ∧
      ((∃ c, m.copyA = some c ∧ carriesOn m p c) ∨ ∃ c, m.copyB = some c ∧ carriesOn m p c) := by
  unfold streamServable headOf
  split
  · next h => simp [h]
  · next m h =>
    simp only [h, Option.some.injEq, exists_eq_left', ← servable_iff]
    rw [servableOn_eq]
    cases servable m p m.copyA <;> cases servable m p m.copyB <;> simp

theorem streamServable_name {s : State} {p : PathId} {st : StreamId} (h : streamServable s p st = true) :
    ∃ m name, headOf s st = some m ∧ servableOn m p = some name := by
  unfold streamServable at h
  split at h
  · cases h
  · next m hm =>
    obtain ⟨name, hname⟩ := Option.isSome_iff_exists.mp h
    exact ⟨m, name, hm, hname⟩

theorem any_streamsOf {w : TenantId} {f : StreamId → Bool} :
    (streamsOf w).any f = true ↔ ∃ cls, f { tenant := w, cls := cls } = true := by
  rw [List.any_eq_true]
  constructor
  · rintro ⟨⟨u, cls⟩, hmem, hf⟩
    cases (mem_streamsOf _ _).mp hmem
    exact ⟨cls, hf⟩
  · rintro ⟨cls, hf⟩
    exact ⟨_, (mem_streamsOf _ _).mpr rfl, hf⟩

theorem hasTraffic_iff {s : State} {w : TenantId} {p : PathId} : hasTraffic s w p = true ↔ traffic s w p := by
  unfold hasTraffic traffic
  simp only [Bool.and_eq_true, Bool.or_eq_true, any_streamsOf, inService_iff, streamServable_iff]

/-! ## Eligibility (R101, R102) -/

theorem wantsOpen_iff {s : State} {w : TenantId} {p : PathId} : wantsOpen s w p = true ↔ asks s w p := by
  unfold wantsOpen asks
  rw [Bool.and_eq_true, Bool.and_eq_true, hasTraffic_iff]
  exact ⟨fun ⟨⟨_, hmask⟩, htraffic⟩ => ⟨hmask, htraffic⟩, fun ⟨hmask, htraffic⟩ => ⟨⟨htraffic.1, hmask⟩, htraffic⟩⟩

theorem withinBudget_iff {s : State} {w : TenantId} {p : PathId} :
    withinBudget s w p = true ↔ ∀ b ∈ budgetOf s w p, (s.plan p).used[w] < b := by
  unfold withinBudget budgetOf
  cases (s.path p).state <;> simp [inService, budgetFor]
  all_goals exact decide_eq_true_iff

theorem eligible_iff {s : State} {w : TenantId} {p : PathId} : eligible s w p = true ↔ mayWin s w p := by
  unfold eligible mayWin
  rw [Bool.and_eq_true, wantsOpen_iff, withinBudget_iff]

/-- The arbiter's winner. -/
theorem roundRobin_find {s : State} {w : TenantId} {p : PathId} (hw : mayWin s w p)
    (hmin : ∀ v, mayWin s v p → turn (s.plan p).pointer w ≤ turn (s.plan p).pointer v) :
    (roundRobin (s.plan p).pointer).find? (fun t => eligible s t p) = some w :=
  find?_first (roundRobin_pairwise _) (mem_roundRobin _ w) (eligible_iff.mpr hw) fun v _ hv => hmin v (eligible_iff.mp hv)

theorem roundRobin_find_none {s : State} {p : PathId} (h : ∀ w, ¬mayWin s w p) :
    (roundRobin (s.plan p).pointer).find? (fun t => eligible s t p) = none :=
  List.find?_eq_none.mpr fun v _ hv => h v (eligible_iff.mp hv)

/-! ## The outcomes (Table 6-2) -/

theorem modPlan_modPlan (s : State) (p : PathId) (f g : Plan → Plan) :
    (s.modPlan p f).modPlan p g = s.modPlan p fun x => g (f x) := by
  simp only [State.modPlan, upd_upd]

/-- Count one outcome of the plan. -/
def planCounted (f : CsCounters → CsCounters) (pl : Plan) : Plan := { pl with counters := f pl.counters }

/-- The plan after an open or lent slot has been granted (R101). -/
def openGranted (serving lent : Bool) (w : TenantId) (pl : Plan) : Plan :=
  { pl with pointer := w, used := (if serving then upd pl.used w (· + 1) else pl.used),
            counters := if lent then { pl.counters with lentGrants := satInc pl.counters.lentGrants }
              else { pl.counters with openGrants := satInc pl.counters.openGrants } }

/-- The plan after a slot that no tenant could take (R101). -/
def slotUnclaimed (stop : Bool) : Plan → Plan :=
  planCounted fun c => { c with unclaimedSlots := satInc c.unclaimedSlots,
                                budgetStops := if stop then satInc c.budgetStops else c.budgetStops }

theorem arbiterGrant_eq (p : PathId) (lent : Bool) (w : TenantId) (s : State) :
    arbiterGrant p lent w s = s.modPlan p (openGranted (inService (s.path p).state) lent w) := by
  unfold arbiterGrant openGranted
  cases inService (s.path p).state <;> simp only [State.countCs, modPlan_modPlan, if_true, if_false, Bool.false_eq_true]

section
variable {s : State} {p : PathId} {k : SlotId}

theorem resolveSlot_shed (h : (s.path p).hopCond.usable ≤ k.val) :
    resolveSlot p k s = (none, s.modPlan p (planCounted fun c => { c with shedSlots := satInc c.shedSlots })) := by
  rw [resolveSlot, if_pos h]
  rfl

theorem resolveSlot_owner {w : TenantId} (h : k.val < (s.path p).hopCond.usable)
    (ho : slotOwner (activeBank (s.plan p)) (s.port p).parity k = .tenant w) (hw : traffic s w p) :
    resolveSlot p k s = (some w, s.modPlan p (planCounted fun c => { c with ownerGrants := satInc c.ownerGrants })) := by
  rw [resolveSlot, if_neg (by omega), ho]
  dsimp only
  rw [if_pos (hasTraffic_iff.mpr hw)]
  rfl

/-- Where no owner has traffic, the slot is open or lent. -/
theorem resolveSlot_arbiter (h : k.val < (s.path p).hopCond.usable)
    (hno : ∀ w, slotOwner (activeBank (s.plan p)) (s.port p).parity k = .tenant w → ¬traffic s w p) :
    resolveSlot p k s = resolveOpen p (decide (slotOwner (activeBank (s.plan p)) (s.port p).parity k ≠ .openSlot)) s := by
  rw [resolveSlot, if_neg (by omega)]
  split
  · next ho => simp [ho]
  · next w ho =>
    rw [if_neg (mt hasTraffic_iff.mp (hno w ho))]
    simp [ho]

theorem resolveOpen_winner {w : TenantId} (lent : Bool) (hw : mayWin s w p)
    (hmin : ∀ v, mayWin s v p → turn (s.plan p).pointer w ≤ turn (s.plan p).pointer v) :
    resolveOpen p lent s = (some w, s.modPlan p (openGranted (inService (s.path p).state) lent w)) := by
  rw [resolveOpen, roundRobin_find hw hmin]
  dsimp only
  rw [arbiterGrant_eq]

theorem resolveOpen_unclaimed (lent : Bool) (h : ∀ w, ¬mayWin s w p) :
    resolveOpen p lent s = (none, s.modPlan p (slotUnclaimed (allTenants.any fun t => wantsOpen s t p))) := by
  rw [resolveOpen, roundRobin_find_none h]
  rfl

end

/-- A resolution touches only the plan of the path, and no bank of it. -/
def OnlyCounts (g : Plan → Plan) : Prop := ∀ pl, activeBank (g pl) = activeBank pl

theorem resolveSlot_plan (p : PathId) (k : SlotId) (s : State) :
    ∃ g, (resolveSlot p k s).2 = s.modPlan p g ∧ OnlyCounts g := by
  have hopen (lent : Bool) : ∃ g, (resolveOpen p lent s).2 = s.modPlan p g ∧ OnlyCounts g := by
    unfold resolveOpen
    split
    · exact ⟨_, arbiterGrant_eq .., fun _ => rfl⟩
    · exact ⟨_, rfl, fun _ => rfl⟩
  unfold resolveSlot
  split
  · exact ⟨_, rfl, fun _ => rfl⟩
  · split
    · exact hopen false
    · split
      · exact ⟨_, rfl, fun _ => rfl⟩
      · exact hopen true

end Sys2Proof.Proofs
end

