-- ==== Sys2Proof/Proofs/StreamHeads.lean ====
section
/-!
What choosing for, starting, advancing and finishing the head of a stream reaches: that stream, the channels of its tenant, and
the route counters (R91, R110, R114 to R116).
-/

namespace Sys2Proof.Proofs

open Sys2Proof.Machine Sys2Proof.Claims

/-! ## Only one stream and its tenant's channels -/

/-- Every other stream and every other tenant's channel stands. -/
structure StreamLocal (st : StreamId) (s t : State) : Prop where
  streams : streamsBut st s t
  channels : ∀ u c, u ≠ st.tenant → t.channel u c = s.channel u c

section
variable {st : StreamId} {s t u : State}

theorem StreamLocal.trans (h : StreamLocal st s t) (k : StreamLocal st t u) : StreamLocal st s u where
  streams x hx := (k.streams x hx).trans (h.streams x hx)
  channels v c hv := (k.channels v c hv).trans (h.channels v c hv)

theorem StreamLocal.of_eq (hsq : t.sq = s.sq) (hpe : t.pe = s.pe) : StreamLocal st s t where
  streams x _ := State.stream_of hsq x
  channels v c _ := State.channel_of hpe v c

theorem modStream_local (st : StreamId) (f : Stream → Stream) (s : State) : StreamLocal st s (s.modStream st f) where
  streams x hx := by rw [State.stream_modStream, if_neg hx]
  channels _ _ _ := rfl

theorem modHead_local (st : StreamId) (f : Message → Message) (s : State) : StreamLocal st s (s.modHead st f) :=
  modStream_local st _ s

theorem applyRoute_local (fresh : Bool) (st : StreamId) (m : Message) (r : Option Route) (s : State) :
    StreamLocal st s (applyRoute fresh st m r s) := by
  have counted (x : State) (f : Message → Message) (hsq : x.sq = (s.modHead st f).sq) (hpe : x.pe = s.pe) : StreamLocal st s x :=
    (modHead_local st f s).trans (.of_eq hsq hpe)
  unfold applyRoute
  split
  · dsimp only
    split <;> exact counted _ _ rfl rfl
  · dsimp only
    split
    · split <;> exact counted _ _ rfl rfl
    · split
      · split <;> exact counted _ _ rfl rfl
      · split <;> exact counted _ _ rfl rfl

theorem chooseFor_local (fresh : Bool) (st : StreamId) (s : State) : StreamLocal st s (chooseFor fresh st s) := by
  unfold chooseFor
  split
  · exact .of_eq rfl rfl
  · split
    · exact applyRoute_local ..
    · exact applyRoute_local ..
    · exact .of_eq rfl rfl

theorem removeHead_local (st : StreamId) (s : State) : StreamLocal st s (removeHead st s) :=
  ((modStream_local st _ s).trans (modHead_local st _ _)).trans (chooseFor_local true st _)

/-- A channel that waits for room resubmits. -/
def toldRoom (ch : Channel) : Channel :=
  if ch.state = .waitingRoom then { ch with resubmissions := ch.resubmissions + 1 } else ch

theorem foldl_modChannel (t u : TenantId) (c : ChannelId) (f : Channel → Channel) {l : List ChannelId} (hl : l.Nodup) (s : State) :
    (l.foldl (fun x d => x.modChannel t d f) s).channel u c = if u = t ∧ c ∈ l then f (s.channel u c) else s.channel u c := by
  induction l generalizing s with
  | nil => simp
  | cons d l ih =>
    obtain ⟨hd, hl⟩ := List.nodup_cons.mp hl
    rw [List.foldl_cons, ih hl, State.channel_modChannel]
    by_cases hu : u = t
    · by_cases hc : c = d
      · subst hu hc; simp [hd]
      · simp [hu, hc]
    · simp [hu]

theorem tellRoom_channel (t u : TenantId) (c : ChannelId) (s : State) :
    (tellRoom t s).channel u c = if u = t then toldRoom (s.channel u c) else s.channel u c := by
  rw [tellRoom, foldl_modChannel t u c _ (by decide)]
  simp only [mem_allChannels, and_true]
  rfl

theorem tellRoom_local (st : StreamId) (s : State) : StreamLocal st s (tellRoom st.tenant s) where
  streams x _ := State.stream_of (by simp) x
  channels v c hv := by rw [tellRoom_channel, if_neg hv]

theorem finishHead_local (st : StreamId) (s : State) : StreamLocal st s (finishHead st s) :=
  ((modStream_local st _ s).trans (removeHead_local st _)).trans (tellRoom_local st _)

theorem reportLaunch_local (st : StreamId) (name : CopyName) (s : State) : StreamLocal st s (reportLaunch st name s) := by
  unfold reportLaunch
  dsimp only
  split
  · exact modHead_local ..
  · split
    · exact (modHead_local st _ s).trans (finishHead_local st _)
    · exact modHead_local ..

theorem startIfRouted_local (st : StreamId) (s : State) : StreamLocal st s (startIfRouted st s) := by
  unfold startIfRouted
  split
  · exact .of_eq rfl rfl
  · split
    · exact (modStream_local st _ s).trans (modHead_local st _ _)
    · exact .of_eq rfl rfl

end

/-! ## The head of a queue -/

section
variable {st : StreamId} {s : State} {m : Message} {rest : List Message}

theorem headOf_of_queue (hq : (s.stream st).queue = m :: rest) : headOf s st = some m := by
  rw [headOf, hq]
  rfl

theorem queue_of_headOf (h : headOf s st = some m) : (s.stream st).queue = m :: (s.stream st).queue.tail :=
  (List.cons_head?_tail h).symm

theorem modHead_stream (hq : (s.stream st).queue = m :: rest) (f : Message → Message) :
    (s.modHead st f).stream st = { s.stream st with queue := f m :: rest } := by
  rw [State.modHead, State.stream_modStream_same, hq]
  rfl

/-- A stream once its head has started (R114). -/
def startedStream (m : Message) (x : Stream) : Stream :=
  { x with seqCounter := (if m.seq = none then x.seqCounter + 1 else x.seqCounter),
           lastPath := (if m.copyA.isNone then x.lastPath else copyPath m.copyA),
           counters := countStart m.copyB.isSome x.counters }

/-- A head that has just started (R114). -/
def startedHead (lim : Nat) (seq : Seq) (m : Message) : Message :=
  { m with seq := some seq, life := .launching, routeWait := none, dual := m.copyB.isSome,
           copyA := m.copyA.map (startCopy lim), copyB := m.copyB.map (startCopy lim) }

theorem startIfRouted_routed (hq : (s.stream st).queue = m :: rest) (hl : m.life = .headRouted) :
    (startIfRouted st s).stream st = { startedStream m (s.stream st) with
      queue := startedHead (routeLimit s st) (m.seq.getD (s.stream st).seqCounter) m :: rest } := by
  rw [startIfRouted, headOf_of_queue hq]
  dsimp only
  rw [if_pos hl, startHead]
  rw [modHead_stream (m := m) (rest := rest) (by rw [State.stream_modStream_same]; exact hq), State.stream_modStream_same]
  simp [startedStream, startedHead]

theorem startIfRouted_launching (hq : (s.stream st).queue = m :: rest) (hl : m.life = .launching) : startIfRouted st s = s := by
  rw [startIfRouted, headOf_of_queue hq]
  dsimp only
  rw [if_neg (by simp [hl])]

/-- A head with a copy that a grant serves still has it once started. -/
theorem startIfRouted_getCopy {name : CopyName} {c : Copy} (hm : headOf s st = some m) (hc : getCopy m name = some c) :
    ∃ m' c', headOf (startIfRouted st s) st = some m' ∧ getCopy m' name = some c' := by
  have hq := queue_of_headOf hm
  by_cases hl : m.life = .headRouted
  · refine ⟨_, startCopy (routeLimit s st) c, by rw [headOf, startIfRouted_routed hq hl]; rfl, ?_⟩
    cases name
    · exact congrArg (Option.map _) hc
    · exact congrArg (Option.map _) hc
  · refine ⟨m, c, ?_, hc⟩
    rw [startIfRouted, hm]
    dsimp only
    rw [if_neg hl, hm]

end

end Sys2Proof.Proofs
end

