-- ==== Sys2Proof/Proofs/SlotLaunches.lean ====
section
/-!
What a granted slot carries: the ABORT or the DATA cell that R113 finds, and the slot opportunity as a whole (R4, R98 to R102).
-/

namespace Sys2Proof.Proofs

open Sys2Proof.Machine Sys2Proof.Claims

/-! ## The steps of R113 -/

theorem owedFirst_eq (s : State) (p : PathId) (l : List StreamId) : owedFirst s p l =
    (l.find? fun st => (s.stream st).owed[p].isSome).bind fun st => (s.stream st).owed[p].map (Spend.abort st) := by
  induction l with
  | nil => rfl
  | cons st l ih =>
    rw [owedFirst]
    cases h : (s.stream st).owed[p] with
    | some q => rw [List.find?_cons_of_pos (by rw [h]; rfl), Option.bind_some, h]; rfl
    | none => rw [List.find?_cons_of_neg (by rw [h]; decide)]; exact ih

theorem servableFirst_eq (s : State) (p : PathId) (l : List StreamId) : servableFirst s p l =
    (l.find? (streamServable s p)).bind fun st => ((headOf s st).bind (servableOn · p)).map (Spend.data st) := by
  have hserv (st : StreamId) : streamServable s p st = ((headOf s st).bind (servableOn · p)).isSome := by
    unfold streamServable
    cases headOf s st <;> rfl
  induction l with
  | nil => rfl
  | cons st l ih =>
    rw [servableFirst]
    cases h : (headOf s st).bind (servableOn · p) with
    | some q => rw [List.find?_cons_of_pos (by rw [hserv, h]; rfl), Option.bind_some, h]; rfl
    | none => rw [List.find?_cons_of_neg (by rw [hserv, h]; decide)]; exact ih

section
variable {s : State} {p : PathId} {w : TenantId}

/-- Step 1: the ABORT owed by the first stream that owes one. -/
theorem spendGrant_abort {st : StreamId} {q : Seq} (hw : st.tenant = w) (ho : (s.stream st).owed[p] = some q)
    (hmin : ∀ x : StreamId, x.tenant = w → (s.stream x).owed[p].isSome = true → classCode st.cls ≤ classCode x.cls) :
    spendGrant s w p = some (.abort st q) := by
  have hfirst := find?_first (f := fun x => (s.stream x).owed[p].isSome) (streamsOf_pairwise w) ((mem_streamsOf st w).mpr hw)
    (by rw [ho]; rfl) fun x hx hf => hmin x ((mem_streamsOf x w).mp hx) hf
  rw [spendGrant, owedFirst_eq, hfirst, Option.bind_some, ho]
  rfl

/-- Step 2: the first stream whose head has a cell for the path. -/
theorem spendGrant_data (hno : ∀ x : StreamId, x.tenant = w → (s.stream x).owed[p] = none) :
    spendGrant s w p = ((streamsOf w).find? (streamServable s p)).bind fun st =>
      ((headOf s st).bind (servableOn · p)).map (Spend.data st) := by
  have hnone : (streamsOf w).find? (fun x => (s.stream x).owed[p].isSome) = none :=
    List.find?_eq_none.mpr fun x hx => by rw [hno x ((mem_streamsOf x w).mp hx)]; decide
  rw [spendGrant, owedFirst_eq, hnone]
  exact servableFirst_eq s p _

end

/-! ## Cells of a port -/

/-- The port when a cell has begun to leave. -/
def cellSent (cell : SlotCell) (f : PortCounters → PortCounters) (x : Port) : Port :=
  { x with txCell := encodeSlotCell cell, counters := f x.counters }

/-- A DATA cell has begun to leave. -/
def dataSent (d : DataCell) : Port → Port := cellSent (.data d) fun c => { c with dataLaunched := satInc c.dataLaunched }

theorem launchIdle_eq (p : PathId) (s : State) :
    launchIdle p s = s.modPort p (cellSent .idle fun c => { c with idleLaunched := satInc c.idleLaunched }) :=
  putCell_countPort p _ _ s

theorem launchAbort_eq (p : PathId) (st : StreamId) (q : Seq) (s : State) : launchAbort p st q s =
    (s.modPort p (cellSent (.abort st q) fun c => { c with abortLaunched := satInc c.abortLaunched })).modStream st
      fun x => { x with owed := x.owed.set p none } := by
  rw [launchAbort, putCell_countPort]
  rfl

theorem launchFragment_eq {p : PathId} {st : StreamId} {name : CopyName} {s : State} {m : Message} {c : Copy}
    (hm : headOf s st = some m) (hc : getCopy m name = some c) : launchFragment p st name s =
      reportLaunch st name (s.modPort p (dataSent (dataCell s st m c.nextFrag))) := by
  rw [launchFragment, hm]
  dsimp only
  rw [hc]
  dsimp only
  rw [putCell_countPort]
  rfl

theorem launchIdle_carries (p : PathId) (s : State) : carriesIdle p s (launchIdle p s) := by
  rw [launchIdle_eq]
  have hport := State.port_modPort_same s p (cellSent .idle fun c => { c with idleLaunched := satInc c.idleLaunched })
  exact ⟨by rw [hport]; rfl, by rw [hport]; rfl, rfl⟩

/-- A granted DATA cell: of the first stream that has one, with the head started first (R113). -/
theorem launchGrant_data {p : PathId} {w : TenantId} {s : State} {st : StreamId} {m : Message} {name : CopyName}
    (hno : ∀ x : StreamId, x.tenant = w → (s.stream x).owed[p] = none)
    (hfirst : (streamsOf w).find? (streamServable s p) = some st) (hm : headOf s st = some m)
    (hname : servableOn m p = some name) : launchGrant p w s = launchFragment p st name (startIfRouted st s) := by
  have hspend : spendGrant s w p = some (.data st name) := by
    rw [spendGrant_data hno, hfirst, Option.bind_some, hm, Option.bind_some, hname]
    rfl
  rw [launchGrant, hspend]

/-- What every DATA launch leaves: the port's cell and count, the stream and its tenant's channels, and the route counters. -/
theorem launchFragment_effect {p : PathId} {st : StreamId} {name : CopyName} {s : State} {m : Message} {c : Copy}
    (hm : headOf (startIfRouted st s) st = some m) (hc : getCopy m name = some c) :
    let t := launchFragment p st name (startIfRouted st s)
    let d := dataCell (startIfRouted st s) st m c.nextFrag
    t.port p = dataSent d (s.port p) ∧ portsBut p s t ∧ StreamLocal st s t ∧
      t = { s with pp := t.pp, sq := { s.sq with streams := t.sq.streams },
                   rs := { t.rs with paths := s.rs.paths }, pe := { s.pe with channels := t.pe.channels } } := by
  intro t d
  set u := startIfRouted st s with hu
  have ht : t = reportLaunch st name (u.modPort p (dataSent d)) := launchFragment_eq hm hc
  have hpp : t.pp = (s.modPort p (dataSent d)).pp := by rw [ht]; simp [State.modPort, hu]
  refine ⟨(State.port_of hpp p).trans (State.port_modPort_same s p _), fun q hq => ?_, ?_, ?_⟩
  · rw [State.port_of hpp q]; exact modPort_portsBut p _ s q hq
  · rw [ht]
    have hsent : StreamLocal st u (u.modPort p (dataSent d)) := .of_eq rfl rfl
    exact ((startIfRouted_local st s).trans hsent).trans (reportLaunch_local st name _)
  · refine state_ext ?_
    rw [ht]
    simp [hu]

/-- A grant to a tenant with traffic is spent on a cell of it (R113). -/
theorem launchGrant_carries {p : PathId} {w : TenantId} {s : State} (hw : traffic s w p) :
    carriesCellOf w p s (launchGrant p w s) := by
  refine ⟨fun st q ⟨⟨htenant, howes⟩, hmin⟩ hq => ?_, fun hno => ?_⟩
  · have hspend := spendGrant_abort htenant hq fun x hx ho => hmin x ⟨hx, ho⟩
    have hlaunch : launchGrant p w s = launchAbort p st q s := by rw [launchGrant, hspend]
    have hport := State.port_modPort_same s p (cellSent (.abort st q) fun c => { c with abortLaunched := satInc c.abortLaunched })
    rw [hlaunch, launchAbort_eq]
    refine ⟨congrArg Port.counters hport, congrArg Port.txCell hport, (modStream_local st _ _).streams, ?_, rfl⟩
    rw [State.stream_modStream_same]
    rfl
  · have hnone : ∀ x : StreamId, x.tenant = w → (s.stream x).owed[p] = none := fun x hx => by
      simpa [hx] using hno x
    cases hfirst : (streamsOf w).find? (streamServable s p) with
    | none =>
      exfalso
      obtain ⟨_, ⟨cls, howes⟩ | ⟨_, cls, m, hm, hserv⟩⟩ := hw
      · exact hno _ ⟨rfl, howes⟩
      · exact List.find?_eq_none.mp hfirst _ ((mem_streamsOf _ _).mpr rfl) (streamServable_iff.mpr ⟨m, hm, hserv⟩)
    | some st =>
      have htenant := (mem_streamsOf st w).mp (List.mem_of_find?_eq_some hfirst)
      have hserv := List.find?_some hfirst
      have hcell (x : StreamId) : streamServable s p x = true ↔ ∃ m c, (s.stream x).queue.head? = some m ∧
          (m.copyA = some c ∨ m.copyB = some c) ∧ carriesOn m p c := by
        rw [streamServable_iff]
        constructor
        · rintro ⟨m, hm, ⟨c, hc, hon⟩ | ⟨c, hc, hon⟩⟩
          · exact ⟨m, c, hm, .inl hc, hon⟩
          · exact ⟨m, c, hm, .inr hc, hon⟩
        · rintro ⟨m, c, hm, hc | hc, hon⟩
          · exact ⟨m, hm, .inl ⟨c, hc, hon⟩⟩
          · exact ⟨m, hm, .inr ⟨c, hc, hon⟩⟩
      obtain ⟨m, name, hm, hname⟩ := streamServable_name hserv
      obtain ⟨c, hc, _⟩ := servableOn_copy hname
      obtain ⟨m', c', hm', hc'⟩ := startIfRouted_getCopy hm hc
      obtain ⟨hport, hports, hlocal, hstate⟩ := launchFragment_effect (p := p) hm' hc'
      rw [launchGrant_data hnone hfirst hm hname]
      refine ⟨dataCell (startIfRouted st s) st m' c'.nextFrag, ⟨⟨htenant, (hcell st).mp hserv⟩, fun x ⟨hx, hxcell⟩ => ?_⟩,
        congrArg Port.counters hport, congrArg Port.txCell hport, hlocal.streams,
        fun u c hu => hlocal.channels u c (htenant ▸ hu), ?_⟩
      · exact find?_least (streamsOf_pairwise w) hfirst ((mem_streamsOf x w).mpr hx) ((hcell x).mpr hxcell)
      · have hcs : (launchFragment p st name (startIfRouted st s)).cs = s.cs := by simp
        rw [hcs]
        exact hstate

/-! ## The slot opportunity -/

/-- The state in which a slot is resolved: the next opportunity is set. -/
def slotTaken (p : PathId) (k : SlotId) (s : State) : State := s.modPort p fun x => { x with position := afterSlot k }

theorem exec_slotOpportunity {s : State} {p : PathId} {k : SlotId} (h : (s.port p).faultState = .working)
    (hk : (s.port p).position = .slot k) : exec (.slotOpportunity p) s = .next (launchSlot p k (slotTaken p k s)) := by
  simp [exec, execSlotOpportunity, portWorks_of_working h, hk, slotTaken]

theorem launchSlot_none {p : PathId} {k : SlotId} {s v : State} (h : resolveSlot p k s = (none, v)) :
    launchSlot p k s = launchIdle p v := by
  rw [launchSlot, h]

theorem launchSlot_granted {p : PathId} {k : SlotId} {s v : State} {w : TenantId} (h : resolveSlot p k s = (some w, v)) :
    launchSlot p k s = launchGrant p w v := by
  rw [launchSlot, h]

section
variable {p : PathId} {k : SlotId} {s t : State} {g : Plan → Plan}

/-- What a slot carries, told from the state before its opportunity was taken and resolved. -/
theorem carriesIdle_of_resolved (h : carriesIdle p ((slotTaken p k s).modPlan p g) t) : carriesIdle p s t := by
  obtain ⟨hk, hcell, ht⟩ := h
  have hport : ((slotTaken p k s).modPlan p g).port p = { s.port p with position := afterSlot k } :=
    State.port_modPort_same s p _
  rw [hport] at hk
  exact ⟨hk, hcell, ht⟩

theorem carriesCellOf_of_resolved {w : TenantId} (h : carriesCellOf w p ((slotTaken p k s).modPlan p g) t) :
    carriesCellOf w p s t := by
  have hport : ((slotTaken p k s).modPlan p g).port p = { s.port p with position := afterSlot k } :=
    State.port_modPort_same s p _
  unfold carriesCellOf at h ⊢
  rw [hport] at h
  exact h

end

theorem launchIdle_portsBut (p : PathId) (s : State) : portsBut p s (launchIdle p s) := by
  rw [launchIdle_eq]
  exact modPort_portsBut p _ s

theorem launchFragment_portsBut (p : PathId) (st : StreamId) (name : CopyName) (s : State) :
    portsBut p s (launchFragment p st name s) := by
  have hsent (f : Port → Port) : portsBut p s (reportLaunch st name (s.modPort p f)) := by
    have hpp : (reportLaunch st name (s.modPort p f)).pp = (s.modPort p f).pp := by simp [State.modPort]
    exact fun q hq => (State.port_of hpp q).trans (modPort_portsBut p f s q hq)
  unfold launchFragment
  split
  · exact fun _ _ => rfl
  · split
    · exact fun _ _ => rfl
    · dsimp only
      rw [putCell_countPort]
      exact hsent _

theorem launchGrant_portsBut (p : PathId) (w : TenantId) (s : State) : portsBut p s (launchGrant p w s) := by
  unfold launchGrant
  split
  · exact launchIdle_portsBut p s
  · rw [launchAbort_eq]
    exact modPort_portsBut p _ s
  · exact fun q hq => (launchFragment_portsBut p _ _ _ q hq).trans (State.port_of (by simp) q)

theorem launchSlot_portsBut (p : PathId) (k : SlotId) (s : State) : portsBut p s (launchSlot p k s) := by
  have hport (q : PathId) : (resolveSlot p k s).2.port q = s.port q := State.port_of (by simp) q
  unfold launchSlot
  split
  · next v hv => rw [hv] at hport; exact fun q hq => (launchIdle_portsBut p v q hq).trans (hport q)
  · next w v hv => rw [hv] at hport; exact fun q hq => (launchGrant_portsBut p w v q hq).trans (hport q)

theorem launchSlot_cs (p : PathId) (k : SlotId) (s : State) : (launchSlot p k s).cs = (resolveSlot p k s).2.cs := by
  unfold launchSlot
  split
  · next v hv => rw [hv]; simp
  · next w v hv => rw [hv]; simp

theorem launchSlot_plansBut (p : PathId) (k : SlotId) (s : State) : plansBut p s (launchSlot p k s) := by
  obtain ⟨g, hg, _⟩ := resolveSlot_plan p k s
  have hcs : (launchSlot p k s).cs = (s.modPlan p g).cs := by rw [launchSlot_cs, hg]
  obtain ⟨hplans, hrest⟩ := modPlan_plansBut p g s
  refine ⟨fun q hq => (State.plan_of hcs q).trans (hplans q hq), ?_⟩
  rw [hcs]
  exact hrest

/-- The plan of the path is the one that the resolution leaves. -/
theorem launchSlot_plan {p : PathId} {k : SlotId} {s : State} {o : Option TenantId} {g : Plan → Plan}
    (h : resolveSlot p k s = (o, s.modPlan p g)) : (launchSlot p k s).plan p = g (s.plan p) := by
  have hcs : (launchSlot p k s).cs = (s.modPlan p g).cs := by rw [launchSlot_cs, h]
  rw [State.plan_of hcs, State.plan_modPlan_same]

/-- A slot granted to a tenant with traffic carries a cell of it. -/
theorem slot_carriesCell {p : PathId} {k : SlotId} {s : State} {w : TenantId} {g : Plan → Plan}
    (h : resolveSlot p k (slotTaken p k s) = (some w, (slotTaken p k s).modPlan p g)) (hw : traffic s w p) :
    carriesCellOf w p s (launchSlot p k (slotTaken p k s)) ∧ (launchSlot p k (slotTaken p k s)).plan p = g (s.plan p) := by
  refine ⟨?_, launchSlot_plan h⟩
  rw [launchSlot_granted h]
  exact carriesCellOf_of_resolved (launchGrant_carries hw)

theorem slot_carriesIdle {p : PathId} {k : SlotId} {s : State} {g : Plan → Plan}
    (h : resolveSlot p k (slotTaken p k s) = (none, (slotTaken p k s).modPlan p g)) :
    carriesIdle p s (launchSlot p k (slotTaken p k s)) ∧ (launchSlot p k (slotTaken p k s)).plan p = g (s.plan p) := by
  refine ⟨?_, launchSlot_plan h⟩
  rw [launchSlot_none h]
  exact carriesIdle_of_resolved (launchIdle_carries p _)

theorem traffic_of_mayWin {s : State} {w : TenantId} {p : PathId} (h : mayWin s w p) : traffic s w p := by
  obtain ⟨⟨_, htraffic⟩, _⟩ := h
  exact htraffic

/-- Budgets apply where the path is in service (R102). -/
theorem inService_eq_serving (s : State) (p : PathId) : inService (s.path p).state = (budgetOf s 0 p).isSome := by
  unfold budgetOf
  cases (s.path p).state <;> rfl

/-- Settles O25: the five outcomes of the resolution, each with the cell that its launch sends. -/
theorem slotOpportunityLaunchesOneCell : Obligations.SlotOpportunityLaunchesOneCell := by
  unfold Obligations.SlotOpportunityLaunchesOneCell
  intro s p k h hk pl owner usable serving
  have hport : (slotTaken p k s).port p = { s.port p with position := afterSlot k } := State.port_modPort_same s p _
  have howner : slotOwner (activeBank ((slotTaken p k s).plan p)) ((slotTaken p k s).port p).parity k = owner := by
    rw [hport]
    rfl
  have hplace := (launchSlot_samePlaces p k (slotTaken p k s)).place p
  rw [hport] at hplace
  obtain ⟨hcycle, hpar, hfault, hposition⟩ := hplace
  refine ⟨_, exec_slotOpportunity h hk, ?_, ?_, hposition, hcycle, hpar, hfault.trans h, fun hshed => ?_,
    fun hlt w how hw => ?_, fun hlt hno => ⟨fun w hw hmin => ?_, fun hnone => ?_⟩⟩
  · exact fun q hq => (launchSlot_portsBut p k _ q hq).trans (modPort_portsBut p _ s q hq)
  · exact launchSlot_plansBut p k (slotTaken p k s)
  · exact slot_carriesIdle (resolveSlot_shed hshed)
  · exact slot_carriesCell (resolveSlot_owner hlt (howner.trans how) hw) hw
  · have hres := (resolveSlot_arbiter (s := slotTaken p k s) hlt (by rw [howner]; exact hno)).trans (resolveOpen_winner _ hw hmin)
    obtain ⟨hcarries, hplan⟩ := slot_carriesCell hres (traffic_of_mayWin hw)
    refine ⟨hcarries, hplan.trans ?_⟩
    rw [howner]
    change openGranted (inService (s.path p).state) _ w pl = _
    rw [inService_eq_serving s p]
    unfold openGranted
    by_cases ho : owner = .openSlot
    · simp only [ho, ne_eq, not_true_eq_false, decide_false, Bool.false_eq_true, if_false, if_true]
      rfl
    · simp only [ho, ne_eq, not_false_eq_true, decide_true, if_false, if_true]
      rfl
  · have hres := (resolveSlot_arbiter (s := slotTaken p k s) hlt (by rw [howner]; exact hno)).trans
      (resolveOpen_unclaimed _ hnone)
    obtain ⟨hcarries, hplan⟩ := slot_carriesIdle hres
    refine ⟨hcarries, fun hasks => hplan.trans ?_, fun hasks => hplan.trans ?_⟩
    · have hstop : (allTenants.any fun w => wantsOpen (slotTaken p k s) w p) = true := by
        obtain ⟨w, hw⟩ := hasks
        exact List.any_eq_true.mpr ⟨w, mem_allTenants w, wantsOpen_iff.mpr hw⟩
      rw [hstop]
      rfl
    · have hstop : (allTenants.any fun w => wantsOpen (slotTaken p k s) w p) = false :=
        List.any_eq_false.mpr fun w _ hw => hasks w (wantsOpen_iff.mp hw)
      rw [hstop]
      rfl

end Sys2Proof.Proofs
end

