-- ==== Sys2Proof/Proofs/HeadChanges.lean ====
section
/-!
The head of a stream when a choice is applied to it and when it leaves its queue (R91, R110, R116, Table 5-3).
-/

namespace Sys2Proof.Proofs

open Sys2Proof.Machine Sys2Proof.Claims

/-! ## What a route depends on -/

/-- A choice reads the path records, the tenant records, the active banks, and the stream's last path and admitted count. -/
theorem chooseRoute_congr {s t : State} {st : StreamId} (hpaths : t.rs.paths = s.rs.paths) (htenants : t.li.tenants = s.li.tenants)
    (hbanks : ∀ p, activeBank (t.plan p) = activeBank (s.plan p)) (hlast : (t.stream st).lastPath = (s.stream st).lastPath)
    (hadmitted : (t.stream st).admitted = (s.stream st).admitted) : chooseRoute t st = chooseRoute s st := by
  have hpath (p : PathId) : t.path p = s.path p := State.path_of hpaths p
  have htenant (u : TenantId) : t.tenant u = s.tenant u := State.tenant_of htenants u
  have hmeets : meetsConditions t st = meetsConditions s st := by
    funext p
    simp only [meetsConditions, hasCapacity, hpath, htenant, hbanks]
  have hkind : isMicrowave t = isMicrowave s := by
    funext p
    simp only [isMicrowave, hpath]
  have hcost : costOf t = costOf s := by
    funext p
    simp only [costOf, hpath]
  have hlowest : lowestCost t = lowestCost s :=
    congrArg (fun (f : PathId → Nat) (l : List PathId) => l.filter fun p => l.all fun q => decide (f p ≤ f q)) hcost
  have htie (l : List PathId) : tieBreak t st l = tieBreak s st l := by
    simp only [tieBreak, htenant, hlast, hadmitted]
  have hcandidates : candidates t st = candidates s st := by
    simp only [candidates, hmeets, hkind, htenant]
  have hwanted : partnerWanted t st = partnerWanted s st := by
    funext p
    simp only [partnerWanted, hpath, htenant]
  have hset : partnerSet t st = partnerSet s st := by
    funext p
    simp only [partnerSet, hpath, htenant, hmeets, hkind]
  simp only [chooseRoute, firstPath, hcandidates, hlowest, htie, hwanted, hset]

/-! ## Applying a choice -/

/-- A head with the result of a choice (R91). -/
def routedHead (r : Option Route) (m : Message) : Message :=
  match r with
  | none => { m with life := .headUnrouted, copyA := none, copyB := none }
  | some r => { m with life := .headRouted, copyA := some { path := r.first }, copyB := r.partner.map fun q => { path := q } }

theorem rerouted_eq {s : State} {st : StreamId} {m : Message} (h : m.life = .headUnrouted) :
    rerouted s st m = routedHead (chooseRoute s st) m := by
  rw [rerouted, if_pos (.inl h)]
  unfold routedHead
  cases chooseRoute s st <;> rfl

theorem applyRoute_sq (fresh : Bool) (st : StreamId) (m : Message) (r : Option Route) (s : State) :
    (applyRoute fresh st m r s).sq = (s.modHead st (routedHead r)).sq := by
  unfold applyRoute
  split
  · dsimp only
    split <;> rfl
  · dsimp only
    split
    · split <;> rfl
    · split
      · split <;> rfl
      · split <;> rfl

/-- RS after a choice has counted its first path, and its partner, where they are new (Table 5-3). -/
theorem countRs_if_counters (c : Prop) [Decidable c] (q p : PathId) (f : RsCounters → RsCounters) (s : State) :
    (if c then s else s.countRs q f).rs.counters[p] = if ¬c ∧ p = q then f s.rs.counters[p] else s.rs.counters[p] := by
  by_cases hc : c
  · simp [hc]
  · rw [if_neg hc]
    refine (upd_get _ q p f).trans ?_
    by_cases hp : p = q
    · rw [if_pos hp, if_pos ⟨hc, hp⟩, hp]
    · rw [if_neg hp, if_neg fun h => hp h.2]

theorem countRs_if_rest (c : Prop) [Decidable c] (q : PathId) (f : RsCounters → RsCounters) (s : State) :
    (if c then s else s.countRs q f).rs = { s.rs with counters := (if c then s else s.countRs q f).rs.counters } := by
  split <;> rfl

theorem satAdd_toNat_bool (c : Counter) (b : Bool) : satAdd c b.toNat = if b then satInc c else c := by
  cases b <;> simp

theorem newFirst_iff {m : Message} {rt : Route} {p : PathId} :
    newFirst m (some rt) p = true ↔ ¬copyPath m.copyA = some rt.first ∧ p = rt.first := by
  rw [newFirst, decide_eq_true_iff]
  constructor
  · rintro ⟨hp, hold⟩
    cases hp
    exact ⟨hold, rfl⟩
  · rintro ⟨hold, rfl⟩
    exact ⟨rfl, hold⟩

theorem newPartner_iff {m : Message} {rt : Route} {q p : PathId} (hq : rt.partner = some q) :
    newPartner m (some rt) p = true ↔ ¬copyPath m.copyB = some q ∧ p = q := by
  rw [newPartner, decide_eq_true_iff, Option.bind_some, hq]
  constructor
  · rintro ⟨hp, hold⟩
    cases hp
    exact ⟨hold, rfl⟩
  · rintro ⟨hold, rfl⟩
    exact ⟨rfl, hold⟩

theorem newPartner_none {m : Message} {rt : Route} (h : rt.partner = none) (p : PathId) :
    newPartner m (some rt) p = false := by
  simp [newPartner, h]

/-- A choice applied to the head, with the count of its first path. -/
def firstApplied (st : StreamId) (m : Message) (rt : Route) (s : State) : State :=
  let a := s.modHead st (routedHead (some rt))
  if copyPath m.copyA = some rt.first then a
  else a.countRs rt.first fun c => { c with firstChoices := satInc c.firstChoices }

theorem firstApplied_rest (st : StreamId) (m : Message) (rt : Route) (s : State) :
    (firstApplied st m rt s).rs = { s.rs with counters := (firstApplied st m rt s).rs.counters } :=
  countRs_if_rest _ _ _ (s.modHead st (routedHead (some rt)))

theorem firstApplied_counters (st : StreamId) (m : Message) (rt : Route) (s : State) (p : PathId) :
    (firstApplied st m rt s).rs.counters[p] = { s.rs.counters[p] with
      firstChoices := satAdd s.rs.counters[p].firstChoices (newFirst m (some rt) p).toNat } := by
  rw [firstApplied, countRs_if_counters, satAdd_toNat_bool]
  simp only [newFirst_iff]
  split <;> rfl

/-- RS counts the choice for a message that has just become head. -/
theorem applyRoute_counted (st : StreamId) (m : Message) (r : Option Route) (s : State) :
    headCounted m r s.rs (applyRoute true st m r s).rs := by
  rcases r with _ | rt
  · refine ⟨?_, fun p => ?_⟩
    · simp [applyRoute, State.modHead, State.modStream]
    · simp [applyRoute, State.modHead, State.modStream, newFirst, newPartner]
  have hrest := firstApplied_rest st m rt s
  have hcounters := firstApplied_counters st m rt s
  rcases hrt : rt with ⟨first, _ | q⟩
  · have happly : applyRoute true st m (some ⟨first, none⟩) s = firstApplied st m rt s := by rw [hrt]; rfl
    rw [happly]
    refine ⟨hrest.trans (by simp), fun p => (hcounters p).trans ?_⟩
    rw [← hrt]
    simp only [newPartner_none (show rt.partner = none by rw [hrt]), Bool.toNat_false, satAdd_zero]
  · have happly : applyRoute true st m (some ⟨first, some q⟩) s = if copyPath m.copyB = some q then firstApplied st m rt s
        else (firstApplied st m rt s).countRs q fun c => { c with partnerChoices := satInc c.partnerChoices } := by
      rw [hrt]
      rfl
    rw [happly]
    refine ⟨?_, fun p => ?_⟩
    · rw [countRs_if_rest, hrest]
      simp
    · rw [countRs_if_counters, hcounters, ← hrt, satAdd_toNat_bool _ (newPartner m (some rt) p)]
      simp only [newPartner_iff (show rt.partner = some q by rw [hrt])]
      split <;> rfl

/-! ## The next message becomes head (R110) -/

/-- A message as it becomes head, before its choice. -/
def madeHead (lim : Nat) (m : Message) : Message := { m with life := .headUnrouted, routeWait := some lim }

section
variable {st : StreamId} {s : State}

theorem becomeHead_empty (hq : (s.stream st).queue = []) :
    (becomeHead st s).stream st = s.stream st ∧ (becomeHead st s).rs = s.rs := by
  have hrow : (s.modHead st (madeHead (routeLimit s st))).stream st = s.stream st := by
    rw [State.modHead, State.stream_modStream_same, hq, List.modifyHead_nil, ← hq]
  have hnone : headOf (s.modHead st (madeHead (routeLimit s st))) st = none := by rw [headOf, hrow, hq]; rfl
  have hkept : becomeHead st s = s.modHead st (madeHead (routeLimit s st)) := by
    change chooseFor true st (s.modHead st (madeHead (routeLimit s st))) = _
    rw [chooseFor, hnone]
  rw [hkept]
  exact ⟨hrow, rfl⟩

theorem becomeHead_next {m : Message} {rest : List Message} (hq : (s.stream st).queue = m :: rest) :
    (becomeHead st s).stream st =
      { s.stream st with queue := routedHead (chooseRoute s st) (madeHead (routeLimit s st) m) :: rest } ∧
    headCounted m (chooseRoute s st) s.rs (becomeHead st s).rs := by
  set u := s.modHead st (madeHead (routeLimit s st)) with hu
  have hrow : u.stream st = { s.stream st with queue := madeHead (routeLimit s st) m :: rest } := modHead_stream hq _
  have hhead : headOf u st = some (madeHead (routeLimit s st) m) := by rw [headOf, hrow]; rfl
  have hchoice : chooseRoute u st = chooseRoute s st :=
    chooseRoute_congr rfl rfl (fun _ => rfl) (by rw [hrow]) (by rw [hrow])
  have hkept : becomeHead st s = applyRoute true st (madeHead (routeLimit s st) m) (chooseRoute s st) u := by
    change chooseFor true st u = _
    rw [chooseFor, hhead, hchoice]
    rfl
  rw [hkept]
  constructor
  · rw [State.stream_of (applyRoute_sq ..), modHead_stream (m := madeHead (routeLimit s st) m) (rest := rest) (by rw [hrow]), hrow]
  · exact applyRoute_counted st (madeHead (routeLimit s st) m) (chooseRoute s st) u

end

/-! ## The head is DONE (R116) -/

/-- The queue moves on when its head is done. -/
def headDone (x : Stream) : Stream := { x with completed := satInc x.completed, queue := x.queue.tail }

theorem finishHead_eq (st : StreamId) (s : State) :
    finishHead st s = tellRoom st.tenant (becomeHead st (s.modStream st headDone)) := by
  have h : (s.modStream st fun x => { x with completed := satInc x.completed }).modStream st (fun x => { x with queue := x.queue.tail }) =
      s.modStream st headDone := by
    simp only [State.modStream, upd_upd]
    rfl
  rw [finishHead, removeHead, h]

/-- A head that is done leaves its queue: told from a state `s` before it advanced, of which ports and plans may differ. -/
theorem finishHead_leaves {s y : State} {st : StreamId} {h m : Message} {f : Stream → Stream}
    (hrow : y.stream st = { f (s.stream st) with queue := h :: (s.stream st).queue.tail })
    (hcompleted : (f (s.stream st)).completed = (s.stream st).completed) (hothers : streamsBut st s y)
    (hbase : y = { s with pp := y.pp, cs := y.cs, sq := { s.sq with streams := y.sq.streams } })
    (hbanks : ∀ p, activeBank (y.plan p) = activeBank (s.plan p)) :
    headLeaves st m none (fun z => { f z with completed := satInc z.completed }) s
      { finishHead st y with pp := s.pp, cs := s.cs } := by
  set z := y.modStream st headDone with hz
  have hzrow : z.stream st = { f (s.stream st) with
      completed := satInc (s.stream st).completed, queue := (s.stream st).queue.tail } := by
    rw [hz, State.stream_modStream_same, hrow]
    simp only [headDone, hcompleted, List.tail_cons]
  obtain ⟨hpending, htb, hpu, hhs, hrs, hstore, haborts, hpe, hrd, hli⟩ : y.pending = s.pending ∧ y.tb = s.tb ∧
      y.pu = s.pu ∧ y.hs = s.hs ∧ y.rs = s.rs ∧ y.sq.store = s.sq.store ∧ y.sq.aborts = s.sq.aborts ∧ y.pe = s.pe ∧ y.rd = s.rd ∧ y.li = s.li := by
    rw [hbase]
    exact ⟨rfl, rfl, rfl, rfl, rfl, rfl, rfl, rfl, rfl, rfl⟩
  have hzrs : z.rs = s.rs := hrs
  have hzpe : z.pe = s.pe := hpe
  have hzli : z.li = s.li := hli
  have hlimit : routeLimit z st = routeLimit s st := by
    rw [routeLimit, routeLimit, State.tenant_of (s := s) (by rw [hzli])]
  have hfinish : finishHead st y = tellRoom st.tenant (becomeHead st z) := finishHead_eq st y
  set v : State := { finishHead st y with pp := s.pp, cs := s.cs } with hv
  have hvrow : v.stream st = (becomeHead st z).stream st := State.stream_of (by rw [hv, hfinish]; simp) st
  have hvrs : v.rs = (becomeHead st z).rs := by rw [hv, hfinish]; simp
  have hchannel (u : TenantId) (c : ChannelId) : v.channel u c = if u = st.tenant then toldRoom (s.channel u c) else s.channel u c := by
    have hkept : (becomeHead st z).channel u c = s.channel u c := State.channel_of (by simp [hzpe]) u c
    rw [← hkept, ← tellRoom_channel, ← hfinish]
    rfl
  have hchoice (hlast : (v.stream st).lastPath = (z.stream st).lastPath)
      (hadmitted : (v.stream st).admitted = (z.stream st).admitted) : chooseRoute v st = chooseRoute z st :=
    chooseRoute_congr (by simp [hvrs]) (by rw [hv, hfinish]; simp) (fun p => (hbanks p).symm) hlast hadmitted
  refine ⟨fun x hx => ?_, ?_, fun hempty => ?_, fun m2 more hnext => ?_, fun u c => ?_, ?_, ?_⟩
  · exact ((finishHead_local st y).streams x hx).trans (hothers x hx)
  · cases hq : (s.stream st).queue.tail with
    | nil => rw [hvrow, (becomeHead_empty (by rw [hzrow, hq])).1, hzrow, hq]; rfl
    | cons m2 more =>
      have hnrow := (becomeHead_next (s := z) (by rw [hzrow, hq])).1
      have hpromoted : routedHead (chooseRoute z st) (madeHead (routeLimit z st) m2) =
          rerouted v st (madeHead (routeLimit s st) m2) := by
        rw [rerouted_eq rfl, hchoice (by rw [hvrow, hnrow]) (by rw [hvrow, hnrow]), hlimit]
      rw [hvrow, hnrow, hpromoted, hzrow]
      rfl
  · rw [hvrs, (becomeHead_empty (by rw [hzrow, hempty])).2, hzrs]
  · obtain ⟨hnrow, hcounted⟩ := becomeHead_next (s := z) (by rw [hzrow, hnext])
    rw [hchoice (by rw [hvrow, hnrow]) (by rw [hvrow, hnrow]), hvrs, ← hzrs]
    exact hcounted
  · rw [hchannel]
    unfold toldRoom
    by_cases hu : u = st.tenant
    · simp only [hu, if_true, true_and]
    · simp only [hu, if_false, false_and]
  · change v.li = s.li
    rw [← hzli, hv, hfinish]
    simp
  · exact state_ext (by simp [hv, hpending, htb, hpu, hhs, hrs, hstore, haborts, hpe, hrd, hli])

end Sys2Proof.Proofs
end

