-- ==== Sys2Proof/Proofs/FragmentLaunches.lean ====
section
/-!
A granted slot carries the next fragment of a copy of the head (R5, R113 to R116).
-/

namespace Sys2Proof.Proofs

open Sys2Proof.Machine Sys2Proof.Claims

/-! ## The copies of a message by name -/

/-- The copy of the other name. -/
def otherCopy (name : CopyName) (m : Message) : Option Copy :=
  match name with
  | .a => m.copyB
  | .b => m.copyA

/-- A message with these two copies, one under the given name. -/
def withCopies (name : CopyName) (own : Copy) (two : Option Copy) (m : Message) : Message :=
  match name with
  | .a => { m with copyA := some own, copyB := two }
  | .b => { m with copyA := two, copyB := some own }

section
variable (name : CopyName) (own : Copy) (two : Option Copy) (m : Message)

theorem getCopy_withCopies : getCopy (withCopies name own two m) name = some own := by
  cases name <;> rfl

theorem modCopy_withCopies (f : Copy → Copy) : modCopy name f (withCopies name own two m) = withCopies name (f own) two m := by
  cases name <;> rfl

theorem fragCount_withCopies : fragCount (withCopies name own two m) = cellsFor m.length := by
  cases name <;> rfl

theorem withCopies_same {name : CopyName} {own : Copy} {m : Message} (h : getCopy m name = some own) :
    withCopies name own (otherCopy name m) m = m := by
  cases name with
  | a =>
    change { m with copyA := some own, copyB := m.copyB } = m
    rw [← show m.copyA = some own from h]
  | b =>
    change { m with copyA := m.copyA, copyB := some own } = m
    rw [← show m.copyB = some own from h]

/-- A copy that still launches keeps the head from being done (R116). -/
theorem doneTest_launching (h : own.state = .launching ∨ copyIn .launching two = true) :
    doneTest (withCopies name own two m) = false := by
  have hany : anyCopy .launching (withCopies name own two m) = true := by
    rcases h with h | h
    · cases name <;> simp [anyCopy, withCopies, copyIn, h]
    · cases name <;> simp [anyCopy, withCopies, h]
  simp [doneTest, hany]

/-- The last fragment of the last launching copy makes the head done (R116). -/
theorem doneTest_gone (h : own.state = .launched) (htwo : ∀ o ∈ two, o.state = .launched ∨ o.state = .cut) :
    doneTest (withCopies name own two m) = true := by
  cases two with
  | none => cases name <;> simp [doneTest, anyCopy, withCopies, copyIn, h]
  | some o => rcases htwo o rfl with ho | ho <;> cases name <;> simp [doneTest, anyCopy, withCopies, copyIn, h, ho]

end

/-! ## The next fragment (R115) -/

/-- A copy after its next fragment has begun to leave. -/
def advanced (n lim : Nat) (c : Copy) : Copy :=
  if c.nextFrag + 1 = n then { c with nextFrag := c.nextFrag + 1, state := .launched, stall := none }
  else { c with nextFrag := c.nextFrag + 1, stall := some lim }

/-- The stream whose head has this copy, before and after the launch. -/
theorem reportLaunch_eq {st : StreamId} {name : CopyName} {s : State} {own : Copy} {two : Option Copy} {m : Message}
    {rest : List Message} (hq : (s.stream st).queue = withCopies name own two m :: rest) :
    let f : Message → Message := fun m => modCopy name (advanced (fragCount m) (routeLimit s st)) m
    let u := s.modHead st f
    let head := withCopies name (advanced (cellsFor m.length) (routeLimit s st) own) two m
    u.stream st = { s.stream st with queue := head :: rest } ∧
      reportLaunch st name s = if doneTest head then finishHead st u else u := by
  intro f u head
  have hadvance : f (withCopies name own two m) = head := by
    simp only [f, fragCount_withCopies, modCopy_withCopies, head]
  have hrow : u.stream st = { s.stream st with queue := head :: rest } := by rw [← hadvance]; exact modHead_stream hq f
  refine ⟨hrow, ?_⟩
  have hhead : headOf u st = some head := by rw [headOf, hrow]; rfl
  change (match headOf u st with | none => u | some m => if doneTest m then finishHead st u else u) = _
  rw [hhead]

/-! ## The launch of a fragment -/

theorem dataCell_congr {s t : State} (h : t.sq.store = s.sq.store) (st : StreamId) (name : CopyName) (own : Copy)
    (two : Option Copy) (m : Message) (frag : Nat) : dataCell t st (withCopies name own two m) frag = dataCell s st m frag := by
  unfold dataCell
  rw [h]
  cases name <;> rfl

/-- States that differ in ports and plans only, in no bank of a plan. -/
structure SameQueues (s u : State) : Prop where
  base : u = { s with pp := u.pp, cs := u.cs }
  banks : ∀ p, activeBank (u.plan p) = activeBank (s.plan p)

theorem SameQueues.blocks {s u : State} (h : SameQueues s u) : u.pending = s.pending ∧ u.tb = s.tb ∧ u.pu = s.pu ∧ u.hs = s.hs ∧
    u.rs = s.rs ∧ u.sq = s.sq ∧ u.pe = s.pe ∧ u.rd = s.rd ∧ u.li = s.li := by
  rw [h.base]
  exact ⟨rfl, rfl, rfl, rfl, rfl, rfl, rfl, rfl, rfl⟩

/-- What a launch leaves before the test of R116: the cell on the line, the head with its copy advanced. -/
structure FragmentSent (p : PathId) (st : StreamId) (d : DataCell) (x : Stream) (s y : State) : Prop where
  cell : (y.port p).txCell = encodeSlotCell (.data d)
  row : y.stream st = x
  others : streamsBut st s y
  base : y = { s with pp := y.pp, cs := y.cs, sq := { s.sq with streams := y.sq.streams } }
  banks : ∀ p, activeBank (y.plan p) = activeBank (s.plan p)

section
variable {s u : State} {p : PathId} {st : StreamId} {name : CopyName} {own : Copy} {two : Option Copy} {m : Message}
  {f : Stream → Stream}

/-- The fragment leaves; then the head is done or it stays. -/
theorem launchFragment_sent (hu : SameQueues s u) (hrow : (startIfRouted st u).stream st =
      { f (s.stream st) with queue := withCopies name own two m :: (s.stream st).queue.tail }) :
    let head := withCopies name (advanced (cellsFor m.length) (routeLimit s st) own) two m
    ∃ y, FragmentSent p st (dataCell s st m own.nextFrag)
        { f (s.stream st) with queue := head :: (s.stream st).queue.tail } s y ∧
      launchFragment p st name (startIfRouted st u) = if doneTest head then finishHead st y else y := by
  intro head
  obtain ⟨hpending, htb, hpu, hhs, hrs, hsq, hpe, hrd, hli⟩ := hu.blocks
  set z := startIfRouted st u with hz
  have hstore : z.sq.store = s.sq.store := by rw [hz, ← hsq]; simp
  have hhead : headOf z st = some (withCopies name own two m) := by rw [headOf, hrow]; rfl
  have hlaunch := launchFragment_eq (p := p) hhead (getCopy_withCopies name own two m)
  rw [dataCell_congr hstore] at hlaunch
  set w := z.modPort p (dataSent (dataCell s st m own.nextFrag)) with hw
  have hlimit : routeLimit w st = routeLimit s st := by
    rw [routeLimit, routeLimit, State.tenant_of (s := s) (by rw [← hli]; simp [hw, hz])]
  have hwrow : w.stream st = z.stream st := rfl
  obtain ⟨hyrow, hreport⟩ := reportLaunch_eq (s := w) (by rw [hwrow, hrow])
  rw [hlimit] at hyrow hreport
  refine ⟨_, ⟨?_, by rw [hyrow, hwrow, hrow], fun x hx => ?_, state_ext ?_, fun q => ?_⟩, hlaunch.trans hreport⟩
  · rw [State.port_of (s := w) (by simp), hw, State.port_modPort_same]
    rfl
  · rw [(modHead_local st _ w).streams x hx]
    exact ((startIfRouted_local st u).streams x hx).trans (State.stream_of hsq x)
  · simp [hw, hz, hpending, htb, hpu, hhs, hrs, hsq, hpe, hrd, hli]
  · rw [← hu.banks q, State.plan_of (s := u) (by simp [hw, hz])]

end

/-! ## The slot that is granted -/

theorem resolveSlot_granted {s : State} {p : PathId} {k : SlotId} {w : TenantId} (hlt : k.val < (s.path p).hopCond.usable)
    (hg : grantedTo w s p k) : ∃ g, resolveSlot p k s = (some w, s.modPlan p g) ∧ OnlyCounts g := by
  obtain ⟨ho, hw⟩ | ⟨hno, hw, hmin⟩ := hg
  · exact ⟨_, resolveSlot_owner hlt ho hw, fun _ => rfl⟩
  · exact ⟨_, (resolveSlot_arbiter hlt hno).trans (resolveOpen_winner _ hw hmin), fun _ => rfl⟩

theorem grantedTo_slotTaken {s : State} {p : PathId} {k : SlotId} {w : TenantId} (h : grantedTo w s p k) :
    grantedTo w (slotTaken p k s) p k := by
  have hparity : ((slotTaken p k s).port p).parity = (s.port p).parity := by rw [slotTaken, State.port_modPort_same]
  unfold grantedTo at h ⊢
  rw [hparity]
  exact h

theorem sameQueues_resolved (s : State) (p : PathId) (k : SlotId) {g : Plan → Plan} (hg : OnlyCounts g) :
    SameQueues s ((slotTaken p k s).modPlan p g) where
  base := rfl
  banks q := by
    rw [State.plan_modPlan]
    split
    · next e => rw [hg, e]; rfl
    · rfl

/-- The copy on the path is the one that the grant serves. -/
theorem servableOn_name {m : Message} {p : PathId} {name : CopyName} {c : Copy} (hc : getCopy m name = some c)
    (hon : carriesOn m p c) (hother : ∀ o ∈ otherCopy name m, o.path ≠ p) : servableOn m p = some name := by
  rw [servableOn_eq]
  cases name with
  | a => exact if_pos (servable_iff.mpr ⟨c, hc, hon⟩)
  | b =>
    have hno : ¬servable m p m.copyA = true := fun h => by
      obtain ⟨o, ho, hpo, _⟩ := servable_iff.mp h
      exact hother o ho hpo
    rw [if_neg hno]
    exact if_pos (servable_iff.mpr ⟨c, hc, hon⟩)

/-- What a slot needs so that it carries a cell of this copy of this head. -/
structure Carries (s : State) (p : PathId) (k : SlotId) (st : StreamId) (m : Message) (name : CopyName) (c : Copy) : Prop where
  works : (s.port p).faultState = .working
  place : (s.port p).position = .slot k
  below : k.val < (s.path p).hopCond.usable
  granted : grantedTo st.tenant s p k
  noAbort : ∀ cls, (s.stream { tenant := st.tenant, cls := cls }).owed[p] = none
  noHigher : ∀ cls, classCode cls < classCode st.cls → streamServable s p { tenant := st.tenant, cls := cls } = false
  head : (s.stream st).queue.head? = some m
  copy : getCopy m name = some c
  onPath : c.path = p
  other : ∀ o ∈ otherCopy name m, o.path ≠ p

section
variable {s : State} {p : PathId} {k : SlotId} {st : StreamId} {m b : Message} {name : CopyName} {c own next : Copy}
  {two : Option Copy} {f : Stream → Stream}

/-- The slot carries the next fragment of the copy, whatever starting the head makes of it. -/
theorem Carries.sent (h : Carries s p k st m name c) (hserves : m.life = .headRouted ∨ (m.life = .launching ∧ c.state = .launching))
    (hrow : ∀ u, SameQueues s u → (startIfRouted st u).stream st =
      { f (s.stream st) with queue := withCopies name own two b :: (s.stream st).queue.tail }) :
    let head := withCopies name (advanced (cellsFor b.length) (routeLimit s st) own) two b
    ∃ y, FragmentSent p st (dataCell s st b own.nextFrag)
        { f (s.stream st) with queue := head :: (s.stream st).queue.tail } s y ∧
      exec (.slotOpportunity p) s = .next (if doneTest head then finishHead st y else y) := by
  intro head
  obtain ⟨g, hres, hcounts⟩ := resolveSlot_granted (s := slotTaken p k s) h.below (grantedTo_slotTaken h.granted)
  set u := (slotTaken p k s).modPlan p g with hu
  have hqueues : SameQueues s u := sameQueues_resolved s p k hcounts
  have hname : servableOn m p = some name := servableOn_name h.copy ⟨h.onPath, hserves⟩ h.other
  have hhead : headOf u st = some m := h.head
  have hserv : streamServable u p st = true := by rw [streamServable, hhead]; simp [hname]
  have hclass (x : StreamId) (hx : x ∈ streamsOf st.tenant) : x = { tenant := st.tenant, cls := x.cls } := by
    rw [← (mem_streamsOf x _).mp hx]
  have hfirst : (streamsOf st.tenant).find? (streamServable u p) = some st :=
    find?_first (streamsOf_pairwise _) ((mem_streamsOf st _).mpr rfl) hserv fun x hx hsx => by
      by_contra hlt
      have hno := h.noHigher x.cls (Nat.lt_of_not_le hlt)
      rw [← hclass x hx] at hno
      exact absurd (hno.symm.trans hsx) (by decide)
  have hno : ∀ x : StreamId, x.tenant = st.tenant → (u.stream x).owed[p] = none := fun x hx => by
    have hnone := h.noAbort x.cls
    rw [← hclass x ((mem_streamsOf x _).mpr hx)] at hnone
    exact hnone
  obtain ⟨y, hsent, hlaunch⟩ := launchFragment_sent (p := p) hqueues (hrow u hqueues)
  refine ⟨y, hsent, ?_⟩
  rw [exec_slotOpportunity h.works h.place, launchSlot_granted hres, launchGrant_data hno hfirst hhead hname, hlaunch]

/-- The head stays: a copy of it still launches. -/
theorem Carries.stays (h : Carries s p k st m name c) (hserves : m.life = .headRouted ∨ (m.life = .launching ∧ c.state = .launching))
    (hrow : ∀ u, SameQueues s u → (startIfRouted st u).stream st =
      { f (s.stream st) with queue := withCopies name own two b :: (s.stream st).queue.tail })
    (hnext : advanced (cellsFor b.length) (routeLimit s st) own = next)
    (hlaunching : next.state = .launching ∨ copyIn .launching two = true) {d : DataCell} {head : Message}
    (hcell : dataCell s st b own.nextFrag = d) (hhead : withCopies name next two b = head) :
    ∃ t, (exec (.slotOpportunity p) s = .next t ∧ (t.port p).txCell = encodeSlotCell (.data d)) ∧
      streamsBut st s t ∧ t = { s with pp := t.pp, cs := t.cs, sq := { s.sq with streams := t.sq.streams } } ∧
      t.stream st = { f (s.stream st) with
        queue := head :: (s.stream st).queue.tail } := by
  obtain ⟨y, hsent, hexec⟩ := h.sent hserves hrow
  rw [hnext, hcell, hhead] at hsent
  rw [hnext] at hexec
  rw [doneTest_launching name _ two b hlaunching] at hexec
  exact ⟨y, ⟨hexec, hsent.cell⟩, hsent.others, hsent.base, hsent.row⟩

theorem portsAndPlans_back (t s : State) :
    t = { ({ t with pp := s.pp, cs := s.cs } : State) with pp := t.pp, cs := t.cs } := rfl

/-- The head leaves: its last launching copy has ended. -/
theorem Carries.leaves (h : Carries s p k st m name c) (hserves : m.life = .headRouted ∨ (m.life = .launching ∧ c.state = .launching))
    (hrow : ∀ u, SameQueues s u → (startIfRouted st u).stream st =
      { f (s.stream st) with queue := withCopies name own two b :: (s.stream st).queue.tail })
    (hcompleted : (f (s.stream st)).completed = (s.stream st).completed)
    (hlast : own.nextFrag + 1 = cellsFor b.length) (htwo : ∀ o ∈ two, o.state = .launched ∨ o.state = .cut)
    {d : DataCell} (hcell : dataCell s st b own.nextFrag = d) :
    ∃ t, (exec (.slotOpportunity p) s = .next t ∧ (t.port p).txCell = encodeSlotCell (.data d)) ∧
      ∃ v, headLeaves st m none (fun z => { f z with completed := satInc z.completed }) s v ∧ t = { v with pp := t.pp, cs := t.cs } := by
  obtain ⟨y, hsent, hexec⟩ := h.sent hserves hrow
  have hgone : (advanced (cellsFor b.length) (routeLimit s st) own).state = .launched := by rw [advanced, if_pos hlast]
  rw [doneTest_gone name _ two b hgone htwo] at hexec
  rw [hcell] at hsent
  have hline : ((finishHead st y).port p).txCell = (y.port p).txCell := by rw [State.port_of (s := y) (by simp)]
  exact ⟨finishHead st y, ⟨hexec, hline.trans hsent.cell⟩, _,
    finishHead_leaves hsent.row hcompleted hsent.others hsent.base hsent.banks, portsAndPlans_back _ s⟩

end

/-! ## A routed head starts (R114), a launching one goes on -/

/-- A head that has begun, but for its copies. -/
def begun (seq : Seq) (m : Message) : Message :=
  { m with seq := some seq, life := .launching, routeWait := none, dual := m.copyB.isSome }

section
variable {s : State} {st : StreamId} {m : Message} {name : CopyName} {c : Copy}

theorem startedHead_eq (hc : getCopy m name = some c) (lim : Nat) (seq : Seq) : startedHead lim seq m =
    withCopies name (startCopy lim c) ((otherCopy name m).map (startCopy lim)) (begun seq m) := by
  cases name with
  | a =>
    have hmap : m.copyA.map (startCopy lim) = some (startCopy lim c) := congrArg (Option.map _) hc
    rw [startedHead, hmap]
    rfl
  | b =>
    have hmap : m.copyB.map (startCopy lim) = some (startCopy lim c) := congrArg (Option.map _) hc
    rw [startedHead, hmap]
    rfl

theorem routed_row (hq : (s.stream st).queue.head? = some m) (hl : m.life = .headRouted) (hc : getCopy m name = some c) (u : State)
    (hu : SameQueues s u) : (startIfRouted st u).stream st = { startedStream m (s.stream st) with
      queue := withCopies name (startCopy (routeLimit s st) c) ((otherCopy name m).map (startCopy (routeLimit s st)))
        (begun (m.seq.getD (s.stream st).seqCounter) m) :: (s.stream st).queue.tail } := by
  obtain ⟨_, _, _, _, _, hsq, _, _, hli⟩ := hu.blocks
  have hrow : u.stream st = s.stream st := State.stream_of hsq st
  have hlimit : routeLimit u st = routeLimit s st := by rw [routeLimit, routeLimit, State.tenant_of (s := s) (by rw [hli])]
  have hqueue : (u.stream st).queue = m :: (s.stream st).queue.tail := by rw [hrow]; exact queue_of_headOf hq
  rw [startIfRouted_routed hqueue hl, hrow, hlimit, startedHead_eq hc]

theorem launching_row (hq : (s.stream st).queue.head? = some m) (hl : m.life = .launching) (hc : getCopy m name = some c)
    (u : State) (hu : SameQueues s u) : (startIfRouted st u).stream st = { id (s.stream st) with
      queue := withCopies name c (otherCopy name m) m :: (s.stream st).queue.tail } := by
  obtain ⟨_, _, _, _, _, hsq, _, _, _⟩ := hu.blocks
  have hrow : u.stream st = s.stream st := State.stream_of hsq st
  have hqueue : (u.stream st).queue = m :: (s.stream st).queue.tail := by rw [hrow]; exact queue_of_headOf hq
  rw [startIfRouted_launching hqueue hl, withCopies_same hc, hrow, id, ← queue_of_headOf hq]

theorem startedStream_eq (h : m.copyA.isSome = true) (x : Stream) : startedStream m x =
    { x with seqCounter := (if m.seq = none then x.seqCounter + 1 else x.seqCounter), lastPath := m.copyA.map (·.path),
             counters := countStart m.copyB.isSome x.counters } := by
  obtain ⟨c, hc⟩ := Option.isSome_iff_exists.mp h
  rw [startedStream, hc]
  rfl

theorem advanced_last {n lim : Nat} (h : c.nextFrag + 1 = n) :
    advanced n lim c = { c with state := .launched, nextFrag := c.nextFrag + 1, stall := none } := by
  rw [advanced, if_pos h]

theorem advanced_next {n lim : Nat} (h : c.nextFrag + 1 < n) :
    advanced n lim c = { c with nextFrag := c.nextFrag + 1, stall := some lim } := by
  rw [advanced, if_neg (Nat.ne_of_lt h)]

end

/-- Settles O26: a routed head starts first; the head then stays or leaves as `doneTest` finds its copies. -/
theorem slotCarriesTheNextFragment : Obligations.SlotCarriesTheNextFragment := by
  unfold Obligations.SlotCarriesTheNextFragment
  intro s p k st m name c hw hk hlt hgrant howed hlower hhead hA hcopy hpath other hother x limit n cell copies sends stays leaves
    seq starts started waits sent gone
  have hC : Carries s p k st m name c := ⟨hw, hk, hlt, hgrant, howed, hlower, hhead, hcopy, hpath, hother⟩
  have hstarts : startedStream m = starts := funext (startedStream_eq hA)
  have hbegun (frag : Nat) : dataCell s st (begun seq m) frag = cell seq frag m.copyB.isSome := rfl
  have hlaunching (q : Seq) (hq : m.seq = some q) (frag : Nat) : dataCell s st m frag = cell q frag m.dual := by
    rw [dataCell, hq]
    rfl
  have hcopies (own : Copy) (two : Option Copy) (y : Message) : withCopies name own two y = copies own two y := by
    cases name <;> rfl
  have hstarted (own : Copy) : withCopies name own (other.map waits) (begun seq m) = copies own (other.map waits) started := by
    cases name <;> rfl
  have hrowRouted (hl : m.life = .headRouted) := routed_row hhead hl hC.copy
  rw [hstarts] at hrowRouted
  refine ⟨fun hl hn => ?_, fun hl hn ho => ?_, fun o hl hn ho => ?_, fun q hl hq hs =>
    ⟨fun hn => ?_, fun o hn ho hos => ?_, fun hn htwo => ?_⟩⟩
  · exact hC.stays (next := sent 1) (.inl hl) (hrowRouted hl) (advanced_next hn) (.inl rfl) (hbegun 0) (hstarted _)
  · have hsingle : m.copyB.isSome = false := by
      cases name with
      | a => rw [show m.copyB = none from ho]; rfl
      | b => rw [show m.copyA = none from ho] at hA; cases hA
    have htwo : ∀ o ∈ other.map waits, o.state = .launched ∨ o.state = .cut := by simp [ho]
    exact hC.leaves (.inl hl) (hrowRouted hl) rfl hn.symm htwo ((hbegun 0).trans (by rw [hsingle]))
  · have hdual : m.copyB.isSome = true := by
      cases name with
      | a => rw [show m.copyB = some o from ho]; rfl
      | b => rw [show m.copyB = some c from hcopy]; rfl
    have htwo : other.map waits = some (waits o) := by rw [ho]; rfl
    have hwaits : copyIn .launching (other.map waits) = true := by rw [htwo]; rfl
    exact hC.stays (next := gone 1) (.inl hl) (hrowRouted hl) (advanced_last hn.symm) (.inr hwaits)
      ((hbegun 0).trans (by rw [hdual])) ((hstarted _).trans (by rw [htwo]))
  · have hnext : advanced n (routeLimit s st) c = sent (c.nextFrag + 1) := by
      rw [advanced_next hn]
      exact congrArg (fun x => ({ c with state := x, nextFrag := c.nextFrag + 1, stall := limit } : Copy)) hs
    exact hC.stays (.inr ⟨hl, hs⟩) (launching_row hhead hl hC.copy) hnext (.inl rfl) (hlaunching q hq _) (hcopies _ _ _)
  · have hnext : advanced n (routeLimit s st) c = gone n := by
      rw [advanced_last hn, hn]
    have hother : copyIn .launching other = true := by rw [ho]; simp [copyIn, hos]
    exact hC.stays (.inr ⟨hl, hs⟩) (launching_row hhead hl hC.copy) hnext (.inr hother) (hlaunching q hq _) (hcopies _ _ _)
  · exact hC.leaves (.inr ⟨hl, hs⟩) (launching_row hhead hl hC.copy) rfl hn htwo (hlaunching q hq _)

end Sys2Proof.Proofs
end

