-- ==== Sys2Proof/Proofs/Clock.lean ====
section
/-!
The time base under every command: all but six commands leave its clock, that is, everything but the compare entries and the counters.
-/

namespace Sys2Proof.Proofs

open Sys2Proof.Machine Sys2Proof.Safety

/-! ## The clock -/

/-- In the time base at most the compare entries and the counters differ. -/
structure SameClock (s t : State) : Prop where
  tb : t.tb = { s.tb with compare := t.tb.compare, counters := t.tb.counters }

theorem SameClock.of_tb {s t : State} (h : t.tb = s.tb) : SameClock s t := ⟨by rw [h]⟩

theorem SameClock.trans {s t u : State} (h : SameClock s t) (k : SameClock t u) : SameClock s u :=
  ⟨by rw [k.tb, h.tb]⟩

theorem SameClock.foldl {α : Type} {f : State → α → State} (h : ∀ s a, SameClock s (f s a)) (l : List α) (s : State) :
    SameClock s (l.foldl f s) := foldl_keeps (P := SameClock s) (fun x a k => k.trans (h x a)) l (.of_tb rfl)

theorem SameClock.ignoresOutput (s : State) : IgnoresOutput (SameClock s) := fun _ _ h k => k.trans (.of_tb (by simp [h]))

theorem setTarget_sameClock (u : TenantId) (c : ChannelId) (x : Option Stamp) (s : State) : SameClock s (s.setTarget u c x) := ⟨rfl⟩

theorem modLane_sameClock (l : LaneId) (f : Lane → Lane) (s : State) : SameClock s (s.modLane l f) := .of_tb rfl

/-! ## Operations that disarm, arm or test entries, or zero the counters -/

/-- In the time base at most the compare entries and the count of their fires differ. -/
structure OnlyFires (s t : State) : Prop where
  tb : t.tb = { s.tb with compare := t.tb.compare,
                          counters := { s.tb.counters with compareFires := t.tb.counters.compareFires } }

theorem OnlyFires.of_tb {s t : State} (h : t.tb = s.tb) : OnlyFires s t := ⟨by rw [h]⟩

theorem OnlyFires.trans {s t u : State} (h : OnlyFires s t) (k : OnlyFires t u) : OnlyFires s u := ⟨by rw [k.tb, h.tb]⟩

theorem OnlyFires.sameClock {s t : State} (h : OnlyFires s t) : SameClock s t := ⟨by rw [h.tb]⟩

theorem fireEntry_onlyFires (u : TenantId) (c : ChannelId) (s : State) : OnlyFires s (fireEntry u c s) := by
  unfold fireEntry
  dsimp only
  split <;> exact ⟨rfl⟩

theorem testEntry_onlyFires (u : TenantId) (c : ChannelId) (s : State) : OnlyFires s (testEntry u c s) := by
  unfold testEntry
  split
  · exact fireEntry_onlyFires u c s
  · exact .of_tb rfl

theorem testEntries_onlyFires (s : State) : OnlyFires s (testEntries s) :=
  foldl_keeps (P := OnlyFires s) (fun _ u h => foldl_keeps (fun y c k => k.trans (testEntry_onlyFires u c y)) allChannels h) allTenants
    (.of_tb rfl)

theorem runWait_sameClock (u : TenantId) (c : ChannelId) (s : State) : SameClock s (runWait u c s) :=
  SameClock.trans (t := (s.modChannel u c fun x => { x with state := .waitingTime }).setTarget u c _) ⟨rfl⟩
    (testEntry_onlyFires u c _).sameClock

theorem stopChannel_sameClock (u : TenantId) (c : ChannelId) (s : State) : SameClock s (stopChannel u c s) := ⟨rfl⟩

theorem haltChannel_sameClock (u : TenantId) (c : ChannelId) (s : State) : SameClock s (haltChannel u c s) :=
  (stopChannel_sameClock u c s).trans (.of_tb (by simp [haltChannel]))

theorem doHalt_sameClock (u : TenantId) (i : Nat) (s : State) : SameClock s (doHalt u i s).1 := by
  unfold doHalt
  repeat' split
  all_goals first | exact haltChannel_sameClock u _ s | exact .of_tb rfl

theorem offChannel_sameClock (u : TenantId) (c : ChannelId) (s : State) : SameClock s (offChannel u c s) := by
  unfold offChannel
  dsimp only
  split
  · exact .of_tb rfl
  · exact (stopChannel_sameClock u c s).trans (.of_tb rfl)

theorem doTenantoff_sameClock (u : TenantId) (s : State) : SameClock s (doTenantoff u s).1 := by
  unfold doTenantoff
  split
  · have stopped (x : State) : SameClock x (allChannels.foldl (fun y c => offChannel u c y) x) :=
      .foldl (fun y c => offChannel_sameClock u c y) allChannels x
    refine SameClock.trans ?_ (modLane_sameClock _ _ _)
    refine SameClock.trans ?_ (stopped _)
    exact .of_tb rfl
  · exact .of_tb rfl

theorem resetChannels_sameClock (u : TenantId) (s : State) : SameClock s (resetChannels u s) :=
  .foldl (fun x c => .trans (t := x.modChannel u c fun _ => {}) (.of_tb rfl) (setTarget_sameClock u c none _)) allChannels s

theorem emptyLane_sameClock (l : LaneId) (s : State) : SameClock s (emptyLane l s) := .of_tb (by simp)

theorem doTenantreset_sameClock (u : TenantId) (s : State) : SameClock s (doTenantreset u s).1 := by
  have cut (x : State) : SameClock x ((streamsOf u).foldl (fun y st => resetStream st y) x) :=
    .foldl (fun _ _ => .of_tb (by simp)) (streamsOf u) x
  have freshened (x : State) : SameClock x ((streamsOf u).foldl (fun y st => freshenDiscarding st y) x) :=
    .foldl (fun _ _ => .of_tb (by simp)) (streamsOf u) x
  have budgets (x : State) : SameClock x (zeroBudgets u x) := .of_tb rfl
  have contexts (x : State) : SameClock x (emptyTenantContexts u x) := .of_tb (by simp)
  unfold doTenantreset
  refine SameClock.trans ?_ (emptyLane_sameClock _ _)
  refine SameClock.trans ?_ (freshened _)
  refine SameClock.trans ?_ (contexts _)
  refine SameClock.trans ?_ (resetChannels_sameClock u _)
  exact (cut s).trans (budgets _)

theorem zeroCounters_sameClock (s : State) : SameClock s (zeroCounters s) := ⟨rfl⟩

theorem doRestart_sameClock (x : Unit) (s : State) : SameClock s (doRestart x s).1 := by
  have paths (y : State) : SameClock y (allPaths.foldl (fun z p => restartPath p z) y) :=
    .foldl (fun _ _ => .of_tb (by simp)) allPaths y
  have rows (y : State) : SameClock y (restartRd (zeroAllBudgets (restartPu y))) := .of_tb (by simp)
  have lanes (y : State) : SameClock y (emptyLanes y) := .of_tb (by simp)
  unfold doRestart
  refine SameClock.trans ?_ (zeroCounters_sameClock _)
  refine SameClock.trans ?_ (lanes _)
  refine SameClock.trans ?_ (paths _)
  refine SameClock.trans ?_ (rows _)
  exact ⟨rfl⟩

theorem takeItems_sameClock (p : PathId) (items : List HopItem) (s : State) :
    SameClock s (items.foldl (fun x it => takeItem p it x) s) :=
  .foldl (fun _ _ => .of_tb (by simp)) items s

/-! ## The commands -/

/-- The commands that set the clock: power-on reset, those of the PPS discipline, TIMECFG and TIMESET. -/
def setsClock : Instr → Bool
  | .powerOnReset | .ppsArrival | .ppsMissing | .slewPeriodEnd | .timecfg _ _ _ | .timeset _ _ _ => true
  | _ => false

theorem operatorRequest_sameClock {α : Type} (l : LaneId) (tag : Tag) (kind : Byte) (parsed : Option α)
    {act : α → State → State × Reply} (h : ∀ x u, SameClock u (act x u).1) (s : State) :
    SameClock s (operatorRequest l tag kind parsed act s) :=
  operatorRequest_keeps (SameClock.ignoresOutput s) l tag kind (fun x _ u hu => hu.trans (h x u)) (.of_tb rfl)

theorem operatorIndex_sameClock {α : Type} {n : Nat} (l : LaneId) (tag : Tag) (kind : Byte) (parsed : Option α) (i : α → Nat)
    {act : α → Fin n → State → State × Reply} (h : ∀ x j u, SameClock u (act x j u).1) (s : State) :
    SameClock s (operatorRequest l tag kind parsed (fun x => atIndex (i x) (act x)) s) :=
  operatorRequest_keeps (SameClock.ignoresOutput s) l tag kind
    (fun x _ _ hu => atIndex_keeps (fun j v hv => hv.trans (h x j v)) hu) (.of_tb rfl)

theorem operatorHop_sameClock {α : Type} (l : LaneId) (tag : Tag) (kind : Byte) (parsed : Option α) (i : α → Nat × Nat)
    {act : α → PathId → HopId → State → State × Reply} (h : ∀ x p k u, SameClock u (act x p k u).1) (s : State) :
    SameClock s (operatorRequest l tag kind parsed (fun x => atHop (i x) (act x)) s) :=
  operatorRequest_keeps (SameClock.ignoresOutput s) l tag kind
    (fun x _ _ hu => atHop_keeps (fun p k v hv => hv.trans (h x p k v)) hu) (.of_tb rfl)

theorem tenantRequest_sameClock {α : Type} (l : LaneId) (tag : Tag) (kind : Byte) (parsed : Option α)
    {act : TenantId → α → State → State × Reply} (h : ∀ t x u, SameClock u (act t x u).1) (s : State) :
    SameClock s (tenantRequest l tag kind parsed act s) :=
  tenantRequest_keeps (SameClock.ignoresOutput s) l tag kind (fun t x _ u hu => hu.trans (h t x u)) (.of_tb rfl)

theorem runWord_sameClock (k : WordKind) {run : State → State} (h : ∀ x, SameClock x (run x)) (u : TenantId) (c : ChannelId)
    (s : State) : SameClock s (runWord k run u c s) := by
  unfold runWord
  split
  · exact SameClock.trans (.of_tb (by simp)) (h _)
  · exact .of_tb rfl

theorem exec_sameClock {i : Instr} (hi : setsClock i = false) {s t : State} (h : exec i s = .next t) : SameClock s t := by
  cases i <;> cases hi <;> cases h
  case cycleStart | controlOpportunity | portFault | portRecovered | probeTimerExpiry | probeExpiry | reportTimeout | dwellExpiry |
      leakPulse | budgetWindowExpiry | stallExpiry | frameCheckError | malformedMessage | holdTimerExpiry => exact .of_tb (by simp)
  case slotOpportunity | cellArrival | controlCellArrival => 
    split
    · split <;> exact .of_tb (by simp)
    · exact .of_tb rfl
  case hopReportFrame => 
    split
    · split
      · exact .of_tb rfl
      · refine SameClock.trans ?_ (takeItems_sameClock _ _ _)
        exact .of_tb rfl
    · exact .of_tb rfl
  case compareFire u c =>
    split
    · exact (fireEntry_onlyFires u c s).sameClock
    · exact .of_tb rfl
  case hopclear | hopset | hoptag | hopuntag => exact operatorHop_sameClock _ _ _ _ _ (fun _ _ _ _ => .of_tb (by simp)) s
  case pathset | pathon | pathoff | pathrestart | planset | planswap | tenantset | tenanton =>
    exact operatorIndex_sameClock _ _ _ _ _ (fun _ _ _ => .of_tb (by simp)) s
  case tenantoff => exact operatorIndex_sameClock _ _ _ _ _ (fun _ => doTenantoff_sameClock) s
  case tenantreset => exact operatorIndex_sameClock _ _ _ _ _ (fun _ => doTenantreset_sameClock) s
  case read => exact operatorRequest_sameClock _ _ _ _ (fun _ _ => .of_tb (by simp)) s
  case countclear => exact operatorRequest_sameClock _ _ _ _ (fun _ => zeroCounters_sameClock) s
  case restart => exact operatorRequest_sameClock _ _ _ _ doRestart_sameClock s
  case carry | loadp | loadt | streamset | query => exact tenantRequest_sameClock _ _ _ _ (fun _ _ _ => .of_tb (by simp)) s
  case halt => exact tenantRequest_sameClock _ _ _ _ doHalt_sameClock s
  case fire => split <;> exact .of_tb (by simp)
  case text | patch | mark => exact runWord_sameClock _ (fun _ => .of_tb (by simp)) _ _ s
  case wait u c => exact runWord_sameClock _ (runWait_sameClock u c) _ _ s
  case undefinedOpWord u c =>
    split
    · exact runWord_sameClock _ (fun _ => .of_tb (by simp)) u c s
    · exact .of_tb rfl
  case channelSubmission | submissionAnswer | routeWaitExpiry | reasmTimeout | entrySent => split <;> exact .of_tb (by simp)
  case resubmission =>
    split
    · exact .of_tb rfl
    · exact .of_tb (by simp)

end Sys2Proof.Proofs
end

