-- ==== Sys2Proof/Proofs/TimeDiscipline.lean ====
section
/-!
The PPS discipline under every step (R18 to R28): the time base keeps its ranges and meaning, and the count falls only with the epoch.
-/

namespace Sys2Proof.Proofs

open Sys2Proof.Machine Sys2Proof.Safety

/-! ## What each operation of TB does to the time base -/

theorem setTimeState_tb (new : TimeState) (s : State) : (setTimeState new s).tb = { s.tb with state := new } := by
  unfold setTimeState
  dsimp only
  split
  · rfl
  · simp

theorem timeStep_onlyFires (count : Nat) (cause : StepCause) (amount : Int) (s : State) :
    OnlyFires (s.modTb (stepCount count)) (timeStep count cause amount s) :=
  (testEntries_onlyFires _).trans (.of_tb (by simp [timeStep]))

/-- The time base after a step to a count, but for the compare entries and the counters. -/
theorem timeStep_tb (count : Nat) (cause : StepCause) (amount : Int) (s : State) : (timeStep count cause amount s).tb =
    { stepCount count s.tb with compare := (timeStep count cause amount s).tb.compare,
                                counters := (timeStep count cause amount s).tb.counters } :=
  (timeStep_onlyFires count cause amount s).sameClock.tb

/-! ## Ranges, whatever the time state -/

/-- What `TimeOk` says whatever the time state is. -/
structure Ranged (x : TimeBase) : Prop where
  trim : -65536 ≤ x.trim ∧ x.trim ≤ 65536
  slew : -16000 ≤ x.slew ∧ x.slew ≤ 16000
  period : x.slewTimer = none → x.slew = 0
  frac : x.frac < Config.tuPerSecond
  window : 16 ≤ x.params.lockWindow ∧ x.params.lockWindow ≤ x.params.stepThreshold
  threshold : x.params.stepThreshold ≤ 160000000
  shifts : x.params.kp ≤ 7 ∧ x.params.ki ≤ 15

/-- The reference is enabled and the PPS watch runs. -/
def Watched (x : TimeBase) : Prop := x.refEnable = true ∧ x.watch.isSome = true

theorem ranged_of_timeOk {x : TimeBase} (h : TimeOk x) : Ranged x :=
  { trim := h.trim, slew := h.slew, period := h.period, frac := h.frac, window := h.window, threshold := h.threshold, shifts := h.shifts }

theorem watched_of_timeOk {x : TimeBase} (h : TimeOk x) (hs : x.state ≠ .free) : Watched x := by
  refine ⟨?_, h.watch.mpr hs⟩
  have := mt h.free.mpr hs
  simpa using this

/-- ACQUIRING with an in-window run, or LOCKED with an out-of-window run. -/
theorem timeOk_of_ranged {x : TimeBase} (h : Ranged x) (w : Watched x) {new : TimeState} {i o : Nat}
    (hn : new = .acquiring ∧ i ≤ 3 ∧ o = 0 ∨ new = .locked ∧ i = 0 ∧ o ≤ 2) :
    TimeOk { x with state := new, inRun := i, outRun := o } := by
  obtain ⟨hr, hw⟩ := w
  rcases hn with ⟨rfl, hi, rfl⟩ | ⟨rfl, rfl, ho⟩
  all_goals exact {
    trim := h.trim, slew := h.slew, period := h.period, frac := h.frac, window := h.window, threshold := h.threshold, shifts := h.shifts,
    free := by simp [hr], watch := by simp [hw], still := by simp, inRun := by simp [*], outRun := by simp [*] }

theorem discipline_ranged (e : Int) {s : State} (h : Ranged s.tb) : Ranged (discipline e s).tb :=
  { frac := h.frac, window := h.window, threshold := h.threshold, shifts := h.shifts, period := by simp [discipline]
    trim := by simp only [discipline, State.modTb_tb, trimAfter, clampInt]; omega
    slew := by simp only [discipline, State.modTb_tb, slewFor, clampInt]; omega }

theorem stepCount_ranged (count : Nat) {x : TimeBase} (h : Ranged x) : Ranged (stepCount count x) :=
  { trim := h.trim, frac := h.frac, window := h.window, threshold := h.threshold, shifts := h.shifts, slew := by simp [stepCount],
    period := fun _ => rfl }

theorem timeStep_ranged (count : Nat) (cause : StepCause) (amount : Int) {s : State} (h : Ranged s.tb) :
    Ranged (timeStep count cause amount s).tb := by
  obtain ⟨trim, slew, period, frac, window, threshold, shifts⟩ := stepCount_ranged count h
  rw [timeStep_tb]
  exact ⟨trim, slew, period, frac, window, threshold, shifts⟩

theorem correct_ranged (e : Int) {s : State} (h : Ranged s.tb) : Ranged (correct e s).tb := by
  unfold correct
  split
  · exact timeStep_ranged _ _ _ h
  · exact discipline_ranged e h

/-- Neither a step nor the updates of R24 touch the reference enable, the PPS watch, the time state and the runs. -/
theorem correct_kept (e : Int) (s : State) : (correct e s).tb.refEnable = s.tb.refEnable ∧ (correct e s).tb.watch = s.tb.watch ∧
    (correct e s).tb.state = s.tb.state ∧ (correct e s).tb.inRun = s.tb.inRun ∧ (correct e s).tb.outRun = s.tb.outRun := by
  unfold correct
  split
  · rw [acquireStep, timeStep_tb]
    exact ⟨rfl, rfl, rfl, rfl, rfl⟩
  · exact ⟨rfl, rfl, rfl, rfl, rfl⟩

theorem correct_watched (e : Int) {s : State} (w : Watched s.tb) : Watched (correct e s).tb := by
  obtain ⟨hr, hw, _⟩ := correct_kept e s
  rw [Watched, hr, hw]
  exact w

/-! ## The PPS, its absence, and the end of a slew period -/

theorem timeOk_of_eq {x y : TimeBase} (h : Ranged x) (w : Watched x) {new : TimeState} {i o : Nat}
    (hy : y = { x with state := new, inRun := i, outRun := o })
    (hn : new = .acquiring ∧ i ≤ 3 ∧ o = 0 ∨ new = .locked ∧ i = 0 ∧ o ≤ 2) : TimeOk y := hy ▸ timeOk_of_ranged h w hn

theorem takePps_timeOk {s : State} (h : TimeOk s.tb) (hs : s.tb.state ≠ .free) : TimeOk (takePps s).tb :=
  { h with watch := by simp [takePps, hs] }

theorem ppsAcquiring_timeOk (e : Int) {s : State} (h : TimeOk s.tb) (hs : s.tb.state = .acquiring) :
    TimeOk (ppsAcquiring e s).tb := by
  have hr := correct_ranged e (ranged_of_timeOk h)
  have hw := correct_watched e (watched_of_timeOk h (by simp [hs]))
  obtain ⟨_, _, hstate, hin, hout⟩ := correct_kept e s
  have ho : s.tb.outRun = 0 := h.outRun.2 (by simp [hs])
  have stays {i : Nat} (hi : i ≤ 3) : TimeOk { (correct e s).tb with inRun := i } :=
    timeOk_of_eq (new := .acquiring) (o := 0) hr hw (by rw [← hs, ← hstate, ← ho, ← hout]) (.inl ⟨rfl, hi, rfl⟩)
  unfold ppsAcquiring
  dsimp only
  split
  · split
    · rw [setTimeState_tb]
      exact timeOk_of_ranged hr hw (.inr ⟨rfl, rfl, Nat.zero_le _⟩)
    · exact stays (by omega)
  · exact stays (Nat.zero_le _)

theorem ppsLocked_timeOk (e : Int) {s : State} (h : TimeOk s.tb) (hs : s.tb.state = .locked) : TimeOk (ppsLocked e s).tb := by
  have hr := discipline_ranged e (ranged_of_timeOk h)
  have hw : Watched (discipline e s).tb := show Watched s.tb from watched_of_timeOk h (by simp [hs])
  have hi : s.tb.inRun = 0 := h.inRun.2 (by simp [hs])
  have stays {o : Nat} (ho : o ≤ 2) : TimeOk { (discipline e s).tb with outRun := o } :=
    timeOk_of_eq (new := .locked) (i := 0) (o := o) hr hw (by rw [← hs, ← hi]; rfl) (.inr ⟨rfl, rfl, ho⟩)
  unfold ppsLocked
  dsimp only
  split
  · exact stays (Nat.zero_le _)
  · split
    · rw [setTimeState_tb]
      exact timeOk_of_ranged hr hw (.inl ⟨rfl, Nat.zero_le _, rfl⟩)
    · exact stays (by omega)

theorem ppsHoldover_timeOk (e : Int) {s : State} (h : TimeOk s.tb) (hs : s.tb.state = .holdover) :
    TimeOk (ppsHoldover e s).tb := by
  have hr := correct_ranged e (ranged_of_timeOk h)
  have hw := correct_watched e (watched_of_timeOk h (by simp [hs]))
  unfold ppsHoldover
  dsimp only
  rw [setTimeState_tb]
  refine timeOk_of_ranged hr hw ?_
  split
  · exact .inr ⟨rfl, rfl, Nat.zero_le _⟩
  · exact .inl ⟨rfl, Nat.zero_le _, rfl⟩

theorem execPpsArrival_timeOk {s t : State} (h : TimeOk s.tb) (ht : exec .ppsArrival s = .next t) : TimeOk t.tb := by
  cases ht
  have taken (hs : s.tb.state ≠ .free) : TimeOk (takePps s).tb := takePps_timeOk h hs
  split
  · exact { h with }
  · next hs => exact ppsAcquiring_timeOk _ (taken (by simp [hs])) hs
  · next hs => exact ppsLocked_timeOk _ (taken (by simp [hs])) hs
  · next hs => exact ppsHoldover_timeOk _ (taken (by simp [hs])) hs

theorem missingPps_timeOk {s : State} (h : TimeOk s.tb) : TimeOk (missingPps s).tb := by
  unfold missingPps
  split
  · next hs =>
    obtain ⟨hr, hw⟩ := watched_of_timeOk h (by simp [hs])
    rw [setTimeState_tb]
    exact { h with
      slew := by simp, period := fun _ => rfl, free := by simp [hr], watch := by simp [hw], still := fun _ => rfl
      inRun := by simp [h.inRun.2 (by simp [hs])], outRun := by simp }
  · exact { h with inRun := ⟨Nat.zero_le _, fun _ => rfl⟩ }
  · exact h
  · exact h

theorem execPpsMissing_timeOk {s t : State} (h : TimeOk s.tb) (ht : exec .ppsMissing s = .next t) : TimeOk t.tb := by
  cases ht
  split
  · next hw => exact missingPps_timeOk { h with watch := by simp [h.watch.mp hw] }
  · exact h

theorem execSlewPeriodEnd_timeOk {s t : State} (h : TimeOk s.tb) (ht : exec .slewPeriodEnd s = .next t) : TimeOk t.tb := by
  cases ht
  split
  · exact { h with slew := by simp, period := fun _ => rfl, still := fun _ => rfl }
  · exact h

/-! ## TIMECFG and TIMESET -/

theorem parseTimecfg_ranges {b : List Byte} {r : TimecfgReq} (h : parseTimecfg b = some r) : 16 ≤ r.params.lockWindow ∧
    r.params.stepThreshold ≤ 160000000 ∧ r.params.kp ≤ 7 ∧ r.params.ki ≤ 15 := by
  unfold parseTimecfg sized at h
  split at h
  · cases h
    simp only [clampNat]
    omega
  · cases h

/-- FREE, with no slew period and no PPS watch. -/
theorem timeOk_free {x : TimeBase} (h : Ranged x) (hoff : x.refEnable = false) : TimeOk { x with
    state := .free, slew := 0, slewTimer := none, watch := none, inRun := 0, outRun := 0 } :=
  { trim := h.trim, frac := h.frac, window := h.window, threshold := h.threshold, shifts := h.shifts, slew := by simp,
    period := fun _ => rfl, free := by simp [hoff], watch := by simp, still := fun _ => rfl, inRun := by simp, outRun := by simp }

theorem doTimecfg_timeOk {b : List Byte} {r : TimecfgReq} (hb : parseTimecfg b = some r) {s : State} (h : TimeOk s.tb) :
    TimeOk (doTimecfg r s).1.tb := by
  obtain ⟨hlock, hthreshold, hshifts⟩ := parseTimecfg_ranges hb
  unfold doTimecfg
  split
  · exact h
  · next hle =>
    have ranged : Ranged { s.tb with params := r.params, refEnable := r.enable } :=
      { ranged_of_timeOk h with window := ⟨hlock, Nat.le_of_not_lt hle⟩, threshold := hthreshold, shifts := hshifts }
    have stays (hs : s.tb.state = .free ↔ r.enable = false) : TimeOk { s.tb with params := r.params, refEnable := r.enable } :=
      { h with window := ranged.window, threshold := hthreshold, shifts := hshifts, free := hs }
    dsimp only
    split
    · next hen =>
      unfold enableReference
      split
      · next hs =>
        rw [setTimeState_tb]
        exact timeOk_of_ranged (x := { s.tb with params := r.params, refEnable := r.enable, watch := some Config.ppsWatch })
          { ranged with } ⟨hen, rfl⟩ (.inl ⟨rfl, Nat.zero_le _, rfl⟩)
      · next hs => exact stays (by simpa [hen] using hs)
    · next hen =>
      have hen : r.enable = false := by simpa using hen
      unfold disableReference
      split
      · next hs => exact stays (by simpa [hen] using hs)
      · rw [setTimeState_tb]
        have off := timeOk_free ranged hen
        exact off

theorem timeStep_timeOk (count : Nat) (cause : StepCause) (amount : Int) {s : State} (h : TimeOk s.tb) :
    TimeOk (timeStep count cause amount s).tb := by
  have hr := timeStep_ranged count cause amount (ranged_of_timeOk h)
  rw [timeStep_tb] at hr ⊢
  exact { h with slew := hr.slew, period := hr.period, still := fun _ => rfl }

theorem afterLoad_timeOk {s : State} (h : TimeOk s.tb) : TimeOk (afterLoad s).tb := by
  unfold afterLoad
  split
  · next hs =>
    rw [setTimeState_tb]
    exact timeOk_of_ranged (ranged_of_timeOk h) (watched_of_timeOk h (by simp [hs])) (.inl ⟨rfl, Nat.zero_le _, rfl⟩)
  · exact { h with inRun := ⟨Nat.zero_le _, fun _ => rfl⟩ }
  · exact h
  · exact h

theorem doTimeset_refused {count : Nat} (h : 2 ^ 63 ≤ count) (s : State) : doTimeset count s = (s, .refused .badValue) := if_pos h

theorem doTimeset_taken {count : Nat} (h : ¬2 ^ 63 ≤ count) (s : State) : doTimeset count s =
    (afterLoad (timeStep count .timeset (loadAmount count s.tb.count.toNat) s), .accepted) := if_neg h

theorem doTimeset_timeOk (count : Nat) {s : State} (h : TimeOk s.tb) : TimeOk (doTimeset count s).1.tb := by
  by_cases hc : 2 ^ 63 ≤ count
  · rw [doTimeset_refused hc]
    exact h
  · rw [doTimeset_taken hc]
    have loaded := afterLoad_timeOk (timeStep_timeOk count .timeset (loadAmount count s.tb.count.toNat) h)
    exact loaded

/-! ## Every step keeps `TimeOk` -/

theorem SameClock.timeOk {s t : State} (h : SameClock s t) (k : TimeOk s.tb) : TimeOk t.tb := by
  rw [h.tb]
  exact { k with }

theorem timeOk_ignoresOutput : IgnoresOutput fun s => TimeOk s.tb := fun s u h k => by
  have same : u.tb = s.tb := by simp [h]
  change TimeOk u.tb
  rw [same]
  exact k

theorem exec_setsClock_timeOk {i : Instr} (hi : setsClock i = true) {s t : State} (h : exec i s = .next t) (k : TimeOk s.tb) :
    TimeOk t.tb := by
  cases i <;> cases hi
  case powerOnReset => cases h; exact afterReset_timeOk s.pending
  case ppsArrival => exact execPpsArrival_timeOk k h
  case ppsMissing => exact execPpsMissing_timeOk k h
  case slewPeriodEnd => exact execSlewPeriodEnd_timeOk k h
  case timecfg =>
    cases h
    exact operatorRequest_keeps timeOk_ignoresOutput _ _ _ (fun _ hb _ hu => doTimecfg_timeOk hb hu) k
  case timeset =>
    cases h
    exact operatorRequest_keeps timeOk_ignoresOutput _ _ _ (fun n _ _ hu => doTimeset_timeOk n hu) k

theorem exec_timeOk {i : Instr} {s t : State} (h : exec i s = .next t) (k : TimeOk s.tb) : TimeOk t.tb := by
  cases hi : setsClock i
  · exact (exec_sameClock hi h).timeOk k
  · exact exec_setsClock_timeOk hi h k

theorem tickCount_timeOk {x : TimeBase} (h : TimeOk x) : TimeOk (tickCount x) :=
  { h with
    frac := Nat.mod_lt _ (by decide)
    period := fun hn => h.period (by simpa [tickCount, Timer.tick] using hn)
    watch := by simpa [tickCount, Timer.tick] using h.watch
    still := fun hs => by simp [tickCount, Timer.tick, h.still hs] }

theorem idleStep_tb (s : State) : (idleStep s).tb = s.tb ∨ (idleStep s).tb = tickCount s.tb := by
  unfold idleStep
  split
  · exact .inl rfl
  · exact .inl (by simp)
  · exact .inr rfl

theorem idleStep_timeOk {s : State} (h : TimeOk s.tb) : TimeOk (idleStep s).tb := by
  rcases idleStep_tb s with e | e
  · rw [e]; exact h
  · rw [e]; exact tickCount_timeOk h

/-- Settles O15: a step is a command or the part's own step, and each keeps the invariant. -/
theorem stepKeepsTimeDiscipline : Obligations.StepKeepsTimeDiscipline := by
  unfold Obligations.StepKeepsTimeDiscipline
  intro s t k h
  unfold step at h
  split at h
  · exact exec_timeOk h k
  · cases h
    exact idleStep_timeOk k

/-! ## The count and the epoch (R18, R20) -/

/-- The count stands, or a new epoch has begun. -/
def CountGuarded (s t : State) : Prop := t.tb.epoch = s.tb.epoch + 1 ∨ t.tb.epoch = s.tb.epoch ∧ t.tb.count = s.tb.count

theorem CountGuarded.of_same {s t : State} (h : t.tb.epoch = s.tb.epoch) (k : t.tb.count = s.tb.count) : CountGuarded s t := .inr ⟨h, k⟩

theorem SameClock.countGuarded {s t : State} (h : SameClock s t) : CountGuarded s t := .of_same (by rw [h.tb]) (by rw [h.tb])

/-- What comes before and after leaves the count and the epoch. -/
theorem CountGuarded.between {s t u v : State} (h : CountGuarded t u) (before : t.tb.epoch = s.tb.epoch ∧ t.tb.count = s.tb.count)
    (after : v.tb.epoch = u.tb.epoch ∧ v.tb.count = u.tb.count) : CountGuarded s v := by
  unfold CountGuarded at *
  rwa [after.1, after.2, ← before.1, ← before.2]

theorem timeStep_epoch (count : Nat) (cause : StepCause) (amount : Int) (s : State) :
    (timeStep count cause amount s).tb.epoch = s.tb.epoch + 1 := by
  rw [timeStep_tb]
  rfl

theorem timeStep_countGuarded (count : Nat) (cause : StepCause) (amount : Int) (s : State) :
    CountGuarded s (timeStep count cause amount s) := .inl (timeStep_epoch count cause amount s)

theorem correct_countGuarded (e : Int) (s : State) : CountGuarded s (correct e s) := by
  unfold correct
  split
  · exact timeStep_countGuarded ..
  · exact .of_same rfl rfl

theorem ppsAcquiring_countGuarded (e : Int) (s : State) : CountGuarded s (ppsAcquiring e s) := by
  refine (correct_countGuarded e s).between ⟨rfl, rfl⟩ ?_
  unfold ppsAcquiring
  dsimp only
  repeat' split
  all_goals simp

theorem ppsHoldover_countGuarded (e : Int) (s : State) : CountGuarded s (ppsHoldover e s) :=
  (correct_countGuarded e s).between ⟨rfl, rfl⟩ (by simp [ppsHoldover])

theorem execPpsArrival_countGuarded {s t : State} (h : exec .ppsArrival s = .next t) : CountGuarded s t := by
  cases h
  split
  · exact .of_same rfl rfl
  · exact (ppsAcquiring_countGuarded _ (takePps s)).between ⟨rfl, rfl⟩ ⟨rfl, rfl⟩
  · exact .of_same (by simp) (by simp)
  · exact (ppsHoldover_countGuarded _ (takePps s)).between ⟨rfl, rfl⟩ ⟨rfl, rfl⟩

theorem afterLoad_kept (s : State) : (afterLoad s).tb.epoch = s.tb.epoch ∧ (afterLoad s).tb.count = s.tb.count := by simp

theorem doTimeset_countGuarded (count : Nat) (s : State) : CountGuarded s (doTimeset count s).1 := by
  by_cases hc : 2 ^ 63 ≤ count
  · rw [doTimeset_refused hc]
    exact .of_same rfl rfl
  · rw [doTimeset_taken hc]
    have loaded := timeStep_countGuarded count .timeset (loadAmount count s.tb.count.toNat) s
    generalize timeStep count .timeset (loadAmount count s.tb.count.toNat) s = u at loaded ⊢
    exact loaded.between ⟨rfl, rfl⟩ (afterLoad_kept u)

/-- An operator request reaches the time base by its owner alone. -/
theorem operatorRequest_tb {α : Type} (l : LaneId) (tag : Tag) (kind : Byte) (parsed : Option α) (act : α → State → State × Reply)
    (s : State) : (operatorRequest l tag kind parsed act s).tb = s.tb ∨
      ∃ x, (operatorRequest l tag kind parsed act s).tb = (act x (countRequest l s)).1.tb := by
  unfold operatorRequest serve
  repeat' split
  · exact .inl (by simp)
  · next x => exact .inr ⟨x, by simp⟩
  · exact .inl (by simp)

theorem operatorRequest_countGuarded {α : Type} (l : LaneId) (tag : Tag) (kind : Byte) (parsed : Option α)
    {act : α → State → State × Reply} (h : ∀ x u, CountGuarded u (act x u).1) (s : State) :
    CountGuarded s (operatorRequest l tag kind parsed act s) := by
  rcases operatorRequest_tb l tag kind parsed act s with e | ⟨x, e⟩
  · exact .of_same (by rw [e]) (by rw [e])
  · exact (h x (countRequest l s)).between ⟨rfl, rfl⟩ (by rw [e]; exact ⟨rfl, rfl⟩)

theorem exec_setsClock_countGuarded {i : Instr} (hc : setsClock i = true) (hi : i ≠ .powerOnReset) {s t : State}
    (h : exec i s = .next t) : CountGuarded s t := by
  cases i <;> cases hc
  case powerOnReset => exact absurd rfl hi
  case ppsArrival => exact execPpsArrival_countGuarded h
  case ppsMissing | slewPeriodEnd => cases h; exact .of_same (by simp) (by simp)
  case timecfg => cases h; exact operatorRequest_countGuarded _ _ _ _ (fun _ _ => .of_same (by simp) (by simp)) s
  case timeset => cases h; exact operatorRequest_countGuarded _ _ _ _ doTimeset_countGuarded s

theorem exec_countGuarded {i : Instr} (hi : i ≠ .powerOnReset) {s t : State} (h : exec i s = .next t) : CountGuarded s t := by
  cases hc : setsClock i
  · exact (exec_sameClock hc h).countGuarded
  · exact exec_setsClock_countGuarded hc hi h

theorem tickCount_le (x : TimeBase) : x.count.toNat ≤ (tickCount x).count.toNat := by
  have hx := x.count.isLt
  have hmax : Config.countMax = 2 ^ 64 - 1 := rfl
  unfold tickCount
  dsimp only
  generalize _ / Config.tuPerSecond = passing
  rw [BitVec.toNat_ofNat, Nat.mod_eq_of_lt (by omega)]
  omega

theorem epoch_ne_succ (e : Epoch) : e ≠ e + 1 := by bv_omega

/-- Settles O16: a command leaves the count or begins a new epoch, and time that passes never lowers the count. -/
theorem countFallsOnlyWithNewEpoch : Obligations.CountFallsOnlyWithNewEpoch := by
  unfold Obligations.CountFallsOnlyWithNewEpoch
  intro s t h hfront hepoch
  unfold step at h
  split at h
  · next i rest hp =>
    rcases exec_countGuarded (by simpa [hp] using hfront) h with e | ⟨_, e⟩
    · exact absurd (hepoch.symm.trans e) (epoch_ne_succ _)
    · exact (congrArg BitVec.toNat e).ge
  · cases h
    rcases idleStep_tb s with e | e
    · rw [e]
    · rw [e]
      exact tickCount_le s.tb

end Sys2Proof.Proofs
end

