-- ==== Sys2Proof/Proofs/OneSecond.lean ====
section
/-!
One second of reference input (R18): the remainder of a tu carries the rate from tick to tick, so over a whole second nothing is lost.
-/

namespace Sys2Proof.Proofs

open Sys2Proof.Machine Sys2Proof.Safety

/-- What one tick adds, in 1/16,000,000,000 tu. -/
def rate (x : TimeBase) : Nat := ((Config.tuPerSecond : Int) + x.trim + x.slew).toNat

/-- The remainder after some ticks, before the whole tu are taken from it. -/
def accumulated (x : TimeBase) (k : Nat) : Nat := x.frac + k * rate x

/-- What some ticks leave of the count, the remainder and the corrections, short of the greatest count. -/
structure Ticked (x : TimeBase) (k : Nat) (y : TimeBase) : Prop where
  count : y.count.toNat = x.count.toNat + accumulated x k / Config.tuPerSecond
  frac : y.frac = accumulated x k % Config.tuPerSecond
  trim : y.trim = x.trim
  slew : y.slew = x.slew

theorem tuPerSecond_pos : 0 < Config.tuPerSecond := by decide

theorem Ticked.zero {x : TimeBase} (h : x.frac < Config.tuPerSecond) : Ticked x 0 x where
  count := by simp [accumulated, Nat.div_eq_of_lt h]
  frac := by simp [accumulated, Nat.mod_eq_of_lt h]
  trim := rfl
  slew := rfl

theorem accumulated_succ (x : TimeBase) (k : Nat) : accumulated x (k + 1) = accumulated x k + rate x := by
  unfold accumulated
  rw [Nat.succ_mul, Nat.add_assoc]

/-- One tick more: the whole tu of the remainder go into the count. -/
theorem Ticked.succ {x y : TimeBase} {k : Nat} (h : Ticked x k y)
    (hmax : x.count.toNat + accumulated x (k + 1) / Config.tuPerSecond ≤ Config.countMax) : Ticked x (k + 1) (tickCount y) := by
  have hrate : ((Config.tuPerSecond : Int) + y.trim + y.slew).toNat = rate x := by rw [h.trim, h.slew]; rfl
  have hsum : accumulated x (k + 1) = (y.frac + rate x) + Config.tuPerSecond * (accumulated x k / Config.tuPerSecond) := by
    have := Nat.mod_add_div (accumulated x k) Config.tuPerSecond
    rw [accumulated_succ, h.frac]
    omega
  have hdiv : accumulated x (k + 1) / Config.tuPerSecond =
      (y.frac + rate x) / Config.tuPerSecond + accumulated x k / Config.tuPerSecond := by
    rw [hsum, Nat.add_mul_div_left _ _ tuPerSecond_pos]
  have hcount : y.count.toNat + (y.frac + rate x) / Config.tuPerSecond =
      x.count.toNat + accumulated x (k + 1) / Config.tuPerSecond := by
    rw [hdiv, h.count]
    omega
  have hlt : Config.countMax < 2 ^ 64 := by decide
  constructor
  · simp only [tickCount, hrate]
    rw [hcount, Nat.min_eq_left hmax, BitVec.toNat_ofNat, Nat.mod_eq_of_lt (by omega)]
  · simp only [tickCount, hrate]
    rw [hsum, Nat.add_mul_mod_self_left]
  · exact h.trim
  · exact h.slew

theorem ticked_iterate {x : TimeBase} (hfrac : x.frac < Config.tuPerSecond) (k : Nat)
    (hmax : x.count.toNat + accumulated x k / Config.tuPerSecond ≤ Config.countMax) : Ticked x k (tickCount^[k] x) := by
  induction k with
  | zero => exact .zero hfrac
  | succ k ih =>
    have hle : accumulated x k / Config.tuPerSecond ≤ accumulated x (k + 1) / Config.tuPerSecond :=
      Nat.div_le_div_right (by rw [accumulated_succ]; omega)
    rw [Function.iterate_succ_apply']
    exact (ih (by omega)).succ hmax

theorem tick_iterate_tb (k : Nat) (s : State) : (tick^[k] s).tb = tickCount^[k] s.tb := by
  induction k with
  | zero => rfl
  | succ k ih => rw [Function.iterate_succ_apply', Function.iterate_succ_apply', ← ih]; rfl

/-- Over one second the remainder returns to where it was, and the count has gone up by the rate. -/
theorem accumulated_second {x : TimeBase} (h : x.frac < Config.tuPerSecond) :
    accumulated x Config.tuPerSecond / Config.tuPerSecond = rate x := by
  rw [accumulated, Nat.add_mul_div_left _ _ tuPerSecond_pos, Nat.div_eq_of_lt h, Nat.zero_add]

/-- Settles O31: the ticks of a second, counted by induction on their number. -/
theorem oneSecondAdvancesTheCount : Obligations.OneSecondAdvancesTheCount := by
  unfold Obligations.OneSecondAdvancesTheCount
  intro s h hroom
  have htrim := h.trim
  have hslew := h.slew
  have hrate : (rate s.tb : Int) = 16000000000 + s.tb.trim + s.tb.slew := by
    rw [rate, show Config.tuPerSecond = 16000000000 from rfl]
    omega
  have hmax : s.tb.count.toNat + accumulated s.tb Config.tuPerSecond / Config.tuPerSecond ≤ Config.countMax := by
    rw [accumulated_second h.frac, show Config.countMax = 2 ^ 64 - 1 from rfl]
    omega
  have second := (ticked_iterate h.frac Config.tuPerSecond hmax).count
  rw [accumulated_second h.frac, ← tick_iterate_tb, show Config.tuPerSecond = 16000000000 from rfl] at second
  rw [second]
  push_cast
  omega

end Sys2Proof.Proofs
end

