-- ==== Sys2Proof/Proofs/TimeSteps.lean ====
section
/-!
A step of the count (R20, R35): what testing the compare entries does to each entry and channel, and the notices that a step queues.
-/

namespace Sys2Proof.Proofs

open Sys2Proof.Machine Sys2Proof.Claims

/-! ## One entry tested -/

/-- An entry is armed and the count has passed its target. -/
def dueAt (now : Stamp) (x : Option Stamp) : Bool := x.any (passed · now)

/-- A channel after its entry has been tested. -/
def testedChannel (now : Stamp) (x : Option Stamp) (y : Channel) : Channel :=
  if dueAt now x then (if y.state = .waitingTime then resume y else y) else y

/-- An entry after its test: disarmed where it fired. -/
def testedTarget (now : Stamp) (x : Option Stamp) : Option Stamp := if dueAt now x then none else x

theorem capture_stamp (s : State) : (capture s).stamp = BitVec.ofNat 48 s.tb.count.toNat := rfl

theorem entryDue_eq (s : State) (u : TenantId) (c : ChannelId) : entryDue s u c = dueAt (capture s).stamp (s.target u c) := by
  unfold entryDue dueAt
  cases s.target u c <;> rfl

theorem fireEntry_target (u v : TenantId) (c d : ChannelId) (s : State) :
    (fireEntry u c s).target v d = if v = u ∧ d = c then none else s.target v d := by
  have same : (fireEntry u c s).tb.compare = (s.setTarget u c none).tb.compare := by
    unfold fireEntry
    dsimp only
    split <;> rfl
  rw [← State.target_setTarget]
  simp only [State.target, same]

theorem fireEntry_channel (u v : TenantId) (c d : ChannelId) (s : State) : (fireEntry u c s).channel v d =
    if v = u ∧ d = c then (if (s.channel u c).state = .waitingTime then resume (s.channel u c) else s.channel u c)
    else s.channel v d := by
  unfold fireEntry
  dsimp only
  split
  · next h =>
    have h : (s.channel u c).state = .waitingTime := h
    rw [State.channel_modChannel, if_pos h]
    rfl
  · next h =>
    have h : (s.channel u c).state ≠ .waitingTime := h
    rw [if_neg h]
    split
    · next e => rw [e.1, e.2]; rfl
    · rfl

theorem testEntry_target (u v : TenantId) (c d : ChannelId) (s : State) : (testEntry u c s).target v d =
    if v = u ∧ d = c then testedTarget (capture s).stamp (s.target v d) else s.target v d := by
  unfold testEntry testedTarget
  rw [entryDue_eq]
  split
  · next h =>
    rw [fireEntry_target]
    split
    · next e => rw [e.1, e.2, if_pos h]
    · rfl
  · next h =>
    split
    · next e => rw [e.1, e.2, if_neg h]
    · rfl

theorem testEntry_channel (u v : TenantId) (c d : ChannelId) (s : State) : (testEntry u c s).channel v d =
    if v = u ∧ d = c then testedChannel (capture s).stamp (s.target v d) (s.channel v d) else s.channel v d := by
  unfold testEntry testedChannel
  rw [entryDue_eq]
  split
  · next h =>
    rw [fireEntry_channel]
    split
    · next e => rw [e.1, e.2, if_pos h]
    · rfl
  · next h =>
    split
    · next e => rw [e.1, e.2, if_neg h]
    · rfl

/-! ## All entries tested (R35) -/

theorem testedTarget_twice (now : Stamp) (x : Option Stamp) : testedTarget now (testedTarget now x) = testedTarget now x := by
  unfold testedTarget
  split <;> simp_all [dueAt]

theorem testedChannel_twice (now : Stamp) (x : Option Stamp) (y : Channel) :
    testedChannel now (testedTarget now x) (testedChannel now x y) = testedChannel now x y := by
  unfold testedTarget
  split
  · simp [testedChannel, dueAt]
  · next h => simp [testedChannel, h]

/-- The entries of the table, as their tenants and channels, in the order in which a step tests them (log 36). -/
def allEntries : List (TenantId × ChannelId) := allTenants.flatMap fun u => allChannels.map fun c => (u, c)

theorem mem_allEntries (u : TenantId) (c : ChannelId) : (u, c) ∈ allEntries := by
  simp [allEntries, mem_allTenants, mem_allChannels]

theorem testEntries_eq (s : State) : testEntries s = allEntries.foldl (fun x k => testEntry k.1 k.2 x) s := by
  simp only [testEntries, allEntries, List.foldl_flatMap, List.foldl_map]

/-- Entries and channels after some of the entries have been tested. -/
theorem tested_rows (v : TenantId) (d : ChannelId) (l : List (TenantId × ChannelId)) (s : State) :
    (l.foldl (fun x k => testEntry k.1 k.2 x) s).target v d =
      (if (v, d) ∈ l then testedTarget (capture s).stamp (s.target v d) else s.target v d) ∧
    (l.foldl (fun x k => testEntry k.1 k.2 x) s).channel v d =
      if (v, d) ∈ l then testedChannel (capture s).stamp (s.target v d) (s.channel v d) else s.channel v d := by
  induction l generalizing s with
  | nil => simp
  | cons a l ih =>
    obtain ⟨u, c⟩ := a
    have hcap : capture (testEntry u c s) = capture s := by simp [capture]
    obtain ⟨htarget, hchannel⟩ := ih (testEntry u c s)
    rw [List.foldl_cons, htarget, hchannel, hcap, testEntry_target, testEntry_channel]
    by_cases e : v = u ∧ d = c
    · obtain ⟨rfl, rfl⟩ := e
      simp [testedTarget_twice, testedChannel_twice]
    · simp [e]

theorem testEntries_target (v : TenantId) (d : ChannelId) (s : State) :
    (testEntries s).target v d = testedTarget (capture s).stamp (s.target v d) := by
  rw [testEntries_eq, (tested_rows v d allEntries s).1, if_pos (mem_allEntries v d)]

theorem testEntries_channel (v : TenantId) (d : ChannelId) (s : State) :
    (testEntries s).channel v d = testedChannel (capture s).stamp (s.target v d) (s.channel v d) := by
  rw [testEntries_eq, (tested_rows v d allEntries s).2, if_pos (mem_allEntries v d)]

/-! ## A step of the count -/

theorem timeStep_target (count : Nat) (cause : StepCause) (amount : Int) (s : State) (v : TenantId) (d : ChannelId) :
    (timeStep count cause amount s).target v d =
      testedTarget (BitVec.ofNat 48 (timeStep count cause amount s).tb.count.toNat) (s.target v d) := by
  have htb : (timeStep count cause amount s).tb = (testEntries (s.modTb (stepCount count))).tb := by simp [timeStep]
  rw [State.target_of htb, testEntries_target, timeStep_tb]
  rfl

theorem timeStep_channel (count : Nat) (cause : StepCause) (amount : Int) (s : State) (v : TenantId) (d : ChannelId) :
    (timeStep count cause amount s).channel v d =
      testedChannel (BitVec.ofNat 48 (timeStep count cause amount s).tb.count.toNat) (s.target v d) (s.channel v d) := by
  have hpe : (timeStep count cause amount s).pe = (testEntries (s.modTb (stepCount count))).pe := notifyOperator_pe _ _
  rw [State.channel_of hpe, testEntries_channel, timeStep_tb]
  rfl

theorem timeStep_frames (count : Nat) (cause : StepCause) (amount : Int) (s : State) : timeFrame s (timeStep count cause amount s) :=
  state_ext (by simp)

theorem modTb_timeFrame {s t : State} (f : TimeBase → TimeBase) (h : timeFrame s t) : timeFrame s (t.modTb f) :=
  congrArg (fun x : State => x.modTb f) h

theorem dueAt_some (g : Stamp) (t : State) : dueAt (BitVec.ofNat 48 t.tb.count.toNat) (some g) = true ↔ reached g t := by
  simp [dueAt, passed, reached]

theorem timeStep_stepped (count : Nat) (cause : StepCause) (amount : Int) (s : State) : stepped s (timeStep count cause amount s) := by
  refine ⟨timeStep_frames .., fun u c => ?_⟩
  rw [timeStep_target, timeStep_channel]
  refine ⟨fun h => by rw [h]; exact ⟨rfl, rfl⟩, fun g h => ?_⟩
  rw [h, testedTarget, testedChannel]
  refine ⟨fun hr => ?_, fun hr => ?_⟩
  · rw [← dueAt_some] at hr
    rw [if_pos hr, if_pos hr]
    exact ⟨rfl, rfl⟩
  · rw [← dueAt_some] at hr
    rw [if_neg hr, if_neg hr]
    exact ⟨rfl, rfl⟩

/-- What the event does before and after the step leaves the channels, the entries and the new count. -/
theorem stepped_within {s v u t : State} (h : stepped v u) (before : v.pe = s.pe ∧ v.tb.compare = s.tb.compare)
    (after : t.pe = u.pe ∧ t.tb.compare = u.tb.compare ∧ t.tb.count = u.tb.count) (frame : timeFrame s t) : stepped s t := by
  obtain ⟨hpe, hentries⟩ := before
  obtain ⟨hpe', hentries', hcount⟩ := after
  have start y d : v.target y d = s.target y d := by simp only [State.target, hentries]
  have target y d : t.target y d = u.target y d := by simp only [State.target, hentries']
  have reach g : reached g t ↔ reached g u := by simp only [reached, hcount]
  refine ⟨frame, fun y d => ?_⟩
  simp only [target, State.channel_of hpe', reach, ← start, ← State.channel_of hpe]
  exact h.2 y d

/-- A notice to the operator carries the count and the lock flag as they stand. -/
theorem notifyOperator_mgmtLane {s : State} (h : (s.lane mgmtLane).queue.length < 64) (n : Notice) :
    ((notifyOperator n s).lane mgmtLane).queue =
      (s.lane mgmtLane).queue ++ [.notice (BitVec.ofNat 48 s.tb.count.toNat) (decide (s.tb.state = .locked)) n] := by
  unfold notifyOperator pushNotice
  rw [pushEntry_room h]
  rfl

/-- The TIME_STEP notice carries the new count and epoch, and the lock flag of the old state (R29, log 21). -/
theorem timeStep_mgmtLane (count : Nat) (cause : StepCause) (amount : Int) {s : State} (h : (s.lane mgmtLane).queue.length < 64) :
    ((timeStep count cause amount s).lane mgmtLane).queue = (s.lane mgmtLane).queue ++
      [.notice (BitVec.ofNat 48 (timeStep count cause amount s).tb.count.toNat) (decide (s.tb.state = .locked))
        (.timeStep cause amount (s.tb.epoch + 1))] := by
  have htb : (timeStep count cause amount s).tb = (testEntries (s.modTb (stepCount count))).tb := by simp [timeStep]
  have hlane : (testEntries (s.modTb (stepCount count))).lane mgmtLane = s.lane mgmtLane := State.lane_of (by simp) _
  have hstate : (testEntries (s.modTb (stepCount count))).tb.state = s.tb.state := by rw [(testEntries_onlyFires _).tb]; rfl
  have hepoch : (testEntries (s.modTb (stepCount count))).tb.epoch = s.tb.epoch + 1 := by rw [(testEntries_onlyFires _).tb]; rfl
  have hroom : ((testEntries (s.modTb (stepCount count))).lane mgmtLane).queue.length < 64 := by rw [hlane]; exact h
  rw [htb]
  unfold timeStep
  rw [notifyOperator_mgmtLane hroom, hlane, hepoch, hstate]

end Sys2Proof.Proofs
end

