-- ==== Sys2Proof/Proofs/PpsEvents.lean ====
section
/-!
The events and requests of the time base (R19 to R29): PPS_ARRIVAL by time state, PPS_MISSING, SLEW_PERIOD_END, TIMECFG and TIMESET.
-/

namespace Sys2Proof.Proofs

open Sys2Proof.Machine Sys2Proof.Claims

/-! ## The phase error and the updates of R24 -/

theorem phaseError_eq (count : Nat) : phaseError count = errorOf count := rfl

theorem slewFor_eq (kp : Nat) (e : Int) : slewFor kp e = slewOf kp e := by
  simp [slewFor, slewOf, clampInt]

theorem trimAfter_eq (ki : Nat) (trim e : Int) : trimAfter ki trim e = trimOf ki trim e := by
  simp [trimAfter, trimOf, clampInt]

/-- The time base of a PPS that is taken (R23). -/
def taken (b : TimeBase) : TimeBase :=
  { b with watch := some 24000000000, counters := { b.counters with ppsTaken := satInc b.counters.ppsTaken } }

/-- The time base of a PPS that is taken, with its slew and trim (R24). -/
def tuned (b : TimeBase) (e : Int) : TimeBase :=
  { taken b with slew := slewOf b.params.kp e, slewTimer := some 16000000000, trim := trimOf b.params.ki b.trim e }

theorem discipline_takePps (e : Int) (s : State) : discipline e (takePps s) = { s with tb := tuned s.tb e } := by
  unfold discipline State.modTb
  simp only [slewFor_eq, trimAfter_eq]
  rfl

/-- A time state that changes is notified (R29). -/
theorem setTimeState_changes {old new : TimeState} {s : State} (h : s.tb.state = old) (hne : old ≠ new) : setTimeState new s =
    notifyOperator (.timeState old new s.tb.epoch) { s with tb := { s.tb with state := new } } := by
  subst h
  exact if_neg hne

/-! ## PPS_ARRIVAL by time state (R23) -/

section arrival
variable {s : State}

theorem exec_ppsArrival_free (h : s.tb.state = .free) : exec .ppsArrival s =
    .next (s.countTb fun c => { c with ppsIgnored := satInc c.ppsIgnored }) := by
  simp [exec, execPpsArrival, h]

theorem exec_ppsArrival_acquiring (h : s.tb.state = .acquiring) : exec .ppsArrival s =
    .next (ppsAcquiring (errorOf s.tb.count.toNat) (takePps s)) := by
  simp [exec, execPpsArrival, h, phaseError_eq]

theorem exec_ppsArrival_locked (h : s.tb.state = .locked) : exec .ppsArrival s =
    .next (ppsLocked (errorOf s.tb.count.toNat) (takePps s)) := by
  simp [exec, execPpsArrival, h, phaseError_eq]

theorem exec_ppsArrival_holdover (h : s.tb.state = .holdover) : exec .ppsArrival s =
    .next (ppsHoldover (errorOf s.tb.count.toNat) (takePps s)) := by
  simp [exec, execPpsArrival, h, phaseError_eq]

end arrival

/-! ## The branches of R24 to R26 -/

section branches
variable {s : State} {e : Int}

theorem beyondStep_true (h : s.tb.params.stepThreshold < e.natAbs) : beyondStep s e = true := decide_eq_true h

theorem beyondStep_false (h : e.natAbs ≤ s.tb.params.stepThreshold) : beyondStep s e = false := decide_eq_false (Nat.not_lt.mpr h)

theorem inWindow_true (h : e.natAbs ≤ s.tb.params.lockWindow) : inWindow s e = true := decide_eq_true h

theorem inWindow_false (h : s.tb.params.lockWindow < e.natAbs) : inWindow s e = false := decide_eq_false (Nat.not_le.mpr h)

theorem correct_beyond (h : s.tb.params.stepThreshold < e.natAbs) : correct e s = acquireStep e s := if_pos (beyondStep_true h)

theorem correct_within (h : e.natAbs ≤ s.tb.params.stepThreshold) : correct e s = discipline e s := by
  simp [correct, beyondStep_false h]

theorem ppsAcquiring_beyond (h : s.tb.params.stepThreshold < e.natAbs) :
    ppsAcquiring e s = (acquireStep e s).modTb fun x => { x with inRun := 0 } := by
  simp [ppsAcquiring, correct_beyond h, beyondStep_true h]

theorem ppsAcquiring_outside (h : e.natAbs ≤ s.tb.params.stepThreshold) (hw : s.tb.params.lockWindow < e.natAbs) :
    ppsAcquiring e s = (discipline e s).modTb fun x => { x with inRun := 0 } := by
  simp [ppsAcquiring, correct_within h, inWindow_false hw]

theorem ppsAcquiring_runs (h : e.natAbs ≤ s.tb.params.stepThreshold) (hw : e.natAbs ≤ s.tb.params.lockWindow)
    (hrun : s.tb.inRun < 3) : ppsAcquiring e s = (discipline e s).modTb fun x => { x with inRun := x.inRun + 1 } := by
  have short : ¬3 ≤ (discipline e s).tb.inRun := Nat.not_le.mpr hrun
  simp [ppsAcquiring, correct_within h, inWindow_true hw, beyondStep_false h, short]

theorem ppsAcquiring_locks (h : e.natAbs ≤ s.tb.params.stepThreshold) (hw : e.natAbs ≤ s.tb.params.lockWindow)
    (hrun : 3 ≤ s.tb.inRun) : ppsAcquiring e s = setTimeState .locked (clearRuns (discipline e s)) := by
  have full : 3 ≤ (discipline e s).tb.inRun := hrun
  simp [ppsAcquiring, correct_within h, inWindow_true hw, beyondStep_false h, full]

theorem ppsLocked_inside (h : e.natAbs ≤ s.tb.params.lockWindow) :
    ppsLocked e s = (discipline e s).modTb fun x => { x with outRun := 0 } := if_pos (inWindow_true (s := discipline e s) h)

theorem ppsLocked_runs (h : s.tb.params.lockWindow < e.natAbs) (hrun : s.tb.outRun < 2) :
    ppsLocked e s = (discipline e s).modTb fun x => { x with outRun := x.outRun + 1 } := by
  have short : ¬2 ≤ (discipline e s).tb.outRun := Nat.not_le.mpr hrun
  simp [ppsLocked, inWindow_false (s := discipline e s) h, short]

theorem ppsLocked_unlocks (h : s.tb.params.lockWindow < e.natAbs) (hrun : 2 ≤ s.tb.outRun) :
    ppsLocked e s = setTimeState .acquiring (clearRuns (discipline e s)) := by
  have full : 2 ≤ (discipline e s).tb.outRun := hrun
  simp [ppsLocked, inWindow_false (s := discipline e s) h, full]

end branches

/-! ## An acquisition step (R24) -/

/-- A step of the time base, written out. -/
theorem stepCount_with (count : Nat) (x : TimeBase) (entries : Vector (Option Stamp) 32) (k : TbCounters) :
    { stepCount count x with compare := entries, counters := k } = { x with
      count := BitVec.ofNat 64 (min count Config.countMax), epoch := x.epoch + 1, slew := 0, slewTimer := none, compare := entries,
      counters := k } := rfl

/-- The step that a PPS of a phase error takes. Irreducible: a step is used by its lemmas, never computed. -/
@[irreducible] def acquired (e : Int) (s : State) : State := timeStep ((s.tb.count.toNat : Int) - e).toNat .acquire (-e) (takePps s)

theorem acquireStep_takePps (e : Int) (s : State) : acquireStep e (takePps s) = acquired e s := by
  unfold acquired
  rfl

theorem acquired_tb (e : Int) (s : State) : (acquired e s).tb = { taken s.tb with
    count := BitVec.ofNat 64 (min ((s.tb.count.toNat : Int) - e).toNat Config.countMax), epoch := s.tb.epoch + 1, slew := 0,
    slewTimer := none, compare := (acquired e s).tb.compare, counters := (acquired e s).tb.counters } := by
  unfold acquired
  exact (timeStep_tb ..).trans (stepCount_with ..)

theorem acquired_counters (e : Int) (s : State) : (acquired e s).tb.counters = { (taken s.tb).counters with
    steps := satInc s.tb.counters.steps, compareFires := (acquired e s).tb.counters.compareFires } := by
  unfold acquired
  exact congrArg TimeBase.counters (timeStep_onlyFires ..).tb

theorem acquired_frame (e : Int) (s : State) : timeFrame s (acquired e s) := by
  have h : timeFrame (takePps s) (acquired e s) := by
    unfold acquired
    exact timeStep_frames ..
  exact h

/-- What follows the step in the same event leaves its channels, its entries and its count. -/
theorem acquired_stepped {e : Int} {s t : State} (after : t.pe = (acquired e s).pe ∧ t.tb.compare = (acquired e s).tb.compare ∧
    t.tb.count = (acquired e s).tb.count) (frame : timeFrame s t) : stepped s t := by
  have h : stepped (takePps s) (acquired e s) := by
    unfold acquired
    exact timeStep_stepped ..
  exact stepped_within h ⟨rfl, rfl⟩ after frame

theorem acquired_mgmtLane (e : Int) {s : State} (h : (s.lane mgmtLane).queue.length < 64) :
    ((acquired e s).lane mgmtLane).queue = (s.lane mgmtLane).queue ++
      [.notice (BitVec.ofNat 48 (acquired e s).tb.count.toNat) (decide (s.tb.state = .locked))
        (.timeStep .acquire (-e) (s.tb.epoch + 1))] := by
  unfold acquired
  exact timeStep_mgmtLane _ _ _ (s := takePps s) h

/-! ## The end of a PPS or slew period (R19, R27) -/

section ends
variable {s : State}

/-- The watch starts again and the missing PPS is counted. -/
def missed (b : TimeBase) : TimeBase :=
  { b with watch := some 24000000000, counters := { b.counters with ppsMissing := satInc b.counters.ppsMissing } }

theorem exec_ppsMissing (h : s.tb.watch.isSome = true) : exec .ppsMissing s = .next (missingPps { s with tb := missed s.tb }) := by
  simp [exec, execPpsMissing, h, Config.ppsWatch, missed, State.modTb]

theorem missingPps_locked (h : s.tb.state = .locked) : missingPps s =
    notifyOperator (.timeState .locked .holdover s.tb.epoch)
      { s with tb := { s.tb with state := .holdover, slew := 0, slewTimer := none, outRun := 0 } } := by
  rw [missingPps, h]
  exact setTimeState_changes (s := s.modTb fun x => { x with slew := 0, slewTimer := none, outRun := 0 }) h (by decide)

theorem missingPps_acquiring (h : s.tb.state = .acquiring) : missingPps s = s.modTb fun x => { x with inRun := 0 } := by
  rw [missingPps, h]

theorem missingPps_holdover (h : s.tb.state = .holdover) : missingPps s = s := by
  rw [missingPps, h]

theorem exec_slewPeriodEnd (h : s.tb.slewTimer.isSome = true) :
    exec .slewPeriodEnd s = .next (s.modTb fun x => { x with slew := 0, slewTimer := none }) := by
  simp [exec, execSlewPeriodEnd, h]

end ends

/-- Settles O32: PPS_ARRIVAL by time state and phase error, then the two timers. -/
theorem ppsEventsDisciplineTheCount : Obligations.PpsEventsDisciplineTheCount := by
  unfold Obligations.PpsEventsDisciplineTheCount
  intro s b e tk tu
  have htuned : discipline e (takePps s) = { s with tb := tuned s.tb e } := discipline_takePps e s
  refine ⟨exec_ppsArrival_free, fun hs hbeyond => ?_, fun hs hnear => ⟨fun hw => ?_, fun hw hrun => ?_, fun hw hrun => ?_⟩,
    fun hs => ⟨fun hw => ?_, fun hw hrun => ?_, fun hw hrun => ?_⟩, fun hwatch => ⟨fun hs => ?_, fun hs => ?_, fun hs => ?_⟩,
    exec_slewPeriodEnd⟩
  · refine ⟨(acquired e s).modTb fun x => { x with inRun := 0 }, ?_, ?_, ?_, acquired_counters e s, fun hroom => ?_⟩
    · rw [exec_ppsArrival_acquiring hs, ppsAcquiring_beyond (s := takePps s) hbeyond, acquireStep_takePps]
    · exact acquired_stepped ⟨rfl, rfl, rfl⟩ (modTb_timeFrame _ (acquired_frame e s))
    · have h := acquired_tb e s
      generalize acquired e s = u at h ⊢
      change { u.tb with inRun := 0 } = _
      rw [h]
      rfl
    · have hnotice := acquired_mgmtLane e hroom
      have hepoch : (acquired e s).tb.epoch = s.tb.epoch + 1 := by rw [acquired_tb]
      rw [hs, ← hepoch] at hnotice
      exact hnotice
  · rw [exec_ppsArrival_acquiring hs, ppsAcquiring_outside (s := takePps s) hnear hw, htuned]
    rfl
  · rw [exec_ppsArrival_acquiring hs, ppsAcquiring_runs (s := takePps s) hnear hw hrun, htuned]
    rfl
  · rw [exec_ppsArrival_acquiring hs, ppsAcquiring_locks (s := takePps s) hnear hw hrun, htuned,
      setTimeState_changes (s := clearRuns { s with tb := tuned s.tb e }) (old := .acquiring) hs (by decide)]
    rfl
  · rw [exec_ppsArrival_locked hs, ppsLocked_inside (s := takePps s) hw, htuned]
    rfl
  · rw [exec_ppsArrival_locked hs, ppsLocked_runs (s := takePps s) hw hrun, htuned]
    rfl
  · rw [exec_ppsArrival_locked hs, ppsLocked_unlocks (s := takePps s) hw hrun, htuned,
      setTimeState_changes (s := clearRuns { s with tb := tuned s.tb e }) (old := .locked) hs (by decide)]
    rfl
  · rw [exec_ppsMissing hwatch, missingPps_locked (s := { s with tb := missed s.tb }) hs]
    rfl
  · rw [exec_ppsMissing hwatch, missingPps_acquiring (s := { s with tb := missed s.tb }) hs]
    rfl
  · rw [exec_ppsMissing hwatch, missingPps_holdover (s := { s with tb := missed s.tb }) hs]
    rfl

end Sys2Proof.Proofs
end

