-- ==== Sys2Proof/Proofs/HoldoverPps.lean ====
section
/-!
A PPS in HOLDOVER (R26).
-/

namespace Sys2Proof.Proofs

open Sys2Proof.Machine Sys2Proof.Claims

/-! ## A change of the time state -/

theorem setTimeState_pe (new : TimeState) (s : State) : (setTimeState new s).pe = s.pe := by
  unfold setTimeState
  dsimp only
  split
  · rfl
  · exact notifyOperator_pe ..

theorem setTimeState_timeFrame (new : TimeState) (s : State) : timeFrame s (setTimeState new s) := state_ext (by simp)

theorem timeFrame_trans {s t u : State} (h : timeFrame s t) (k : timeFrame t u) : timeFrame s u := by
  unfold timeFrame at h k
  rw [h] at k
  exact k

/-- The end of a PPS in HOLDOVER: both runs 0, and a new time state. -/
def settled (new : TimeState) (s : State) : State := setTimeState new (clearRuns s)

theorem settled_tb (new : TimeState) (s : State) : (settled new s).tb = { s.tb with state := new, inRun := 0, outRun := 0 } :=
  setTimeState_tb new (clearRuns s)

theorem settled_pe (new : TimeState) (s : State) : (settled new s).pe = s.pe := setTimeState_pe new (clearRuns s)

theorem settled_timeFrame (new : TimeState) {s t : State} (h : timeFrame s t) : timeFrame s (settled new t) :=
  timeFrame_trans (modTb_timeFrame _ h) (setTimeState_timeFrame new (clearRuns t))

/-! ## A PPS in HOLDOVER -/

section holdover
variable {s : State} {e : Int}

theorem ppsHoldover_beyond (h : s.tb.params.stepThreshold < e.natAbs) (hle : s.tb.params.lockWindow ≤ s.tb.params.stepThreshold) :
    ppsHoldover e s = settled .acquiring (acquireStep e s) := by
  simp [ppsHoldover, settled, correct_beyond h, inWindow_false (Nat.lt_of_le_of_lt hle h)]

theorem ppsHoldover_within (h : e.natAbs ≤ s.tb.params.stepThreshold) :
    ppsHoldover e s = settled (if e.natAbs ≤ s.tb.params.lockWindow then .locked else .acquiring) (discipline e s) := by
  simp [ppsHoldover, settled, correct_within h, inWindow]

end holdover

/-- Settles O33: the step leads to ACQUIRING, the updates of R24 to LOCKED or ACQUIRING by the lock window. -/
theorem ppsInHoldover : Obligations.PpsInHoldover := by
  unfold Obligations.PpsInHoldover
  intro s hs hle b e
  rw [exec_ppsArrival_holdover hs]
  by_cases hbeyond : b.params.stepThreshold < e.natAbs
  · rw [ppsHoldover_beyond (s := takePps s) hbeyond hle, acquireStep_takePps]
    have htb := acquired_tb e s
    have hcounters := acquired_counters e s
    have hframe : timeFrame s (settled .acquiring (acquired e s)) := settled_timeFrame _ (acquired_frame e s)
    have hstepped : stepped s (settled .acquiring (acquired e s)) :=
      acquired_stepped ⟨settled_pe .., by rw [settled_tb], by rw [settled_tb]⟩ hframe
    have outside : ¬e.natAbs ≤ b.params.lockWindow := Nat.not_le.mpr (Nat.lt_of_le_of_lt hle hbeyond)
    refine ⟨_, rfl, hframe, ?_⟩
    rw [if_neg outside, settled_tb, hcounters, htb]
    exact ⟨rfl, rfl, rfl, rfl, rfl, rfl, rfl, fun _ => ⟨hstepped, rfl, rfl, rfl, rfl, rfl, rfl, rfl⟩,
      fun hnear => absurd hbeyond (Nat.not_lt.mpr hnear)⟩
  · have hnear : e.natAbs ≤ b.params.stepThreshold := Nat.le_of_not_lt hbeyond
    rw [ppsHoldover_within (s := takePps s) hnear, discipline_takePps]
    generalize hnew : (if e.natAbs ≤ (takePps s).tb.params.lockWindow then TimeState.locked else .acquiring) = new
    refine ⟨_, rfl, settled_timeFrame _ rfl, ?_⟩
    rw [settled_tb, settled_pe]
    exact ⟨rfl, rfl, hnew.symm, rfl, rfl, rfl, rfl, fun h => absurd h hbeyond, fun _ => ⟨rfl, rfl, rfl, rfl, rfl, rfl, rfl, rfl⟩⟩

end Sys2Proof.Proofs
end

