-- ==== Sys2Proof/Proofs/TimeRequests.lean ====
section
/-!
The requests TIMECFG and TIMESET (R22, R28, R29).
-/

namespace Sys2Proof.Proofs

open Sys2Proof.Machine Sys2Proof.Claims

/-! ## The requests parsed and served -/

theorem operatorRequest_mgmt {α : Type} {parsed : Option α} {x : α} (h : parsed = some x) (tag : Tag) (kind : Byte)
    (act : α → State → State × Reply) (s : State) : operatorRequest mgmtLane tag kind parsed act s =
      answer mgmtLane tag kind (act x (countRequest mgmtLane s)).2 (act x (countRequest mgmtLane s)).1 := by
  subst h
  exact if_pos rfl

theorem parseTimecfg_sized {b : List Byte} (h : b.length = 11) : parseTimecfg b = some
    { enable := byteAt b 0 != 0,
      params := { stepThreshold := max 16 (min 160000000 (fieldNat b 1 4)), lockWindow := max 16 (min 16000000 (fieldNat b 5 4)),
                  kp := min 7 (nat1 b 9), ki := min 15 (nat1 b 10) } } := by
  simp [parseTimecfg, sized, h, clampNat, flagAt]

theorem parseTimeset_sized {b : List Byte} (h : b.length = 8) : parseTimeset b = some (fieldNat b 0 8) := by
  simp [parseTimeset, sized, h]

/-! ## TIMECFG -/

section timecfg
variable {r : TimecfgReq} {s : State}

/-- The parameters and the reference enable stored (R22). -/
def configured (r : TimecfgReq) (b : TimeBase) : TimeBase := { b with params := r.params, refEnable := r.enable }

theorem doTimecfg_refused (h : r.params.stepThreshold < r.params.lockWindow) : doTimecfg r s = (s, .refused .badValue) := if_pos h

theorem doTimecfg_on (h : r.params.lockWindow ≤ r.params.stepThreshold) (hr : r.enable = true) :
    doTimecfg r s = (enableReference { s with tb := configured r s.tb }, .accepted) := by
  rw [doTimecfg, if_neg (Nat.not_lt.mpr h)]
  exact congrArg (·, Reply.accepted) (if_pos hr)

theorem doTimecfg_off (h : r.params.lockWindow ≤ r.params.stepThreshold) (hr : r.enable = false) :
    doTimecfg r s = (disableReference { s with tb := configured r s.tb }, .accepted) := by
  rw [doTimecfg, if_neg (Nat.not_lt.mpr h)]
  exact congrArg (·, Reply.accepted) (if_neg (by simp [hr]))

theorem enableReference_free (h : s.tb.state = .free) : enableReference s = notifyOperator (.timeState .free .acquiring s.tb.epoch)
    { s with tb := { s.tb with state := .acquiring, inRun := 0, outRun := 0, watch := some 24000000000 } } := by
  rw [enableReference, if_pos h]
  exact setTimeState_changes (s := (clearRuns s).modTb fun x => { x with watch := some 24000000000 }) h (by decide)

theorem enableReference_on (h : s.tb.state ≠ .free) : enableReference s = s := if_neg h

theorem disableReference_free (h : s.tb.state = .free) : disableReference s = s := if_pos h

theorem disableReference_on (h : s.tb.state ≠ .free) : disableReference s = notifyOperator (.timeState s.tb.state .free s.tb.epoch)
    { s with tb := { s.tb with state := .free, slew := 0, slewTimer := none, inRun := 0, outRun := 0, watch := none } } := by
  rw [disableReference, if_neg h]
  exact setTimeState_changes (s := (clearRuns s).modTb fun x => { x with slew := 0, slewTimer := none, watch := none }) rfl h

end timecfg

/-! ## TIMESET -/

theorem loadAmount_eq (new old : Nat) : loadAmount new old = max (-2 ^ 63) (min (2 ^ 63 - 1) ((new : Int) - old)) := by
  unfold loadAmount clampInt
  rfl

/-- The step that a TIMESET takes. Irreducible: a step is used by its lemmas, never computed. -/
@[irreducible] def loaded (count : Nat) (s : State) : State := timeStep count .timeset (loadAmount count s.tb.count.toNat) s

section loaded
variable {n : Nat} {s : State}

theorem doTimeset_loaded (h : n < 2 ^ 63) : doTimeset n s = (afterLoad (loaded n s), .accepted) := by
  unfold loaded
  exact doTimeset_taken (Nat.not_le.mpr h) s

theorem min_countMax (h : n < 2 ^ 63) : min n Config.countMax = n := by
  rw [show Config.countMax = 2 ^ 64 - 1 from rfl]
  omega

theorem loaded_tb (h : n < 2 ^ 63) : (loaded n s).tb = { s.tb with
    count := BitVec.ofNat 64 n, epoch := s.tb.epoch + 1, slew := 0, slewTimer := none, compare := (loaded n s).tb.compare,
    counters := (loaded n s).tb.counters } := by
  have step := (timeStep_tb n .timeset (loadAmount n s.tb.count.toNat) s).trans (stepCount_with ..)
  rw [min_countMax h] at step
  unfold loaded
  exact step

theorem loaded_counters : (loaded n s).tb.counters = { s.tb.counters with
    steps := satInc s.tb.counters.steps, compareFires := (loaded n s).tb.counters.compareFires } := by
  unfold loaded
  exact congrArg TimeBase.counters (timeStep_onlyFires ..).tb

theorem loaded_stepped : stepped s (loaded n s) := by
  unfold loaded
  exact timeStep_stepped ..

theorem stamp_of_count (h : n < 2 ^ 63) : BitVec.ofNat 48 (BitVec.ofNat 64 n).toNat = BitVec.ofNat 48 n := by
  rw [BitVec.toNat_ofNat, Nat.mod_eq_of_lt (by omega)]

theorem loaded_mgmtLane (h : n < 2 ^ 63) (room : (s.lane mgmtLane).queue.length < 64) : ((loaded n s).lane mgmtLane).queue =
    (s.lane mgmtLane).queue ++ [.notice (BitVec.ofNat 48 n) (decide (s.tb.state = .locked))
      (.timeStep .timeset (max (-2 ^ 63) (min (2 ^ 63 - 1) ((n : Int) - s.tb.count.toNat))) (s.tb.epoch + 1))] := by
  have hcount : (loaded n s).tb.count = BitVec.ofNat 64 n := by rw [loaded_tb h]
  have hlane := timeStep_mgmtLane n .timeset (loadAmount n s.tb.count.toNat) room
  rw [loadAmount_eq] at hlane
  rw [← stamp_of_count h, ← hcount]
  unfold loaded
  rw [loadAmount_eq]
  exact hlane

end loaded

/-! ### The time state after a TIMESET (R28) -/

section afterLoad
variable {s : State}

theorem afterLoad_locked (h : s.tb.state = .locked) : afterLoad s = notifyOperator (.timeState .locked .acquiring s.tb.epoch)
    { s with tb := { s.tb with state := .acquiring, inRun := 0, outRun := 0 } } := by
  rw [afterLoad, h]
  exact setTimeState_changes (s := clearRuns s) h (by decide)

theorem afterLoad_acquiring (h : s.tb.state = .acquiring) : afterLoad s = s.modTb fun x => { x with inRun := 0 } := by
  rw [afterLoad, h]

theorem afterLoad_keeps (h : s.tb.state = .free ∨ s.tb.state = .holdover) : afterLoad s = s := by
  rcases h with h | h <;> rw [afterLoad, h]

theorem state_given {b : TimeBase} {x : TimeState} (h : b.state = x) : b = { b with state := x } := by
  subst h
  rfl

theorem afterLoad_tb (s : State) : (afterLoad s).tb = { s.tb with
    state := (if s.tb.state = .locked then .acquiring else s.tb.state),
    inRun := (if s.tb.state = .locked ∨ s.tb.state = .acquiring then 0 else s.tb.inRun),
    outRun := (if s.tb.state = .locked then 0 else s.tb.outRun) } := by
  cases h : s.tb.state
  case locked => simp [afterLoad_locked h]
  case acquiring =>
    rw [afterLoad_acquiring h, ← h]
    simp [h]
  case free => exact (congrArg State.tb (afterLoad_keeps (.inl h))).trans (state_given h)
  case holdover => exact (congrArg State.tb (afterLoad_keeps (.inr h))).trans (state_given h)

theorem afterLoad_pe (s : State) : (afterLoad s).pe = s.pe := by
  cases h : s.tb.state
  case locked => rw [afterLoad_locked h, notifyOperator_pe]
  case acquiring => rw [afterLoad_acquiring h]; rfl
  case free => rw [afterLoad_keeps (.inl h)]
  case holdover => rw [afterLoad_keeps (.inr h)]

theorem afterLoad_timeFrame (s : State) : timeFrame s (afterLoad s) := state_ext (by simp)

/-- The notice of the time state, behind that of the step (R29). -/
theorem afterLoad_mgmtLane (room : (s.lane mgmtLane).queue.length < 64) : ((afterLoad s).lane mgmtLane).queue =
    (s.lane mgmtLane).queue ++ (if s.tb.state = .locked then
      [.notice (BitVec.ofNat 48 s.tb.count.toNat) false (.timeState .locked .acquiring s.tb.epoch)] else []) := by
  cases h : s.tb.state
  case locked =>
    rw [afterLoad_locked h]
    exact notifyOperator_mgmtLane (s := { s with tb := { s.tb with state := .acquiring, inRun := 0, outRun := 0 } }) room _
  case acquiring =>
    rw [afterLoad_acquiring h, if_neg (by simp), List.append_nil]
    rfl
  case free => simp [afterLoad_keeps (.inl h)]
  case holdover => simp [afterLoad_keeps (.inr h)]

end afterLoad

/-- A request counted changes nothing but a lane's counters. -/
theorem countRequest_timeFrame (l : LaneId) (s : State) : timeFrame s (countRequest l s) := state_ext (by simp)

theorem countRequest_queue (l k : LaneId) (s : State) : ((countRequest l s).lane k).queue = (s.lane k).queue := by
  have h := congrArg Lane.queue (countRequest_lane l k s)
  exact h

section timeset
variable {n : Nat} {s : State}

theorem timeset_stepped (n : Nat) (s : State) : stepped s (afterLoad (loaded n (countRequest mgmtLane s))) := by
  have h : stepped (countRequest mgmtLane s) (loaded n (countRequest mgmtLane s)) := loaded_stepped
  generalize loaded n (countRequest mgmtLane s) = u at h ⊢
  have frame : timeFrame s u := timeFrame_trans (countRequest_timeFrame ..) h.1
  refine stepped_within h ⟨rfl, rfl⟩ ⟨afterLoad_pe u, ?_, ?_⟩ (timeFrame_trans frame (afterLoad_timeFrame u))
  all_goals rw [afterLoad_tb]

theorem timeset_tb (h : n < 2 ^ 63) : (afterLoad (loaded n s)).tb = { s.tb with
    count := BitVec.ofNat 64 n, epoch := s.tb.epoch + 1, slew := 0, slewTimer := none,
    state := (if s.tb.state = .locked then .acquiring else s.tb.state),
    inRun := (if s.tb.state = .locked ∨ s.tb.state = .acquiring then 0 else s.tb.inRun),
    outRun := (if s.tb.state = .locked then 0 else s.tb.outRun), compare := (afterLoad (loaded n s)).tb.compare,
    counters := (afterLoad (loaded n s)).tb.counters } := by
  have htb := loaded_tb (s := s) h
  generalize loaded n s = u at htb ⊢
  rw [afterLoad_tb, htb]

theorem timeset_counters : (afterLoad (loaded n s)).tb.counters = { s.tb.counters with
    steps := satInc s.tb.counters.steps, compareFires := (afterLoad (loaded n s)).tb.counters.compareFires } := by
  rw [afterLoad_tb]
  exact loaded_counters

/-- The notices of a TIMESET, in the order of R29. -/
theorem timeset_notices (h : n < 2 ^ 63) (room : (s.lane mgmtLane).queue.length + 2 ≤ 64) :
    ((afterLoad (loaded n s)).lane mgmtLane).queue = (s.lane mgmtLane).queue ++
      [.notice (BitVec.ofNat 48 n) (decide (s.tb.state = .locked))
        (.timeStep .timeset (max (-2 ^ 63) (min (2 ^ 63 - 1) ((n : Int) - s.tb.count.toNat))) (s.tb.epoch + 1))] ++
      (if s.tb.state = .locked then [.notice (BitVec.ofNat 48 n) false (.timeState .locked .acquiring (s.tb.epoch + 1))] else []) := by
  have first := loaded_mgmtLane h (Nat.lt_of_succ_le (Nat.le_of_succ_le room))
  have htb := loaded_tb (s := s) h
  have second : ((loaded n s).lane mgmtLane).queue.length < 64 := by
    rw [first, List.length_append]
    exact room
  generalize loaded n s = u at first htb second ⊢
  have hstate : u.tb.state = s.tb.state := by rw [htb]
  have hcount : u.tb.count = BitVec.ofNat 64 n := by rw [htb]
  have hepoch : u.tb.epoch = s.tb.epoch + 1 := by rw [htb]
  rw [afterLoad_mgmtLane second, first, hstate, hcount, hepoch, stamp_of_count h]

end timeset

/-- Settles O34: each request's body passes its tests, and its owner acts on the state with the request counted. -/
theorem timeRequestsSetTheDisciplineAndTheCount : Obligations.TimeRequestsSetTheDisciplineAndTheCount := by
  unfold Obligations.TimeRequestsSetTheDisciplineAndTheCount
  refine ⟨?_, ?_⟩
  · intro s tag body hlen b v enable params stored c
    have served := operatorRequest_mgmt (parseTimecfg_sized hlen) tag 0x1E doTimecfg s
    generalize hr : (TimecfgReq.mk _ _) = r at served
    have hparams : r.params = params := by rw [← hr]
    have henable : r.enable = (byteAt body 0 != 0) := by rw [← hr]
    have enabled (h : enable) : r.enable = true := henable.trans (bne_iff_ne.mpr h)
    have disabled (h : ¬enable) : r.enable = false := henable.trans (bne_eq_false_iff_eq.mpr (Decidable.not_not.mp h))
    have hstored : configured r b = stored := by rw [← hr]; rfl
    have hexec : exec c s = .next (answer mgmtLane tag 0x1E (doTimecfg r v).2 (doTimecfg r v).1) := congrArg Host.Outcome.next served
    rw [hexec, ← hparams, ← hstored]
    refine ⟨fun h => by rw [doTimecfg_refused h], fun h => ⟨fun hs hon => ?_, fun hs => ?_, fun hs hoff => ?_⟩⟩
    · rw [doTimecfg_on h (enabled hon), enableReference_free (s := { v with tb := configured r v.tb }) hs]
      rfl
    · by_cases hon : enable
      · have watched : v.tb.state ≠ .free := fun hf => hs.mp hf hon
        rw [doTimecfg_on h (enabled hon), enableReference_on (s := { v with tb := configured r v.tb }) watched]
        rfl
      · rw [doTimecfg_off h (disabled hon), disableReference_free (s := { v with tb := configured r v.tb }) (hs.mpr hon)]
        rfl
    · rw [doTimecfg_off h (disabled hoff), disableReference_on (s := { v with tb := configured r v.tb }) hs]
      rfl
  · intro s tag body hlen b n c
    let v := countRequest mgmtLane s
    have served := operatorRequest_mgmt (parseTimeset_sized hlen) tag 0x1F doTimeset s
    have hexec : exec c s = .next (answer mgmtLane tag 0x1F (doTimeset n (countRequest mgmtLane s)).2
        (doTimeset n (countRequest mgmtLane s)).1) := congrArg Host.Outcome.next served
    rw [hexec]
    refine ⟨fun h => by rw [doTimeset_refused h], fun h => ?_⟩
    rw [doTimeset_loaded h]
    refine ⟨_, rfl, timeset_stepped n s, timeset_tb h, timeset_counters, fun room => ?_⟩
    have room' : ((v.lane mgmtLane).queue).length + 2 ≤ 64 := by rw [countRequest_queue]; exact room
    have notices := timeset_notices h room'
    rw [countRequest_queue] at notices
    exact notices

end Sys2Proof.Proofs
end

