-- ==== Sys2Proof/Proofs/ChannelSteps.lean ====
section
/-!
The steps of a channel (chapter 8): the end of a run, a program check, a fetch, and how a finished word continues.
-/

namespace Sys2Proof.Proofs

open Sys2Proof.Machine Sys2Proof.Claims

/-! ## A channel changed alone -/

theorem modChannel_channelsBut (u : TenantId) (c : ChannelId) (f : Channel → Channel) (s : State) :
    channelsBut u c s (s.modChannel u c f) := fun v d h => by
  rw [State.channel_modChannel, if_neg h]

theorem modChannel_modChannel (u : TenantId) (c : ChannelId) (f g : Channel → Channel) (s : State) :
    (s.modChannel u c f).modChannel u c g = s.modChannel u c fun x => g (f x) := by
  simp only [State.modChannel, upd_upd]

theorem countPe_counters (u y : TenantId) (f : PeCounters → PeCounters) (s : State) :
    (s.countPe u f).pe.counters[y] = if y = u then f s.pe.counters[y] else s.pe.counters[y] := by
  rw [State.countPe, upd_get]
  split
  · next h => rw [h]
  · rfl

/-- Only an ending REPORT touches a channel when it is lost. -/
theorem pushReport_pe {r : Report} (h : r.clearsPending = false) (l : LaneId) (s : State) :
    (pushEntry l (.report r) s).pe = s.pe := by
  have hclear : ∀ x, clearPending l (.report r) x = x := fun x => by
    unfold clearPending
    split
    · next hr => cases hr; rw [h]; rfl
    · rfl
  unfold pushEntry
  dsimp only
  split
  · rfl
  split
  · simp
  · rw [hclear]
    split <;> simp

/-! ## The end of a run (R138, R139, R141) -/

section
variable (u : TenantId) (c : ChannelId) (s : State)

/-- An ended run leaves its channel IDLE with report-pending set. -/
def runEnded (x : Channel) : Channel :=
  { x with state := .idle, word := none, finished := false, prefetched := none, reportPending := true }

/-- A run ends after a change of its channel that discards its buffer. -/
theorem reportEnd_endsWith (kind : ReportKind) (index : Nat) {lost : Nat} {f : Channel → Channel}
    (hf : runEnded (f (s.channel u c)) = { s.channel u c with
      state := .idle, word := none, finished := false, prefetched := none, buffer := [],
      discarded := min 256 ((s.channel u c).discarded + lost), reportPending := true }) :
    endsWith u c kind index lost s (reportEnd u c kind index (s.modChannel u c f)) := by
  refine ⟨(s.modChannel u c f).modChannel u c runEnded, ?_, rfl, ?_, rfl⟩
  · rw [modChannel_modChannel]
    exact modChannel_channelsBut _ _ _ _
  · rw [modChannel_modChannel, State.channel_modChannel_same, hf]

theorem reportEnd_counters (kind : ReportKind) (index : Nat) :
    (reportEnd u c kind index s).pe.counters = s.pe.counters ∧ (reportEnd u c kind index s).pe.storeFaults = s.pe.storeFaults := by
  simp [reportEnd]

theorem countCheck_eq (k : ReportKind) (x : PeCounters) : countCheck k x = checked k x := by
  cases k <;> rfl

theorem programCheck_checkStops (k : ReportKind) (index : Nat) : checkStops u c k index s (programCheck u c k index s) := by
  obtain ⟨hcounters, hfaults⟩ := reportEnd_counters u c (s.modChannel u c dropBuffer) k index
  refine ⟨reportEnd u c k index (s.modChannel u c dropBuffer), reportEnd_endsWith u c s k index rfl, fun y => ?_, ?_, ?_⟩
  · have counted : (programCheck u c k index s).pe.counters[y] =
        ((reportEnd u c k index (s.modChannel u c dropBuffer)).countPe u (countCheck k)).pe.counters[y] := by
      unfold programCheck countStoreFault
      dsimp only
      split <;> rfl
    rw [counted, countPe_counters, hcounters, countCheck_eq]
    rfl
  · rw [← show (s.modChannel u c dropBuffer).pe.storeFaults = s.pe.storeFaults from rfl, ← hfaults]
    unfold programCheck countStoreFault
    dsimp only
    split <;> rfl
  · unfold programCheck countStoreFault
    dsimp only
    split <;> rfl

/-! ## Fetching (R132) -/

theorem anyFault_one (faults : List Nat) (a : Nat) : anyFault faults a 1 = decide (a ∈ faults) := by
  have one (x : Nat) : a ≤ x ∧ x < a + 1 ↔ x = a := by omega
  unfold anyFault
  simp only [← Bool.decide_and, one, List.any_eq, decide_eq_true_eq, exists_eq_right]

theorem readWord_eq (i : Nat) : readWord s u i = wordAt s u i := by
  unfold readWord wordAt
  dsimp only
  rw [anyFault_one]

theorem reportFetched_reportsFetch (w : FetchedWord) (i : Nat) : reportsFetch u c w i s (reportFetched u c w i s) := by
  unfold reportsFetch reportFetched
  simp only [Bool.and_eq_true, Bool.not_eq_true']
  rfl

theorem fetchTo_fetches (i : Nat) : fetches u c i s (fetchTo u c i s) := by
  refine ⟨fun h => ?_, fun h => ?_⟩
  · rw [fetchTo, inPartition, if_neg (by simpa using h)]
    exact programCheck_checkStops u c s .range i
  · rw [fetchTo, inPartition, if_pos (by simpa using h), readWord_eq]
    exact ⟨s.modChannel u c fun x => { x with index := i, word := some (wordAt s u i), finished := false, prefetched := none },
      modChannel_channelsBut _ _ _ _, rfl, State.channel_modChannel_same .., reportFetched_reportsFetch ..⟩

/-! ## Continuing (R138) -/

theorem endProgram_endsWith :
    endsWith u c .done (s.channel u c).index (s.channel u c).buffer.length s (endProgram u c s) :=
  reportEnd_endsWith u c s .done (s.channel u c).index rfl

theorem continueCC_continues : continues u c (wordOf (s.channel u c)).cc s (continueCC u c s) := by
  refine ⟨fun h => ?_, fun h w hw => ?_, fun h hw => ?_⟩
  · rw [continueCC, h]
    exact endProgram_endsWith u c s
  · rw [continueCC, if_pos h, goNext, hw]
    exact ⟨modChannel_channelsBut _ _ _ _, rfl, State.channel_modChannel_same ..⟩
  · rw [continueCC, if_pos h, goNext, hw]
    exact fetchTo_fetches u c s _

end

/-! ## The word a channel is at (R130, R132) -/

section
variable {u : TenantId} {c : ChannelId} {s : State} {f : FetchedWord}

theorem wordOf_word {x : Channel} (h : x.word = some f) : wordOf x = decodeWord f.bytes := by
  rw [wordOf, h]
  rfl

theorem wordOf_executes {x : Channel} (h : executes x f) : wordOf x = decodeWord f.bytes := wordOf_word h.2.2.2

/-- A channel with a word to execute has nothing to continue. -/
theorem goOn_executes (h : executes (s.channel u c) f) : goOn u c s = s := by
  obtain ⟨_, _, hfinished, _⟩ := h
  simp [goOn, awaitsContinuing, hfinished]

theorem goOn_hasFinished (h : hasFinished (s.channel u c)) : goOn u c s = continueCC u c s := by
  obtain ⟨hstate, hfree, hfinished⟩ := h
  simp [goOn, awaitsContinuing, hstate, hfree, hfinished]

theorem atWord_executes (h : executes (s.channel u c) f) : atWord s u c (wordKind f) = true := by
  obtain ⟨hstate, hfree, hfinished, hword⟩ := h
  simp [atWord, hstate, hfree, hfinished, hword]

theorem badKind_executes {k : ReportKind} {x : Channel} (h : executes x f) (hk : wordKind f = .bad k) : badKind x = some k := by
  rw [badKind, h.2.2.2, Option.map_some, hk]

/-- The command of the word that a channel is to execute runs it. -/
theorem runWord_executes {k : WordKind} (h : executes (s.channel u c) f) (hk : wordKind f = k) (run : State → State) :
    runWord k run u c s = run s := by
  subst hk
  rw [runWord, goOn_executes h, if_pos (atWord_executes h)]

/-- A channel that has yet to continue does so before its next word runs (log 41). -/
theorem runWord_continues {k : WordKind} (h : hasFinished (s.channel u c)) (hf : executes ((continueCC u c s).channel u c) f)
    (hk : wordKind f = k) (run : State → State) : runWord k run u c s = runWord k run u c (continueCC u c s) := by
  rw [runWord_executes hf hk, runWord, goOn_hasFinished h, ← hk, if_pos (atWord_executes hf)]

end

end Sys2Proof.Proofs
end

