-- ==== Sys2Proof/Proofs/ChannelWords.lean ====
section
/-!
The words WAIT and MARK, the compare entry, and bad words (R34, R132, R137 to R139).
-/

namespace Sys2Proof.Proofs

open Sys2Proof.Machine Sys2Proof.Claims

/-! ## The kinds of a word (R132) -/

section
variable {f : FetchedWord}

theorem wordKind_fault (h : f.fault = true) : wordKind f = .bad .storeCheck := by
  simp [wordKind, h]

/-- A WAIT or MARK word of good parity whose flags pass the tests. -/
theorem wordKind_plain (hf : f.fault = false) (hcd : (decodeWord f.bytes).cd = false)
    (hflags : ¬((decodeWord f.bytes).wr = true ∧ (decodeWord f.bytes).sr = true)) :
    ((decodeWord f.bytes).op = 3 → wordKind f = .wait) ∧ ((decodeWord f.bytes).op = 4 → wordKind f = .mark) := by
  unfold wordKind closing
  generalize decodeWord f.bytes = w at *
  refine ⟨fun hop => ?_, fun hop => ?_⟩
  · simp [hf, hcd, hop, hflags]
  · simp [hf, hcd, hop, hflags]

theorem wordKind_bad (hf : f.fault = false) (h : (decodeWord f.bytes).op = 0 ∨ 4 < (decodeWord f.bytes).op ∨
    (((decodeWord f.bytes).op = 3 ∨ (decodeWord f.bytes).op = 4) ∧ (decodeWord f.bytes).cd = true) ∨
    ((decodeWord f.bytes).wr = true ∧ (decodeWord f.bytes).sr = true) ∨
    ((((decodeWord f.bytes).op = 1 ∨ (decodeWord f.bytes).op = 2) ∧ (decodeWord f.bytes).cd = false) ∧
      (decodeWord f.bytes).cls = none)) : wordKind f = .bad .badOp := by
  unfold wordKind closing
  generalize decodeWord f.bytes = w at *
  dsimp only
  rw [hf]
  rcases h with h | h | h | h | h
  · simp [h]
  · have hn : w.op = w.op - 5 + 5 := by omega
    rw [hn]
    simp
  · simp [h]
  · simp [h]
  · simp [h]

end

/-! ## The compare entry (R34) -/

section
variable (u : TenantId) (c : ChannelId)

/-- The entry is disarmed and counted, and its channel is RUNNING with its word finished. -/
def Fires (s v : State) : Prop :=
  channelsBut u c s v ∧ v.channel u c = { s.channel u c with state := .running, finished := true } ∧
    v = { s with
      pe := { s.pe with channels := v.pe.channels },
      tb := { s.tb with
        compare := v.tb.compare, counters := { s.tb.counters with compareFires := satInc s.tb.counters.compareFires } } } ∧
    ∀ y d, v.target y d = if y = u ∧ d = c then none else s.target y d

variable {u c} {s : State}

theorem fireEntry_fires (h : (s.channel u c).state = .waitingTime) : Fires u c s (fireEntry u c s) := by
  refine ⟨fun y d hne => ?_, ?_, ?_, fun y d => fireEntry_target u y c d s⟩
  · rw [fireEntry_channel, if_neg hne]
  · rw [fireEntry_channel, if_pos ⟨rfl, rfl⟩, if_pos h]
    rfl
  · unfold fireEntry
    dsimp only
    split <;> rfl

theorem exec_compareFire (h : (s.target u c).isSome = true) : exec (.compareFire u c) s = .next (fireEntry u c s) := by
  simp [exec, execCompareFire, h]

/-- A channel that waits for a target. -/
def waiting (u : TenantId) (c : ChannelId) (g : Stamp) (s : State) : State :=
  (s.modChannel u c fun x => { x with state := .waitingTime }).setTarget u c (some g)

theorem waiting_channel (g : Stamp) (y : TenantId) (d : ChannelId) : (waiting u c g s).channel y d =
    if y = u ∧ d = c then { s.channel u c with state := .waitingTime } else s.channel y d :=
  (State.channel_of rfl y d).trans (State.channel_modChannel ..)

theorem waiting_target (g : Stamp) (y : TenantId) (d : ChannelId) : (waiting u c g s).target y d =
    if y = u ∧ d = c then some g else s.target y d := State.target_setTarget ..

theorem runWait_eq {f : FetchedWord} (h : executes (s.channel u c) f) :
    runWait u c s = testEntry u c (waiting u c (decodeWord f.bytes).target s) := by
  rw [← wordOf_executes h]
  rfl

theorem testEntry_waiting (g : Stamp) : testEntry u c (waiting u c g s) =
    if 2 ^ 47 ≤ (g - BitVec.ofNat 48 s.tb.count.toNat).toNat then fireEntry u c (waiting u c g s) else waiting u c g s := by
  have armed : (waiting u c g s).target u c = some g := State.target_setTarget_same ..
  rw [testEntry, entryDue_eq, armed, capture_stamp]
  simp only [dueAt, Option.any_some, passed, decide_eq_true_eq]
  rfl

theorem fires_of_waiting {g : Stamp} {v : State} (h : Fires u c (waiting u c g s) v) : Fires u c s v := by
  obtain ⟨hothers, hchannel, heq, htarget⟩ := h
  refine ⟨fun y d hne => ?_, ?_, heq, fun y d => ?_⟩
  · rw [hothers y d hne, waiting_channel, if_neg hne]
  · rw [hchannel, waiting_channel, if_pos ⟨rfl, rfl⟩]
  · rw [htarget, waiting_target]
    split <;> rfl

end

/-! ## Bad words, and a channel that has yet to continue (R132, R139, log 41) -/

section
variable {u : TenantId} {c : ChannelId} {s : State} {f : FetchedWord}

theorem exec_undefinedOpWord {k : ReportKind} (h : executes (s.channel u c) f) (hk : wordKind f = .bad k) :
    exec (.undefinedOpWord u c) s = .next (programCheck u c k (s.channel u c).index s) := by
  rw [exec, execUndefinedOpWord, goOn_executes h, badKind_executes h hk]
  exact congrArg Host.Outcome.next (runWord_executes h hk (runBad u c k))

theorem exec_wordCommand_continues (h : hasFinished (s.channel u c)) (hf : executes ((continueCC u c s).channel u c) f) :
    exec (wordCommand u c f) s = exec (wordCommand u c f) (continueCC u c s) := by
  unfold wordCommand
  cases hk : wordKind f
  case text => exact congrArg Host.Outcome.next (runWord_continues h hf hk _)
  case patch => exact congrArg Host.Outcome.next (runWord_continues h hf hk _)
  case wait => exact congrArg Host.Outcome.next (runWord_continues h hf hk _)
  case mark => exact congrArg Host.Outcome.next (runWord_continues h hf hk _)
  case bad k =>
    have hbad := badKind_executes hf hk
    simp only [exec, execUndefinedOpWord, goOn_hasFinished h, goOn_executes hf, hbad]
    exact congrArg Host.Outcome.next (runWord_continues h hf hk _)

end

/-! ## MARK (R137) -/

theorem report_channel (u : TenantId) (c : ChannelId) (kind : ReportKind) (index : Nat) (s : State) (y : TenantId) (d : ChannelId) :
    (report u c kind index s).channel y d = s.channel y d := State.channel_of (pushReport_pe rfl _ _) y d

/-- Settles O36: each word meets its case of `wordKind`, and its command runs it. -/
theorem waitMarkAndBadWords : Obligations.WaitMarkAndBadWords := by
  unfold Obligations.WaitMarkAndBadWords
  intro s u c f x w now fired good closes
  refine ⟨fun hx hgood hop => ?_, fun hx harmed => ?_, fun hx hgood hop => ?_, fun hx hfault => ?_, fun hx hfault hbad => ?_,
    fun hx => ?_⟩
  · obtain ⟨hfault, hcd, hflags⟩ := hgood
    have hexec : exec (.wait u c) s = .next (testEntry u c (waiting u c w.target s)) := by
      rw [← runWait_eq hx, ← runWord_executes hx ((wordKind_plain hfault hcd hflags).1 hop) (runWait u c)]
      rfl
    rw [hexec, testEntry_waiting]
    refine ⟨fun hahead => ?_, fun hpast => ?_⟩
    · rw [if_neg (Nat.not_le.mpr hahead)]
      refine ⟨_, rfl, fun y d hne => ?_, ?_, rfl, waiting_target w.target⟩
      · rw [waiting_channel, if_neg hne]
      · rw [waiting_channel, if_pos ⟨rfl, rfl⟩]
    · rw [if_pos hpast]
      have hwaits : ((waiting u c w.target s).channel u c).state = .waitingTime := by rw [waiting_channel, if_pos ⟨rfl, rfl⟩]
      exact ⟨_, rfl, fires_of_waiting (fireEntry_fires hwaits)⟩
  · exact ⟨_, exec_compareFire harmed, fireEntry_fires hx⟩
  · obtain ⟨hfault, hcd, hflags⟩ := hgood
    have hexec : exec (.mark u c) s = .next (runMark u c s) := by
      rw [← runWord_executes hx ((wordKind_plain hfault hcd hflags).2 hop) (runMark u c)]
      rfl
    have continued := continueCC_continues u c (report u c .mark x.index s)
    rw [report_channel, wordOf_executes hx] at continued
    exact ⟨_, hexec, continued⟩
  · exact ⟨_, exec_undefinedOpWord hx (wordKind_fault hfault), programCheck_checkStops u c s .storeCheck x.index⟩
  · exact ⟨_, exec_undefinedOpWord hx (wordKind_bad hfault hbad), programCheck_checkStops u c s .badOp x.index⟩
  · exact ⟨continueCC u c s, continueCC_continues u c s, fun g hg => exec_wordCommand_continues hx hg⟩

end Sys2Proof.Proofs
end

