-- ==== Sys2Proof/Proofs/ChannelRuns.lean ====
section
/-!
Starting and stopping a run: FIRE and HALT (R131, R141, R142).
-/

namespace Sys2Proof.Proofs

open Sys2Proof.Machine Sys2Proof.Claims

theorem indexOf_val {n i : Nat} {k : Fin n} (h : i = k.val) : indexOf n i = some k := by
  subst h
  exact dif_pos k.isLt

theorem indexOf_beyond {n i : Nat} (h : n ≤ i) : indexOf n i = none := dif_neg (Nat.not_lt.mpr h)

/-! ## FIRE (R131) -/

section fire
variable {u : TenantId} {r : FireReq} {s : State}

theorem parseFire_sized {b : List Byte} (h : b.length = 4 + nat1 b 3) (hn : nat1 b 3 ≤ 32) :
    parseFire b = some { channel := nat1 b 0, start := fieldNat b 1 2, patch := b.drop 4 } := if_pos ⟨h, hn⟩

theorem exec_fire {b : List Byte} (h : parseFire b = some r) (tag : Tag) : exec (.fire (tenantLane u) tag b) s =
    .next (serveFire (tenantLane u) tag u (some r) (countRequest (tenantLane u) s)) := by
  rw [exec, execFire, laneTenant_tenantLane, h]

theorem doFire_badIndex (h : 4 ≤ r.channel) : doFire u r s = refuseFire u .badIndex s := by
  rw [doFire, indexOf_beyond h]

variable {c : ChannelId}

theorem doFire_refused (hc : r.channel = c.val) {code : RefusalCode} (h : fireRefusal u c r.start s = some code) :
    doFire u r s = refuseFire u code s := by
  simp [doFire, indexOf_val hc, h]

/-- The state of an accepted FIRE before its answer. -/
def fired (u : TenantId) (c : ChannelId) (r : FireReq) (s : State) : State :=
  (s.modChannel u c (fireChannel r.start r.patch)).countPe u fun x => { x with firesTaken := satInc x.firesTaken }

theorem doFire_taken (hc : r.channel = c.val) (h : fireRefusal u c r.start s = none) : doFire u r s = (fired u c r s, .accepted) := by
  simp [doFire, indexOf_val hc, h, fired]

theorem serveFire_refused {code : RefusalCode} (h : doFire u r s = refuseFire u code s) (l : LaneId) (tag : Tag) :
    serveFire l tag u (some r) s = answer l tag 0x02 (.refused code)
      (s.countPe u fun x => { x with firesRefused := satInc x.firesRefused }) := by
  rw [serveFire, h]
  rfl

theorem serveFire_taken (hc : r.channel = c.val) (h : doFire u r s = (fired u c r s, .accepted)) (l : LaneId) (tag : Tag) :
    serveFire l tag u (some r) s = fetchTo u c r.start (answer l tag 0x02 .accepted (fired u c r s)) := by
  rw [serveFire, h]
  simp only [afterFire, indexOf_val hc]

theorem channelFree_iff (x : Channel) : channelFree x = true ↔ x.state = .idle ∧ x.reportPending = false ∧ x.outstanding = none := by
  simp [channelFree, and_assoc]

theorem fireRefusal_disabled {start : Nat} (h : (s.tenant u).enabled = false) : fireRefusal u c start s = some .disabled := if_pos h

theorem fireRefusal_busy {start : Nat} (h : (s.tenant u).enabled = true) (hfree : channelFree (s.channel u c) = false) :
    fireRefusal u c start s = some .busy := by
  simp [fireRefusal, h, hfree]

theorem fireRefusal_range {start : Nat} (h : (s.tenant u).enabled = true) (hfree : channelFree (s.channel u c) = true)
    (hstart : (s.tenant u).grant.programSize ≤ start) : fireRefusal u c start s = some .range := by
  simp [fireRefusal, h, hfree, inPartition, Nat.not_lt.mpr hstart]

theorem fireRefusal_none {start : Nat} (h : (s.tenant u).enabled = true) (hfree : channelFree (s.channel u c) = true)
    (hstart : start < (s.tenant u).grant.programSize) : fireRefusal u c start s = none := by
  simp [fireRefusal, h, hfree, inPartition, hstart]

end fire

/-! ## HALT (Table 8-5) -/

section halt
variable {u : TenantId} {c : ChannelId} {s : State}

theorem exec_halt {b : List Byte} (h : b.length = 1) (tag : Tag) : exec (.halt (tenantLane u) tag b) s =
    .next (answer (tenantLane u) tag 0x03 (doHalt u (nat1 b 0) (countRequest (tenantLane u) s)).2
      (doHalt u (nat1 b 0) (countRequest (tenantLane u) s)).1) := by
  simp only [exec, execHalt, tenantRequest, laneTenant_tenantLane, parseByte, sized, if_pos h, serve]

theorem doHalt_beyond {i : Nat} (h : 4 ≤ i) : doHalt u i s = (s, .invalid) := by
  rw [doHalt, indexOf_beyond h]

variable {i : Nat}

theorem doHalt_disabled (h : (s.tenant u).enabled = false) : doHalt u i s = (s, .invalid) := by
  unfold doHalt
  split
  · rfl
  · simp [h]

theorem doHalt_idle (hi : i = c.val) (h : (s.tenant u).enabled = true) (hidle : (s.channel u c).state = .idle) :
    doHalt u i s = (s, if channelFree (s.channel u c) then .idle else .pending) := by
  simp only [doHalt, indexOf_val hi, h, hidle, if_true]
  split <;> rfl

theorem doHalt_runs (hi : i = c.val) (h : (s.tenant u).enabled = true) (hruns : (s.channel u c).state ≠ .idle) :
    doHalt u i s = (haltChannel u c s, .stopped) := by
  simp [doHalt, indexOf_val hi, h, hruns]

/-! ### A stopping HALT (R36, R141) -/

theorem untaken_eq (x : Channel) : untaken x = notTaken x := by
  unfold untaken notTaken
  rcases x.outstanding with _ | ⟨m, _ | a⟩ <;> rfl

/-- What a stop takes from the channel before its run ends. -/
def withdrawn (x : Channel) : Channel :=
  { x with held := none, resubmissions := 0, outstanding := (if (notTaken x).isSome then none else x.outstanding) }

/-- The bytes that a stop discards (R141). -/
def bytesLost (x : Channel) : Nat :=
  x.buffer.length + ((x.held.map fun m => m.bytes.length).getD 0) + ((notTaken x).map fun m => m.bytes.length).getD 0

/-- The rest of a stop: `lost` bytes are counted and the buffer is empty. -/
def stopped (lost : Nat) (x : Channel) : Channel :=
  { addDiscarded lost x with state := .idle, word := none, finished := false, prefetched := none, buffer := [] }

theorem stopContext_eq (x : Channel) : stopContext x = stopped (bytesLost x) (withdrawn x) := by
  unfold stopContext
  rw [untaken_eq]
  rfl

theorem modChannel_congr {f g : Channel → Channel} (h : f (s.channel u c) = g (s.channel u c)) :
    s.modChannel u c f = s.modChannel u c g := by
  have same : upd s.pe.channels (chanIdx u c) f = upd s.pe.channels (chanIdx u c) g := by
    unfold upd
    exact congrArg (fun x => s.pe.channels.set (chanIdx u c).val x) h
  rw [State.modChannel, same]
  rfl

/-- The channel's part of a stop taken back and its entry disarmed, with the run still to end. -/
def halting (u : TenantId) (c : ChannelId) (s : State) : State := (s.modChannel u c withdrawn).setTarget u c none

theorem stopChannel_eq : stopChannel u c s = (halting u c s).modChannel u c (stopped (bytesLost (s.channel u c))) := by
  have parts : s.modChannel u c stopContext =
      (s.modChannel u c withdrawn).modChannel u c (stopped (bytesLost (s.channel u c))) := by
    rw [modChannel_modChannel]
    exact modChannel_congr (stopContext_eq _)
  rw [stopChannel, parts]
  rfl

theorem halting_channel (y : TenantId) (d : ChannelId) : (halting u c s).channel y d =
    if y = u ∧ d = c then withdrawn (s.channel u c) else s.channel y d :=
  (State.channel_of rfl y d).trans (State.channel_modChannel ..)

theorem halting_target (y : TenantId) (d : ChannelId) : (halting u c s).target y d =
    if y = u ∧ d = c then none else s.target y d := State.target_setTarget ..

/-- The run of a halted channel ends with its REPORT, before the halt is counted. -/
theorem haltChannel_eq : haltChannel u c s =
    (reportEnd u c .halted (s.channel u c).index ((halting u c s).modChannel u c (stopped (bytesLost (s.channel u c))))).countPe u
      fun x => { x with halts := satInc x.halts } := by
  have hindex : ((stopChannel u c s).channel u c).index = (s.channel u c).index := by
    rw [stopChannel_eq, State.channel_modChannel_same, halting_channel, if_pos ⟨rfl, rfl⟩]
    rfl
  rw [haltChannel, hindex, stopChannel_eq]

theorem halting_endsWith : endsWith u c .halted (s.channel u c).index (bytesLost (s.channel u c)) (halting u c s)
    (reportEnd u c .halted (s.channel u c).index ((halting u c s).modChannel u c (stopped (bytesLost (s.channel u c))))) :=
  reportEnd_endsWith u c (halting u c s) .halted (s.channel u c).index rfl

end halt

/-- Settles O37: FIRE by its tests, then HALT by the state of the channel. -/
theorem fireStartsAndHaltStopsARun : Obligations.FireStartsAndHaltStopsARun := by
  unfold Obligations.FireStartsAndHaltStopsARun
  intro s u tag body l v g
  refine ⟨fun hlen hpatch => ?_, fun hlen => ?_⟩
  · intro start refused
    let r : FireReq := { channel := nat1 body 0, start := start, patch := body.drop 4 }
    have hexec : exec (.fire l tag body) s = .next (serveFire l tag u (some r) v) := exec_fire (parseFire_sized hlen hpatch) tag
    have refuses {code : RefusalCode} (h : doFire u r v = refuseFire u code v) : refused code := by
      refine ⟨v.countPe u fun x => { x with firesRefused := satInc x.firesRefused }, ?_, fun y => countPe_counters u y _ v, rfl⟩
      rw [hexec, serveFire_refused h]
    refine ⟨fun h => refuses (doFire_badIndex h), fun c hc => ?_⟩
    intro x free
    have isFree : channelFree (v.channel u c) = true ↔ free := channelFree_iff x
    refine ⟨fun h => refuses (doFire_refused hc (fireRefusal_disabled h)), fun h hbusy => ?_, fun h hfree hbeyond => ?_,
      fun h hfree hstart => ?_⟩
    · exact refuses (doFire_refused hc (fireRefusal_busy h (Bool.eq_false_iff.mpr fun k => hbusy (isFree.mp k))))
    · exact refuses (doFire_refused hc (fireRefusal_range h (isFree.mpr hfree) hbeyond))
    · have taken := serveFire_taken (s := v) (r := r) hc (doFire_taken (r := r) hc (fireRefusal_none h (isFree.mpr hfree) hstart)) l tag
      refine ⟨fired u c r v, fetchTo u c start (answer l tag 0x02 .accepted (fired u c r v)), ?_, fetchTo_fetches .., fun y d hne => ?_,
        ?_, fun y => countPe_counters u y _ v, rfl⟩
      · rw [hexec, taken]
      · exact modChannel_channelsBut u c (fireChannel r.start r.patch) v y d hne
      · exact State.channel_modChannel_same v u c (fireChannel r.start r.patch)
  · intro replies
    have hexec := exec_halt (u := u) (s := s) hlen tag
    have answers {r : Reply} {w : State} (h : doHalt u (nat1 body 0) v = (w, r)) :
        exec (.halt l tag body) s = .next (answer l tag 0x03 r w) := by rw [hexec, h]
    refine ⟨fun h => ?_, fun c hc henabled => ?_⟩
    · rcases h with h | h
      · exact answers (doHalt_beyond h)
      · exact answers (doHalt_disabled h)
    · intro x
      have isFree : channelFree (v.channel u c) = true ↔ _ := channelFree_iff x
      refine ⟨fun hidle hpending => answers ?_, fun hidle hreport hout => answers ?_, fun hruns => ?_⟩
      · have busy : channelFree (v.channel u c) = false := by
          refine Bool.eq_false_iff.mpr fun k => ?_
          obtain ⟨_, hreport, hout⟩ := isFree.mp k
          simp [hreport, hout] at hpending
        rw [doHalt_idle (s := v) hc henabled hidle, busy]
        rfl
      · rw [doHalt_idle (s := v) hc henabled hidle, isFree.mpr ⟨hidle, hreport, hout⟩]
        rfl
      · have stopped := answers (doHalt_runs (s := v) hc henabled hruns)
        rw [haltChannel_eq] at stopped
        refine ⟨halting u c v, _, _, stopped, fun y d hne => ?_, ?_, fun z d => ?_, rfl, halting_endsWith, fun z => ?_, rfl⟩
        · rw [halting_channel, if_neg hne]
          rfl
        · rw [halting_channel, if_pos ⟨rfl, rfl⟩]
          rfl
        · exact halting_target (s := v) z d
        · rw [countPe_counters, (reportEnd_counters ..).1]
          rfl

end Sys2Proof.Proofs
end

