-- ==== Sys2Proof/Proofs/TenantReset.lean ====
section
/-!
TENANTRESET (R164): the streams of a tenant cut and emptied (R119, R120), and its channels, records, budgets and lane cleared.
-/

namespace Sys2Proof.Proofs

open Sys2Proof.Machine Sys2Proof.Claims

theorem satAdd_satAdd (c : Counter) (m n : Nat) : satAdd (satAdd c m) n = satAdd c (m + n) := by
  refine BitVec.eq_of_toNat_eq ?_
  simp only [satAdd_toNat]
  omega

/-! ## Cutting one copy with cause RESET (R117, R120) -/

/-- The copy is LAUNCHING. -/
def isLaunching (c : Option Copy) : Bool := match c with | some y => decide (y.state = .launching) | none => false

/-- A cut of the copy owes an ABORT on a path, where `pp` holds the ports. -/
def owesOn (pp : Vector Port 6) (p : PathId) (c : Option Copy) : Bool :=
  match c with
  | none => false
  | some y => decide (y.state = .launching ∧ y.path = p ∧ 0 < y.nextFrag ∧ pp[p].faultState = .working)

/-- A stream whose head has lost a copy to a reset, but for the head itself. -/
def cutStream (pp : Vector Port 6) (seq : Seq) (c : Option Copy) (x : Stream) : Stream :=
  { x with
    counters := { x.counters with cutsReset := satAdd x.counters.cutsReset (isLaunching c).toNat }
    owed := Vector.ofFn fun p => if owesOn pp p c then some seq else x.owed[p] }

/-- The counters of a path on which a stream that owed `old` there comes to owe `n` more ABORTs in turn (R119). -/
def owedMore (old : Option Seq) (n : Nat) (k : AbortCounters) : AbortCounters :=
  { k with owed := satAdd k.owed n, replaced := satAdd k.replaced (n - if old = none then 1 else 0) }

theorem owedMore_zero (old : Option Seq) (k : AbortCounters) : owedMore old 0 k = k := by
  simp [owedMore]

section cut
variable {st : StreamId} {s : State} {m : Message} {rest : List Message} {name : CopyName}

theorem cutCopy_empty (h : (s.stream st).queue = []) (cause : CutCause) : cutCopy st name cause s = s := by
  simp [cutCopy, headOf, h]

theorem cutCopy_quiet (hq : (s.stream st).queue = m :: rest) (h : isLaunching (getCopy m name) = false) (cause : CutCause) :
    cutCopy st name cause s = s := by
  unfold cutCopy
  rw [headOf_of_queue hq]
  dsimp only
  split
  · rfl
  · next c hc =>
    rw [hc] at h
    exact if_pos (of_decide_eq_false h)

/-- The state and the counter of a cut, before the ABORT it may owe. -/
def cutCounted (st : StreamId) (name : CopyName) (s : State) : State :=
  (s.modHead st (modCopy name fun x => { x with state := .cut, stall := none })).countSq st (countCut .reset)

theorem cutCopy_launching (hq : (s.stream st).queue = m :: rest) {c : Copy} (hc : getCopy m name = some c)
    (hl : c.state = .launching) : cutCopy st name .reset s =
      if owesOn s.pp c.path (some c) then oweAbort st c.path (m.seq.getD 0) (cutCounted st name s) else cutCounted st name s := by
  unfold cutCopy
  rw [headOf_of_queue hq]
  dsimp only
  rw [hc]
  dsimp only
  rw [if_neg (by simp [hl])]
  simp only [owesOn, hl, decide_eq_true_eq, true_and, or_true]
  simp only [and_comm]
  rfl

theorem owesOn_quiet {c : Option Copy} (h : isLaunching c = false) (pp : Vector Port 6) (p : PathId) : owesOn pp p c = false := by
  unfold owesOn
  split
  · rfl
  · next y =>
    have hy : y.state ≠ .launching := of_decide_eq_false h
    simp [hy]

/-- A copy owes on its own path alone. -/
theorem owesOn_path (pp : Vector Port 6) (p : PathId) (c : Copy) :
    owesOn pp p (some c) = (decide (p = c.path) && owesOn pp c.path (some c)) := by
  by_cases h : p = c.path
  · simp [h]
  · simp [owesOn, h, Ne.symm h]

theorem cutStream_quiet {c : Option Copy} (h : isLaunching c = false) (pp : Vector Port 6) (seq : Seq) (x : Stream) :
    cutStream pp seq c x = x := by
  simp [cutStream, h, owesOn_quiet h]

theorem owed_after (pp : Vector Port 6) (q : Option Seq) (c : Copy) (v : Vector (Option Seq) 6) :
    (Vector.ofFn fun p : PathId => if owesOn pp p (some c) then q else v[p]) =
      if owesOn pp c.path (some c) then v.set c.path q else v := by
  refine Vector.ext fun i hi => ?_
  rw [Vector.getElem_ofFn, owesOn_path]
  split
  · next h =>
    obtain ⟨hp, ho⟩ := Bool.and_eq_true_iff.mp h
    rw [if_pos ho]
    simp [← of_decide_eq_true hp]
  · next h =>
    split
    · next ho =>
      have hp : (⟨i, hi⟩ : PathId) ≠ c.path := fun e => h (by simp [e, ho])
      have := set_get v c.path ⟨i, hi⟩ q
      rw [if_neg hp] at this
      exact this.symm
    · rfl

/-- What a cut of one copy of a head with cause RESET does. -/
structure HeadCut (st : StreamId) (name : CopyName) (m : Message) (rest : List Message) (s t : State) : Prop where
  ports : t.pp = s.pp
  others : streamsBut st s t
  /-- The head keeps its sequence number and its other copy. -/
  stream : ∃ m', m'.seq = m.seq ∧ (∀ o, o ≠ name → getCopy m' o = getCopy m o) ∧
    t.stream st = { cutStream s.pp (m.seq.getD 0) (getCopy m name) (s.stream st) with queue := m' :: rest }
  aborts : ∀ p : PathId, t.sq.aborts[p] =
    owedMore (s.stream st).owed[p] (owesOn s.pp p (getCopy m name)).toNat s.sq.aborts[p]

/-- The head after a cut of one copy. -/
def cutHead (name : CopyName) (m : Message) : Message := modCopy name (fun x => { x with state := .cut, stall := none }) m

theorem cutHead_kept (name : CopyName) (m : Message) :
    (cutHead name m).seq = m.seq ∧ ∀ o, o ≠ name → getCopy (cutHead name m) o = getCopy m o := by
  cases name
  all_goals refine ⟨rfl, fun o ho => ?_⟩; cases o
  · exact absurd rfl ho
  · rfl
  · rfl
  · exact absurd rfl ho

theorem cutCounted_stream (hq : (s.stream st).queue = m :: rest) (y : StreamId) : (cutCounted st name s).stream y =
    if y = st then { s.stream st with queue := cutHead name m :: rest, counters := countCut .reset (s.stream st).counters }
    else s.stream y := by
  rw [cutCounted, State.countSq, State.stream_modStream, modHead_stream hq]
  split
  · rfl
  · next h => rw [State.modHead, State.stream_modStream, if_neg h]

theorem cutCopy_headCut (hq : (s.stream st).queue = m :: rest) : HeadCut st name m rest s (cutCopy st name .reset s) := by
  cases hl : isLaunching (getCopy m name)
  · rw [cutCopy_quiet hq hl]
    refine ⟨rfl, fun _ _ => rfl, ⟨m, rfl, fun _ _ => rfl, ?_⟩, fun p => ?_⟩
    · rw [cutStream_quiet hl, ← hq]
    · rw [owesOn_quiet hl]
      exact (owedMore_zero _ _).symm
  · obtain ⟨c, hc, hstate⟩ : ∃ c, getCopy m name = some c ∧ c.state = .launching := by
      cases hc : getCopy m name
      · simp [hc, isLaunching] at hl
      · next c => exact ⟨c, rfl, by simpa [hc, isLaunching] using hl⟩
    obtain ⟨hseq, hcopies⟩ := cutHead_kept name m
    rw [cutCopy_launching hq hc hstate]
    refine ⟨by split <;> simp [cutCounted], fun y hy => ?_, ⟨cutHead name m, hseq, hcopies, ?_⟩, fun p => ?_⟩
    · have hcounted := cutCounted_stream (name := name) hq y
      rw [if_neg hy] at hcounted
      split
      · rw [oweAbort_stream, if_neg hy, hcounted]
      · exact hcounted
    · have hcounted := cutCounted_stream (name := name) hq st
      rw [if_pos rfl] at hcounted
      simp only [cutStream, hc, owed_after]
      split
      · rw [oweAbort_stream, if_pos rfl, hcounted]
        simp [isLaunching, hstate, countCut]
      · rw [hcounted]
        simp [isLaunching, hstate, countCut]
    · have hcounted := cutCounted_stream (name := name) hq st
      have howed : ((cutCounted st name s).stream st).owed = (s.stream st).owed := by rw [hcounted, if_pos rfl]
      have hstands : (cutCounted st name s).sq.aborts = s.sq.aborts := rfl
      rw [hc, owesOn_path s.pp p c]
      split
      · next ho =>
        rw [oweAbort_aborts, hstands, howed, ho]
        by_cases hp : p = c.path
        · subst hp
          cases hold : (s.stream st).owed[c.path] <;> simp [owedMore]
        · simp [hp, owedMore_zero]
      · next ho => simp [ho, owedMore_zero, hstands]

end cut

/-! ## One stream emptied (R120) -/

section empty
variable {st : StreamId} {s : State}

/-- How many copies of the head of a queue are launching. -/
def cutsOf (m : Message) : Nat := (isLaunching m.copyA).toNat + (isLaunching m.copyB).toNat

theorem cutsOf_eq (m : Message) : cutsOf m = [m.copyA, m.copyB].countP isLaunching := by
  simp only [cutsOf, List.countP_cons, List.countP_nil]
  cases isLaunching m.copyA <;> cases isLaunching m.copyB <;> rfl

/-- A stream that a reset empties, without the cuts of its head. -/
def emptied (x : Stream) : Stream :=
  { x with
    queue := [], dropped := satAdd x.dropped x.queue.length
    counters := { x.counters with dropsReset := satAdd x.counters.dropsReset x.queue.length } }

/-- A stream that a reset cuts and empties. -/
def resetOf (pp : Vector Port 6) (x : Stream) : Stream :=
  match x.queue.head? with
  | none => emptied x
  | some m => emptied (cutStream pp (m.seq.getD 0) m.copyB (cutStream pp (m.seq.getD 0) m.copyA x))

/-- How many ABORTs a reset of a stream comes to owe on a path. -/
def owedBy (pp : Vector Port 6) (p : PathId) (x : Stream) : Nat :=
  match x.queue.head? with
  | none => 0
  | some m => (owesOn pp p m.copyA).toNat + (owesOn pp p m.copyB).toNat

theorem owedBy_eq (p : PathId) : owedBy s.pp p (s.stream st) = cutsThatOwe s p st := by
  unfold owedBy cutsThatOwe
  cases (s.stream st).queue.head?
  case none => rfl
  case some m =>
    simp only [List.countP_cons, List.countP_nil]
    change _ = 0 + (if owesOn s.pp p m.copyB = true then 1 else 0) + (if owesOn s.pp p m.copyA = true then 1 else 0)
    cases owesOn s.pp p m.copyA <;> cases owesOn s.pp p m.copyB <;> rfl

theorem modStream_congr {f g : Stream → Stream} (h : f (s.stream st) = g (s.stream st)) : s.modStream st f = s.modStream st g := by
  have same : upd s.sq.streams (streamIdx st) f = upd s.sq.streams (streamIdx st) g := by
    unfold upd
    exact congrArg (fun x => s.sq.streams.set (streamIdx st).val x) h
  rw [State.modStream, same]
  rfl

theorem resetStream_eq : resetStream st s = (cutCopy st .b .reset (cutCopy st .a .reset s)).modStream st emptied :=
  modStream_congr (g := emptied) rfl

/-- What a reset of one stream does. -/
structure StreamReset (st : StreamId) (s t : State) : Prop where
  ports : t.pp = s.pp
  others : streamsBut st s t
  stream : t.stream st = resetOf s.pp (s.stream st)
  aborts : ∀ p : PathId, t.sq.aborts[p] = owedMore (s.stream st).owed[p] (owedBy s.pp p (s.stream st)) s.sq.aborts[p]

/-- Two counts one after the other are one count of both, where the first leaves the stream owing. -/
theorem owedMore_owedMore (old : Option Seq) (a b : Bool) (q : Seq) (k : AbortCounters) :
    owedMore (if a then some q else old) b.toNat (owedMore old a.toNat k) = owedMore old (a.toNat + b.toNat) k := by
  cases old <;> cases a <;> cases b <;> simp [owedMore, satAdd_satAdd, -satAdd_one]

theorem resetStream_reset (st : StreamId) (s : State) : StreamReset st s (resetStream st s) := by
  rw [resetStream_eq]
  cases hq : (s.stream st).queue
  case nil =>
    rw [cutCopy_empty hq, cutCopy_empty hq]
    refine ⟨rfl, fun y hy => ?_, ?_, fun p => ?_⟩
    · rw [State.stream_modStream, if_neg hy]
    · rw [State.stream_modStream_same, resetOf, hq]
      rfl
    · rw [owedBy, hq]
      exact (owedMore_zero _ _).symm
  case cons m rest =>
    obtain ⟨portsA, othersA, ⟨mA, seqA, copiesA, streamA⟩, abortsA⟩ := cutCopy_headCut (name := .a) hq
    have hqA : ((cutCopy st .a .reset s).stream st).queue = mA :: rest := by rw [streamA]
    obtain ⟨portsB, othersB, ⟨mB, _, _, streamB⟩, abortsB⟩ := cutCopy_headCut (name := .b) hqA
    rw [show getCopy m .a = m.copyA from rfl] at streamA abortsA
    have copyB : getCopy mA .b = m.copyB := copiesA .b (by decide)
    refine ⟨portsB.trans portsA, fun y hy => ?_, ?_, fun p => ?_⟩
    · rw [State.stream_modStream, if_neg hy, othersB y hy, othersA y hy]
    · rw [State.stream_modStream_same, streamB, streamA, portsA, copyB, seqA, resetOf, hq]
      simp [emptied, cutStream, hq]
    · have howed : ((cutCopy st .a .reset s).stream st).owed[p] =
          if owesOn s.pp p m.copyA then some (m.seq.getD 0) else (s.stream st).owed[p] := by
        rw [streamA]
        simp [cutStream]
      have after := abortsB p
      rw [portsA, copyB, abortsA p, howed, owedMore_owedMore] at after
      rw [owedBy, hq]
      exact after

end empty

/-! ## The streams of a tenant emptied -/

/-- A count of the ABORTs of one stream. -/
theorem abortsCounted_cons (st : StreamId) (l : List StreamId) (s : State) (p : PathId) : abortsCounted (st :: l) s p =
    { s.sq.aborts[p] with
      owed := satAdd s.sq.aborts[p].owed (cutsThatOwe s p st + (l.map (cutsThatOwe s p)).sum)
      replaced := satAdd s.sq.aborts[p].replaced ((cutsThatOwe s p st - if (s.stream st).owed[p] = none then 1 else 0) +
        (l.map fun x => cutsThatOwe s p x - if (s.stream x).owed[p] = none then 1 else 0).sum) } := by
  simp only [abortsCounted, List.map_cons, List.sum_cons]

theorem cutsThatOwe_of {s t : State} {x : StreamId} (hp : t.pp = s.pp) (hx : t.stream x = s.stream x) (p : PathId) :
    cutsThatOwe t p x = cutsThatOwe s p x := by rw [← owedBy_eq, ← owedBy_eq, hp, hx]

/-- What a reset of one stream counts, before those of others. -/
theorem StreamReset.abortsCounted {st : StreamId} {s t : State} (h : StreamReset st s t) {l : List StreamId} (hst : st ∉ l)
    (p : PathId) : Claims.abortsCounted l t p = Claims.abortsCounted (st :: l) s p := by
  have stands (x : StreamId) (hx : x ∈ l) : t.stream x = s.stream x := h.others x fun e => hst (e ▸ hx)
  have cuts : l.map (cutsThatOwe t p) = l.map (cutsThatOwe s p) :=
    List.map_congr_left fun x hx => cutsThatOwe_of h.ports (stands x hx) p
  have replaced : (l.map fun x => cutsThatOwe t p x - if (t.stream x).owed[p] = none then 1 else 0) =
      l.map fun x => cutsThatOwe s p x - if (s.stream x).owed[p] = none then 1 else 0 :=
    List.map_congr_left fun x hx => by rw [cutsThatOwe_of h.ports (stands x hx), stands x hx]
  rw [abortsCounted_cons, Claims.abortsCounted]
  dsimp only
  rw [cuts, replaced, h.aborts p, owedBy_eq]
  simp only [owedMore, satAdd_satAdd]

theorem resetStreams_rows {l : List StreamId} (hl : l.Nodup) (s : State) :
    (l.foldl (fun x st => resetStream st x) s).pp = s.pp ∧
    (∀ y, (l.foldl (fun x st => resetStream st x) s).stream y = if y ∈ l then resetOf s.pp (s.stream y) else s.stream y) ∧
    ∀ p : PathId, (l.foldl (fun x st => resetStream st x) s).sq.aborts[p] = abortsCounted l s p := by
  induction l generalizing s with
  | nil => exact ⟨rfl, fun y => by simp, fun p => by simp [abortsCounted]⟩
  | cons a l ih =>
    obtain ⟨ha, hl⟩ := List.nodup_cons.mp hl
    have first := resetStream_reset a s
    obtain ⟨ports, streams, aborts⟩ := ih hl (resetStream a s)
    rw [List.foldl_cons]
    refine ⟨ports.trans first.ports, fun y => ?_, fun p => (aborts p).trans (first.abortsCounted ha p)⟩
    rw [streams, first.ports]
    by_cases hy : y = a
    · subst hy
      rw [if_neg ha, if_pos List.mem_cons_self, first.stream]
    · rw [first.others y hy]
      simp [hy]

theorem streamsOf_nodup (u : TenantId) : (streamsOf u).Nodup := by simp [streamsOf, allClasses]

/-! ## Channels, records and budgets (R33, R94, R143, R145, R151) -/

/-- A tenant's channels and entries after some of them have been reset. -/
theorem resetChannels_rows (u y : TenantId) (d : ChannelId) (l : List ChannelId) (s : State) :
    (l.foldl (fun x c => (x.modChannel u c fun _ => {}).setTarget u c none) s).channel y d =
      (if y = u ∧ d ∈ l then {} else s.channel y d) ∧
    (l.foldl (fun x c => (x.modChannel u c fun _ => {}).setTarget u c none) s).target y d =
      if y = u ∧ d ∈ l then none else s.target y d := by
  induction l generalizing s with
  | nil => simp
  | cons c l ih =>
    obtain ⟨hchannel, htarget⟩ := ih ((s.modChannel u c fun _ => {}).setTarget u c none)
    have channel : ((s.modChannel u c fun _ => {}).setTarget u c none).channel y d = if y = u ∧ d = c then {} else s.channel y d :=
      (State.channel_of rfl y d).trans (State.channel_modChannel ..)
    have target : ((s.modChannel u c fun _ => {}).setTarget u c none).target y d = if y = u ∧ d = c then none else s.target y d :=
      State.target_setTarget ..
    rw [List.foldl_cons, hchannel, htarget, channel, target]
    by_cases hy : y = u
    · by_cases hd : d = c <;> simp [hy, hd]
    · simp [hy]

theorem resetChannels_channel (u y : TenantId) (d : ChannelId) (s : State) :
    (resetChannels u s).channel y d = if y = u then {} else s.channel y d := by
  rw [resetChannels, (resetChannels_rows u y d allChannels s).1]
  simp [mem_allChannels]

theorem resetChannels_target (u y : TenantId) (d : ChannelId) (s : State) :
    (resetChannels u s).target y d = if y = u then none else s.target y d := by
  rw [resetChannels, (resetChannels_rows u y d allChannels s).2]
  simp [mem_allChannels]

theorem resetChannels_tb (u : TenantId) (s : State) :
    (resetChannels u s).tb = { s.tb with compare := (resetChannels u s).tb.compare } := by
  have h (l : List ChannelId) (x : State) : (l.foldl (fun x c => (x.modChannel u c fun _ => {}).setTarget u c none) x).tb =
      { x.tb with compare := (l.foldl (fun x c => (x.modChannel u c fun _ => {}).setTarget u c none) x).tb.compare } := by
    induction l generalizing x with
    | nil => rfl
    | cons c l ih => exact ih ((x.modChannel u c fun _ => {}).setTarget u c none)
  exact h allChannels s

theorem emptyTenantContexts_context (u : TenantId) (s : State) (p : PathId) (st : StreamId) :
    (emptyTenantContexts u s).context p st = if st.tenant = u then none else s.context p st := by
  have index : (ctxIdx p st).val % 24 / 3 = st.tenant.val := by
    rcases st with ⟨⟨i, hi⟩, c⟩
    cases c <;> simp [ctxIdx, streamIdx, classIdx] <;> omega
  rw [State.context, emptyTenantContexts]
  dsimp only
  rw [mapAll_get, index]
  simp only [Fin.val_inj]
  rfl

theorem emptyTenantContexts_record (u : TenantId) (s : State) (st : StreamId) :
    (emptyTenantContexts u s).record st = s.record st := by simp [State.record]

theorem emptyTenantContexts_counters (u : TenantId) (s : State) :
    (emptyTenantContexts u s).rd.streamCounters = s.rd.streamCounters := by simp

theorem zeroBudgets_plan (u : TenantId) (s : State) (p : PathId) :
    (zeroBudgets u s).plan p = { s.plan p with used := (s.plan p).used.set u 0 } := mapAll_get ..

/-! ### Fresh records (R151) -/

section fresh
variable (st y : StreamId) (s : State)

/-- The counters of a stream whose held messages are discarded. -/
def discarding (r : RecvRecord) (k : RdStreamCounters) : RdStreamCounters :=
  { k with holdDiscards := satAdd k.holdDiscards r.hold.length }

theorem freshenDiscarding_record :
    (freshenDiscarding st s).record y = if y = st then freshRecord (s.record y) else s.record y := by
  refine (State.record_modRecord ..).trans ?_
  split
  · next h => subst h; rfl
  · rfl

theorem freshenDiscarding_counters : (freshenDiscarding st s).rd.streamCounters[streamIdx y] =
    if y = st then discarding (s.record y) s.rd.streamCounters[streamIdx y] else s.rd.streamCounters[streamIdx y] := by
  refine (upd_get ..).trans ?_
  simp only [streamIdx_inj]
  split
  · next h => subst h; rfl
  · rfl

theorem freshenAll_rows {l : List StreamId} (hl : l.Nodup) :
    (l.foldl (fun x st => freshenDiscarding st x) s).record y = (if y ∈ l then freshRecord (s.record y) else s.record y) ∧
    (l.foldl (fun x st => freshenDiscarding st x) s).rd.streamCounters[streamIdx y] =
      (if y ∈ l then discarding (s.record y) s.rd.streamCounters[streamIdx y] else s.rd.streamCounters[streamIdx y]) ∧
    (l.foldl (fun x st => freshenDiscarding st x) s).rd.contexts = s.rd.contexts := by
  induction l generalizing s with
  | nil => simp
  | cons a l ih =>
    obtain ⟨ha, hl⟩ := List.nodup_cons.mp hl
    obtain ⟨hrecord, hcounters, hcontexts⟩ := ih (freshenDiscarding a s) hl
    have contexts : (freshenDiscarding a s).rd.contexts = s.rd.contexts := rfl
    rw [List.foldl_cons, hrecord, hcounters, hcontexts, contexts, freshenDiscarding_record, freshenDiscarding_counters]
    by_cases hy : y = a
    · subst hy
      simp [ha]
    · simp [hy]

end fresh

/-! ### The lane (R164) -/

theorem emptyLane_lane (u : TenantId) (k : LaneId) (s : State) : (emptyLane (tenantLane u) s).lane k = if k = tenantLane u then
    { s.lane k with
      queue := []
      counters := { (s.lane k).counters with
        answerLost := satAdd (s.lane k).counters.answerLost ((s.lane k).queue.countP isAnswer) } }
    else s.lane k := by
  rw [emptyLane, State.setLoss_lane, State.lane_modLane]
  split
  · next h => rw [h]
  · rfl

theorem emptyLane_lossFlags (u y : TenantId) (s : State) :
    (emptyLane (tenantLane u) s).li.lossFlags[y] = if y = u then false else s.li.lossFlags[y] := by
  rw [emptyLane, State.setLoss, laneTenant_tenantLane]
  exact set_get ..

/-! ## TENANTRESET -/

theorem exec_tenantreset {b : List Byte} (h : b.length = 1) (tag : Tag) (s : State) : exec (.tenantreset mgmtLane tag b) s =
    .next (answer mgmtLane tag 0x1D (atIndex (nat1 b 0) doTenantreset (countRequest mgmtLane s)).2
      (atIndex (nat1 b 0) doTenantreset (countRequest mgmtLane s)).1) :=
  congrArg Host.Outcome.next (operatorRequest_mgmt (parsed := parseByte b) (if_pos h) tag 0x1D _ s)

theorem atIndex_val {n i : Nat} {k : Fin n} (h : i = k.val) (act : Fin n → State → State × Reply) (s : State) :
    atIndex i act s = act k s := by rw [atIndex, indexOf_val h]

theorem atIndex_beyond {n i : Nat} (h : n ≤ i) (act : Fin n → State → State × Reply) (s : State) :
    atIndex i act s = (s, .refused .badIndex) := by rw [atIndex, indexOf_beyond h]

section parts
variable (u : TenantId) (s : State)

/-- TENANTRESET in SQ (R120). -/
def resetSq : State := (streamsOf u).foldl (fun x st => resetStream st x) s

/-- TENANTRESET in SQ, CS, and PE with TB. -/
def resetRuns : State := resetChannels u (zeroBudgets u (resetSq u s))

/-- TENANTRESET before the lane is emptied. -/
def resetRecords : State := (streamsOf u).foldl (fun x st => freshenDiscarding st x) (emptyTenantContexts u (resetRuns u s))

/-- TENANTRESET on a tenant. -/
def resetTenant : State := emptyLane (tenantLane u) (resetRecords u s)

theorem doTenantreset_eq : doTenantreset u s = (resetTenant u s, .accepted) := rfl

/-! ### Each block is written by its own stage -/

theorem resetSq_frame : (resetSq u s).tb = s.tb ∧ (resetSq u s).cs = s.cs ∧ (resetSq u s).pe = s.pe ∧ (resetSq u s).rd = s.rd := by
  simp [resetSq, foldl_tb, foldl_cs, foldl_pe, foldl_rd]

theorem resetTenant_tb : (resetTenant u s).tb = (resetRuns u s).tb := by
  simp [resetTenant, resetRecords, foldl_tb]

theorem resetTenant_cs : (resetTenant u s).cs = (zeroBudgets u (resetSq u s)).cs := by
  simp [resetTenant, resetRecords, resetRuns, foldl_cs]

theorem resetTenant_sq : (resetTenant u s).sq = (resetSq u s).sq := by
  simp [resetTenant, resetRecords, resetRuns, foldl_sq]

theorem resetTenant_pe : (resetTenant u s).pe = (resetRuns u s).pe := by
  simp [resetTenant, resetRecords, foldl_pe]

theorem resetTenant_rd : (resetTenant u s).rd = (resetRecords u s).rd := by
  simp [resetTenant]

theorem resetRecords_li : (resetRecords u s).li = s.li := by
  simp [resetRecords, resetRuns, resetSq, foldl_li]

theorem resetRuns_rd : (resetRuns u s).rd = s.rd := by
  obtain ⟨-, -, -, hrd⟩ := resetSq_frame u s
  simp [resetRuns, hrd]

/-! ### Each row after TENANTRESET -/

theorem resetTenant_stream (y : StreamId) :
    (resetTenant u s).stream y = if y.tenant = u then resetOf s.pp (s.stream y) else s.stream y := by
  obtain ⟨-, streams, -⟩ := resetStreams_rows (streamsOf_nodup u) s
  rw [State.stream_of (resetTenant_sq u s), resetSq, streams]
  simp only [mem_streamsOf]

theorem resetTenant_aborts (p : PathId) : (resetTenant u s).sq.aborts[p] = abortsCounted (streamsOf u) s p := by
  obtain ⟨-, -, aborts⟩ := resetStreams_rows (streamsOf_nodup u) s
  rw [resetTenant_sq]
  exact aborts p

theorem resetTenant_plan (p : PathId) : (resetTenant u s).plan p = { s.plan p with used := (s.plan p).used.set u 0 } := by
  obtain ⟨-, hcs, -, -⟩ := resetSq_frame u s
  rw [State.plan_of (resetTenant_cs u s), zeroBudgets_plan, State.plan_of hcs]

theorem resetTenant_channel (y : TenantId) (c : ChannelId) :
    (resetTenant u s).channel y c = if y = u then {} else s.channel y c := by
  obtain ⟨-, -, hpe, -⟩ := resetSq_frame u s
  have before : (zeroBudgets u (resetSq u s)).pe = s.pe := by simp [hpe]
  rw [State.channel_of (resetTenant_pe u s), resetRuns, resetChannels_channel, State.channel_of before]

theorem resetTenant_target (y : TenantId) (c : ChannelId) :
    (resetTenant u s).target y c = if y = u then none else s.target y c := by
  obtain ⟨htb, -, -, -⟩ := resetSq_frame u s
  have before : (zeroBudgets u (resetSq u s)).tb = s.tb := by simp [htb]
  rw [State.target_of (resetTenant_tb u s), resetRuns, resetChannels_target, State.target_of before]

theorem resetTenant_context (p : PathId) (st : StreamId) :
    (resetTenant u s).context p st = if st.tenant = u then none else s.context p st := by
  obtain ⟨-, -, hcontexts⟩ := freshenAll_rows st (emptyTenantContexts u (resetRuns u s)) (streamsOf_nodup u)
  rw [State.context_of (resetTenant_rd u s), State.context, resetRecords, hcontexts]
  refine (emptyTenantContexts_context u (resetRuns u s) p st).trans ?_
  rw [State.context_of (resetRuns_rd u s)]

theorem resetTenant_record (st : StreamId) :
    (resetTenant u s).record st = if st.tenant = u then freshRecord (s.record st) else s.record st := by
  obtain ⟨hrecord, -, -⟩ := freshenAll_rows st (emptyTenantContexts u (resetRuns u s)) (streamsOf_nodup u)
  rw [State.record_of (resetTenant_rd u s), resetRecords, hrecord, emptyTenantContexts_record, State.record_of (resetRuns_rd u s)]
  simp only [mem_streamsOf]

theorem resetTenant_streamCounters (st : StreamId) : (resetTenant u s).rd.streamCounters[streamIdx st] =
    if st.tenant = u then discarding (s.record st) s.rd.streamCounters[streamIdx st] else s.rd.streamCounters[streamIdx st] := by
  obtain ⟨-, hcounters, -⟩ := freshenAll_rows st (emptyTenantContexts u (resetRuns u s)) (streamsOf_nodup u)
  rw [resetTenant_rd, resetRecords, hcounters, emptyTenantContexts_counters, emptyTenantContexts_record,
    State.record_of (resetRuns_rd u s), resetRuns_rd]
  simp only [mem_streamsOf]

theorem resetTenant_lane (k : LaneId) : (resetTenant u s).lane k = if k = tenantLane u then
    { s.lane k with
      queue := []
      counters := { (s.lane k).counters with
        answerLost := satAdd (s.lane k).counters.answerLost ((s.lane k).queue.countP isAnswer) } }
    else s.lane k := by
  rw [resetTenant, emptyLane_lane, State.lane_of (resetRecords_li u s)]

theorem resetTenant_lossFlags (y : TenantId) :
    (resetTenant u s).li.lossFlags[y] = if y = u then false else s.li.lossFlags[y] := by
  rw [resetTenant, emptyLane_lossFlags, resetRecords_li]

theorem resetTenant_clock : (resetTenant u s).tb = { s.tb with compare := (resetTenant u s).tb.compare } := by
  obtain ⟨htb, -, -, -⟩ := resetSq_frame u s
  have before : (zeroBudgets u (resetSq u s)).tb = s.tb := by simp [htb]
  rw [resetTenant_tb, resetRuns, resetChannels_tb, before]

/-- What no stage writes. -/
theorem resetTenant_rest : resetTenant u s = { s with
    tb := (resetTenant u s).tb
    cs := { s.cs with plans := (resetTenant u s).cs.plans }
    sq := { s.sq with streams := (resetTenant u s).sq.streams, aborts := (resetTenant u s).sq.aborts }
    pe := { s.pe with channels := (resetTenant u s).pe.channels }
    rd := { s.rd with
      contexts := (resetTenant u s).rd.contexts, records := (resetTenant u s).rd.records
      streamCounters := (resetTenant u s).rd.streamCounters }
    li := { s.li with lanes := (resetTenant u s).li.lanes, lossFlags := (resetTenant u s).li.lossFlags } } :=
  have h : OnlyAs_doTenantreset s (resetTenant u s) := by
    have frame := doTenantreset_frame u s
    rw [doTenantreset_eq] at frame
    exact frame
  state_ext (by simp [h])

end parts

/-! ### A stream after TENANTRESET, in the words of R120 -/

section words
variable {pp : Vector Port 6} {x : Stream} {m : Message} {rest : List Message}

theorem resetOf_empty (h : x.queue = []) : resetOf pp x = { x with
    dropped := satAdd x.dropped 0, counters := { x.counters with dropsReset := satAdd x.counters.dropsReset 0 } } := by
  rw [resetOf, h]
  simp [emptied, h]

theorem resetOf_cons (h : x.queue = m :: rest) :
    resetOf pp x = emptied (cutStream pp (m.seq.getD 0) m.copyB (cutStream pp (m.seq.getD 0) m.copyA x)) := by
  rw [resetOf, h]
  rfl

theorem resetOf_counters (h : x.queue = m :: rest) : (resetOf pp x).counters = { x.counters with
    cutsReset := satAdd x.counters.cutsReset (cutsOf m), dropsReset := satAdd x.counters.dropsReset x.queue.length } := by
  rw [resetOf_cons h]
  simp [emptied, cutStream, satAdd_satAdd, cutsOf]

theorem resetOf_kept (h : x.queue = m :: rest) :
    (resetOf pp x).queue = [] ∧ (resetOf pp x).seqCounter = x.seqCounter ∧ (resetOf pp x).lastPath = x.lastPath ∧
    (resetOf pp x).admitted = x.admitted ∧ (resetOf pp x).completed = x.completed ∧
    (resetOf pp x).dropped = satAdd x.dropped x.queue.length := by
  rw [resetOf_cons h]
  exact ⟨rfl, rfl, rfl, rfl, rfl, rfl⟩

/-- Some copy of the head owes on the path. -/
def headOwes (pp : Vector Port 6) (p : PathId) (m : Message) : Prop :=
  ∃ c, (m.copyA = some c ∨ m.copyB = some c) ∧ c.state = .launching ∧ c.path = p ∧ 0 < c.nextFrag ∧ pp[p].faultState = .working

theorem owesOn_iff (p : PathId) (c : Option Copy) : owesOn pp p c = true ↔
    ∃ y, c = some y ∧ y.state = .launching ∧ y.path = p ∧ 0 < y.nextFrag ∧ pp[p].faultState = .working := by
  cases c <;> simp [owesOn]

theorem headOwes_iff (p : PathId) : headOwes pp p m ↔ owesOn pp p m.copyB = true ∨ owesOn pp p m.copyA = true := by
  rw [owesOn_iff, owesOn_iff, ← exists_or]
  refine exists_congr fun c => ?_
  rw [← or_and_right, or_comm]

theorem resetOf_owed (h : x.queue = m :: rest) (p : PathId) :
    (headOwes pp p m → (resetOf pp x).owed[p] = some (m.seq.getD 0)) ∧
    (¬headOwes pp p m → (resetOf pp x).owed[p] = x.owed[p]) := by
  have howed : (resetOf pp x).owed[p] = if owesOn pp p m.copyB then some (m.seq.getD 0) else
      if owesOn pp p m.copyA then some (m.seq.getD 0) else x.owed[p] := by
    rw [resetOf_cons h]
    simp [emptied, cutStream]
  rw [howed, headOwes_iff]
  cases owesOn pp p m.copyB <;> cases owesOn pp p m.copyA <;> simp

end words

/-- Settles O46: each block by its own stage. -/
theorem tenantResetClearsTheTenant : Obligations.TenantResetClearsTheTenant := by
  unfold Obligations.TenantResetClearsTheTenant
  intro s tag body hlen v
  have hexec := exec_tenantreset hlen tag s
  refine ⟨fun h => ?_, fun u hu => ?_⟩
  · rw [hexec, atIndex_beyond h]
  · refine ⟨resetTenant u v, ?_, fun st hst => ?_, fun st hst => ?_, fun c => ?_, fun y c hy => ?_, ?_, ?_, fun k hk => ?_, ?_, ?_, ?_⟩
    · rw [hexec, atIndex_val hu, doTenantreset_eq]
    · rw [resetTenant_stream, resetTenant_record, resetTenant_streamCounters, if_neg hst, if_neg hst, if_neg hst]
      refine ⟨rfl, rfl, rfl, fun p => ?_⟩
      rw [resetTenant_context, if_neg hst]
      rfl
    · rw [resetTenant_stream, resetTenant_record, resetTenant_streamCounters, if_pos hst, if_pos hst, if_pos hst]
      refine ⟨fun p => ?_, rfl, rfl, fun hq => resetOf_empty hq, fun m rest hq => ?_⟩
      · rw [resetTenant_context, if_pos hst]
      · obtain ⟨hqueue, hseq, hpath, hadmitted, hcompleted, hdropped⟩ := resetOf_kept (pp := v.pp) hq
        refine ⟨hqueue, hseq, hpath, hadmitted, hcompleted, hdropped, ?_, resetOf_owed hq⟩
        have hcounters := resetOf_counters (pp := v.pp) hq
        rw [cutsOf_eq] at hcounters
        exact hcounters
    · rw [resetTenant_channel, resetTenant_target, if_pos rfl, if_pos rfl]
      exact ⟨rfl, rfl⟩
    · rw [resetTenant_channel, resetTenant_target, if_neg hy, if_neg hy]
      exact ⟨rfl, rfl⟩
    · exact resetTenant_plan u v
    · exact resetTenant_aborts u v
    · rw [resetTenant_lane, if_neg hk]
    · exact resetTenant_lossFlags u v
    · rw [resetTenant_lane, if_pos rfl]
      rfl
    · have rest := resetTenant_rest u v
      rw [resetTenant_clock] at rest
      exact rest

end Sys2Proof.Proofs
end

