-- ==== Sys2Proof/Proofs/Restart.lean ====
section
/-!
RESTART (R167): the paths, hops and probing restarted (R51, R56, R76), and every other block as its chapter states.
-/

namespace Sys2Proof.Proofs

open Sys2Proof.Machine Sys2Proof.Claims Sys2Proof.Safety

/-! ## RS with no message waiting -/

/-- No stream has a message. -/
def NoMessages (s : State) : Prop := ∀ st, (s.stream st).queue = []

theorem NoMessages.of_sq {s t : State} (h : NoMessages s) (hsq : t.sq = s.sq) : NoMessages t := fun st => by
  rw [State.stream_of hsq, h st]

theorem chooseFor_noMessages {s : State} (h : NoMessages s) (fresh : Bool) (st : StreamId) : chooseFor fresh st s = s := by
  simp [chooseFor, headOf, h st]

theorem rechooseAll_noMessages {s : State} (h : NoMessages s) : rechooseAll s = s := by
  unfold rechooseAll rechoose
  induction allStreams with
  | nil => rfl
  | cons a l ih => rw [List.foldl_cons, chooseFor_noMessages h, ih]

/-- A path record that takes a hop condition, with its cost (R87). -/
def conditioned (cond : HopCondition) (r : PathRecord) : PathRecord :=
  { r with hopCond := cond, cost := pathCost { r with hopCond := cond } }

theorem recost_condition (p : PathId) (cond : HopCondition) (s : State) :
    recost p (s.modPath p fun r => { r with hopCond := cond }) = s.modPath p (conditioned cond) := by
  simp only [recost, State.modPath, upd_upd]
  rfl

/-- A hop condition that reaches a path that is OFF, or in PROVING with no latency, moves nothing else. -/
theorem rsHop_idle {p : PathId} {s : State} (h : NoMessages s)
    (hs : (s.path p).state = .off ∨ (s.path p).state = .proving ∧ (s.path p).latency.fresh = false) (cond : HopCondition) :
    rsHop p cond s = s.modPath p (conditioned cond) := by
  have row : (s.modPath p (conditioned cond)).path p = conditioned cond (s.path p) := State.path_modPath_same ..
  have notReady : readyForService (conditioned cond (s.path p)) = false := by
    rcases hs with hs | ⟨_, hf⟩
    · simp [readyForService, conditioned, hs]
    · simp [readyForService, conditioned, hf]
  have notServing : inService (s.path p).state = false := by
    rcases hs with hs | ⟨hs, _⟩ <;> simp [hs, inService]
  have notDown : (conditioned cond (s.path p)).state ≠ .down := by
    rcases hs with hs | ⟨hs, _⟩ <;> simp [hs, conditioned]
  have stays : rechooseIfChanged (s.path p) p (s.modPath p (conditioned cond)) = s.modPath p (conditioned cond) := by
    unfold rechooseIfChanged
    dsimp only
    split
    · rfl
    · exact rechooseAll_noMessages (h.of_sq rfl)
  unfold rsHop
  dsimp only
  rw [recost_condition, row, notReady, if_neg (by simp), notServing, if_neg (by simp), stays, leaveDown, row, if_neg fun k => notDown k.1]

/-! ## The condition of restarted hops (R56, R71, R72) -/

theorem worst_of_lost {l : List Hop} (h : ∀ x ∈ l, x.state = .lost) (w : HopState) :
    l.foldl (fun w x => if worseThan x.state w then x.state else w) w = if l = [] then w else .lost := by
  induction l generalizing w with
  | nil => rfl
  | cons a l ih =>
    rw [List.foldl_cons, ih fun x hx => h x (List.mem_cons_of_mem a hx), h a List.mem_cons_self]
    cases w <;> simp [worseThan, hopRank]

theorem rate_of_unreported {l : List Hop} (h : ∀ x ∈ l, x.unreported = true) (r : Nat) :
    l.foldl (fun r x => min r (hopRate x)) r = if l = [] then r else 0 := by
  induction l generalizing r with
  | nil => rfl
  | cons a l ih =>
    rw [List.foldl_cons, ih fun x hx => h x (List.mem_cons_of_mem a hx)]
    simp [hopRate, h a List.mem_cons_self]

/-- The hops of a path, restarted. -/
def restartedHops (v : Vector Hop 12) : Vector Hop 12 := mapAll v fun _ h => restartHop h

theorem restartedHops_get (v : Vector Hop 12) (h : HopId) : (restartedHops v)[h] = restartHop v[h] := mapAll_get ..

theorem restarted_microwave {cfg : PathSettings} (hk : cfg.kind = .microwave) (hn : 1 ≤ cfg.hopCount) (v : Vector Hop 12) :
    (deriveCondition cfg (restartedHops v)).worst = .lost ∧ (deriveCondition cfg (restartedHops v)).usable = 0 := by
  have hops : ∀ x ∈ pathHops cfg (restartedHops v), x.state = .lost ∧ x.unreported = true := fun x hx => by
    obtain ⟨i, _, rfl⟩ := List.mem_map.mp hx
    rw [restartedHops_get]
    exact ⟨rfl, rfl⟩
  have some_hop : pathHops cfg (restartedHops v) ≠ [] := by
    obtain ⟨n, hn⟩ := Nat.exists_eq_add_of_le' hn
    simp [pathHops, hn, allHops]
  simp only [deriveCondition, worstOf, usableOf, hk]
  rw [worst_of_lost fun x hx => (hops x hx).1, rate_of_unreported fun x hx => (hops x hx).2, if_neg some_hop, if_neg some_hop]
  exact ⟨rfl, rfl⟩

theorem restarted_wireline {cfg : PathSettings} (hk : cfg.kind = .wireline) (hn : cfg.hopCount = 0) (v : Vector Hop 12) :
    (deriveCondition cfg v).worst = .clear ∧ (deriveCondition cfg v).usable = 32 := by
  simp [deriveCondition, worstOf, usableOf, pathHops, hk, hn]

/-! ## One path restarted (R51, R56, R76) -/

/-- A path that is not ON is OFF, with neither latency nor cost. -/
def OffIsSilent (r : PathRecord) : Prop := r.admin = false → r.state = .off ∧ r.latency.value = none ∧ r.cost = none

/-- The record of a restarted path, by its restarted hops. -/
def restartedRecord (v : Vector Hop 12) (r : PathRecord) : PathRecord :=
  if r.admin then { r with state := .proving, latency := {}, hopCond := deriveCondition r.settings (restartedHops v), cost := none }
  else { r with hopCond := deriveCondition r.settings (restartedHops v) }

/-- The probe state of a restarted path: probing starts again where it is ON and its port works. -/
def restartedProbe (works : Bool) (r : PathRecord) (y : PuPath) : PuPath :=
  if r.admin then { y with
    records := [], echoes := [], due := works || y.due
    timer := if works then some (r.settings.probeIntervalMs * 16000000) else y.timer }
  else y

/-- The record of a path before it takes the condition of its restarted hops. -/
def readied (r : PathRecord) : PathRecord :=
  if r.admin then { r with state := .proving, latency := {}, cost := none } else r

/-- Nothing outside the path records, the hop records and the probe states differs. -/
def pathsFrame (s t : State) : Prop := t = { s with
  pu := { s.pu with paths := t.pu.paths }, hs := { s.hs with hops := t.hs.hops }, rs := { s.rs with paths := t.rs.paths } }

theorem pathsFrame_trans {s t u : State} (h : pathsFrame s t) (k : pathsFrame t u) : pathsFrame s u := by
  unfold pathsFrame at h k
  rw [h] at k
  exact k

theorem pathsFrame_sq {s t : State} (h : pathsFrame s t) : t.sq = s.sq := by rw [h]

theorem pathsFrame_pp {s t : State} (h : pathsFrame s t) : t.pp = s.pp := by rw [h]

/-- The blocks that hold no path. -/
theorem pathsFrame_blocks {s t : State} (h : pathsFrame s t) :
    t.pending = s.pending ∧ t.tb = s.tb ∧ t.cs = s.cs ∧ t.pe = s.pe ∧ t.rd = s.rd ∧ t.li = s.li := by
  rw [h]
  exact ⟨rfl, rfl, rfl, rfl, rfl, rfl⟩

theorem modPath_pathsFrame (p : PathId) (f : PathRecord → PathRecord) (s : State) : pathsFrame s (s.modPath p f) := rfl

/-- What a restart of one path writes, with this change of its record. -/
structure PathRestarted (p : PathId) (record : PathRecord → PathRecord) (s t : State) : Prop where
  rest : pathsFrame s t
  hops : ∀ q : PathId, t.hs.hops[q] = if q = p then restartedHops s.hs.hops[q] else s.hs.hops[q]
  probes : ∀ q, t.puPath q =
    if q = p then restartedProbe (decide ((s.port q).faultState = .working)) (s.path q) (s.puPath q) else s.puPath q
  paths : ∀ q, t.path q = if q = p then record (s.path q) else s.path q

section path
variable {p : PathId} {s : State}

theorem conditioned_silent {cond : HopCondition} {r : PathRecord} (hv : r.latency.value = none) (hc : r.cost = none) :
    conditioned cond r = { r with hopCond := cond } := by
  simp [conditioned, pathCost, hv, hc]

/-- The hops of the path restarted, before its record is. -/
def hopsRestarted (p : PathId) (s : State) : State := modHops p restartHop s

theorem hopsRestarted_hops (q : PathId) :
    (hopsRestarted p s).hs.hops[q] = if q = p then restartedHops s.hs.hops[q] else s.hs.hops[q] := by
  refine (upd_get ..).trans ?_
  split
  · next h => rw [h]; rfl
  · rfl

/-- PU starts probing again on a path that goes to PROVING. -/
theorem startProbing_path (q : PathId) : (startProbing p (setPathState p .proving s)).path q =
    if q = p then { s.path q with state := .proving, latency := {}, cost := none } else s.path q := by
  have kept : (startProbing p (setPathState p .proving s)).rs.paths = (clearLatency p (setPathState p .proving s)).rs.paths := by
    simp [startProbing]
  rw [State.path_of kept, clearLatency, State.path_modPath, setPathState, State.path_modPath, State.path_modPath, if_pos rfl]
  split
  · next h => rw [h]
  · rfl

theorem startProbing_puPath (q : PathId) : (startProbing p s).puPath q = if q = p then
      { s.puPath q with
        records := [], echoes := [], due := decide ((s.port q).faultState = .working) || (s.puPath q).due
        timer := if (s.port q).faultState = .working then some ((s.path q).settings.probeIntervalMs * 16000000)
          else (s.puPath q).timer }
    else s.puPath q := by
  have interval : probeInterval ((clearLatency p s).modPu p fun x => { x with records := [], echoes := [] }) p =
      (s.path p).settings.probeIntervalMs * 16000000 := by
    have row : ((clearLatency p s).path p).settings = (s.path p).settings := by rw [clearLatency, State.path_modPath_same]
    rw [← row]
    rfl
  have cleared : ((clearLatency p s).modPu p fun x => { x with records := [], echoes := [] }).puPath q =
      if q = p then { s.puPath q with records := [], echoes := [] } else s.puPath q := by
    refine (State.puPath_modPu ..).trans ?_
    split
    · next h => subst h; rfl
    · rfl
  have port : ((clearLatency p s).modPu p fun x => { x with records := [], echoes := [] }).port p = s.port p := rfl
  unfold startProbing makeDue
  dsimp only
  rw [interval, port]
  by_cases hq : q = p
  · subst hq
    rw [if_pos rfl] at cleared ⊢
    split
    · rw [State.puPath_modPu_same, cleared]
      simp [*]
    · rw [cleared]
      simp [*]
  · rw [if_neg hq] at cleared ⊢
    split
    · rw [State.puPath_modPu, if_neg hq, cleared]
    · exact cleared

/-- The state before the path takes its condition. -/
def pathReadied (p : PathId) (s : State) : State :=
  if (s.path p).admin then startProbing p (setPathState p .proving (hopsRestarted p s)) else hopsRestarted p s

theorem pathReadied_restarted : PathRestarted p readied s (pathReadied p s) := by
  unfold pathReadied
  split
  · next hon =>
    refine ⟨?_, fun q => ?_, fun q => ?_, fun q => ?_⟩
    · exact state_ext (by simp [hopsRestarted])
    · have same : (startProbing p (setPathState p .proving (hopsRestarted p s))).hs = (hopsRestarted p s).hs := by simp
      rw [same, hopsRestarted_hops]
    · rw [startProbing_puPath]
      split
      · next h =>
        subst h
        have settings : ((setPathState q .proving (hopsRestarted q s)).path q).settings = (s.path q).settings := by
          rw [setPathState, State.path_modPath_same]
          rfl
        rw [settings, restartedProbe, if_pos hon]
        simp only [decide_eq_true_eq]
        rfl
      · rfl
    · rw [startProbing_path]
      split
      · next h =>
        subst h
        rw [readied, if_pos hon]
        rfl
      · rfl
  · next hoff =>
    refine ⟨rfl, hopsRestarted_hops, fun q => ?_, fun q => ?_⟩
    · split
      · next h =>
        subst h
        rw [restartedProbe, if_neg hoff]
        rfl
      · rfl
    · split
      · next h =>
        subst h
        rw [readied, if_neg hoff]
        rfl
      · rfl

theorem restartPath_eq : restartPath p s = handCondition p (pathReadied p s) := rfl

theorem readied_idle {r : PathRecord} (h : OffIsSilent r) :
    (readied r).state = .off ∨ (readied r).state = .proving ∧ (readied r).latency.fresh = false := by
  unfold readied
  split
  · exact .inr ⟨rfl, rfl⟩
  · next hoff => exact .inl (h (by simpa using hoff)).1

theorem conditioned_readied {r : PathRecord} (h : OffIsSilent r) (v : Vector Hop 12) :
    conditioned (deriveCondition r.settings (restartedHops v)) (readied r) = restartedRecord v r := by
  unfold readied restartedRecord
  split
  · exact conditioned_silent rfl rfl
  · next hoff =>
    obtain ⟨-, hvalue, hcost⟩ := h (by simpa using hoff)
    exact conditioned_silent hvalue hcost

theorem restartedRecord_silent {r : PathRecord} (h : OffIsSilent r) (v : Vector Hop 12) : OffIsSilent (restartedRecord v r) := by
  unfold restartedRecord
  split
  · next hon => exact fun hoff => absurd (hon.symm.trans hoff) (by decide)
  · exact h

theorem restartPath_restarted (h : NoMessages s) (hp : OffIsSilent (s.path p)) :
    PathRestarted p (restartedRecord s.hs.hops[p]) s (restartPath p s) := by
  obtain ⟨rest, hops, probes, paths⟩ := pathReadied_restarted (p := p) (s := s)
  have row : (pathReadied p s).path p = readied (s.path p) := by rw [paths, if_pos rfl]
  have settings : ((pathReadied p s).path p).settings = (s.path p).settings := by
    rw [row, readied]
    split <;> rfl
  have idle : ((pathReadied p s).path p).state = .off ∨
      ((pathReadied p s).path p).state = .proving ∧ ((pathReadied p s).path p).latency.fresh = false := by
    rw [row]
    exact readied_idle hp
  have condition : (pathReadied p s).condition p = deriveCondition (s.path p).settings (restartedHops s.hs.hops[p]) := by
    rw [State.condition, settings, hops, if_pos rfl]
  have eq : restartPath p s = (pathReadied p s).modPath p (conditioned ((pathReadied p s).condition p)) :=
    restartPath_eq.trans (rsHop_idle (h.of_sq (pathsFrame_sq rest)) idle _)
  rw [eq, condition]
  refine ⟨?_, hops, probes, fun q => ?_⟩
  · exact pathsFrame_trans rest (modPath_pathsFrame ..)
  · rw [State.path_modPath, row, conditioned_readied hp]
    split
    · next e => rw [e]
    · next e => rw [paths, if_neg e]

end path

/-! ## Every path restarted -/

section paths
variable {s : State}

/-- What a restart of some paths writes. -/
structure PathsRestarted (l : List PathId) (s t : State) : Prop where
  rest : pathsFrame s t
  hops : ∀ q : PathId, t.hs.hops[q] = if q ∈ l then restartedHops s.hs.hops[q] else s.hs.hops[q]
  probes : ∀ q, t.puPath q =
    if q ∈ l then restartedProbe (decide ((s.port q).faultState = .working)) (s.path q) (s.puPath q) else s.puPath q
  paths : ∀ q, t.path q = if q ∈ l then restartedRecord s.hs.hops[q] (s.path q) else s.path q

theorem restartPaths_restarted {l : List PathId} (hl : l.Nodup) (h : NoMessages s) (hp : ∀ p, OffIsSilent (s.path p)) :
    PathsRestarted l s (l.foldl (fun x p => restartPath p x) s) := by
  induction l generalizing s with
  | nil => exact ⟨rfl, fun q => by simp, fun q => by simp, fun q => by simp⟩
  | cons a l ih =>
    obtain ⟨ha, hl⟩ := List.nodup_cons.mp hl
    obtain ⟨rest, hops, probes, paths⟩ := restartPath_restarted h (hp a)
    rw [List.foldl_cons]
    generalize restartPath a s = u at rest hops probes paths ⊢
    have hport (q : PathId) : u.port q = s.port q := State.port_of (pathsFrame_pp rest) q
    have silent (q : PathId) : OffIsSilent (u.path q) := by
      rw [paths]
      split
      · exact restartedRecord_silent (hp q) _
      · exact hp q
    obtain ⟨rest', hops', probes', paths'⟩ := ih hl (h.of_sq (pathsFrame_sq rest)) silent
    refine ⟨pathsFrame_trans rest rest', fun q => ?_, fun q => ?_, fun q => ?_⟩
    · rw [hops', hops]
      by_cases hq : q = a
      · subst hq; simp [ha]
      · simp [hq]
    · rw [probes', probes, paths, hport]
      by_cases hq : q = a
      · subst hq; simp [ha]
      · simp [hq]
    · rw [paths', paths, hops]
      by_cases hq : q = a
      · subst hq; simp [ha]
      · simp [hq]

end paths

/-! ## RESTART of the other blocks -/

section blocks
variable (s : State)

/-- RESTART in SQ, and in PE with TB (R33, R107, R143). -/
def blocksRestarted : State :=
  { s with sq := {}, pe := { s.pe with channels := .replicate 32 {} }, tb := { s.tb with compare := .replicate 32 none } }

/-- RESTART before the paths. -/
def beforePaths : State := restartRd (zeroAllBudgets (restartPu (blocksRestarted s)))

/-- RESTART before the lanes. -/
def pathsRestarted : State := allPaths.foldl (fun x p => restartPath p x) (beforePaths s)

/-- RESTART of every block. -/
def restarted : State := zeroCounters (emptyLanes (pathsRestarted s))

theorem doRestart_eq : doRestart () s = (restarted s, .accepted) := rfl

/-- RD and CS leave what the paths need. -/
theorem beforePaths_frame : (beforePaths s).pending = s.pending ∧ (beforePaths s).pp = s.pp ∧
    (beforePaths s).tb = (blocksRestarted s).tb ∧ (beforePaths s).pu = (restartPu (blocksRestarted s)).pu ∧
    (beforePaths s).hs = s.hs ∧ (beforePaths s).rs = s.rs ∧ (beforePaths s).sq = {} ∧ (beforePaths s).pe = (blocksRestarted s).pe ∧
    (beforePaths s).li = s.li := by
  simp [beforePaths, blocksRestarted]

/-- RESTART before RD. -/
def beforeRd : State := zeroAllBudgets (restartPu (blocksRestarted s))

theorem beforeRd_rd : (beforeRd s).rd = s.rd := by
  simp [beforeRd, blocksRestarted]

theorem beforePaths_record (st : StreamId) : (beforePaths s).record st = freshRecord (s.record st) := by
  obtain ⟨hrecord, -, -⟩ := freshenAll_rows st (emptyAllContexts (beforeRd s)) allStreams_nodup
  have kept : (emptyAllContexts (beforeRd s)).record st = (beforeRd s).record st := by simp [State.record]
  rw [if_pos (mem_allStreams st), kept, State.record_of (beforeRd_rd s)] at hrecord
  exact hrecord

theorem beforePaths_context (p : PathId) (st : StreamId) : (beforePaths s).context p st = none := by
  obtain ⟨-, -, hcontexts⟩ := freshenAll_rows st (emptyAllContexts (beforeRd s)) allStreams_nodup
  have row : (emptyAllContexts (beforeRd s)).rd.contexts[ctxIdx p st] = none := replicate_get ..
  rw [← hcontexts] at row
  exact row

theorem beforePaths_puPath (p : PathId) :
    (beforePaths s).puPath p = { s.puPath p with number := 0, records := [], echoes := [] } := by
  obtain ⟨-, -, -, hpu, -⟩ := beforePaths_frame s
  rw [State.puPath_of hpu]
  exact mapAll_get ..

theorem beforePaths_plan (p : PathId) : (beforePaths s).plan p = { s.plan p with used := .replicate 8 0 } := by
  have kept : (beforePaths s).cs = (zeroAllBudgets (restartPu (blocksRestarted s))).cs := by simp [beforePaths]
  rw [State.plan_of kept]
  refine (mapAll_get ..).trans ?_
  rfl

theorem beforePaths_noMessages : NoMessages (beforePaths s) := fun st => by
  obtain ⟨-, -, -, -, -, -, hsq, -⟩ := beforePaths_frame s
  rw [State.stream, hsq]
  exact congrArg Stream.queue (replicate_get ..)

variable {s}

theorem offIsSilent_of_pathOk {p : PathId} (h : PathOk s p) : OffIsSilent (s.path p) := fun hoff => by
  have off := h.admin.mpr hoff
  have absent := h.absent (.inl off)
  refine ⟨off, absent, ?_⟩
  rw [h.cost, pathCost, absent]

/-- Every path is restarted from the state before. -/
theorem pathsRestarted_restarted (h : PathsOk s) : PathsRestarted allPaths (beforePaths s) (pathsRestarted s) := by
  obtain ⟨-, -, -, -, -, hrs, -⟩ := beforePaths_frame s
  refine restartPaths_restarted (by decide) (beforePaths_noMessages s) fun p => ?_
  rw [State.path_of (congrArg RouteSelector.paths hrs)]
  exact offIsSilent_of_pathOk (h p)

/-! ### The paths after RESTART -/

theorem restarted_path (h : PathsOk s) (p : PathId) : (restarted s).path p = restartedRecord s.hs.hops[p] (s.path p) := by
  obtain ⟨-, -, -, -, hhs, hrs, -⟩ := beforePaths_frame s
  have kept : (restarted s).rs.paths = (pathsRestarted s).rs.paths := by simp [restarted]
  rw [State.path_of kept, (pathsRestarted_restarted h).paths, if_pos (mem_allPaths p), hhs,
    State.path_of (congrArg RouteSelector.paths hrs)]

theorem restarted_hops (h : PathsOk s) (p : PathId) : (restarted s).hs.hops[p] = restartedHops s.hs.hops[p] := by
  obtain ⟨-, -, -, -, hhs, -⟩ := beforePaths_frame s
  have kept : (restarted s).hs.hops = (pathsRestarted s).hs.hops := by simp [restarted]
  rw [kept, (pathsRestarted_restarted h).hops, if_pos (mem_allPaths p), hhs]

theorem restarted_hop (h : PathsOk s) (p : PathId) (i : HopId) : (restarted s).hop p i = restartHop (s.hop p i) := by
  rw [State.hop, restarted_hops h, restartedHops_get]
  rfl

theorem restarted_condition (h : PathsOk s) (p : PathId) :
    (restarted s).condition p = deriveCondition (s.path p).settings (restartedHops s.hs.hops[p]) := by
  rw [State.condition, restarted_path h, restarted_hops h, restartedRecord]
  split <;> rfl

theorem restarted_hopCond (h : PathsOk s) (p : PathId) :
    ((restarted s).path p).hopCond = deriveCondition (s.path p).settings (restartedHops s.hs.hops[p]) := by
  rw [restarted_path h, restartedRecord]
  split <;> rfl

theorem hopCount_microwave {p : PathId} (h : PathOk s p) (hk : (s.path p).settings.kind = .microwave) :
    1 ≤ (s.path p).settings.hopCount := by
  obtain ⟨⟨_, hn, _⟩ | ⟨hw, _⟩, _⟩ := h.settings
  · exact hn
  · exact absurd (hk.symm.trans hw) (by decide)

theorem hopCount_wireline {p : PathId} (h : PathOk s p) (hk : (s.path p).settings.kind = .wireline) :
    (s.path p).settings.hopCount = 0 := by
  obtain ⟨⟨hm, _⟩ | ⟨_, hn⟩, _⟩ := h.settings
  · exact absurd (hk.symm.trans hm) (by decide)
  · exact hn

/-- Probing starts again on a path that is ON, and an OFF or faulted path has had none. -/
theorem restartedProbe_of_pathOk {p : PathId} (h : PathOk s p) :
    { restartedProbe (decide ((s.port p).faultState = .working)) (s.path p)
      { s.puPath p with number := 0, records := [], echoes := [] } with counters := {} } =
    { number := 0, records := [], echoes := [], counters := {},
      due := (s.path p).admin && decide ((s.port p).faultState = .working),
      timer := if (s.path p).admin = true ∧ (s.port p).faultState = .working then
        some ((s.path p).settings.probeIntervalMs * 16000000) else none : PuPath } := by
  cases hadmin : (s.path p).admin
  · obtain ⟨-, -, hdue, htimer⟩ := h.silent (h.admin.mpr hadmin)
    simp [restartedProbe, hadmin, hdue, htimer]
  · by_cases hworks : (s.port p).faultState = .working
    · simp [restartedProbe, hadmin, hworks]
    · have hfault : (s.port p).faultState = .fault := by
        cases hf : (s.port p).faultState
        · exact absurd hf hworks
        · rfl
      obtain ⟨-, hdue, htimer⟩ := h.faulted hfault
      simp [restartedProbe, hadmin, hworks, hdue, htimer]

theorem restarted_puPath (h : PathsOk s) (p : PathId) :
    (restarted s).puPath p = { restartedProbe (decide ((s.port p).faultState = .working)) (s.path p)
      { s.puPath p with number := 0, records := [], echoes := [] } with counters := {} } := by
  obtain ⟨-, hpp, -, -, -, hrs, -⟩ := beforePaths_frame s
  have kept : (emptyLanes (pathsRestarted s)).pu = (pathsRestarted s).pu := by simp
  rw [restarted, zeroCounters_puPath, State.puPath_of kept, (pathsRestarted_restarted h).probes, if_pos (mem_allPaths p),
    State.port_of hpp, State.path_of (congrArg RouteSelector.paths hrs), beforePaths_puPath]

/-! ### The other blocks after RESTART -/

theorem restarted_pending (h : PathsOk s) : (restarted s).pending = s.pending := by
  obtain ⟨hpending, -⟩ := beforePaths_frame s
  obtain ⟨hkept, -⟩ := pathsFrame_blocks (pathsRestarted_restarted h).rest
  simp [restarted, hkept, hpending]

theorem restarted_port (h : PathsOk s) (p : PathId) : (restarted s).port p = { s.port p with counters := {} } := by
  obtain ⟨-, hpp, -⟩ := beforePaths_frame s
  have kept : (emptyLanes (pathsRestarted s)).pp = s.pp := by
    simp [pathsFrame_pp (pathsRestarted_restarted h).rest, hpp]
  rw [restarted, zeroCounters_port, State.port_of kept]

theorem restarted_tb (h : PathsOk s) : (restarted s).tb = { s.tb with counters := {}, compare := .replicate 32 none } := by
  obtain ⟨-, -, htb, -⟩ := beforePaths_frame s
  obtain ⟨-, hkept, -⟩ := pathsFrame_blocks (pathsRestarted_restarted h).rest
  have kept : (emptyLanes (pathsRestarted s)).tb = (blocksRestarted s).tb := by simp [hkept, htb]
  rw [restarted, zeroCounters]
  dsimp only
  rw [kept]
  rfl

theorem restarted_target (h : PathsOk s) (u : TenantId) (c : ChannelId) : (restarted s).target u c = none := by
  rw [State.target, restarted_tb h]
  exact replicate_get ..

theorem restarted_marks (h : PathsOk s) : (restarted s).pu.startMark = some (freshMark s) ∧ (restarted s).pu.peerMark = none ∧
    (restarted s).pu.peerRestarts = 0 := by
  obtain ⟨-, -, -, hpu, -⟩ := beforePaths_frame s
  have rest := (pathsRestarted_restarted h).rest
  have kept : (pathsRestarted s).pu.startMark = (beforePaths s).pu.startMark ∧
      (pathsRestarted s).pu.peerMark = (beforePaths s).pu.peerMark := by
    rw [rest]
    exact ⟨rfl, rfl⟩
  rw [hpu] at kept
  obtain ⟨hstart, hpeer⟩ := kept
  refine ⟨?_, ?_, rfl⟩
  · simp [restarted, hstart]
    rfl
  · simp [restarted, hpeer]
    rfl

theorem restarted_leak (h : PathsOk s) : (restarted s).hs.leakPeriodMs = s.hs.leakPeriodMs ∧
    (restarted s).hs.leakTimer = s.hs.leakTimer := by
  obtain ⟨-, -, -, -, hhs, -⟩ := beforePaths_frame s
  have kept : (pathsRestarted s).hs.leakPeriodMs = (beforePaths s).hs.leakPeriodMs ∧
      (pathsRestarted s).hs.leakTimer = (beforePaths s).hs.leakTimer := by
    rw [(pathsRestarted_restarted h).rest]
    exact ⟨rfl, rfl⟩
  rw [hhs] at kept
  obtain ⟨hperiod, htimer⟩ := kept
  simp [restarted, hperiod, htimer]

theorem restarted_plan (h : PathsOk s) (p : PathId) :
    (restarted s).plan p = { s.plan p with counters := {}, used := .replicate 8 0 } := by
  obtain ⟨-, -, hcs, -⟩ := pathsFrame_blocks (pathsRestarted_restarted h).rest
  have kept : (emptyLanes (pathsRestarted s)).cs = (beforePaths s).cs := by simp [hcs]
  rw [restarted, zeroCounters_plan, State.plan_of kept, beforePaths_plan]

theorem restarted_cs (h : PathsOk s) : (restarted s).cs = { s.cs with plans := (restarted s).cs.plans, windows := 0 } := by
  obtain ⟨-, -, hcs, -⟩ := pathsFrame_blocks (pathsRestarted_restarted h).rest
  have kept : (emptyLanes (pathsRestarted s)).cs = (beforePaths s).cs := by simp [hcs]
  have before : (beforePaths s).cs = { s.cs with plans := (beforePaths s).cs.plans } := by
    simp [beforePaths, zeroAllBudgets, restartPu, blocksRestarted]
  rw [restarted, zeroCounters]
  dsimp only
  rw [kept, before]

theorem restarted_sq (h : PathsOk s) : (restarted s).sq = State.reset.sq := by
  obtain ⟨-, -, -, -, -, -, hsq, -⟩ := beforePaths_frame s
  have kept : (emptyLanes (pathsRestarted s)).sq = {} := by simp [pathsFrame_sq (pathsRestarted_restarted h).rest, hsq]
  have streams : mapAll (Vector.replicate 24 ({} : Stream)) (fun _ x => { x with counters := {} }) = .replicate 24 {} :=
    Vector.ext fun i hi => by simp [mapAll]
  rw [restarted, zeroCounters]
  dsimp only
  rw [kept]
  dsimp only
  rw [streams]
  rfl

theorem restarted_pe (h : PathsOk s) : (restarted s).pe =
    { s.pe with channels := .replicate 32 {}, counters := .replicate 8 {}, storeFaults := 0 } := by
  obtain ⟨-, -, -, -, -, -, -, hpe, -⟩ := beforePaths_frame s
  obtain ⟨-, -, -, hkept, -⟩ := pathsFrame_blocks (pathsRestarted_restarted h).rest
  have kept : (emptyLanes (pathsRestarted s)).pe = (blocksRestarted s).pe := by simp [hkept, hpe]
  rw [restarted, zeroCounters]
  dsimp only
  rw [kept]
  rfl

theorem restarted_context (h : PathsOk s) (p : PathId) (st : StreamId) : (restarted s).context p st = none := by
  obtain ⟨-, -, -, -, hrd, -⟩ := pathsFrame_blocks (pathsRestarted_restarted h).rest
  have row := beforePaths_context s p st
  rw [State.context, ← hrd] at row
  rw [State.context]
  simpa [restarted] using row

theorem restarted_record (h : PathsOk s) (st : StreamId) : (restarted s).record st = freshRecord (s.record st) := by
  obtain ⟨-, -, -, -, hrd, -⟩ := pathsFrame_blocks (pathsRestarted_restarted h).rest
  have row := beforePaths_record s st
  rw [State.record, ← hrd] at row
  rw [State.record]
  simpa [restarted] using row

theorem emptyLanes_lane (x : State) (l : LaneId) : (emptyLanes x).lane l = { x.lane l with queue := [] } := by
  simp only [State.lane, emptyLanes, mapAll_get]

theorem emptyLanes_lossFlags (x : State) (u : TenantId) : (emptyLanes x).li.lossFlags[u] = false := replicate_get ..

theorem restarted_li (h : PathsOk s) : (restarted s).li.tenants = s.li.tenants ∧
    (∀ u : TenantId, (restarted s).li.lossFlags[u] = false) ∧
    ∀ l, (restarted s).lane l = { s.lane l with queue := [], counters := {} } := by
  obtain ⟨-, -, -, -, -, -, -, -, hli⟩ := beforePaths_frame s
  obtain ⟨-, -, -, -, -, hkept⟩ := pathsFrame_blocks (pathsRestarted_restarted h).rest
  refine ⟨by simp [restarted, hkept, hli], fun u => ?_, fun l => ?_⟩
  · have row : (emptyLanes (pathsRestarted s)).li.lossFlags[u] = false := emptyLanes_lossFlags ..
    have kept : (restarted s).li.lossFlags = (emptyLanes (pathsRestarted s)).li.lossFlags := by simp [restarted]
    rw [kept, row]
  · have row : (emptyLanes (pathsRestarted s)).lane l = { (pathsRestarted s).lane l with queue := [] } := emptyLanes_lane ..
    rw [restarted, zeroCounters_lane, row, State.lane_of (hkept.trans hli)]

end blocks

/-- RESTART on the management lane passes every test of a request. -/
theorem exec_restart (s : State) (tag : Tag) : exec (.restart mgmtLane tag []) s =
    .next (answer mgmtLane tag 0x22 .accepted (restarted (countRequest mgmtLane s))) := by
  have served := operatorRequest_mgmt (parsed := parseEmpty []) rfl tag 0x22 doRestart s
  rw [doRestart_eq] at served
  rw [exec, execRestart, served]

/-- The invariant of a path speaks of its record, its port and its probe state. -/
theorem pathOk_of_rows {s t : State} {p : PathId} (hpath : t.path p = s.path p) (hport : t.port p = s.port p)
    (hprobe : t.puPath p = s.puPath p) (h : PathOk s p) : PathOk t p where
  settings := by rw [hpath]; exact h.settings
  admin := by rw [hpath]; exact h.admin
  port := by rw [hpath, hport]; exact h.port
  fresh := by rw [hpath]; exact h.fresh
  absent := by rw [hpath]; exact h.absent
  cost := by rw [hpath]; exact h.cost
  serving := by rw [hpath]; exact h.serving
  proving := by rw [hpath]; exact h.proving
  silent := by rw [hpath, hprobe]; exact h.silent
  faulted := by rw [hport, hprobe]; exact h.faulted

theorem countRequest_pathsOk (l : LaneId) {s : State} (h : PathsOk s) : PathsOk (countRequest l s) := fun p =>
  pathOk_of_rows (State.path_of (by simp) p) (State.port_of (by simp) p) (State.puPath_of (by simp) p) (h p)

/-- Settles O49: each block by its own stage. -/
theorem restartActsInEveryBlock : Obligations.RestartActsInEveryBlock := by
  unfold Obligations.RestartActsInEveryBlock
  intro s tag hs
  have h : PathsOk (countRequest mgmtLane s) := countRequest_pathsOk mgmtLane hs
  obtain ⟨htenants, hflags, hlanes⟩ := restarted_li h
  refine ⟨restarted (countRequest mgmtLane s), exec_restart s tag, restarted_pending h, restarted_port h, ?_, restarted_target h,
    restarted_marks h, fun p => ?_, restarted_hop h, ⟨?_, ?_, zeroCounters_hsCounters _⟩, fun p hoff => ?_, fun p hon => ?_,
    fun p => ⟨fun hk => ?_, fun hk => ?_⟩, ⟨rfl, zeroCounters_rsCounters _⟩, restarted_plan h, restarted_cs h, restarted_sq h,
    fun u c => ?_, zeroCounters_peCounters _, ?_, restarted_context h, zeroCounters_pathCounters _, zeroCounters_streamCounters _,
    restarted_record h, htenants, hflags, fun l => ?_⟩
  · rw [restarted_tb h]
    rfl
  · rw [restarted_puPath h]
    exact restartedProbe_of_pathOk (h p)
  · exact (restarted_leak h).1
  · exact (restarted_leak h).2
  · rw [restarted_condition h, restarted_path h]
    exact if_neg fun k => absurd (hoff.symm.trans k) (by decide)
  · rw [restarted_condition h, restarted_path h]
    exact if_pos hon
  · rw [restarted_hopCond h]
    exact restarted_microwave hk (hopCount_microwave (hs p) hk) _
  · rw [restarted_hopCond h]
    exact restarted_wireline hk (hopCount_wireline (hs p) hk) _
  · rw [State.channel, restarted_pe h]
    exact replicate_get ..
  · rw [restarted_pe h]
    rfl
  · have lane := congrArg (fun x : Lane => { x with queue := [] }) (countRequest_lane mgmtLane l s)
    rw [hlanes]
    exact lane

end Sys2Proof.Proofs
end

