-- ==== Sys2Proof/Proofs/HopConditions.lean ====
section
/-!
The hop condition that RS holds of a path that is ON is the one its hops give (R71, R72). What RS does with any input but a hop
condition leaves it; what changes the hops of a path either leaves what they give or ends with a hand-over.
-/

namespace Sys2Proof.Proofs

open Sys2Proof.Machine Sys2Proof.Safety

/-! ## What a condition reads of the hops (R71, R72) -/

/-- A hop record with only the fields that a condition reads. -/
def readHop (x : Hop) : Hop :=
  { state := x.state, unreported := x.unreported, rateStep := x.rateStep, overFlag := x.overFlag, tagged := x.tagged }

/-- The condition of a path whose hops, below its hop count, are these. -/
def conditionOf (cfg : PathSettings) (l : List Hop) : HopCondition :=
  { worst := worstOf l, usable := usableOf cfg l, inWatch := l.countP (·.state = .watch),
    inFading := l.countP (·.state = .fading), overCount := l.countP (·.overFlag), tagged := l.countP (·.tagged) }

theorem deriveCondition_eq (cfg : PathSettings) (v : Vector Hop 12) :
    deriveCondition cfg v = conditionOf cfg (pathHops cfg v) := rfl

theorem worstOf_readHop (l : List Hop) : worstOf (l.map readHop) = worstOf l := by
  rw [worstOf, List.foldl_map]
  rfl

theorem usableOf_readHop (cfg : PathSettings) (l : List Hop) : usableOf cfg (l.map readHop) = usableOf cfg l := by
  rw [usableOf, List.foldl_map]
  rfl

theorem conditionOf_readHop (cfg : PathSettings) (l : List Hop) : conditionOf cfg (l.map readHop) = conditionOf cfg l := by
  simp only [conditionOf, worstOf_readHop, usableOf_readHop, List.countP_map]
  rfl

theorem val_lt_of_mem_take {n : Nat} {i : HopId} (h : i ∈ allHops.take n) : i.val < n := by
  have place : ∀ k : Fin allHops.length, (allHops[k]).val = k.val := by decide
  obtain ⟨k, hk, rfl⟩ := List.mem_take_iff_getElem.mp h
  have : (allHops[k]).val = k := place ⟨k, by omega⟩
  omega

/-- Only the read fields of the hops below the hop count make the condition. -/
theorem deriveCondition_congr {cfg : PathSettings} {v w : Vector Hop 12}
    (h : ∀ i : HopId, i.val < cfg.hopCount → readHop v[i] = readHop w[i]) : deriveCondition cfg v = deriveCondition cfg w := by
  have same : (pathHops cfg v).map readHop = (pathHops cfg w).map readHop := by
    simp only [pathHops, List.map_map]
    exact List.map_congr_left fun i hi => h i (val_lt_of_mem_take hi)
  rw [deriveCondition_eq, deriveCondition_eq, ← conditionOf_readHop, same, conditionOf_readHop]

/-! ## What stands of a path -/

/-- The record of a path and the condition its hops give stand, as far as the invariant reads them. -/
structure SameAt (q : PathId) (s t : State) : Prop where
  settings : (t.path q).settings = (s.path q).settings
  admin : (t.path q).admin = (s.path q).admin
  held : (t.path q).hopCond = (s.path q).hopCond
  given : t.condition q = s.condition q

/-- This stands of every path. -/
def KeepsConditions (s t : State) : Prop := ∀ q, SameAt q s t

/-- This stands of every path but one. -/
def KeepsOthers (p : PathId) (s t : State) : Prop := ∀ q, q ≠ p → SameAt q s t

section relations
variable {p q : PathId} {s t u : State}

theorem SameAt.trans (h : SameAt q s t) (k : SameAt q t u) : SameAt q s u :=
  ⟨k.settings.trans h.settings, k.admin.trans h.admin, k.held.trans h.held, k.given.trans h.given⟩

theorem SameAt.of_rows (hpath : t.path q = s.path q) (hhops : t.hs.hops[q] = s.hs.hops[q]) : SameAt q s t :=
  ⟨by rw [hpath], by rw [hpath], by rw [hpath], by rw [State.condition, hpath, hhops]; rfl⟩

theorem SameAt.conditionOk (h : SameAt q s t) (k : (s.path q).admin = true → (s.path q).hopCond = s.condition q)
    (hon : (t.path q).admin = true) : (t.path q).hopCond = t.condition q := by
  rw [h.held, h.given]
  exact k (h.admin ▸ hon)

theorem KeepsConditions.trans (h : KeepsConditions s t) (k : KeepsConditions t u) : KeepsConditions s u :=
  fun q => (h q).trans (k q)

theorem KeepsConditions.of_rows (hpaths : t.rs.paths = s.rs.paths) (hhops : t.hs.hops = s.hs.hops) : KeepsConditions s t :=
  fun q => .of_rows (State.path_of hpaths q) (by rw [hhops])

theorem KeepsConditions.refl (s : State) : KeepsConditions s s := .of_rows rfl rfl

theorem KeepsConditions.conditionsOk (h : KeepsConditions s t) (k : ConditionsOk s) : ConditionsOk t :=
  fun q => (h q).conditionOk (k q)

theorem conditionsOk_of_rows (hpaths : t.rs.paths = s.rs.paths) (hhops : t.hs.hops = s.hs.hops) (k : ConditionsOk s) :
    ConditionsOk t := (KeepsConditions.of_rows hpaths hhops).conditionsOk k

theorem conditionsOk_ignoresOutput : IgnoresOutput ConditionsOk := fun _ _ h => conditionsOk_of_rows (by simp [h]) (by simp [h])

theorem KeepsConditions.others (h : KeepsConditions s t) : KeepsOthers p s t := fun q _ => h q

theorem KeepsOthers.trans (h : KeepsOthers p s t) (k : KeepsOthers p t u) : KeepsOthers p s u :=
  fun q hq => (h q hq).trans (k q hq)

theorem modPath_keeps (s : State) (p : PathId) {f : PathRecord → PathRecord} (hs : ∀ r, (f r).settings = r.settings)
    (ha : ∀ r, (f r).admin = r.admin) (hc : ∀ r, (f r).hopCond = r.hopCond) : KeepsConditions s (s.modPath p f) := fun q => by
  have row : ((s.modPath p f).path q).settings = (s.path q).settings ∧ ((s.modPath p f).path q).admin = (s.path q).admin ∧
      ((s.modPath p f).path q).hopCond = (s.path q).hopCond := by
    rw [State.path_modPath]
    split
    · next e => rw [e]; exact ⟨hs _, ha _, hc _⟩
    · exact ⟨rfl, rfl, rfl⟩
  obtain ⟨settings, admin, held⟩ := row
  exact ⟨settings, admin, held, by rw [State.condition, settings]; rfl⟩

theorem modPath_keepsOthers (s : State) (p : PathId) (f : PathRecord → PathRecord) : KeepsOthers p s (s.modPath p f) :=
  fun q hq => .of_rows (by rw [State.path_modPath, if_neg hq]) rfl

theorem modHops_keepsOthers (p : PathId) (f : Hop → Hop) (s : State) : KeepsOthers p s (modHops p f s) :=
  fun q hq => .of_rows rfl (upd_other _ p q _ hq)

end relations

/-! ## A change of hop records -/

/-- A hop whose change no condition reads. -/
theorem modHop_keeps {s : State} {p : PathId} {h : HopId} {f : Hop → Hop}
    (hf : h.val < (s.path p).settings.hopCount → readHop (f (s.hop p h)) = readHop (s.hop p h)) :
    KeepsConditions s (s.modHop p h f) := fun q => by
  refine ⟨rfl, rfl, rfl, deriveCondition_congr fun i hi => ?_⟩
  change readHop ((s.modHop p h f).hop q i) = readHop (s.hop q i)
  rw [State.hop_modHop]
  split
  · next e =>
    obtain ⟨rfl, rfl⟩ := e
    exact hf hi
  · rfl

/-- The same change of every hop record of the part, where no condition reads it. -/
theorem mapHops_keeps {s t : State} {f : Hop → Hop} (hpaths : t.rs.paths = s.rs.paths)
    (hhops : t.hs.hops = mapAll s.hs.hops fun _ v => mapAll v fun _ x => f x) (hf : ∀ x, readHop (f x) = readHop x) :
    KeepsConditions s t := fun q => by
  have path : t.path q = s.path q := State.path_of hpaths q
  refine ⟨by rw [path], by rw [path], by rw [path], ?_⟩
  rw [State.condition, path]
  refine deriveCondition_congr fun i _ => ?_
  rw [hhops, mapAll_get, mapAll_get, hf]

theorem readHop_leakHop (x : Hop) : readHop (leakHop x) = readHop x := by
  unfold leakHop
  split <;> rfl

/-- An event at the hops of one path: RS and the hops of the others stand. -/
structure AtHopsOf (p : PathId) (s t : State) : Prop where
  paths : t.rs.paths = s.rs.paths
  hops : ∀ q : PathId, q ≠ p → t.hs.hops[q] = s.hs.hops[q]

section events
variable {p : PathId} {s t u : State}

theorem AtHopsOf.trans (h : AtHopsOf p s t) (k : AtHopsOf p t u) : AtHopsOf p s u :=
  ⟨k.paths.trans h.paths, fun q hq => (k.hops q hq).trans (h.hops q hq)⟩

theorem AtHopsOf.of_rows (hpaths : t.rs.paths = s.rs.paths) (hhops : t.hs.hops = s.hs.hops) : AtHopsOf p s t :=
  ⟨hpaths, fun q _ => by rw [hhops]⟩

theorem AtHopsOf.keepsOthers (h : AtHopsOf p s t) : KeepsOthers p s t :=
  fun q hq => .of_rows (State.path_of h.paths q) (h.hops q hq)

theorem modHop_atHopsOf (p : PathId) (h : HopId) (f : Hop → Hop) (s : State) : AtHopsOf p s (s.modHop p h f) :=
  ⟨rfl, fun q hq => upd_other _ p q _ hq⟩

theorem dwellUp_atHopsOf (p : PathId) (h : HopId) (s : State) : AtHopsOf p s (dwellUp p h s) :=
  (modHop_atHopsOf p h _ s).trans (.of_rows (by simp) (by simp [dwellUp]; rfl))

theorem degrade_atHopsOf (p : PathId) (h : HopId) (level : HopState) (s : State) : AtHopsOf p s (degrade p h level s) :=
  (modHop_atHopsOf p h _ s).trans (.of_rows (by simp) (by simp [degrade]; rfl))

theorem reportTimedOut_atHopsOf (p : PathId) (h : HopId) (s : State) : AtHopsOf p s (reportTimedOut p h s) :=
  (modHop_atHopsOf p h _ s).trans (.of_rows (by simp) (by simp [reportTimedOut]; rfl))

theorem setOver_atHopsOf (p : PathId) (h : HopId) (b : Option Branch) (s : State) : AtHopsOf p s (setOver p h b s) :=
  (modHop_atHopsOf p h _ s).trans (.of_rows (by simp) (setOver_hops p h b s))

theorem considerDwell_atHopsOf (p : PathId) (h : HopId) (level : HopState) (avg : Int) (s : State) :
    AtHopsOf p s (considerDwell p h level avg s) := by
  unfold considerDwell
  dsimp only
  split
  · split
    · exact .of_rows rfl rfl
    · split
      · exact dwellUp_atHopsOf p h s
      · exact modHop_atHopsOf p h _ s
  · exact modHop_atHopsOf p h _ s

theorem judgeReport_atHopsOf (p : PathId) (h : HopId) (level : HopState) (avg : Int) (s : State) :
    AtHopsOf p s (judgeReport p h level avg s) := by
  unfold judgeReport
  dsimp only
  split
  · exact modHop_atHopsOf p h _ s
  · split
    · exact degrade_atHopsOf p h level s
    · exact considerDwell_atHopsOf p h level avg s

theorem addErrors_atHopsOf (p : PathId) (h : HopId) (c : Nat) (b : Branch) (s : State) : AtHopsOf p s (addErrors p h c b s) := by
  unfold addErrors
  dsimp only
  split
  · exact (modHop_atHopsOf p h _ s).trans (setOver_atHopsOf p h _ _)
  · exact modHop_atHopsOf p h _ s

end events

/-! ## What RS does with its inputs (R78 to R83) -/

section inputs
variable (p : PathId) (s : State)

theorem clearLatency_keeps : KeepsConditions s (clearLatency p s) :=
  modPath_keeps s p (f := fun r => { r with latency := {}, cost := none }) (fun _ => rfl) (fun _ => rfl) fun _ => rfl

/-- PU writes the latency fields of a path. -/
theorem modLatency_keeps (f : Latency → Latency) : KeepsConditions s (s.modPath p fun r => { r with latency := f r.latency }) :=
  modPath_keeps s p (f := fun r => { r with latency := f r.latency }) (fun _ => rfl) (fun _ => rfl) fun _ => rfl

theorem recost_keeps : KeepsConditions s (recost p s) :=
  modPath_keeps s p (f := fun r => { r with cost := pathCost r }) (fun _ => rfl) (fun _ => rfl) fun _ => rfl

theorem setPathState_keeps (x : PathState) : KeepsConditions s (setPathState p x s) :=
  modPath_keeps s p (f := fun r => { r with state := x }) (fun _ => rfl) (fun _ => rfl) fun _ => rfl

theorem rechooseIfChanged_keeps (before : PathRecord) : KeepsConditions s (rechooseIfChanged before p s) :=
  .of_rows (by simp) (by simp)

theorem leaveDown_keeps (cause : PathCause) : KeepsConditions s (leaveDown p cause s) := by
  unfold leaveDown
  dsimp only
  split
  · exact (setPathState_keeps p s .proving).trans (.of_rows (by simp) (by simp))
  · exact .refl s

theorem enterDown_keeps (cause : PathCause) : KeepsConditions s (enterDown p cause s) := by
  have cleared : KeepsConditions s (clearLatency p (setPathState p .down s)) :=
    (setPathState_keeps p s .down).trans (clearLatency_keeps p _)
  unfold enterDown
  exact KeepsConditions.trans (cleared.trans (.of_rows (by simp) (by simp))) (leaveDown_keeps p _ cause)

theorem enterService_keeps (cause : PathCause) : KeepsConditions s (enterService p cause s) :=
  (setPathState_keeps p s (serviceState (s.path p).hopCond.worst)).trans
    (.of_rows (by simp [enterService]) (by simp [enterService]))

/-- RS holds the condition handed to it, and changes nothing else that the invariant reads. -/
theorem rsHop_keeps (cond : HopCondition) :
    KeepsConditions (s.modPath p fun r => { r with hopCond := cond }) (rsHop p cond s) := by
  have costed := recost_keeps p (s.modPath p fun r => { r with hopCond := cond })
  unfold rsHop
  dsimp only
  split
  · exact costed.trans (enterService_keeps p _ _)
  · split
    · split
      · exact costed.trans (enterDown_keeps p _ _)
      · split
        · exact (costed.trans (setPathState_keeps p _ (serviceState cond.worst))).trans (.of_rows (by simp) (by simp))
        · exact costed.trans (rechooseIfChanged_keeps p _ _)
    · exact (costed.trans (rechooseIfChanged_keeps p _ _)).trans (leaveDown_keeps p _ _)

theorem rsLatency_keeps (lat : Latency) : KeepsConditions s (rsLatency p lat s) := by
  have taken : KeepsConditions s (recost p (s.modPath p fun r => { r with latency := lat })) :=
    (modLatency_keeps p s fun _ => lat).trans (recost_keeps p _)
  unfold rsLatency
  dsimp only
  split
  · exact taken.trans (enterService_keeps p _ _)
  · exact taken.trans (rechooseIfChanged_keeps p _ _)

theorem rsLossLimit_keeps : KeepsConditions s (rsLossLimit p s) := by
  unfold rsLossLimit
  split
  · exact enterDown_keeps p s _
  · exact .refl s

/-- RS takes the fault state of a port. -/
theorem portTold_keeps (x : FaultState) : KeepsConditions s (s.modPath p fun r => { r with port := x }) :=
  modPath_keeps s p (f := fun r => { r with port := x }) (fun _ => rfl) (fun _ => rfl) fun _ => rfl

theorem rsPortFault_keeps : KeepsConditions s (rsPortFault p s) := by
  have told := portTold_keeps p s .fault
  unfold rsPortFault
  dsimp only
  split
  · exact told.trans (enterDown_keeps p _ _)
  · split
    · exact (told.trans (clearLatency_keeps p _)).trans (rechooseIfChanged_keeps p _ _)
    · exact told

theorem rsPortRecovered_keeps : KeepsConditions s (rsPortRecovered p s) :=
  (portTold_keeps p s .working).trans (leaveDown_keeps p _ _)

end inputs

/-! ## A hand-over (R72) -/

section handover
variable {p : PathId} {s u : State}

/-- Whatever has happened to a path, its invariant holds once its condition is handed over. -/
theorem handCondition_conditionsOk (k : ConditionsOk s) (h : KeepsOthers p s u) : ConditionsOk (handCondition p u) := fun q => by
  have same := rsHop_keeps p u (u.condition p) q
  by_cases hq : q = p
  · subst hq
    have held : ((handCondition q u).path q).hopCond = u.condition q := by
      rw [handCondition, same.held, State.path_modPath_same]
    have given : (handCondition q u).condition q = u.condition q := by
      rw [handCondition, same.given, State.condition, State.path_modPath_same]
      rfl
    exact fun _ => held.trans given.symm
  · exact (((h q hq).trans (modPath_keepsOthers u p _ q hq)).trans same).conditionOk (k q)

/-- An event at the hops of a path hands the condition over where it has changed it. -/
theorem handIfChanged_conditionsOk (k : ConditionsOk s) (h : AtHopsOf p s u) :
    ConditionsOk (handIfChanged (s.condition p) p u) := by
  unfold handIfChanged
  split
  · next hsame =>
    refine KeepsConditions.conditionsOk (fun q => ?_) k
    by_cases hq : q = p
    · subst hq
      have path : u.path q = s.path q := State.path_of h.paths q
      exact ⟨by rw [path], by rw [path], by rw [path], hsame⟩
    · exact h.keepsOthers q hq
  · exact handCondition_conditionsOk k h.keepsOthers

end handover

/-! ## Hop reports and hop requests (R57 to R70) -/

section hops
variable {s : State} (k : ConditionsOk s) (p : PathId) (h : HopId)
include k

theorem handleItem_conditionsOk (it : HopItem) : ConditionsOk (handleItem p h it s) := by
  have counted : AtHopsOf p s (s.countHs p fun c => { c with taken := satInc c.taken }) := .of_rows rfl rfl
  exact handIfChanged_conditionsOk k (((counted.trans (modHop_atHopsOf p h _ _)).trans (judgeReport_atHopsOf p h _ _ _)).trans
    (addErrors_atHopsOf p h _ _ _))

theorem takeItem_conditionsOk (it : HopItem) : ConditionsOk (takeItem p it s) := by
  unfold takeItem
  split
  · exact conditionsOk_of_rows rfl rfl k
  · split
    · exact conditionsOk_of_rows rfl rfl k
    · split
      · exact handleItem_conditionsOk k p _ it
      · exact conditionsOk_of_rows rfl rfl k

theorem doHopclear_conditionsOk : ConditionsOk (doHopclear p h s).1 := by
  unfold doHopclear
  dsimp only
  split
  · exact handCondition_conditionsOk k (modHop_atHopsOf p h _ s).keepsOthers
  · next hclear =>
    refine KeepsConditions.conditionsOk (modHop_keeps fun _ => ?_) k
    simp [readHop, hclear]

/-- A changed threshold hands the condition over where it sets the flag; no condition reads the other settings. -/
theorem doHopset_conditionsOk (r : HopsetReq) : ConditionsOk (doHopset r p h s).1 := by
  unfold doHopset
  dsimp only
  split
  · have stored : AtHopsOf p s (storeLeakPeriod r (s.modHop p h (storeHopset r))) :=
      (modHop_atHopsOf p h (storeHopset r) s).trans (.of_rows (by simp) (by simp))
    exact handCondition_conditionsOk k (stored.trans (setOver_atHopsOf p h none _)).keepsOthers
  · have stored : KeepsConditions s (s.modHop p h (storeHopset r)) := modHop_keeps fun _ => rfl
    exact (stored.trans (.of_rows (by simp) (by simp))).conditionsOk k

/-- A hop whose flag does not change, or that lies beyond the hop count, leaves the condition. -/
theorem setTag_conditionsOk (tagged : Bool) : ConditionsOk (setTag tagged p h s).1 := by
  unfold setTag
  dsimp only
  split
  · exact handCondition_conditionsOk k (modHop_atHopsOf p h _ s).keepsOthers
  · next hsame =>
    refine KeepsConditions.conditionsOk (modHop_keeps fun hlt => ?_) k
    have same : (s.hop p h).tagged = tagged := not_not.mp fun hne => hsame ⟨hne, hlt⟩
    rw [← same]

end hops

/-! ## Path requests (R77, R79, R84, R85) and RESTART (R56, R76) -/

/-- A path in OFF is not ON (R75). -/
def OffIsNotOn (s : State) : Prop := ∀ p, (s.path p).state = .off → (s.path p).admin = false

theorem doPathset_conditionsOk (p : PathId) (x : PathSettings) {s : State} (hoff : OffIsNotOn s) (k : ConditionsOk s) :
    OffIsNotOn (doPathset p x s).1 ∧ ConditionsOk (doPathset p x s).1 := by
  unfold doPathset
  split
  · exact ⟨hoff, k⟩
  · next hstate =>
    split
    · have row (q : PathId) := State.path_modPath s p q fun r => { r with settings := x }
      refine ⟨fun q => ?_, fun q => ?_⟩
      · rw [row]
        split
        · exact hoff p
        · exact hoff q
      · by_cases hq : q = p
        · subst hq
          intro hon
          rw [row, if_pos rfl] at hon
          exact absurd (hon.symm.trans (hoff q (not_not.mp hstate))) (by decide)
        · exact (modPath_keepsOthers s p _ q hq).conditionOk (k q)
    · exact ⟨hoff, k⟩

theorem startProbing_keeps (p : PathId) (s : State) : KeepsConditions s (startProbing p s) :=
  (clearLatency_keeps p s).trans (.of_rows (by simp [startProbing]) (by simp))

theorem stopProbing_keeps (p : PathId) (s : State) : KeepsConditions s (stopProbing p s) :=
  (clearLatency_keeps p s).trans (.of_rows rfl rfl)

section requests
variable {s : State} (k : ConditionsOk s) (p : PathId)
include k

theorem doPathon_conditionsOk : ConditionsOk (doPathon p s).1 := by
  unfold doPathon
  dsimp only
  split
  · exact k
  · have reset := (modPath_keepsOthers s p fun r => { r with admin := true, state := .proving, cost := none }).trans
      (modHops_keepsOthers p resetHop _)
    have marked (u : State) : KeepsConditions u (takeFirstMark u) := .of_rows (by simp) (by simp)
    have handed := handCondition_conditionsOk k ((reset.trans (marked _).others).trans (startProbing_keeps p _).others)
    exact conditionsOk_of_rows (by simp) (by simp) handed

theorem doPathoff_conditionsOk : ConditionsOk (doPathoff p s).1 := by
  unfold doPathoff
  dsimp only
  split
  · refine conditionsOk_of_rows (s := modHops p stopHop
      (stopProbing p (s.modPath p fun r => { r with admin := false, state := .off }))) (by simp) (by simp) fun q => ?_
    have stopped := stopProbing_keeps p (s.modPath p fun r => { r with admin := false, state := .off })
    by_cases hq : q = p
    · subst hq
      have off : ((stopProbing q (s.modPath q fun r => { r with admin := false, state := .off })).path q).admin = false := by
        rw [(stopped q).admin, State.path_modPath_same]
      exact fun hon => absurd (hon.symm.trans off) (by decide)
    · exact (((modPath_keepsOthers s p _).trans stopped.others).trans (modHops_keepsOthers p stopHop _) q hq).conditionOk (k q)
  · exact k

theorem doPathrestart_conditionsOk : ConditionsOk (doPathrestart p s).1 := by
  unfold doPathrestart
  split
  · have proving := (setPathState_keeps p s .proving).trans (startProbing_keeps p _)
    have restarted := proving.others.trans (modHops_keepsOthers p restartHop _)
    dsimp only
    refine handCondition_conditionsOk k (restarted.trans (KeepsConditions.others ?_))
    exact .of_rows (by simp) (by simp)
  · exact k

theorem restartPath_conditionsOk : ConditionsOk (restartPath p s) := by
  have ready := pathReadied_restarted (p := p) (s := s)
  rw [restartPath_eq]
  exact handCondition_conditionsOk k fun q hq =>
    .of_rows (by rw [ready.paths, if_neg hq]) (by rw [ready.hops, if_neg hq])

end requests

theorem restarted_conditionsOk {s : State} (k : ConditionsOk s) : ConditionsOk (restarted s) := by
  have before : ConditionsOk (beforePaths s) := by
    obtain ⟨-, -, -, -, hhs, hrs, -, -, -⟩ := beforePaths_frame s
    exact conditionsOk_of_rows (by rw [hrs]) (by rw [hhs]) k
  have paths : ConditionsOk (pathsRestarted s) :=
    foldl_keeps (P := ConditionsOk) (fun u p hu => restartPath_conditionsOk hu p) allPaths before
  unfold restarted
  exact conditionsOk_of_rows (s := pathsRestarted s) (by simp) (by simp) paths

theorem doRestart_conditionsOk (x : Unit) {s : State} (k : ConditionsOk s) : ConditionsOk (doRestart x s).1 := by
  rw [doRestart_eq]
  exact restarted_conditionsOk k

/-! ## Probes (R40, R41, R44 to R50) -/

section probes
variable (p : PathId) (s : State)

theorem countPu_keeps (f : PuCounters → PuCounters) : KeepsConditions s (s.countPu p f) := .of_rows rfl rfl

theorem probeLost_keeps : KeepsConditions s (probeLost p s) := by
  have counted := countPu_keeps p s fun c => { c with losses := satInc c.losses }
  unfold probeLost
  extract_lets s1 run
  split
  · exact (counted.trans (modLatency_keeps p s1 fun l => { l with losses := 0 })).trans (rsLossLimit_keeps p _)
  · exact counted.trans (modLatency_keeps p s1 fun l => { l with losses := run })

theorem launchProbe_keeps : KeepsConditions s (launchProbe p s) := by
  have room (u : State) : KeepsConditions u (makeRoomForRecord p u) := by
    unfold makeRoomForRecord
    split
    · refine KeepsConditions.trans ?_ (probeLost_keeps p _)
      exact .of_rows rfl rfl
    · exact .refl u
  have numbered : KeepsConditions s (s.modPu p fun x => { x with number := x.number + 1, due := false }) := .of_rows rfl rfl
  unfold launchProbe
  exact KeepsConditions.trans (numbered.trans (room _)) (.of_rows (by simp) (by simp))

theorem outlier_keeps (old x : Nat) : KeepsConditions s (outlier p old x s) := by
  have counted := countPu_keeps p s fun c => { c with outliers := satInc c.outliers }
  unfold outlier
  dsimp only
  split
  · exact (counted.trans (.of_rows (by simp) (by simp))).trans (rsLatency_keeps p _ _)
  · exact counted.trans (modLatency_keeps p _ fun l => { l with outlierRun := _ })

theorem withinGate_keeps (old x : Nat) : KeepsConditions s (withinGate p old x s) := by
  unfold withinGate
  dsimp only
  split
  · exact modLatency_keeps p s fun l => { l with outlierRun := 0 }
  · exact rsLatency_keeps p s _

theorem takeSample_keeps (x : Nat) : KeepsConditions s (takeSample p x s) := by
  have counted := (modLatency_keeps p s fun l => { l with losses := 0 }).trans
    (countPu_keeps p _ fun c => { c with samples := satInc c.samples })
  unfold takeSample
  dsimp only
  split
  · exact counted.trans (rsLatency_keeps p _ _)
  · split
    · exact counted.trans (outlier_keeps p _ _ _)
    · exact counted.trans (withinGate_keeps p _ _ _)

theorem takeEcho_keeps (n : BitVec 8) (unchanged : Bool) (t1 t2 t3 : Stamp) (mark : Mark) (t4 : Capture) :
    KeepsConditions s (takeEcho p n unchanged t1 t2 t3 mark t4 s) := by
  unfold takeEcho
  dsimp only
  split
  · exact countPu_keeps p s _
  · have matched : KeepsConditions s (s.modPu p fun x => { x with records := x.records.eraseP (echoMatches n t1) }) :=
      .of_rows rfl rfl
    split
    · exact matched.trans (countPu_keeps p _ _)
    · split
      · exact matched.trans (countPu_keeps p _ _)
      · split
        · exact matched.trans (countPu_keeps p _ _)
        · split
          · exact matched.trans (countPu_keeps p _ _)
          · exact matched.trans (takeSample_keeps p _ _)

theorem launchControl_keeps : KeepsConditions s (launchControl p s) := by
  unfold launchControl
  split
  · exact .of_rows (by simp) (by simp)
  · split
    · exact KeepsConditions.trans (.of_rows (by simp) (by simp)) (launchProbe_keeps p _)
    · exact .of_rows (by simp) (by simp)

theorem takeControlCell_keeps (cell : Option ControlCell) : KeepsConditions s (takeControlCell p cell s) := by
  unfold takeControlCell
  split
  · exact .of_rows rfl rfl
  · exact .of_rows (by simp) (by simp)
  · exact KeepsConditions.trans (.of_rows (by simp) (by simp)) (takeEcho_keeps p _ _ _ _ _ _ _ _)
  · exact .of_rows rfl rfl

end probes

/-! ## Every command -/

section requests
variable {s : State} (l : LaneId) (tag : Tag) (kind : Byte) (k : ConditionsOk s)
include k

/-- A request of the operator whose owner leaves path records and hops. -/
theorem operatorRequest_conditionsOk {α : Type} (parsed : Option α) {act : α → State → State × Reply}
    (hpaths : ∀ x u, (act x u).1.rs.paths = u.rs.paths) (hhops : ∀ x u, (act x u).1.hs.hops = u.hs.hops) :
    ConditionsOk (operatorRequest l tag kind parsed act s) :=
  operatorRequest_keeps conditionsOk_ignoresOutput l tag kind (fun x _ u => conditionsOk_of_rows (hpaths x u) (hhops x u)) k

/-- An operator's request for an index, whose owner leaves path records and hops. -/
theorem operatorRequest_atIndex_conditionsOk {α : Type} (parsed : Option α) {n : Nat} {i : α → Nat}
    {act : α → Fin n → State → State × Reply} (hpaths : ∀ x j u, (act x j u).1.rs.paths = u.rs.paths)
    (hhops : ∀ x j u, (act x j u).1.hs.hops = u.hs.hops) :
    ConditionsOk (operatorRequest l tag kind parsed (fun x => atIndex (i x) (act x)) s) :=
  operatorRequest_keeps conditionsOk_ignoresOutput l tag kind
    (fun x _ _ hu => atIndex_keeps (fun j v => conditionsOk_of_rows (hpaths x j v) (hhops x j v)) hu) k

/-- A tenant's request, whose owner leaves path records and hops. -/
theorem tenantRequest_conditionsOk {α : Type} (parsed : Option α) {act : TenantId → α → State → State × Reply}
    (hpaths : ∀ u x v, (act u x v).1.rs.paths = v.rs.paths) (hhops : ∀ u x v, (act u x v).1.hs.hops = v.hs.hops) :
    ConditionsOk (tenantRequest l tag kind parsed act s) :=
  tenantRequest_keeps conditionsOk_ignoresOutput l tag kind (fun u x _ v => conditionsOk_of_rows (hpaths u x v) (hhops u x v)) k

end requests

theorem runWord_conditionsOk (kind : WordKind) {run : State → State} (hpaths : ∀ x, (run x).rs.paths = x.rs.paths)
    (hhops : ∀ x, (run x).hs.hops = x.hs.hops) (u : TenantId) (c : ChannelId) {s : State} (k : ConditionsOk s) :
    ConditionsOk (runWord kind run u c s) := by
  unfold runWord
  split
  · exact conditionsOk_of_rows (hpaths _) (hhops _) (conditionsOk_of_rows (by simp) (by simp) k)
  · exact k

theorem offIsNotOn_ignoresOutput : IgnoresOutput OffIsNotOn := fun s u h k p => by
  rw [State.path_of (s := s) (by simp [h])]
  exact k p

/-- The commands that write no path record and no hop record. -/
def sparing : Instr → Bool
  | .powerOnReset | .controlOpportunity _ | .controlCellArrival _ _ | .hopReportFrame _ _ | .portFault _ | .portRecovered _ => false
  | .probeExpiry _ _ | .reportTimeout _ _ | .dwellExpiry _ _ | .leakPulse => false
  | .hopclear _ _ _ | .hopset _ _ _ | .hoptag _ _ _ | .hopuntag _ _ _ => false
  | .pathset _ _ _ | .pathon _ _ _ | .pathoff _ _ _ | .pathrestart _ _ _ | .restart _ _ _ => false
  | _ => true

theorem exec_sparing_conditionsOk {i : Instr} (hi : sparing i = true) {s t : State} (h : exec i s = .next t) (k : ConditionsOk s) :
    ConditionsOk t := by
  cases i <;> cases hi <;> cases h
  case timecfg | timeset | read | countclear =>
    exact operatorRequest_conditionsOk _ _ _ k _ (fun _ _ => by simp) fun _ _ => by simp
  case planset | planswap | tenantset | tenanton | tenantoff | tenantreset =>
    exact operatorRequest_atIndex_conditionsOk _ _ _ k _ (fun _ _ _ => by simp) fun _ _ _ => by simp
  case carry | loadp | loadt | halt | streamset | query =>
    exact tenantRequest_conditionsOk _ _ _ k _ (fun _ _ _ => by simp) fun _ _ _ => by simp
  case fire | ppsArrival | channelSubmission | submissionAnswer | routeWaitExpiry | reasmTimeout | entrySent | cycleStart |
      cellArrival | resubmission =>
    split <;> exact conditionsOk_of_rows (by simp) (by simp) k
  case slotOpportunity =>
    split
    · split <;> exact conditionsOk_of_rows (by simp) (by simp) k
    · exact k
  case text | patch | wait | mark => exact runWord_conditionsOk _ (fun _ => by simp) (fun _ => by simp) _ _ k
  case undefinedOpWord u c =>
    split
    · exact runWord_conditionsOk _ (fun _ => by simp) (fun _ => by simp) u c k
    · exact k
  case ppsMissing | slewPeriodEnd | compareFire | probeTimerExpiry | budgetWindowExpiry | stallExpiry | frameCheckError |
      malformedMessage | holdTimerExpiry =>
    exact conditionsOk_of_rows (by simp) (by simp) k

/-- The commands that may write a path record or a hop record. -/
theorem exec_reaching_conditionsOk {i : Instr} (hi : sparing i = false) {s t : State} (h : exec i s = .next t) (hoff : OffIsNotOn s)
    (k : ConditionsOk s) : ConditionsOk t := by
  cases i <;> cases hi <;> cases h
  case powerOnReset => exact fun p hon => by simp [State.path, State.reset] at hon
  case hopReportFrame p frame =>
    split
    · split
      · exact conditionsOk_of_rows rfl rfl k
      · exact foldl_keeps (P := ConditionsOk) (fun x it hx => takeItem_conditionsOk hx p it) _
          (conditionsOk_of_rows (by simp) (by simp) k)
    · exact k
  case portFault p =>
    split
    · have told : ConditionsOk (rsPortFault p (s.modPort p faultPort)) :=
        (rsPortFault_keeps p _).conditionsOk (conditionsOk_of_rows rfl rfl k)
      exact conditionsOk_of_rows (by simp) (by simp) told
    · exact k
  case portRecovered p =>
    split
    · exact k
    · have told : ConditionsOk (rsPortRecovered p (s.modPort p fun x => { x with faultState := .working })) :=
        (rsPortRecovered_keeps p _).conditionsOk (conditionsOk_of_rows rfl rfl k)
      exact conditionsOk_of_rows (by simp) (by simp) told
  case controlOpportunity p =>
    split
    · exact (launchControl_keeps p _).conditionsOk (conditionsOk_of_rows rfl rfl k)
    · exact k
  case controlCellArrival p cell =>
    split
    · split
      · exact (takeControlCell_keeps p s _).conditionsOk k
      · exact conditionsOk_of_rows rfl rfl k
    · exact k
  case probeExpiry p n =>
    split
    · exact (probeLost_keeps p _).conditionsOk (conditionsOk_of_rows rfl rfl k)
    · exact k
  case reportTimeout p h =>
    split
    · exact handIfChanged_conditionsOk k (reportTimedOut_atHopsOf p h s)
    · exact k
  case dwellExpiry p h =>
    split
    · exact handIfChanged_conditionsOk k (dwellUp_atHopsOf p h s)
    · exact k
  case leakPulse =>
    refine KeepsConditions.conditionsOk (s := s) ?_ k
    exact mapHops_keeps rfl rfl readHop_leakHop
  case hopset =>
    exact operatorRequest_keeps conditionsOk_ignoresOutput _ _ _
      (fun r _ _ hu => atHop_keeps (fun p h _ hv => doHopset_conditionsOk hv p h r) hu) k
  case hopclear =>
    exact operatorRequest_keeps conditionsOk_ignoresOutput _ _ _
      (fun _ _ _ hu => atHop_keeps (fun p h _ hv => doHopclear_conditionsOk hv p h) hu) k
  case hoptag | hopuntag =>
    exact operatorRequest_keeps conditionsOk_ignoresOutput _ _ _
      (fun _ _ _ hu => atHop_keeps (fun p h _ hv => setTag_conditionsOk hv p h _) hu) k
  case pathset =>
    have ignores : IgnoresOutput fun u => OffIsNotOn u ∧ ConditionsOk u := fun x u hu ⟨xoff, xk⟩ =>
      ⟨offIsNotOn_ignoresOutput x u hu xoff, conditionsOk_ignoresOutput x u hu xk⟩
    exact (operatorRequest_keeps ignores _ _ _ (fun r _ _ hu => atIndex_keeps (P := fun u => OffIsNotOn u ∧ ConditionsOk u)
      (fun p _ ⟨voff, vk⟩ => doPathset_conditionsOk p (clampSettings r.settings) voff vk) hu) ⟨hoff, k⟩).2
  case pathon =>
    exact operatorRequest_keeps conditionsOk_ignoresOutput _ _ _
      (fun _ _ _ hu => atIndex_keeps (fun p _ hv => doPathon_conditionsOk hv p) hu) k
  case pathoff =>
    exact operatorRequest_keeps conditionsOk_ignoresOutput _ _ _
      (fun _ _ _ hu => atIndex_keeps (fun p _ hv => doPathoff_conditionsOk hv p) hu) k
  case pathrestart =>
    exact operatorRequest_keeps conditionsOk_ignoresOutput _ _ _
      (fun _ _ _ hu => atIndex_keeps (fun p _ hv => doPathrestart_conditionsOk hv p) hu) k
  case restart =>
    exact operatorRequest_keeps conditionsOk_ignoresOutput _ _ _ (fun x _ _ hu => doRestart_conditionsOk x hu) k

theorem exec_conditionsOk {i : Instr} {s t : State} (h : exec i s = .next t) (hoff : OffIsNotOn s) (k : ConditionsOk s) :
    ConditionsOk t := by
  cases hi : sparing i
  · exact exec_reaching_conditionsOk hi h hoff k
  · exact exec_sparing_conditionsOk hi h k

/-! ## Every step -/

theorem tick_keeps (s : State) : KeepsConditions s (tick s) := mapHops_keeps (f := tickHop) rfl rfl fun _ => rfl

theorem idleStep_conditionsOk {s : State} (k : ConditionsOk s) : ConditionsOk (idleStep s) := by
  unfold idleStep
  split
  · exact conditionsOk_of_rows rfl rfl k
  · exact conditionsOk_of_rows (by simp) (by simp) k
  · exact (tick_keeps s).conditionsOk k

/-- Settles O8: a step is a command or the part's own step; PATHSET writes only a path in OFF, which is not ON. -/
theorem stepKeepsHopConditions : Obligations.StepKeepsHopConditions := by
  unfold Obligations.StepKeepsHopConditions
  intro s t hpaths k h
  unfold step at h
  split at h
  · next i rest _ =>
    have hoff : OffIsNotOn { s with pending := rest } := fun p => (hpaths p).admin.mp
    exact exec_conditionsOk h hoff k
  · cases h
    exact idleStep_conditionsOk k

end Sys2Proof.Proofs
end

