-- ==== Sys2Proof/Proofs/HopRequests.lean ====
section
/-!
The operator's requests for one hop: HOPCLEAR, HOPTAG, HOPUNTAG and HOPSET (R68 to R70, R72, R73).
-/

namespace Sys2Proof.Proofs

open Sys2Proof.Machine Sys2Proof.Claims

/-! ## A request for a hop -/

section serving
variable {i : Nat × Nat} {p : PathId} {h : HopId} (act : PathId → HopId → State → State × Reply) (s : State)

theorem atHop_val (hp : i.1 = p.val) (hh : i.2 = h.val) : atHop i act s = act p h s := by
  rw [atHop, atIndex_val hp, atIndex_val hh]

theorem atHop_beyond (hout : 6 ≤ i.1 ∨ 12 ≤ i.2) : atHop i act s = (s, .refused .badIndex) := by
  rw [atHop]
  by_cases hp : 6 ≤ i.1
  · exact atIndex_beyond hp _ s
  · have hpath : i.1 = (⟨i.1, Nat.lt_of_not_le hp⟩ : PathId).val := rfl
    rw [atIndex_val hpath]
    exact atIndex_beyond (hout.resolve_left hp) _ s

end serving

theorem parsePathHop_sized {b : List Byte} (h : b.length = 2) : parsePathHop b = some (nat1 b 0, nat1 b 1) := if_pos h

/-! ## The fields of HOPSET (R69) -/

theorem beNat_concat (l : List Byte) (b : Byte) : beNat (l ++ [b]) = beNat l * 256 + b.toNat := by
  simp [beNat]

theorem beNat_lt (l : List Byte) : beNat l < 256 ^ l.length := by
  induction l using List.reverseRecOn with
  | nil => exact Nat.one_pos
  | append_singleton l b ih =>
    have hb := b.isLt
    rw [beNat_concat, List.length_append, List.length_singleton, pow_succ]
    omega

theorem fieldNat_lt (l : List Byte) (i n : Nat) : fieldNat l i n < 256 ^ n :=
  (beNat_lt _).trans_le (Nat.pow_le_pow_right (by decide) (List.length_take_le _ _))

/-- A field of 2 bytes clamps only from below. -/
theorem clampNat_word (l : List Byte) (i : Nat) : clampNat 1 65535 (fieldNat l i 2) = max 1 (fieldNat l i 2) := by
  have h : fieldNat l i 2 < 65536 := fieldNat_lt l i 2
  unfold clampNat
  omega

theorem clampNat_three (x : Nat) : clampNat 0 3 x = min 3 x := Nat.zero_max _

/-- The request that a HOPSET body of the right length spells. -/
def hopsetOf (b : List Byte) : HopsetReq :=
  let e := byteAt b 10
  { path := nat1 b 0, hop := nat1 b 1, avx := min 3 (nat1 b 2), offset := max (-100) (min 100 (fieldInt b 3 2)),
    errorThreshold := max 1 (fieldNat b 5 2), leakDivider := min 3 (nat1 b 7),
    reportTimeoutMs := max 100 (min 5000 (fieldNat b 8 2)),
    enables := { watch := e.getLsbD 0, fading := e.getLsbD 1, lost := e.getLsbD 2, recovery := e.getLsbD 3,
                 overEnable := e.getLsbD 4 },
    setLeakPeriod := flagAt b 11, leakPeriodMs := max 1 (fieldNat b 12 2) }

theorem parseHopset_sized {b : List Byte} (h : b.length = 14) : parseHopset b = some (hopsetOf b) := by
  unfold parseHopset
  simp only [clampNat_word, clampNat_three]
  exact if_pos h

theorem setLeakPeriod_ite {α : Type} (b : List Byte) (x y : α) :
    (if (hopsetOf b).setLeakPeriod then x else y) = if byteAt b 11 = 0 then y else x := by
  simp [hopsetOf, flagAt]

/-! ## HOPCLEAR, HOPTAG, HOPUNTAG (R68, R70) -/

/-- A change of one hop record moves nothing else. -/
theorem modHop_moves (p : PathId) (h : HopId) (f : Hop → Hop) (s : State) : hopsBut p h s (s.modHop p h f) ∧
    (s.modHop p h f).hop p h = f (s.hop p h) ∧
    s.modHop p h f = { s with hs := { s.hs with hops := (s.modHop p h f).hs.hops } } :=
  ⟨fun q k hk => (State.hop_modHop s p q h k f).trans (if_neg hk), State.hop_modHop_same .., rfl⟩

/-- The condition is handed over where a hop below the hop count changes its flag. -/
theorem setTag_eq (tagged : Bool) (p : PathId) (h : HopId) (s : State) : setTag tagged p h s =
    (if (s.hop p h).tagged = !tagged ∧ h.val < (s.path p).settings.hopCount then
      handCondition p (s.modHop p h fun x => { x with tagged := tagged }) else s.modHop p h fun x => { x with tagged := tagged },
      .accepted) := by
  simp only [setTag, Bool.eq_not]

/-! ## HOPSET (R69) -/

section hopset
variable (r : HopsetReq) (p : PathId) (h : HopId) (s : State)

theorem storeLeakPeriod_modHop (f : Hop → Hop) :
    storeLeakPeriod r (s.modHop p h f) = (storeLeakPeriod r s).modHop p h f := by
  unfold storeLeakPeriod
  split <;> rfl

theorem storeLeakPeriod_leak :
    (storeLeakPeriod r s).hs.leakPeriodMs = (if r.setLeakPeriod then r.leakPeriodMs else s.hs.leakPeriodMs) ∧
    (storeLeakPeriod r s).hs.leakTimer = if r.setLeakPeriod then some (r.leakPeriodMs * Config.tuPerMs) else s.hs.leakTimer := by
  unfold storeLeakPeriod
  split <;> exact ⟨rfl, rfl⟩

/-- A hop record whose flag has set with no branch blamed. -/
def flagged (x : Hop) : Hop := { x with overFlag := true, blamed := none }

/-- The notice of a flag that a new threshold sets (R73). -/
def thresholdNotices (x : Hop) : List Notice :=
  if x.enables.overEnable then [.overThreshold p h x.errorCount x.errorThreshold none] else []

theorem setOver_told (x : Hop) (k : HsCounters) : setOver p h none (hopTold p h x k [] s) =
    hopTold p h (flagged x) { k with overEvents := satInc k.overEvents } (thresholdNotices p h x) s := by
  unfold setOver thresholdNotices
  dsimp only
  rw [hopTold_modHop, hopTold_countHs, hopTold_hop]
  split
  · rw [notifyOver, hopTold_hop, hopTold_notify]
    rfl
  · rfl

theorem doHopset_told (x : Hop) (hx : storeHopset r (s.hop p h) = x) : doHopset r p h s =
    (if overDue x then handCondition p (hopTold p h (flagged x)
        { s.hs.counters[p] with overEvents := satInc s.hs.counters[p].overEvents } (thresholdNotices p h x) (storeLeakPeriod r s))
      else hopTold p h x s.hs.counters[p] [] (storeLeakPeriod r s), .accepted) := by
  have stored : storeLeakPeriod r (s.modHop p h (storeHopset r)) = hopTold p h x s.hs.counters[p] [] (storeLeakPeriod r s) := by
    have row : (storeLeakPeriod r s).hop p h = s.hop p h := by simp only [State.hop, storeLeakPeriod_frame]
    have counters : (storeLeakPeriod r s).hs.counters[p] = s.hs.counters[p] := by simp only [storeLeakPeriod_frame]
    rw [storeLeakPeriod_modHop]
    conv_lhs => rw [← hopTold_start p h (storeLeakPeriod r s)]
    rw [hopTold_modHop, row, counters, hx]
  unfold doHopset
  dsimp only
  rw [stored, hopTold_hop, setOver_told]

theorem notified_li {x y : State} (htb : x.tb = y.tb) (hli : x.li = y.li) (l : List Notice) :
    (notified l x).li = (notified l y).li := by
  induction l generalizing x y with
  | nil => exact hli
  | cons n l ih =>
    have tb : (notifyOperator n x).tb = (notifyOperator n y).tb := by rw [notifyOperator_tb, notifyOperator_tb, htb]
    exact ih tb (pushNotice_li htb hli mgmtLane n)

/-- What HOPSET moves before any hand-over: the hop, the counters of its path, the leak period and timer, and the lanes. -/
structure HopsetMoves (y : Hop) (k : HsCounters) (l : List Notice) (u : State) : Prop where
  hops : hopsBut p h s u
  others : ∀ q : PathId, q ≠ p → u.hs.counters[q] = s.hs.counters[q]
  period : u.hs.leakPeriodMs = if r.setLeakPeriod then r.leakPeriodMs else s.hs.leakPeriodMs
  timer : u.hs.leakTimer = if r.setLeakPeriod then some (r.leakPeriodMs * Config.tuPerMs) else s.hs.leakTimer
  only : u = { s with hs := u.hs, li := u.li }
  hop : u.hop p h = y
  counters : u.hs.counters[p] = k
  lanes : u.li = (notified l s).li

theorem hopTold_hopsetMoves (y : Hop) (k : HsCounters) (l : List Notice) :
    HopsetMoves r p h s y k l (hopTold p h y k l (storeLeakPeriod r s)) where
  hops q i hi := (hopTold_hopsBut p h y k l _ q i hi).trans (by simp only [State.hop, storeLeakPeriod_frame])
  others q hq := ((hopTold_countersBut p h y k l _).1 q hq).trans (by simp only [storeLeakPeriod_frame])
  period := (storeLeakPeriod_leak r s).1
  timer := (storeLeakPeriod_leak r s).2
  only := state_ext (by simp [hopTold])
  hop := hopTold_hop ..
  counters := hopTold_counters ..
  lanes := notified_li (by simp) (by simp) l

end hopset

/-! ## The requests on the management lane -/

section exec
variable {b : List Byte} (tag : Tag) (s : State)

theorem exec_hopclear (hl : b.length = 2) : exec (.hopclear mgmtLane tag b) s =
    .next (answer mgmtLane tag 0x17 (atHop (nat1 b 0, nat1 b 1) doHopclear (countRequest mgmtLane s)).2
      (atHop (nat1 b 0, nat1 b 1) doHopclear (countRequest mgmtLane s)).1) :=
  congrArg Host.Outcome.next (operatorRequest_mgmt (parsePathHop_sized hl) tag 0x17 (fun i => atHop i doHopclear) s)

theorem exec_hoptag (hl : b.length = 2) : exec (.hoptag mgmtLane tag b) s =
    .next (answer mgmtLane tag 0x15 (atHop (nat1 b 0, nat1 b 1) (setTag true) (countRequest mgmtLane s)).2
      (atHop (nat1 b 0, nat1 b 1) (setTag true) (countRequest mgmtLane s)).1) :=
  congrArg Host.Outcome.next (operatorRequest_mgmt (parsePathHop_sized hl) tag 0x15 (fun i => atHop i (setTag true)) s)

theorem exec_hopuntag (hl : b.length = 2) : exec (.hopuntag mgmtLane tag b) s =
    .next (answer mgmtLane tag 0x16 (atHop (nat1 b 0, nat1 b 1) (setTag false) (countRequest mgmtLane s)).2
      (atHop (nat1 b 0, nat1 b 1) (setTag false) (countRequest mgmtLane s)).1) :=
  congrArg Host.Outcome.next (operatorRequest_mgmt (parsePathHop_sized hl) tag 0x16 (fun i => atHop i (setTag false)) s)

theorem exec_hopset (hl : b.length = 14) : exec (.hopset mgmtLane tag b) s =
    .next (answer mgmtLane tag 0x11 (atHop (nat1 b 0, nat1 b 1) (doHopset (hopsetOf b)) (countRequest mgmtLane s)).2
      (atHop (nat1 b 0, nat1 b 1) (doHopset (hopsetOf b)) (countRequest mgmtLane s)).1) :=
  congrArg Host.Outcome.next
    (operatorRequest_mgmt (parseHopset_sized hl) tag 0x11 (fun r => atHop (r.path, r.hop) (doHopset r)) s)

end exec

/-- Settles O52: the index is tested, then the hop is changed, then the condition is handed over where R68 to R70 say. -/
theorem hopRequestsActOnOneHop : Obligations.HopRequestsActOnOneHop := by
  unfold Obligations.HopRequestsActOnOneHop
  intro s tag body v outside
  refine ⟨fun hlen hout => ?_, fun hlen hout => ?_, fun p h hp hh => ?_⟩
  · rw [exec_hopclear tag s hlen, exec_hoptag tag s hlen, exec_hopuntag tag s hlen, atHop_beyond _ _ hout, atHop_beyond _ _ hout,
      atHop_beyond _ _ hout]
    exact ⟨rfl, rfl, rfl⟩
  · rw [exec_hopset tag s hlen, atHop_beyond _ _ hout]
  intro x hop
  refine ⟨fun hlen => ?_, fun hlen => ?_⟩
  · have moves (f : Hop → Hop) : hop (f x) (v.modHop p h f) := modHop_moves p h f v
    refine ⟨⟨_, moves fun y => { y with errorCount := 0, secondary := 0, overFlag := false, blamed := none }, ?_⟩,
      ⟨_, moves fun y => { y with tagged := true }, ?_⟩, ⟨_, moves fun y => { y with tagged := false }, ?_⟩⟩
    · rw [exec_hopclear tag s hlen, atHop_val _ _ hp hh]
      rfl
    · rw [exec_hoptag tag s hlen, atHop_val _ _ hp hh, setTag_eq]
      rfl
    · rw [exec_hopuntag tag s hlen, atHop_val _ _ hp hh, setTag_eq]
      rfl
  · intro e period y sets k
    have told := doHopset_told (hopsetOf body) p h v y rfl
    have due : overDue y = true ↔ sets := overDue_iff y
    have carried {α : Type} := setLeakPeriod_ite (α := α) body
    rw [exec_hopset tag s hlen, atHop_val _ _ hp hh, told]
    by_cases hs : sets
    · rw [if_pos (due.mpr hs)]
      have m := hopTold_hopsetMoves (hopsetOf body) p h v (flagged y) { k with overEvents := satInc k.overEvents }
        (thresholdNotices p h y)
      exact ⟨_, m.hops, m.others, ⟨m.period.trans (carried ..), m.timer.trans (carried ..)⟩, m.only, fun hno => absurd hs hno,
        fun _ => ⟨m.hop, m.counters, m.lanes, rfl⟩⟩
    · rw [if_neg (mt due.mp hs)]
      have m := hopTold_hopsetMoves (hopsetOf body) p h v y k []
      exact ⟨_, m.hops, m.others, ⟨m.period.trans (carried ..), m.timer.trans (carried ..)⟩, m.only,
        fun _ => ⟨m.hop, m.counters, m.lanes, rfl⟩, fun hyes => absurd hyes hs⟩

end Sys2Proof.Proofs
end
-- ==== Sys2Proof/Proofs/Rechoices.lean ====
section
/-!
A re-choice stream by stream: every unlaunched head gets the route of its stream, and nothing else of a stream changes (R91).
-/

namespace Sys2Proof.Proofs

open Sys2Proof.Machine Sys2Proof.Claims

/-! ## Operations on one stream after another -/

/-- Where each operation of a list reaches one stream of its own, that stream ends as its own operation leaves it, taken from a state in
which the stream still stands and whatever all the operations keep still holds. -/
theorem foldl_streams {f : State → StreamId → State} {I : State → Prop} (hlocal : ∀ x st, streamsBut st x (f x st))
    (hkeeps : ∀ x st, I x → I (f x st)) {l : List StreamId} (hl : l.Nodup) {s : State} (h : I s) (st : StreamId) :
    (st ∉ l → (l.foldl f s).stream st = s.stream st) ∧
    (st ∈ l → ∃ x, I x ∧ x.stream st = s.stream st ∧ (l.foldl f s).stream st = (f x st).stream st) := by
  induction l generalizing s with
  | nil => exact ⟨fun _ => rfl, fun hst => absurd hst List.not_mem_nil⟩
  | cons a l ih =>
    obtain ⟨ha, hl⟩ := List.nodup_cons.mp hl
    obtain ⟨hout, hin⟩ := ih hl (hkeeps s a h)
    rw [List.foldl_cons, List.mem_cons]
    refine ⟨fun hst => ?_, fun hst => ?_⟩
    · obtain ⟨hne, hrest⟩ := not_or.mp hst
      rw [hout hrest, hlocal s a st hne]
    · by_cases hrest : st ∈ l
      · obtain ⟨x, hx, hrow, hend⟩ := hin hrest
        exact ⟨x, hx, hrow.trans (hlocal s a st fun e => ha (e ▸ hrest)), hend⟩
      · obtain rfl := hst.resolve_right hrest
        exact ⟨s, h, rfl, hout hrest⟩

/-! ## The choice for one head -/

/-- A head that has not launched (R91). -/
abbrev unlaunched (m : Message) : Prop := m.life = .headUnrouted ∨ m.life = .headRouted

/-- What a choice reads of the part beside the stream itself stands. -/
structure SameChoices (s t : State) : Prop where
  paths : t.rs.paths = s.rs.paths
  tenants : t.li.tenants = s.li.tenants
  plans : t.cs = s.cs

theorem SameChoices.refl (s : State) : SameChoices s s := ⟨rfl, rfl, rfl⟩

theorem SameChoices.trans {s t u : State} (h : SameChoices s t) (k : SameChoices t u) : SameChoices s u :=
  ⟨k.paths.trans h.paths, k.tenants.trans h.tenants, k.plans.trans h.plans⟩

theorem SameChoices.chooseRoute {s t : State} (h : SameChoices s t) {st : StreamId}
    (hlast : (t.stream st).lastPath = (s.stream st).lastPath) (hadmitted : (t.stream st).admitted = (s.stream st).admitted) :
    chooseRoute t st = chooseRoute s st :=
  chooseRoute_congr h.paths h.tenants (fun p => by rw [State.plan_of h.plans]) hlast hadmitted

theorem rerouted_unlaunched {s : State} {st : StreamId} {m : Message} (h : unlaunched m) :
    rerouted s st m = routedHead (chooseRoute s st) m := by
  rw [rerouted, if_pos h]
  unfold routedHead
  cases chooseRoute s st <;> rfl

theorem rerouted_launched {s : State} {st : StreamId} {m : Message} (h : ¬unlaunched m) : rerouted s st m = m := if_neg h

theorem rerouted_congr {s t : State} {st : StreamId} (h : chooseRoute t st = chooseRoute s st) :
    rerouted t st = rerouted s st := by
  funext m
  simp only [rerouted, h]

theorem chooseFor_launched {fresh : Bool} {st : StreamId} {s : State} (h : ∀ m ∈ headOf s st, ¬unlaunched m) :
    chooseFor fresh st s = s := by
  unfold chooseFor
  split
  · rfl
  · next m hm =>
    split
    · next hlife => exact absurd (.inl hlife) (h m hm)
    · next hlife => exact absurd (.inr hlife) (h m hm)
    · rfl

theorem chooseFor_unlaunched {fresh : Bool} {st : StreamId} {s : State} {m : Message} (hm : headOf s st = some m)
    (h : unlaunched m) : chooseFor fresh st s = applyRoute fresh st m (chooseRoute s st) s := by
  unfold chooseFor
  rw [hm]
  rcases h with h | h <;> simp only [h]

theorem chooseFor_stream (fresh : Bool) (st : StreamId) (s : State) : (chooseFor fresh st s).stream st =
    { s.stream st with queue := (s.stream st).queue.modifyHead (rerouted s st) } := by
  by_cases h : ∃ m, headOf s st = some m ∧ unlaunched m
  · obtain ⟨m, hm, hlife⟩ := h
    have hq := queue_of_headOf hm
    rw [chooseFor_unlaunched hm hlife, State.stream_of (applyRoute_sq ..), modHead_stream hq, ← rerouted_unlaunched hlife]
    conv_rhs => rw [hq]
    rfl
  · have stays : ∀ m ∈ headOf s st, ¬unlaunched m := fun m hm hlife => h ⟨m, hm, hlife⟩
    rw [chooseFor_launched stays]
    cases hq : (s.stream st).queue with
    | nil => rw [List.modifyHead_nil, ← hq]
    | cons m rest => rw [List.modifyHead_cons, rerouted_launched (stays m (headOf_of_queue hq)), ← hq]

theorem chooseFor_sameChoices (fresh : Bool) (st : StreamId) (s : State) : SameChoices s (chooseFor fresh st s) :=
  ⟨by simp, by simp, by simp⟩

/-! ## Every head of some streams -/

theorem rechoose_sameChoices (l : List StreamId) (s : State) : SameChoices s (rechoose l s) := ⟨by simp, by simp, by simp⟩

theorem rechoose_stream {l : List StreamId} (hl : l.Nodup) (s : State) (st : StreamId) : (rechoose l s).stream st =
    if st ∈ l then { s.stream st with queue := (s.stream st).queue.modifyHead (rerouted s st) } else s.stream st := by
  obtain ⟨hout, hin⟩ := foldl_streams (f := fun x st => chooseFor false st x) (I := SameChoices s)
    (fun x st => (chooseFor_local false st x).streams) (fun x st h => h.trans (chooseFor_sameChoices false st x)) hl (.refl s) st
  split
  · next hst =>
    obtain ⟨x, hx, hrow, hend⟩ := hin hst
    rw [rechoose, hend, chooseFor_stream, hrow, rerouted_congr (hx.chooseRoute (by rw [hrow]) (by rw [hrow]))]
  · next hst => exact hout hst

theorem rechooseAll_stream (s : State) (st : StreamId) : (rechooseAll s).stream st =
    { s.stream st with queue := (s.stream st).queue.modifyHead (rerouted s st) } := by
  rw [rechooseAll, rechoose_stream allStreams_nodup, if_pos (mem_allStreams st)]

theorem rechooseTenant_stream (u : TenantId) (s : State) (st : StreamId) : (rechooseTenant u s).stream st =
    if st.tenant = u then { s.stream st with queue := (s.stream st).queue.modifyHead (rerouted s st) } else s.stream st := by
  rw [rechooseTenant, rechoose_stream (streamsOf_nodup u)]
  simp only [mem_streamsOf]

/-- A route chosen before a re-choice is the one chosen after it. -/
theorem rechoose_chooseRoute {l : List StreamId} (hl : l.Nodup) (s : State) (st : StreamId) :
    chooseRoute (rechoose l s) st = chooseRoute s st := by
  refine (rechoose_sameChoices l s).chooseRoute ?_ ?_ <;> rw [rechoose_stream hl] <;> split <;> rfl

end Sys2Proof.Proofs
end

