-- ==== Sys2Proof/Proofs/RouteChoice.lean ====
section
/-!
The route of a head: the paths it is chosen from, the cheapest of them, and the tie policy (R88 to R91).
-/

namespace Sys2Proof.Proofs

open Sys2Proof.Machine Sys2Proof.Claims

/-! ## Candidates and partners (R88, R90) -/

section choice
variable {s : State} {st : StreamId} {p : PathId}

theorem ownsBelow_iff {o : SlotOwner} :
    ownsBelow (activeBank (s.plan p)) (s.path p).hopCond.usable o = true ↔ ownsSlot s p o := by
  simp only [ownsBelow, ownsSlot, slotOwner, List.any_eq_true, Bool.and_eq_true, Bool.or_eq_true, decide_eq_true_eq, beq_iff_eq,
    mem_allSlots, true_and]

theorem hasCapacity_iff {t : TenantId} : hasCapacity s t p = true ↔ capacityFor s t p := by
  simp only [hasCapacity, capacityFor, Bool.or_eq_true, Bool.and_eq_true, ownsBelow_iff, maskHas]

theorem meetsConditions_iff : meetsConditions s st p = true ↔ usableFor s st p := by
  simp only [meetsConditions, usableFor, Bool.and_eq_true, inService_iff, hasCapacity_iff, maskHas, and_assoc]

theorem isMicrowave_iff : isMicrowave s p = true ↔ (s.path p).settings.kind = .microwave := beq_iff_eq

theorem fallback_iff : fallback (s.tenant st.tenant).grant st.cls = true ↔ fallbackSet s st := by
  unfold fallback fallbackSet
  cases st.cls <;> simp

theorem mem_usable : p ∈ allPaths.filter (meetsConditions s st) ↔ usableFor s st p := by
  rw [List.mem_filter, meetsConditions_iff]
  exact and_iff_right (mem_allPaths p)

/-- Of classes U and M, the wireline paths are candidates only where no microwave path is usable (R88). -/
theorem mem_candidates_urgent (hc : st.cls ≠ .b) : p ∈ candidates s st ↔ candidate s st p := by
  have hcases : candidates s st = if ((allPaths.filter (meetsConditions s st)).filter (isMicrowave s)).isEmpty then
      (if fallback (s.tenant st.tenant).grant st.cls then allPaths.filter (meetsConditions s st) else [])
      else (allPaths.filter (meetsConditions s st)).filter (isMicrowave s) := by
    unfold candidates
    cases h : st.cls
    · rfl
    · rfl
    · exact absurd h hc
  have hnone : ((allPaths.filter (meetsConditions s st)).filter (isMicrowave s)).isEmpty = true ↔
      ∀ q, (s.path q).settings.kind = .microwave → ¬usableFor s st q := by
    simp only [List.isEmpty_iff, List.filter_eq_nil_iff, mem_usable, isMicrowave_iff]
    exact ⟨fun h q hk hu => h q hu hk, fun h q hu hk => h q hk hu⟩
  rw [hcases, candidate]
  by_cases hmw : ∀ q, (s.path q).settings.kind = .microwave → ¬usableFor s st q
  · rw [if_pos (hnone.mpr hmw)]
    split
    · next hf =>
      rw [mem_usable]
      exact (and_iff_left (.inr (.inr ⟨fallback_iff.mp hf, hmw⟩))).symm
    · next hf =>
      refine iff_of_false List.not_mem_nil ?_
      rintro ⟨hu, hb | hk | ⟨hset, -⟩⟩
      · exact hc hb
      · exact hmw p hk hu
      · exact hf (fallback_iff.mpr hset)
  · rw [if_neg (mt hnone.mp hmw), List.mem_filter, mem_usable, isMicrowave_iff]
    refine and_congr_right fun _ => ⟨fun hk => .inr (.inl hk), ?_⟩
    rintro (hb | hk | ⟨-, hno⟩)
    · exact absurd hb hc
    · exact hk
    · exact absurd hno hmw

theorem mem_candidates : p ∈ candidates s st ↔ candidate s st p := by
  by_cases hc : st.cls = .b
  · have hbase : candidates s st = allPaths.filter (meetsConditions s st) := by
      unfold candidates
      rw [hc]
    rw [hbase, mem_usable, candidate]
    exact (and_iff_left (.inl hc)).symm
  · exact mem_candidates_urgent hc

theorem mem_partnerSet {first : PathId} : p ∈ partnerSet s st first ↔ partnerable s st first p := by
  rw [partnerSet, List.mem_filter, and_iff_right (mem_allPaths p)]
  simp only [partnerable, Bool.and_eq_true, Bool.or_eq_true, bne_iff_ne, beq_iff_eq, meetsConditions_iff, isMicrowave_iff,
    fallback_iff, and_assoc]

theorem partnerWanted_iff {first : PathId} : partnerWanted s st first = true ↔ partnerAsked s st first := by
  have asked (d : DualMode) : (match d with
      | .off => false
      | .always => true
      | .onDegrade => (s.path first).state == .watch || (s.path first).state == .fading) = true ↔
      d = .always ∨ (d = .onDegrade ∧ ((s.path first).state = .watch ∨ (s.path first).state = .fading)) := by
    cases d <;> simp
  unfold partnerWanted partnerAsked dualMode
  cases st.cls
  · exact asked _
  · exact asked _
  · simp

end choice

/-! ## The cheapest, and ties (R89) -/

/-- The lists that a choice is made from stand in the order of the paths. -/
theorem paths_pairwise {l : List PathId} (h : l.Sublist allPaths) : l.Pairwise (·.val < ·.val) :=
  List.Pairwise.sublist h (by decide)

theorem candidates_sublist (s : State) (st : StreamId) : (candidates s st).Sublist allPaths := by
  have base : (allPaths.filter (meetsConditions s st)).Sublist allPaths := List.filter_sublist
  have urgent : (if ((allPaths.filter (meetsConditions s st)).filter (isMicrowave s)).isEmpty then
      (if fallback (s.tenant st.tenant).grant st.cls then allPaths.filter (meetsConditions s st) else [])
      else (allPaths.filter (meetsConditions s st)).filter (isMicrowave s)).Sublist allPaths := by
    split
    · split
      · exact base
      · exact List.nil_sublist _
    · exact List.filter_sublist.trans base
  unfold candidates
  split
  · exact base
  · exact urgent

theorem mem_lowestCost {s : State} {l : List PathId} {w : PathId} :
    w ∈ lowestCost s l ↔ w ∈ l ∧ ∀ q ∈ l, costOf s w ≤ costOf s q := by
  simp only [lowestCost, List.mem_filter, List.all_eq_true, decide_eq_true_eq]

/-- The paths tied with one of lowest cost. -/
theorem mem_lowestCost_of_mem {s : State} {l : List PathId} {w q : PathId} (hw : w ∈ lowestCost s l) :
    q ∈ lowestCost s l ↔ q ∈ l ∧ costOf s q = costOf s w := by
  obtain ⟨hmem, hmin⟩ := mem_lowestCost.mp hw
  rw [mem_lowestCost]
  refine and_congr_right fun hq => ⟨fun h => Nat.le_antisymm (h w hmem) (hmin q hq), fun h r hr => ?_⟩
  rw [h]
  exact hmin r hr

theorem lowestCost_eq_nil {s : State} {l : List PathId} : lowestCost s l = [] ↔ l = [] := by
  constructor
  · intro h
    by_contra hl
    obtain ⟨w, hw, hmin⟩ := l.toFinset.exists_min_image (costOf s) (List.toFinset_nonempty_iff l |>.mpr hl)
    have hlow : w ∈ lowestCost s l :=
      mem_lowestCost.mpr ⟨List.mem_toFinset.mp hw, fun q hq => hmin q (List.mem_toFinset.mpr hq)⟩
    exact List.not_mem_nil (h ▸ hlow)
  · rintro rfl
    rfl


section ties
variable {s : State} {st : StreamId} {tied : List PathId}

theorem head?_least {l : List PathId} (hl : l.Pairwise (·.val < ·.val)) {w : PathId} (h : l.head? = some w) :
    w ∈ l ∧ ∀ q ∈ l, w ≤ q := by
  cases l with
  | nil => cases h
  | cons a l =>
    cases h
    refine ⟨List.mem_cons_self, fun q hq => ?_⟩
    rcases List.mem_cons.mp hq with rfl | hq
    · exact Nat.le_refl _
    · exact Nat.le_of_lt ((List.pairwise_cons.mp hl).1 q hq)

theorem tieBreak_none : tieBreak s st tied = none ↔ tied = [] := by
  unfold tieBreak
  split
  · exact List.head?_eq_none_iff
  · split
    · exact List.head?_eq_none_iff
    · split
      · next hp => exact iff_of_false (Option.some_ne_none _) fun e => by simp [e] at hp
      · exact List.head?_eq_none_iff
  · dsimp only
    split
    · next p hp => exact iff_of_false (Option.some_ne_none p) fun e => by simp [e] at hp
    · exact List.head?_eq_none_iff

/-- The tie policy among tied paths in rising order. -/
def TieWon (s : State) (st : StreamId) (tied : PathId → Prop) (w : PathId) : Prop :=
  match (s.tenant st.tenant).settings.tie with
  | .fixed => ∀ q, tied q → w ≤ q
  | .last => (∀ l, (s.stream st).lastPath = some l → tied l → w = l) ∧
      ((∀ l, (s.stream st).lastPath = some l → ¬tied l) → ∀ q, tied q → w ≤ q)
  | .spread => ((s.stream st).admitted.toNat % 6 ≤ w.val ∧
      ∀ q : PathId, tied q → (s.stream st).admitted.toNat % 6 ≤ q.val → w ≤ q) ∨
      ((∀ q : PathId, tied q → q.val < (s.stream st).admitted.toNat % 6) ∧ ∀ q, tied q → w ≤ q)

theorem wins_iff {among : PathId → Prop} {w : PathId} : wins s st among w ↔
    among w ∧ (∀ q, among q → costOf s w ≤ costOf s q) ∧ TieWon s st (fun q => among q ∧ costOf s q = costOf s w) w := by
  unfold wins TieWon
  cases (s.tenant st.tenant).settings.tie <;> rfl

theorem tieBreak_won (hl : tied.Pairwise (·.val < ·.val)) {w : PathId} (h : tieBreak s st tied = some w) :
    w ∈ tied ∧ TieWon s st (· ∈ tied) w := by
  revert h
  unfold tieBreak TieWon
  cases (s.tenant st.tenant).settings.tie with
  | fixed => exact fun h => head?_least hl h
  | last =>
    dsimp only
    intro h
    split at h
    · next hlast =>
      obtain ⟨hw, hleast⟩ := head?_least hl h
      refine ⟨hw, fun l e => ?_, fun _ => hleast⟩
      rw [hlast] at e
      cases e
    · next p hlast =>
      split at h
      · next hp =>
        cases h
        have hp := List.contains_iff_mem.mp hp
        refine ⟨hp, fun l e _ => ?_, fun hno => absurd hp (hno _ hlast)⟩
        rw [hlast] at e
        exact Option.some.inj e
      · next hp =>
        obtain ⟨hw, hleast⟩ := head?_least hl h
        refine ⟨hw, fun l e hin => ?_, fun _ => hleast⟩
        rw [hlast] at e
        cases e
        exact absurd (List.contains_iff_mem.mpr hin) hp
  | spread =>
    dsimp only
    intro h
    split at h
    · next p hp =>
      cases h
      have hstart : (s.stream st).admitted.toNat % 6 ≤ w.val := by simpa using List.find?_some hp
      exact ⟨List.mem_of_find?_eq_some hp, .inl ⟨hstart, fun q hq hle => find?_least hl hp hq (decide_eq_true hle)⟩⟩
    · next hp =>
      obtain ⟨hw, hleast⟩ := head?_least hl h
      refine ⟨hw, .inr ⟨fun q hq => ?_, hleast⟩⟩
      have hno := List.find?_eq_none.mp hp q hq
      exact Nat.lt_of_not_le fun hle => hno (decide_eq_true hle)

/-- The winner that a choice takes from a list of paths. -/
theorem tieBreak_wins {l : List PathId} (hl : l.Sublist allPaths) {among : PathId → Prop} (hmem : ∀ q, q ∈ l ↔ among q) {w : PathId}
    (h : tieBreak s st (lowestCost s l) = some w) : wins s st among w := by
  have hsorted : (lowestCost s l).Pairwise (·.val < ·.val) := paths_pairwise (List.filter_sublist.trans hl)
  obtain ⟨hw, hwon⟩ := tieBreak_won hsorted h
  obtain ⟨hin, hmin⟩ := mem_lowestCost.mp hw
  have htied : (· ∈ lowestCost s l) = fun q => among q ∧ costOf s q = costOf s w := by
    funext q
    rw [mem_lowestCost_of_mem hw, hmem]
  rw [htied] at hwon
  exact wins_iff.mpr ⟨(hmem w).mp hin, fun q hq => hmin q ((hmem q).mpr hq), hwon⟩

end ties

/-! ## The route (R90, R91) -/

section route
variable {s : State} {st : StreamId}

theorem partnerSet_sublist (first : PathId) : (partnerSet s st first).Sublist allPaths := List.filter_sublist

theorem chooseRoute_none : chooseRoute s st = none ↔ ∀ p, ¬candidate s st p := by
  rw [chooseRoute, Option.map_eq_none_iff, firstPath, tieBreak_none, lowestCost_eq_nil, List.eq_nil_iff_forall_not_mem]
  simp only [mem_candidates]

/-- The first path and the partner of a chosen route. -/
theorem chooseRoute_some {r : Route} (h : chooseRoute s st = some r) : firstPath s st = some r.first ∧
    r.partner = if partnerWanted s st r.first then tieBreak s st (lowestCost s (partnerSet s st r.first)) else none := by
  obtain ⟨p, hp, rfl⟩ := Option.map_eq_some_iff.mp h
  exact ⟨hp, rfl⟩

theorem chooseRoute_first {r : Route} (h : chooseRoute s st = some r) : wins s st (candidate s st) r.first :=
  tieBreak_wins (candidates_sublist s st) (fun _ => mem_candidates) (chooseRoute_some h).1

theorem chooseRoute_partner {r : Route} (h : chooseRoute s st = some r) {q : PathId} (hq : r.partner = some q) :
    wins s st (partnerable s st r.first) q := by
  rw [(chooseRoute_some h).2] at hq
  split at hq
  · exact tieBreak_wins (partnerSet_sublist r.first) (fun _ => mem_partnerSet) hq
  · cases hq

theorem chooseRoute_partner_none {r : Route} (h : chooseRoute s st = some r) (hasked : partnerAsked s st r.first) :
    r.partner = none ↔ ∀ q, ¬partnerable s st r.first q := by
  rw [(chooseRoute_some h).2, if_pos (partnerWanted_iff.mpr hasked), tieBreak_none, lowestCost_eq_nil,
    List.eq_nil_iff_forall_not_mem]
  simp only [mem_partnerSet]

theorem chooseRoute_partner_unasked {r : Route} (h : chooseRoute s st = some r) (hasked : ¬partnerAsked s st r.first) :
    r.partner = none := by
  rw [(chooseRoute_some h).2, if_neg (mt partnerWanted_iff.mp hasked)]

end route

/-- Settles O57: the route by what its lists hold and the tie policy takes of them, the re-choice by the choice for each stream. -/
theorem routesAreTheCheapestCandidates : Obligations.RoutesAreTheCheapestCandidates := by
  unfold Obligations.RoutesAreTheCheapestCandidates
  intro s
  refine ⟨fun st => ⟨chooseRoute_none, fun r hr => ⟨chooseRoute_first hr, chooseRoute_partner_unasked hr, fun hasked =>
    ⟨chooseRoute_partner_none hr hasked, fun q hq => chooseRoute_partner hr hq⟩⟩⟩, rechooseAll_stream s, ?_⟩
  exact state_ext (by simp)

end Sys2Proof.Proofs
end

