-- ==== Sys2Proof/Proofs/QueueHeads.lean ====
section
/-!
What the life state of the head of a queue says of its copies, and what the operations of SQ on a head keep of it (R90, R98, R110 to
R118). Two sets of paths are kept apart: those that the copies of a routed head may lie on, and those that a launching copy may lie on.
-/

namespace Sys2Proof.Proofs

open Sys2Proof.Machine Sys2Proof.Safety Sys2Proof.Claims

/-! ## The copies of a message -/

/-- The copies of a message, copy A first. -/
def copiesOf (m : Message) : List Copy := m.copyA.toList ++ m.copyB.toList

theorem mem_copiesOf {m : Message} {c : Copy} : c ∈ copiesOf m ↔ c ∈ m.copyA ∨ c ∈ m.copyB := by
  simp [copiesOf]

theorem copyIn_iff {x : CopyState} {o : Option Copy} : copyIn x o = true ↔ ∃ c ∈ o, c.state = x := by
  cases o <;> simp [copyIn]

theorem anyCopy_iff {x : CopyState} {m : Message} : anyCopy x m = true ↔ ∃ c ∈ copiesOf m, c.state = x := by
  simp only [anyCopy, Bool.or_eq_true, copyIn_iff, mem_copiesOf, or_and_right, exists_or]

theorem anyCopy_false_iff {x : CopyState} {m : Message} : anyCopy x m = false ↔ ∀ c ∈ copiesOf m, c.state ≠ x := by
  rw [← Bool.not_eq_true, anyCopy_iff]
  simp

theorem getCopy_mem {m : Message} {name : CopyName} {c : Copy} (h : getCopy m name = some c) : c ∈ copiesOf m := by
  cases name
  · exact mem_copiesOf.mpr (.inl h)
  · exact mem_copiesOf.mpr (.inr h)

/-- Two copies lie on different paths. -/
def Apart (m : Message) : Prop := ∀ a ∈ m.copyA, ∀ b ∈ m.copyB, a.path ≠ b.path

/-- The message has relaunched at most twice, and says so (R118). -/
def Relaunches (m : Message) : Prop := m.relaunchCount ≤ 2 ∧ (m.relaunched = true ↔ 0 < m.relaunchCount)

/-! ## Heads by their life state (Table 7-2) -/

/-- A head without a route. -/
structure Unrouted (m : Message) : Prop where
  life : m.life = .headUnrouted
  bareA : m.copyA = none
  bareB : m.copyB = none
  waits : m.routeWait.isSome = true

/-- A head with a route, no copy of which has started. -/
structure Routed (routes : PathId → Prop) (m : Message) : Prop where
  life : m.life = .headRouted
  first : m.copyA.isSome = true
  idle : ∀ c ∈ copiesOf m, c.state = .routed
  routes : ∀ c ∈ copiesOf m, routes c.path
  apart : Apart m
  waits : m.routeWait.isSome = true

/-- A head that has started; whether a copy is still launching is left open. -/
structure Started (carries : PathId → Prop) (m : Message) : Prop where
  life : m.life = .launching
  first : m.copyA.isSome = true
  numbered : m.seq.isSome = true
  begun : ∀ c ∈ copiesOf m, c.state ≠ .routed
  carries : ∀ c ∈ copiesOf m, c.state = .launching → carries c.path
  apart : Apart m
  waits : m.routeWait = none

/-- The three kinds of head. -/
def HeadFits (routes carries : PathId → Prop) (m : Message) : Prop :=
  Relaunches m ∧ (Unrouted m ∨ Routed routes m ∨ (Started carries m ∧ anyCopy .launching m = true))

/-- A launching head of which copies have just been cut. -/
def HeadCuts (carries : PathId → Prop) (m : Message) : Prop := Relaunches m ∧ Started carries m

section heads
variable {routes routes' carries carries' : PathId → Prop} {m : Message}

theorem Started.mono (h : Started carries m) (hc : ∀ p, carries p → carries' p) : Started carries' m where
  life := h.life
  first := h.first
  numbered := h.numbered
  begun := h.begun
  carries c hmem hl := hc _ (h.carries c hmem hl)
  apart := h.apart
  waits := h.waits

theorem HeadFits.mono (h : HeadFits routes carries m) (hr : ∀ p, routes p → routes' p) (hc : ∀ p, carries p → carries' p) :
    HeadFits routes' carries' m := by
  obtain ⟨hrelaunch, hkind⟩ := h
  refine ⟨hrelaunch, hkind.imp id (Or.imp (fun k => ?_) (And.imp_left (·.mono hc)))⟩
  exact ⟨k.life, k.first, k.idle, fun c hmem => hr _ (k.routes c hmem), k.apart, k.waits⟩

theorem HeadFits.unrouted (h : HeadFits routes carries m) (hl : m.life = .headUnrouted) : Unrouted m := by
  obtain ⟨-, hu | hr | ⟨hs, -⟩⟩ := h
  · exact hu
  · exact absurd (hl.symm.trans hr.life) (by decide)
  · exact absurd (hl.symm.trans hs.life) (by decide)

theorem HeadFits.routed (h : HeadFits routes carries m) (hl : m.life = .headRouted) : Routed routes m := by
  obtain ⟨-, hu | hr | ⟨hs, -⟩⟩ := h
  · exact absurd (hl.symm.trans hu.life) (by decide)
  · exact hr
  · exact absurd (hl.symm.trans hs.life) (by decide)

theorem HeadFits.started (h : HeadFits routes carries m) (hl : m.life = .launching) :
    Started carries m ∧ anyCopy .launching m = true := by
  obtain ⟨-, hu | hr | hs⟩ := h
  · exact absurd (hl.symm.trans hu.life) (by decide)
  · exact absurd (hl.symm.trans hr.life) (by decide)
  · exact hs

/-- Only a launching head has a launching copy. -/
theorem HeadFits.launching_of_copy (h : HeadFits routes carries m) {c : Copy} (hc : c ∈ copiesOf m) (hl : c.state = .launching) :
    m.life = .launching := by
  obtain ⟨-, hu | hr | ⟨hs, -⟩⟩ := h
  · simp [copiesOf, hu.bareA, hu.bareB] at hc
  · exact absurd (hl.symm.trans (hr.idle c hc)) (by decide)
  · exact hs.life

theorem HeadFits.unlaunched_waits (h : HeadFits routes carries m) (hl : unlaunched m) :
    m.routeWait.isSome = true := by
  rcases hl with hl | hl
  · exact (h.unrouted hl).waits
  · exact (h.routed hl).waits

end heads

/-! ## The invariant in these words -/

/-- The path is in service. -/
def served (s : State) (p : PathId) : Prop := inService (s.path p).state = true

theorem served_of {s t : State} (h : t.rs.paths = s.rs.paths) : served t = served s := by
  funext p
  rw [served, served, State.path_of h]

theorem headFits_of_copiesOk {s : State} {m : Message} (hlife : m.life ≠ .queued) (h : CopiesOk s m) :
    HeadFits (served s) (served s) m := by
  have own (c : Copy) (hc : c ∈ copiesOf m) : CopyServed s m.life c :=
    (mem_copiesOf.mp hc).elim (h.servedA c) (h.servedB c)
  refine ⟨h.relaunches, ?_⟩
  cases hl : m.life with
  | queued => exact absurd hl hlife
  | headUnrouted =>
    obtain ⟨ha, hb⟩ := h.unrouted hl
    exact .inl ⟨hl, ha, hb, h.waiting.mpr (by simp [hl])⟩
  | headRouted =>
    obtain ⟨hfirst, hlaunching, hlaunched, hcut⟩ := h.routed hl
    refine .inr (.inl ⟨hl, hfirst, fun c hc => ?_, fun c hc => own c hc (.inl hl), h.apart, h.waiting.mpr (by simp [hl])⟩)
    cases hstate : c.state with
    | routed => rfl
    | launching => exact absurd hstate (anyCopy_false_iff.mp hlaunching c hc)
    | launched => exact absurd hstate (anyCopy_false_iff.mp hlaunched c hc)
    | cut => exact absurd hstate (anyCopy_false_iff.mp hcut c hc)
  | launching =>
    obtain ⟨hfirst, hseq, hany, hrouted⟩ := h.launching hl
    have hwait : m.routeWait = none := Option.not_isSome_iff_eq_none.mp fun e => h.waiting.mp e hl
    exact .inr (.inr ⟨⟨hl, hfirst, hseq, anyCopy_false_iff.mp hrouted, fun c hc hs => own c hc (.inr hs), h.apart, hwait⟩, hany⟩)

theorem copiesOk_of_headFits {s : State} {m : Message} (h : HeadFits (served s) (served s) m) : CopiesOk s m := by
  have own (c : Copy) (hc : c ∈ copiesOf m) : CopyServed s m.life c := by
    rintro (hl | hs)
    · exact (h.routed hl).routes c hc
    · exact (h.started (h.launching_of_copy hc hs)).1.carries c hc hs
  have apart : Apart m := by
    obtain ⟨-, hu | hr | ⟨hs, -⟩⟩ := h
    · exact fun a ha => by simp [hu.bareA] at ha
    · exact hr.apart
    · exact hs.apart
  refine ⟨fun hl => ⟨(h.unrouted hl).bareA, (h.unrouted hl).bareB⟩, fun hl => ?_, fun hl => ?_, apart,
    fun c hc => own c (mem_copiesOf.mpr (.inl hc)), fun c hc => own c (mem_copiesOf.mpr (.inr hc)), h.1, ?_⟩
  · have hr := h.routed hl
    have none_in {x : CopyState} (hx : CopyState.routed ≠ x) : anyCopy x m = false :=
      anyCopy_false_iff.mpr fun c hc => by rw [hr.idle c hc]; exact hx
    exact ⟨hr.first, none_in (by decide), none_in (by decide), none_in (by decide)⟩
  · obtain ⟨hs, hany⟩ := h.started hl
    exact ⟨hs.first, hs.numbered, hany, anyCopy_false_iff.mpr hs.begun⟩
  · obtain ⟨-, hu | hr | ⟨hs, -⟩⟩ := h
    · simp [hu.life, hu.waits]
    · simp [hr.life, hr.waits]
    · simp [hs.life, hs.waits]

/-! ## Queues -/

/-- The head of a queue has a property, and the messages behind it stand as they were admitted. -/
structure QueueFits (H : Message → Prop) (q : List Message) : Prop where
  head : ∀ m ∈ q.head?, H m
  tail : ∀ x ∈ q.tail, waitingAsAdmitted x

section queues
variable {H K : Message → Prop} {q : List Message}

theorem queueFits_nil : QueueFits H [] := ⟨by simp, by simp⟩

theorem queueFits_cons {m : Message} {rest : List Message} :
    QueueFits H (m :: rest) ↔ H m ∧ ∀ x ∈ rest, waitingAsAdmitted x :=
  ⟨fun h => ⟨h.head m rfl, h.tail⟩, fun ⟨hm, hrest⟩ => ⟨fun _ e => Option.some.inj e ▸ hm, hrest⟩⟩

theorem QueueFits.imp (h : QueueFits H q) (hHK : ∀ m, H m → K m) : QueueFits K q :=
  ⟨fun m hm => hHK m (h.head m hm), h.tail⟩

theorem QueueFits.modifyHead {f : Message → Message} (h : QueueFits H q) (hf : ∀ m, H m → K (f m)) :
    QueueFits K (q.modifyHead f) := by
  cases q with
  | nil => exact queueFits_nil
  | cons m rest =>
    obtain ⟨hm, hrest⟩ := queueFits_cons.mp h
    exact queueFits_cons.mpr ⟨hf m hm, hrest⟩

end queues

/-- Every queue of the part fits: the copies of routed heads lie on these paths, the launching copies on those. -/
def Loose (routes carries : PathId → Prop) (s : State) : Prop :=
  ∀ st, QueueFits (HeadFits routes carries) (s.stream st).queue

/-- Every copy that can carry a cell lies on a path in service (R98). -/
def Good (s : State) : Prop := Loose (served s) (served s) s

theorem good_of_invariants {s : State} (hheads : HeadsOk s) (hcopies : AllCopiesOk s) : Good s := fun st => by
  obtain ⟨hlife, htail⟩ := hheads st
  exact ⟨fun m hm => headFits_of_copiesOk (hlife m hm) (hcopies st m hm), htail⟩

theorem Good.copiesOk {s : State} (h : Good s) : AllCopiesOk s := fun st m hm => copiesOk_of_headFits ((h st).head m hm)

theorem Loose.mono {routes routes' carries carries' : PathId → Prop} {s : State} (h : Loose routes carries s)
    (hr : ∀ p, routes p → routes' p) (hc : ∀ p, carries p → carries' p) : Loose routes' carries' s :=
  fun st => (h st).imp fun _ hm => hm.mono hr hc

/-- Where the routed copies lie does not matter before a re-choice. -/
abbrev anywhere : PathId → Prop := fun _ => True

theorem Loose.forget {routes carries carries' : PathId → Prop} {s : State} (h : Loose routes carries s)
    (hc : ∀ p, carries p → carries' p) : Loose anywhere carries' s := h.mono (fun _ _ => trivial) hc

/-- Only the queues count, and which paths are in service. -/
theorem Loose.of_queues {routes carries : PathId → Prop} {s t : State} (h : Loose routes carries s)
    (hq : ∀ st, (t.stream st).queue = (s.stream st).queue) : Loose routes carries t := fun st => by
  rw [hq]
  exact h st

theorem Good.of_queues {s t : State} (h : Good s) (hq : ∀ st, (t.stream st).queue = (s.stream st).queue)
    (hserved : ∀ p, served s p → served t p) : Good t :=
  (Loose.of_queues h hq).mono hserved hserved

theorem Good.of_blocks {s t : State} (h : Good s) (hstreams : t.sq.streams = s.sq.streams) (hpaths : t.rs.paths = s.rs.paths) :
    Good t :=
  h.of_queues (fun st => by rw [State.stream, State.stream, hstreams]) fun p hp => by rw [served_of hpaths]; exact hp

end Sys2Proof.Proofs
end

