-- ==== Sys2Proof/Proofs/HeadOperations.lean ====
section
/-!
Every operation of SQ on the head of a queue leaves a head that fits: choices, starting, launching, cuts, and leaving the queue (R91,
R110 to R118).
-/

namespace Sys2Proof.Proofs

open Sys2Proof.Machine Sys2Proof.Safety Sys2Proof.Claims

/-! ## Choices (R90, R91) -/

theorem wins_among {s : State} {st : StreamId} {among : PathId → Prop} {w : PathId} (h : wins s st among w) : among w :=
  (wins_iff.mp h).1

theorem usableFor_served {s : State} {st : StreamId} {p : PathId} (h : usableFor s st p) : served s p :=
  (inService_iff _).mpr h.1

theorem chooseRoute_served {s : State} {st : StreamId} {r : Route} (h : chooseRoute s st = some r) :
    served s r.first ∧ ∀ q, r.partner = some q → q ≠ r.first ∧ served s q := by
  obtain ⟨hfirst, -⟩ := wins_among (chooseRoute_first h)
  refine ⟨usableFor_served hfirst, fun q hq => ?_⟩
  obtain ⟨hne, husable, -⟩ := wins_among (chooseRoute_partner h hq)
  exact ⟨hne, usableFor_served husable⟩

section choices
variable {routes carries : PathId → Prop} {s : State} {st : StreamId} {m : Message}

theorem routedHead_fits (hrelaunch : Relaunches m) (hwait : m.routeWait.isSome = true) :
    HeadFits (served s) carries (routedHead (chooseRoute s st) m) := by
  cases h : chooseRoute s st with
  | none => exact ⟨hrelaunch, .inl ⟨rfl, rfl, rfl, hwait⟩⟩
  | some r =>
    obtain ⟨hfirst, hpartner⟩ := chooseRoute_served h
    have copies (c : Copy) (hc : c ∈ copiesOf (routedHead (some r) m)) : c.state = .routed ∧ served s c.path := by
      rcases mem_copiesOf.mp hc with ha | hb
      · cases ha
        exact ⟨rfl, hfirst⟩
      · obtain ⟨q, hq, rfl⟩ := Option.map_eq_some_iff.mp hb
        exact ⟨rfl, (hpartner q hq).2⟩
    refine ⟨hrelaunch, .inr (.inl ⟨rfl, rfl, fun c hc => (copies c hc).1, fun c hc => (copies c hc).2, ?_, hwait⟩)⟩
    intro a ha b hb
    cases ha
    obtain ⟨q, hq, rfl⟩ := Option.map_eq_some_iff.mp hb
    exact (hpartner q hq).1.symm

theorem rerouted_fits (h : HeadFits routes carries m) : HeadFits (served s) carries (rerouted s st m) := by
  by_cases hl : unlaunched m
  · rw [rerouted_unlaunched hl]
    exact routedHead_fits h.1 (h.unlaunched_waits hl)
  · rw [rerouted_launched hl]
    obtain ⟨hrelaunch, hu | hr | hs⟩ := h
    · exact absurd (.inl hu.life) hl
    · exact absurd (.inr hr.life) hl
    · exact ⟨hrelaunch, .inr (.inr hs)⟩

theorem chooseFor_queue {fresh : Bool} (h : QueueFits (HeadFits routes carries) (s.stream st).queue) :
    QueueFits (HeadFits (served s) carries) ((chooseFor fresh st s).stream st).queue := by
  rw [chooseFor_stream]
  exact h.modifyHead fun m hm => rerouted_fits hm

theorem rechooseAll_loose (h : Loose routes carries s) : Loose (served s) carries (rechooseAll s) := fun st => by
  rw [rechooseAll_stream]
  exact (h st).modifyHead fun m hm => rerouted_fits hm

theorem rechooseAll_good (h : Loose routes (served s) s) : Good (rechooseAll s) := by
  rw [Good, served_of (s := s) (by simp)]
  exact rechooseAll_loose h

theorem rechooseTenant_good (u : TenantId) (h : Good s) : Good (rechooseTenant u s) := by
  rw [Good, served_of (s := s) (by simp)]
  intro st
  rw [rechooseTenant_stream]
  split
  · exact (h st).modifyHead fun m hm => rerouted_fits hm
  · exact h st

end choices

/-! ## The next message becomes head (R110) -/

section leaving
variable {routes carries : PathId → Prop} {s : State} {st : StreamId} {H : Message → Prop}

theorem becomeHead_queue (h : ∀ m ∈ (s.stream st).queue, waitingAsAdmitted m) :
    QueueFits (HeadFits (served s) carries) ((becomeHead st s).stream st).queue := by
  cases hq : (s.stream st).queue with
  | nil =>
    rw [(becomeHead_empty hq).1, hq]
    exact queueFits_nil
  | cons m rest =>
    rw [hq] at h
    obtain ⟨-, -, hcount, hflag, -⟩ := h m List.mem_cons_self
    rw [(becomeHead_next hq).1]
    exact queueFits_cons.mpr ⟨routedHead_fits (m := madeHead (routeLimit s st) m) (by simp [Relaunches, madeHead, hcount, hflag]) rfl,
      fun x hx => h x (List.mem_cons_of_mem m hx)⟩

theorem becomeHead_local (st : StreamId) (s : State) : StreamLocal st s (becomeHead st s) :=
  (modHead_local st _ s).trans (chooseFor_local true st _)

theorem removeHead_queue (h : QueueFits H (s.stream st).queue) :
    QueueFits (HeadFits (served s) carries) ((removeHead st s).stream st).queue := by
  refine becomeHead_queue (s := s.modStream st fun x => { x with queue := x.queue.tail }) fun m hm => ?_
  rw [State.stream_modStream_same] at hm
  exact h.tail m hm

theorem finishHead_queue (h : QueueFits H (s.stream st).queue) :
    QueueFits (HeadFits (served s) carries) ((finishHead st s).stream st).queue := by
  set u := s.modStream st fun x => { x with completed := satInc x.completed } with hu
  have hrow : (u.stream st).queue = (s.stream st).queue := by rw [hu, State.stream_modStream_same]
  have hsq : (finishHead st s).sq = (removeHead st u).sq := tellRoom_frame .. |>.2.2.2.2.2.2.2.1
  rw [State.stream_of hsq]
  exact removeHead_queue (s := u) (H := H) (by rw [hrow]; exact h)

/-- A stream whose head is dropped, before its record is removed. -/
def dropCounted (cause : DropCause) (x : Stream) : Stream :=
  { x with dropped := satInc x.dropped, counters := countDrop cause x.counters }

theorem dropHead_stream (m : Message) (cause : DropCause) :
    (dropHead st m cause s).stream = (removeHead st (s.modStream st (dropCounted cause))).stream := by
  funext x
  refine State.stream_of ?_ x
  unfold dropHead dropCounted
  simp

theorem dropHead_queue (m : Message) (cause : DropCause) (h : QueueFits H (s.stream st).queue) :
    QueueFits (HeadFits (served s) carries) ((dropHead st m cause s).stream st).queue := by
  rw [dropHead_stream]
  refine removeHead_queue (s := s.modStream st (dropCounted cause)) (H := H) ?_
  rw [State.stream_modStream_same]
  exact h

theorem dropHead_streamsBut (m : Message) (cause : DropCause) : streamsBut st s (dropHead st m cause s) := fun x hx => by
  rw [dropHead_stream]
  exact ((modStream_local st _ s).trans (removeHead_local st _)).streams x hx

end leaving

/-! ## Admission (R109, R110) -/

theorem QueueFits.append {H : Message → Prop} {q : List Message} {m : Message} (h : QueueFits H q) (hne : q ≠ [])
    (hm : waitingAsAdmitted m) : QueueFits H (q ++ [m]) := by
  cases q with
  | nil => exact absurd rfl hne
  | cons a rest =>
    refine ⟨h.head, fun x hx => ?_⟩
    rcases List.mem_append.mp hx with hx | hx
    · exact h.tail x hx
    · exact List.mem_singleton.mp hx ▸ hm

theorem countSq_stream (s : State) (st x : StreamId) (f : SqCounters → SqCounters) :
    ((s.countSq st f).stream x).queue = (s.stream x).queue := by
  rw [State.countSq, State.stream_modStream]
  split
  · next h => rw [h]
  · rfl

section admission
variable {s : State} (st : StreamId) (bytes : List Byte) (stamp : Stamp) (lock : Bool) (source : Source)

/-- The record of an admitted message. -/
def admittedMessage (s : State) : Message :=
  { length := bytes.length, cells := lowestFree (allocatedCells s) Config.storeCells (cellsFor bytes.length) 0, originStamp := stamp,
    originLock := lock, source := source }

/-- The part with an admitted message at the tail of its queue and in the cell store. -/
def withMessage (s : State) : State :=
  ({ s with sq := { s.sq with store := fillCells (admittedMessage bytes stamp lock source s).cells bytes s.sq.store } } : State).modStream
    st fun x => { x with queue := x.queue ++ [admittedMessage bytes stamp lock source s], admitted := satInc x.admitted }

theorem admittedMessage_waiting (s : State) : waitingAsAdmitted (admittedMessage bytes stamp lock source s) :=
  ⟨rfl, rfl, rfl, rfl, rfl, rfl⟩

/-- The three outcomes of a submission (R109). -/
theorem admitMessage_cases (s : State) :
    (admitMessage st bytes stamp lock source s).1 = s.countSq st (fun c => { c with fullRefusals := satInc c.fullRefusals }) ∨
    (admitMessage st bytes stamp lock source s).1 = s.countSq st (fun c => { c with quotaRefusals := satInc c.quotaRefusals }) ∨
    (admitMessage st bytes stamp lock source s).1 = if (s.stream st).queue.isEmpty then
      becomeHead st (withMessage st bytes stamp lock source s) else withMessage st bytes stamp lock source s := by
  unfold admitMessage
  dsimp only
  split
  · exact .inl rfl
  · split
    · exact .inr (.inl rfl)
    · exact .inr (.inr rfl)

theorem withMessage_stream (s : State) (x : StreamId) : (withMessage st bytes stamp lock source s).stream x =
    if x = st then { s.stream st with
      queue := (s.stream st).queue ++ [admittedMessage bytes stamp lock source s], admitted := satInc (s.stream st).admitted }
    else s.stream x := State.stream_modStream ..

theorem admitMessage_good (h : Good s) : Good (admitMessage st bytes stamp lock source s).1 := by
  have counted (f : SqCounters → SqCounters) : Good (s.countSq st f) :=
    h.of_queues (countSq_stream s st · f) fun _ hp => hp
  rcases admitMessage_cases st bytes stamp lock source s with e | e | e
  · rw [e]
    exact counted _
  · rw [e]
    exact counted _
  rw [e]
  set u := withMessage st bytes stamp lock source s with hu
  have hserved : served u = served s := rfl
  have hwaiting := admittedMessage_waiting bytes stamp lock source s
  split
  · next hempty =>
    have hempty := List.isEmpty_iff.mp hempty
    intro x
    rw [served_of (s := u) (by simp), hserved]
    by_cases hx : x = st
    · subst hx
      refine becomeHead_queue (s := u) fun m hm => ?_
      rw [hu, withMessage_stream, if_pos rfl, hempty] at hm
      exact List.mem_singleton.mp hm ▸ hwaiting
    · have hother : (becomeHead st u).stream x = s.stream x := by
        rw [(becomeHead_local st u).streams x hx, hu, withMessage_stream, if_neg hx]
      rw [hother]
      exact h x
  · next hfull =>
    intro x
    rw [hserved, hu, withMessage_stream]
    split
    · exact (h st).append (mt List.isEmpty_iff.mpr hfull) hwaiting
    · exact h x

end admission

end Sys2Proof.Proofs
end

