-- ==== Sys2Proof/Proofs/HeadLaunchesAndCuts.lean ====
section
/-!
A head that starts, launches a fragment, or loses a copy to a cut still fits: it is launching with a copy left, done, relaunched or
dropped (R113 to R118).
-/

namespace Sys2Proof.Proofs

open Sys2Proof.Machine Sys2Proof.Safety Sys2Proof.Claims

/-! ## A change of one copy -/

section copies
variable {carries carries' : PathId → Prop} {m : Message} {name : CopyName} {c o : Copy}

theorem mem_copiesOf_name : c ∈ copiesOf m ↔ getCopy m name = some c ∨ otherCopy name m = some c := by
  cases name
  · exact mem_copiesOf
  · exact mem_copiesOf.trans or_comm

theorem Apart.of_name (h : Apart m) (hc : getCopy m name = some c) (ho : otherCopy name m = some o) : o.path ≠ c.path := by
  cases name
  · exact (h c hc o ho).symm
  · exact h o ho c hc

theorem mem_copiesOf_modCopy {f : Copy → Copy} {d : Copy} (hc : getCopy m name = some c) :
    d ∈ copiesOf (modCopy name f m) ↔ d = f c ∨ otherCopy name m = some d := by
  cases name
  · have ha : m.copyA = some c := hc
    simp only [mem_copiesOf, modCopy, otherCopy, ha, Option.map_some, Option.mem_def, Option.some.injEq, eq_comm]
  · have hb : m.copyB = some c := hc
    simp only [mem_copiesOf, modCopy, otherCopy, hb, Option.map_some, Option.mem_def, Option.some.injEq, eq_comm, or_comm]

/-- A started head stays one when a copy changes on its path and does not go back to where it had not started. -/
theorem Started.modCopy (h : Started carries m) {f : Copy → Copy} (hc : getCopy m name = some c) (hpath : ∀ x, (f x).path = x.path)
    (hbegun : (f c).state ≠ .routed) (hown : (f c).state = .launching → carries' c.path)
    (hother : ∀ o, otherCopy name m = some o → o.state = .launching → carries' o.path) :
    Started carries' (modCopy name f m) where
  life := by cases name <;> exact h.life
  first := by cases name <;> simp [Machine.modCopy, h.first]
  numbered := by cases name <;> exact h.numbered
  begun d hd := by
    rcases (mem_copiesOf_modCopy hc).mp hd with rfl | ho
    · exact hbegun
    · exact h.begun d (mem_copiesOf_name.mpr (.inr ho))
  carries d hd hl := by
    rcases (mem_copiesOf_modCopy hc).mp hd with rfl | ho
    · rw [hpath]
      exact hown hl
    · exact hother d ho hl
  apart := by
    intro a ha b hb
    cases name
    · obtain ⟨x, hx, rfl⟩ := Option.map_eq_some_iff.mp ha
      rw [hpath]
      exact h.apart x hx b hb
    · obtain ⟨x, hx, rfl⟩ := Option.map_eq_some_iff.mp hb
      rw [hpath]
      exact h.apart a ha x hx
  waits := by cases name <;> exact h.waits

theorem relaunches_modCopy (f : Copy → Copy) (h : Relaunches m) : Relaunches (modCopy name f m) := by
  cases name <;> exact h

/-- A started head with no copy left launching is done unless every copy was cut (R116). -/
theorem Started.undone (h : Started carries m) (hdone : doneTest m = false) :
    anyCopy .launching m = true ∨ ∀ c ∈ copiesOf m, c.state = .cut := by
  have hrouted : anyCopy .routed m = false := anyCopy_false_iff.mpr h.begun
  by_cases hany : anyCopy .launching m = true
  · exact .inl hany
  · have hlaunching := Bool.eq_false_iff.mpr hany
    simp only [doneTest, hrouted, hlaunching, Bool.not_false, Bool.and_true] at hdone
    refine .inr fun c hc => ?_
    cases hstate : c.state with
    | routed => exact absurd hstate (h.begun c hc)
    | launching => exact absurd hstate (anyCopy_false_iff.mp hlaunching c hc)
    | launched => exact absurd hstate (anyCopy_false_iff.mp hdone c hc)
    | cut => rfl

end copies

/-! ## Starting (R114) -/

theorem startedHead_fits {routes carries : PathId → Prop} {m : Message} (hrelaunch : Relaunches m) (h : Routed carries m)
    (lim : Nat) (seq : Seq) : HeadFits routes carries (startedHead lim seq m) := by
  have copies {c : Copy} (hc : c ∈ copiesOf (startedHead lim seq m)) : ∃ d ∈ copiesOf m, c = startCopy lim d := by
    rcases mem_copiesOf.mp hc with hc | hc
    · obtain ⟨d, hd, rfl⟩ := Option.map_eq_some_iff.mp hc
      exact ⟨d, mem_copiesOf.mpr (.inl hd), rfl⟩
    · obtain ⟨d, hd, rfl⟩ := Option.map_eq_some_iff.mp hc
      exact ⟨d, mem_copiesOf.mpr (.inr hd), rfl⟩
  obtain ⟨a, ha⟩ := Option.isSome_iff_exists.mp h.first
  have started : Started carries (startedHead lim seq m) := {
    life := rfl
    first := by simp [startedHead, ha]
    numbered := rfl
    begun c hc := by
      obtain ⟨d, -, rfl⟩ := copies hc
      exact CopyState.noConfusion
    carries c hc _ := by
      obtain ⟨d, hd, rfl⟩ := copies hc
      exact h.routes d hd
    apart a ha b hb := by
      obtain ⟨x, hx, rfl⟩ := Option.map_eq_some_iff.mp ha
      obtain ⟨y, hy, rfl⟩ := Option.map_eq_some_iff.mp hb
      exact h.apart x hx y hy
    waits := rfl }
  refine ⟨hrelaunch, .inr (.inr ⟨started, anyCopy_iff.mpr ⟨startCopy lim a, mem_copiesOf.mpr (.inl ?_), rfl⟩⟩)⟩
  exact Option.map_eq_some_iff.mpr ⟨a, ha, rfl⟩

section operations
variable {routes carries : PathId → Prop} {s : State} {st : StreamId} {m : Message} {rest : List Message} {name : CopyName}

theorem startIfRouted_queue (h : QueueFits (HeadFits carries carries) (s.stream st).queue) :
    QueueFits (HeadFits carries carries) ((startIfRouted st s).stream st).queue := by
  cases hq : (s.stream st).queue with
  | nil =>
    have hhead : headOf s st = none := by rw [headOf, hq]; rfl
    rw [startIfRouted, hhead, hq]
    exact queueFits_nil
  | cons m rest =>
    rw [hq] at h
    obtain ⟨hm, hrest⟩ := queueFits_cons.mp h
    by_cases hl : m.life = .headRouted
    · rw [startIfRouted_routed hq hl]
      exact queueFits_cons.mpr ⟨startedHead_fits hm.1 (hm.routed hl) _ _, hrest⟩
    · rw [startIfRouted, headOf_of_queue hq]
      dsimp only
      rw [if_neg hl, hq]
      exact h

/-! ## Launching a fragment (R115, R116) -/

theorem advanced_path (n lim : Nat) (c : Copy) : (advanced n lim c).path = c.path := by
  unfold advanced
  split <;> rfl

theorem advanced_state {n lim : Nat} {c : Copy} (h : c.state = .launching) :
    (advanced n lim c).state = .launching ∨ (advanced n lim c).state = .launched := by
  unfold advanced
  split
  · exact .inr rfl
  · exact .inl h

/-- The head of which a fragment begins to leave, in the same queue. -/
theorem reportLaunch_stream (hq : (s.stream st).queue = m :: rest) :
    let head := modCopy name (advanced (fragCount m) (routeLimit s st)) m
    ∃ u : State, u.stream st = { s.stream st with queue := head :: rest } ∧ u.rs = s.rs ∧
      reportLaunch st name s = if doneTest head then finishHead st u else u := by
  intro head
  set u := s.modHead st fun m => modCopy name (advanced (fragCount m) (routeLimit s st)) m with hu
  have hrow : u.stream st = { s.stream st with queue := head :: rest } := modHead_stream hq _
  refine ⟨u, hrow, rfl, ?_⟩
  have hhead : headOf u st = some head := by rw [headOf, hrow]; rfl
  change (match headOf u st with | none => u | some m => if doneTest m then finishHead st u else u) = _
  rw [hhead]

theorem reportLaunch_queue (h : QueueFits (HeadFits routes (served s)) (s.stream st).queue) {c : Copy}
    (hq : (s.stream st).queue = m :: rest) (hc : getCopy m name = some c) (hl : c.state = .launching) :
    QueueFits (HeadFits (served s) (served s)) ((reportLaunch st name s).stream st).queue := by
  obtain ⟨u, hrow, hrs, heq⟩ := reportLaunch_stream (name := name) hq
  set head := modCopy name (advanced (fragCount m) (routeLimit s st)) m with hhead
  rw [hq] at h
  obtain ⟨hm, hrest⟩ := queueFits_cons.mp h
  obtain ⟨hstarted, -⟩ := hm.started (hm.launching_of_copy (getCopy_mem hc) hl)
  have hstate := advanced_state (n := fragCount m) (lim := routeLimit s st) hl
  have hcarries (o : Copy) (ho : otherCopy name m = some o) := hstarted.carries o (mem_copiesOf_name.mpr (.inr ho))
  have hnext : Started (served s) head := hstarted.modCopy hc (advanced_path _ _)
    (by rcases hstate with e | e <;> simp [e]) (fun _ => hstarted.carries c (getCopy_mem hc) hl) hcarries
  have hrelaunch : Relaunches head := relaunches_modCopy _ hm.1
  have hserved : served u = served s := served_of (by rw [hrs])
  rw [heq]
  split
  · rw [← hserved]
    refine finishHead_queue (H := HeadCuts (served s)) ?_
    rw [hrow]
    exact queueFits_cons.mpr ⟨⟨hrelaunch, hnext⟩, hrest⟩
  · next hdone =>
    rw [hrow]
    refine queueFits_cons.mpr ⟨⟨hrelaunch, .inr (.inr ⟨hnext, ?_⟩)⟩, hrest⟩
    refine (hnext.undone (Bool.eq_false_iff.mpr hdone)).resolve_right fun hcut => ?_
    have hown := hcut _ ((mem_copiesOf_modCopy hc).mpr (.inl rfl))
    rcases hstate with e | e <;> simp [e] at hown

/-! ## Cuts (R117) -/

theorem cutCopy_streamsBut (st : StreamId) (name : CopyName) (cause : CutCause) (s : State) :
    streamsBut st s (cutCopy st name cause s) := fun x hx => by
  have counted (m : Message → Message) : ((s.modHead st m).countSq st (countCut cause)).stream x = s.stream x := by
    rw [State.countSq, State.stream_modStream, if_neg hx, (modHead_local st m s).streams x hx]
  unfold cutCopy
  split
  · rfl
  · split
    · rfl
    · split
      · rfl
      · dsimp only
        split
        · rw [oweAbort_stream, if_neg hx, counted]
        · exact counted _

theorem oweAbort_queue (st x : StreamId) (p : PathId) (seq : Seq) (s : State) :
    ((oweAbort st p seq s).stream x).queue = (s.stream x).queue := by
  rw [oweAbort_stream]
  split
  · next h => rw [h]
  · rfl

theorem cutCopy_queue {c : Copy} (cause : CutCause) (hq : (s.stream st).queue = m :: rest) (hc : getCopy m name = some c)
    (hl : c.state = .launching) : ((cutCopy st name cause s).stream st).queue = cutHead name m :: rest := by
  have hcut : (((s.modHead st (cutHead name)).countSq st (countCut cause)).stream st).queue = cutHead name m :: rest := by
    rw [countSq_stream, modHead_stream hq]
  unfold cutCopy
  rw [headOf_of_queue hq]
  dsimp only
  rw [hc]
  dsimp only
  rw [if_neg (not_not.mpr hl)]
  split
  · rw [oweAbort_queue]
    exact hcut
  · exact hcut

/-- A cut takes its own path from those that launching copies lie on. -/
theorem cutHead_cuts {c : Copy} (h : HeadFits routes carries m) (hc : getCopy m name = some c) (hl : c.state = .launching) :
    HeadCuts (fun q => carries q ∧ q ≠ c.path) (cutHead name m) := by
  obtain ⟨hstarted, -⟩ := h.started (h.launching_of_copy (getCopy_mem hc) hl)
  refine ⟨relaunches_modCopy _ h.1, hstarted.modCopy hc (fun _ => rfl) CopyState.noConfusion CopyState.noConfusion fun o ho hol => ?_⟩
  exact ⟨hstarted.carries o (mem_copiesOf_name.mpr (.inr ho)) hol, hstarted.apart.of_name hc ho⟩

/-! ## After a cut (R118) -/

/-- A head that relaunches, before its route is chosen (R118). -/
def relaunching (lim : Nat) (m : Message) : Message :=
  { m with relaunchCount := m.relaunchCount + 1, relaunched := true, copyA := none, copyB := none, life := .headUnrouted,
           routeWait := some lim }

/-- The part with a head that relaunches. -/
def withRelaunch (st : StreamId) (s : State) : State :=
  (s.modHead st (relaunching (routeLimit s st))).countSq st fun c => { c with relaunches := satInc c.relaunches }

theorem settleCut_cons (hq : (s.stream st).queue = m :: rest) : settleCut st s =
    if m.life ≠ .launching ∨ anyCopy .launching m then s
    else if doneTest m then finishHead st s
    else if m.relaunchCount < 2 then chooseFor true st (withRelaunch st s)
    else dropHead st m .relaunchLimit s := by
  rw [settleCut, headOf_of_queue hq]
  rfl

theorem withRelaunch_queue (hq : (s.stream st).queue = m :: rest) :
    ((withRelaunch st s).stream st).queue = relaunching (routeLimit s st) m :: rest := by
  rw [withRelaunch, countSq_stream, modHead_stream hq]

theorem withRelaunch_local (st : StreamId) (s : State) : StreamLocal st s (withRelaunch st s) :=
  (modHead_local st _ s).trans (modStream_local st _ _)

theorem settleCut_streamsBut (st : StreamId) (s : State) : streamsBut st s (settleCut st s) := fun x hx => by
  cases hq : (s.stream st).queue with
  | nil =>
    have hhead : headOf s st = none := by rw [headOf, hq]; rfl
    rw [settleCut, hhead]
  | cons m rest =>
    rw [settleCut_cons hq]
    split
    · rfl
    · split
      · exact (finishHead_local st s).streams x hx
      · split
        · exact ((withRelaunch_local st s).trans (chooseFor_local true st _)).streams x hx
        · exact dropHead_streamsBut m .relaunchLimit x hx

theorem settleCut_queue (h : QueueFits (HeadCuts carries) (s.stream st).queue) :
    QueueFits (HeadFits (served s) carries) ((settleCut st s).stream st).queue := by
  cases hq : (s.stream st).queue with
  | nil =>
    have hhead : headOf s st = none := by rw [headOf, hq]; rfl
    rw [settleCut, hhead, hq]
    exact queueFits_nil
  | cons m rest =>
    have hfits := h
    rw [hq] at hfits
    obtain ⟨⟨hrelaunch, hstarted⟩, hrest⟩ := queueFits_cons.mp hfits
    rw [settleCut_cons hq]
    split
    · next hstays =>
      have hany : anyCopy .launching m = true := hstays.resolve_left (not_not.mpr hstarted.life)
      rw [hq]
      exact queueFits_cons.mpr ⟨⟨hrelaunch, .inr (.inr ⟨hstarted, hany⟩)⟩, hrest⟩
    · split
      · exact finishHead_queue h
      · split
        · next hcount =>
          refine chooseFor_queue (routes := served s) (s := withRelaunch st s) ?_
          rw [withRelaunch_queue hq]
          have hagain : Relaunches (relaunching (routeLimit s st) m) :=
            ⟨by simp only [relaunching]; omega, by simp [relaunching]⟩
          exact queueFits_cons.mpr ⟨⟨hagain, .inl ⟨rfl, rfl, rfl, rfl⟩⟩, hrest⟩
        · exact dropHead_queue m _ h

end operations

/-! ## A path leaves service (R117, R118) -/

section path
variable {routes carries : PathId → Prop} {s : State} {p : PathId} {st : StreamId}

theorem launchingOn_iff {m : Message} {name : CopyName} (hm : headOf s st = some m) :
    launchingOn s p st = some name ↔ m.life = .launching ∧ servableOn m p = some name := by
  rw [launchingOn, hm]
  dsimp only
  split
  · next hl => exact (and_iff_right hl).symm
  · next hl => exact iff_of_false (Option.some_ne_none name).symm fun h => hl h.1

theorem launchingOn_congr {t : State} (h : t.stream st = s.stream st) : launchingOn t p st = launchingOn s p st := by
  rw [launchingOn, launchingOn, headOf, headOf, h]

theorem cutOn_streamsBut (cause : CutCause) (st : StreamId) (s : State) : streamsBut st s (cutOn p cause st s) := fun x hx => by
  unfold cutOn
  split
  · rfl
  · exact cutCopy_streamsBut st _ cause s x hx

theorem cutOn_queue (cause : CutCause) (h : QueueFits (HeadFits routes carries) (s.stream st).queue)
    (hhit : (launchingOn s p st).isSome = true) :
    QueueFits (HeadCuts fun q => carries q ∧ q ≠ p) ((cutOn p cause st s).stream st).queue := by
  obtain ⟨name, hname⟩ := Option.isSome_iff_exists.mp hhit
  cases hm : headOf s st with
  | none => simp [launchingOn, hm] at hname
  | some m =>
    obtain ⟨hl, hserve⟩ := (launchingOn_iff hm).mp hname
    obtain ⟨c, hc, hpath, hcarries⟩ := servableOn_copy hserve
    have hstate : c.state = .launching := by
      rcases hcarries with e | ⟨-, e⟩
      · exact absurd (hl.symm.trans e) (by decide)
      · exact e
    have hq := queue_of_headOf hm
    rw [hq] at h
    obtain ⟨hfits, hrest⟩ := queueFits_cons.mp h
    rw [cutOn, hname]
    dsimp only
    rw [cutCopy_queue cause hq hc hstate, ← hpath]
    exact queueFits_cons.mpr ⟨cutHead_cuts hfits hc hstate, hrest⟩

/-- A head with no copy launching on the path has none to lose. -/
theorem headFits_of_quiet {m : Message} (h : HeadFits routes carries m) (hm : headOf s st = some m)
    (hquiet : launchingOn s p st = none) : HeadFits anywhere (fun q => carries q ∧ q ≠ p) m := by
  obtain ⟨hrelaunch, hu | hr | ⟨hs, hany⟩⟩ := h
  · exact ⟨hrelaunch, .inl hu⟩
  · exact ⟨hrelaunch, .inr (.inl ⟨hr.life, hr.first, hr.idle, fun _ _ => trivial, hr.apart, hr.waits⟩)⟩
  · refine ⟨hrelaunch, .inr (.inr ⟨⟨hs.life, hs.first, hs.numbered, hs.begun, fun c hc hl => ⟨hs.carries c hc hl, ?_⟩, hs.apart,
      hs.waits⟩, hany⟩)⟩
    intro hpath
    have hserves : carriesOn m p c := ⟨hpath, .inr ⟨hs.life, hl⟩⟩
    have hserved : (servableOn m p).isSome = true := by
      rw [servableOn_eq]
      rcases mem_copiesOf.mp hc with ha | hb
      · rw [if_pos (servable_iff.mpr ⟨c, ha, hserves⟩)]
        rfl
      · split
        · rfl
        · rw [if_pos (servable_iff.mpr ⟨c, hb, hserves⟩)]
          rfl
    obtain ⟨name, hname⟩ := Option.isSome_iff_exists.mp hserved
    exact Option.some_ne_none name (((launchingOn_iff hm).mpr ⟨hs.life, hname⟩).symm.trans hquiet)

/-- The streams with a copy to cut. -/
def hitStreams (s : State) (p : PathId) : List StreamId := allStreams.filter fun st => (launchingOn s p st).isSome

theorem mem_hitStreams : st ∈ hitStreams s p ↔ (launchingOn s p st).isSome = true := by
  rw [hitStreams, List.mem_filter, and_iff_right (mem_allStreams st)]

theorem hitStreams_nodup (s : State) (p : PathId) : (hitStreams s p).Nodup := allStreams_nodup.filter _

theorem cutPath_eq (p : PathId) (cause : CutCause) (s : State) : cutPath p cause s =
    (hitStreams s p).foldl (fun x st => settleCut st x) ((hitStreams s p).foldl (fun x st => cutOn p cause st x) s) := rfl

/-- What cutting a path does to a stream: nothing, or the cut of its copy and then what its message makes of that. -/
theorem cutPath_stream (p : PathId) (cause : CutCause) (s : State) (st : StreamId) :
    (launchingOn s p st = none → (cutPath p cause s).stream st = s.stream st) ∧
    ((launchingOn s p st).isSome = true → ∃ x y : State, x.stream st = s.stream st ∧ y.rs.paths = s.rs.paths ∧
      y.stream st = (cutOn p cause st x).stream st ∧ (cutPath p cause s).stream st = (settleCut st y).stream st) := by
  obtain ⟨hcutOut, hcutIn⟩ := foldl_streams (f := fun x st => cutOn p cause st x) (I := fun _ => True)
    (fun x st => cutOn_streamsBut cause st x) (fun _ _ _ => trivial) (hitStreams_nodup s p) (s := s) trivial st
  set u := (hitStreams s p).foldl (fun x st => cutOn p cause st x) s with hu
  have hpaths : u.rs.paths = s.rs.paths := by rw [hu, foldl_rs_paths _ fun x a => by simp]
  obtain ⟨hout, hin⟩ := foldl_streams (f := fun x st => settleCut st x) (I := fun x => x.rs.paths = s.rs.paths)
    (fun x st => settleCut_streamsBut st x) (fun x st h => by simp [h]) (hitStreams_nodup s p) hpaths st
  rw [cutPath_eq, ← hu]
  refine ⟨fun hquiet => ?_, fun hhit => ?_⟩
  · have hno : st ∉ hitStreams s p := fun h => by simpa [hquiet] using mem_hitStreams.mp h
    rw [hout hno, hcutOut hno]
  · have hmem := mem_hitStreams.mpr hhit
    obtain ⟨x, -, hx, hcut⟩ := hcutIn hmem
    obtain ⟨y, hy, hrow, hend⟩ := hin hmem
    exact ⟨x, y, hx, hy, hrow.trans hcut, hend⟩

theorem cutPath_loose (cause : CutCause) (h : Loose routes carries s) :
    Loose anywhere (fun q => carries q ∧ q ≠ p) (cutPath p cause s) := fun st => by
  obtain ⟨hquiet, hhit⟩ := cutPath_stream p cause s st
  cases hl : launchingOn s p st with
  | none =>
    rw [hquiet hl]
    exact ⟨fun m hm => headFits_of_quiet ((h st).head m hm) hm hl, (h st).tail⟩
  | some name =>
    have hsome : (launchingOn s p st).isSome = true := by rw [hl]; rfl
    obtain ⟨x, y, hx, hy, hrow, hend⟩ := hhit hsome
    have hcut : QueueFits (HeadCuts fun q => carries q ∧ q ≠ p) (y.stream st).queue := by
      rw [hrow]
      exact cutOn_queue cause (by rw [hx]; exact h st) (by rw [launchingOn_congr hx]; exact hsome)
    rw [hend]
    exact (settleCut_queue hcut).imp fun m hm => hm.mono (fun _ _ => trivial) fun _ hq => hq

end path

end Sys2Proof.Proofs
end

