-- ==== Sys2Proof/Proofs/CopiesInService.lean ====
section
/-!
Every copy that can still carry a cell lies on a path in service (R90, R98, R114 to R118). A path that leaves service has its launching
copies cut and the unlaunched heads re-chosen; every other command leaves the paths in service and changes heads as SQ's operations do.
-/

namespace Sys2Proof.Proofs

open Sys2Proof.Machine Sys2Proof.Safety Sys2Proof.Claims

/-! ## What RS does with its inputs (R78 to R83) -/

section inputs
variable {s u : State} {p : PathId}

/-- The queues stand, and no path leaves service. -/
structure KeepsService (s u : State) : Prop where
  queues : u.sq = s.sq
  serves : ∀ q, served s q → served u q

theorem KeepsService.refl (s : State) : KeepsService s s := ⟨rfl, fun _ => id⟩

theorem KeepsService.trans {v : State} (h : KeepsService s u) (k : KeepsService u v) : KeepsService s v :=
  ⟨k.queues.trans h.queues, fun q hq => k.serves q (h.serves q hq)⟩

theorem KeepsService.of_blocks (hsq : u.sq = s.sq) (hpaths : u.rs.paths = s.rs.paths) : KeepsService s u :=
  ⟨hsq, fun q hq => by rw [served_of hpaths]; exact hq⟩

theorem modPath_keepsService (s : State) (p : PathId) {f : PathRecord → PathRecord}
    (hf : served s p → inService (f (s.path p)).state = true) : KeepsService s (s.modPath p f) :=
  ⟨rfl, fun q hq => by
    rw [served, State.path_modPath]
    split
    · next e => exact hf (e ▸ hq)
    · exact hq⟩

/-- A change of a path record that leaves its state. -/
theorem modPath_sameState (s : State) (p : PathId) {f : PathRecord → PathRecord} (hf : ∀ r, (f r).state = r.state) :
    KeepsService s (s.modPath p f) := modPath_keepsService s p fun h => by rw [hf]; exact h

theorem KeepsService.good (h : KeepsService s u) (k : Good s) : Good u :=
  k.of_queues (fun st => by rw [State.stream_of h.queues]) h.serves

theorem KeepsService.rechooseAll_good (h : KeepsService s u) (k : Good s) : Good (rechooseAll u) := Proofs.rechooseAll_good (h.good k)

theorem rechooseIfChanged_good (before : PathRecord) (p : PathId) (k : Good s) : Good (rechooseIfChanged before p s) := by
  unfold rechooseIfChanged
  dsimp only
  split
  · exact k
  · exact rechooseAll_good k

theorem leaveDown_good (cause : PathCause) (k : Good s) : Good (leaveDown p cause s) := by
  unfold leaveDown
  dsimp only
  split
  · next h =>
    have hproving : KeepsService s (setPathState p .proving s) :=
      modPath_keepsService s p fun hp => by simp [served, h.1, inService] at hp
    exact (hproving.trans (.of_blocks (by simp) (by simp))).rechooseAll_good k
  · exact k

/-- A path leaves service: its launching copies are cut, whatever else stands, and every unlaunched head is re-chosen. -/
theorem cutPath_rechosen {cause : CutCause} {v : State} (k : Good s) (hsq : u.sq = s.sq)
    (hothers : ∀ q, q ≠ p → served s q → served u q) (hcut : v.sq = (cutPath p cause u).sq) (hpaths : v.rs.paths = u.rs.paths) :
    Good (rechooseAll v) := by
  have hloose : Loose (served s) (served s) u := Loose.of_queues k fun st => by rw [State.stream_of hsq]
  have hafter : Loose anywhere (served v) (cutPath p cause u) :=
    (cutPath_loose cause hloose).forget fun q ⟨hq, hne⟩ => by
      rw [served_of hpaths]
      exact hothers q hne hq
  exact rechooseAll_good (hafter.of_queues fun st => by rw [State.stream_of hcut])

theorem setPathState_others (x : PathState) {q : PathId} (hq : q ≠ p) (h : served s q) : served (setPathState p x s) q := by
  rw [served, setPathState, State.path_modPath, if_neg hq]
  exact h

theorem clearLatency_keepsService (p : PathId) (s : State) : KeepsService s (clearLatency p s) :=
  modPath_sameState s p (f := fun r => { r with latency := {}, cost := none }) fun _ => rfl

theorem recost_keepsService (p : PathId) (s : State) : KeepsService s (recost p s) :=
  modPath_sameState s p (f := fun r => { r with cost := pathCost r }) fun _ => rfl

theorem enterDown_good (cause : PathCause) (k : Good s) : Good (enterDown p cause s) := by
  unfold enterDown
  refine leaveDown_good cause (cutPath_rechosen (p := p) k (by simp) (fun q hq hserved => ?_) rfl (by simp))
  have hdown := setPathState_others .down hq hserved
  have hcleared := (clearLatency_keepsService p _).serves q hdown
  rw [served_of (s := clearLatency p (setPathState p .down s)) (by simp)]
  exact hcleared

theorem enterService_good (cause : PathCause) (hready : readyForService (s.path p) = true) (k : Good s) :
    Good (enterService p cause s) := by
  have hserves : KeepsService s (setPathState p (serviceState (s.path p).hopCond.worst) s) := modPath_keepsService s p fun hp => by
    have hstate : (s.path p).state = .proving := by simp [readyForService] at hready; exact hready.1.1
    simp [served, hstate, inService] at hp
  unfold enterService
  exact (hserves.trans (.of_blocks (by simp) (by simp))).rechooseAll_good k

theorem inService_serviceState {x : HopState} (h : x ≠ .lost) : inService (serviceState x) = true := by
  cases x <;> simp_all [serviceState, inService]

theorem rsHop_good (p : PathId) (cond : HopCondition) (k : Good s) : Good (rsHop p cond s) := by
  have taken : KeepsService s (recost p (s.modPath p fun r => { r with hopCond := cond })) :=
    (modPath_sameState s p (f := fun r => { r with hopCond := cond }) fun _ => rfl).trans (recost_keepsService p _)
  unfold rsHop
  extract_lets before s1
  have k1 : Good s1 := taken.good k
  split
  · next hready => exact enterService_good .hop hready k1
  · split
    · split
      · exact enterDown_good .hop k1
      · next hlost =>
        split
        · have hserves : KeepsService s1 (setPathState p (serviceState cond.worst) s1) :=
            modPath_keepsService s1 p fun _ => inService_serviceState hlost
          exact (hserves.trans (.of_blocks (by simp) (by simp))).rechooseAll_good k1
        · exact rechooseIfChanged_good before p k1
    · exact leaveDown_good .hop (rechooseIfChanged_good before p k1)

theorem handCondition_good (p : PathId) (k : Good s) : Good (handCondition p s) := rsHop_good p _ k

theorem rsLatency_good (p : PathId) (lat : Latency) (k : Good s) : Good (rsLatency p lat s) := by
  have taken : KeepsService s (recost p (s.modPath p fun r => { r with latency := lat })) :=
    (modPath_sameState s p (f := fun r => { r with latency := lat }) fun _ => rfl).trans (recost_keepsService p _)
  unfold rsLatency
  extract_lets before s1
  have k1 : Good s1 := taken.good k
  split
  · next hready => exact enterService_good .latency hready k1
  · exact rechooseIfChanged_good before p k1

theorem rsLossLimit_good (p : PathId) (k : Good s) : Good (rsLossLimit p s) := by
  unfold rsLossLimit
  split
  · exact enterDown_good .probeLoss k
  · exact k

theorem rsPortFault_good (p : PathId) (k : Good s) : Good (rsPortFault p s) := by
  have k1 : Good (s.modPath p fun r => { r with port := .fault }) :=
    (modPath_sameState s p (f := fun r => { r with port := .fault }) fun _ => rfl).good k
  unfold rsPortFault
  extract_lets before s1
  split
  · exact enterDown_good .portFault k1
  · split
    · exact rechooseIfChanged_good before p ((clearLatency_keepsService p s1).good k1)
    · exact k1

theorem rsPortRecovered_good (p : PathId) (k : Good s) : Good (rsPortRecovered p s) :=
  leaveDown_good .portRecovered ((modPath_sameState s p (f := fun r => { r with port := .working }) fun _ => rfl).good k)

end inputs

/-! ## The operator's path requests (R77, R79, R84, R85) -/

section requests
variable {s : State} (p : PathId)

theorem doPathset_good (x : PathSettings) (k : Good s) : Good (doPathset p x s).1 := by
  unfold doPathset
  split
  · exact k
  · split
    · exact (modPath_sameState s p (f := fun r => { r with settings := x }) fun _ => rfl).good k
    · exact k

/-- A path that is not ON is not in service (R75). -/
def OnWhereServed (s : State) : Prop := ∀ q, served s q → (s.path q).admin = true

theorem doPathon_good (hon : OnWhereServed s) (k : Good s) : Good (doPathon p s).1 := by
  unfold doPathon
  split
  · exact k
  · next hadmin =>
    have proving : KeepsService s (s.modPath p fun r => { r with admin := true, state := .proving, cost := none }) :=
      modPath_keepsService s p fun hp => absurd (hon p hp) hadmin
    have reset (u : State) : KeepsService u (takeFirstMark (modHops p resetHop u)) := .of_blocks (by simp) (by simp)
    have probing (u : State) : KeepsService u (startProbing p u) :=
      (clearLatency_keepsService p u).trans (.of_blocks (by simp [startProbing]) (by simp [startProbing]))
    have handed := handCondition_good p (((proving.trans (reset _)).trans (probing _)).good k)
    dsimp only
    exact KeepsService.rechooseAll_good (.of_blocks (by simp) (by simp)) handed

theorem doPathoff_good (k : Good s) : Good (doPathoff p s).1 := by
  unfold doPathoff
  split
  · extract_lets old s1 s2 s3 s4
    have hsq : s3.sq = s.sq := by simp [s3, s2, s1]
    have stopped : KeepsService s1 s3 := by
      refine KeepsService.trans (clearLatency_keepsService p s1) (.of_blocks (by simp [s3, s2, stopProbing]) ?_)
      simp [s3, s2, stopProbing]
    have hothers (q : PathId) (hq : q ≠ p) (hs : served s q) : served s3 q := by
      refine stopped.serves q ?_
      rw [served, State.path_modPath, if_neg hq]
      exact hs
    dsimp only
    by_cases hold : inService old = true
    · have hcut : s4 = cutPath p .pathoff s3 := if_pos hold
      rw [hcut]
      exact cutPath_rechosen k hsq hothers rfl (by simp)
    · have hkept : s4 = s3 := if_neg hold
      rw [hkept]
      refine KeepsService.rechooseAll_good ⟨hsq, fun q hs => hothers q ?_ hs⟩ k
      rintro rfl
      exact hold hs
  · exact k

theorem doPathrestart_good (k : Good s) : Good (doPathrestart p s).1 := by
  unfold doPathrestart
  split
  · extract_lets old s1 s2 s3 s4
    have restarted : KeepsService (setPathState p .proving s) s2 :=
      (clearLatency_keepsService p _).trans (.of_blocks (by simp [s2, s1, startProbing]) (by simp [s2, s1, startProbing]))
    have hsq : s2.sq = s.sq := by simp [s2, s1]
    have hothers (q : PathId) (hq : q ≠ p) (hs : served s q) : served s2 q := restarted.serves q (setPathState_others .proving hq hs)
    have k4 : Good s4 := by
      by_cases hold : inService old = true
      · have hcut : s3 = cutPath p .service s2 := if_pos hold
        exact cutPath_rechosen (cause := .service) k hsq hothers (by simp [hcut]) (by simp [hcut])
      · have hkept : s3 = s2 := if_neg hold
        refine KeepsService.rechooseAll_good (s := s) ⟨by simp [hkept, hsq], fun q hs => ?_⟩ k
        rw [served_of (s := s2) (by simp [hkept])]
        refine hothers q ?_ hs
        rintro rfl
        exact hold hs
    dsimp only
    exact handCondition_good p k4
  · exact k

end requests

end Sys2Proof.Proofs
end

