-- ==== Sys2Proof/Proofs/CopiesEveryStep.lean ====
section
/-!
Every step keeps the copies that can carry a cell on paths in service: each command by the operations of RS and SQ that it is made of.
-/

namespace Sys2Proof.Proofs

open Sys2Proof.Machine Sys2Proof.Safety Sys2Proof.Claims

/-! ## Hop reports and hop requests (R57 to R70) -/

section hops
variable {s : State} (k : Good s) (p : PathId) (h : HopId)
include k

theorem handIfChanged_good (before : HopCondition) : Good (handIfChanged before p s) := by
  unfold handIfChanged
  split
  · exact k
  · exact handCondition_good p k

theorem handleItem_good (it : HopItem) : Good (handleItem p h it s) := by
  unfold handleItem
  exact handIfChanged_good (k.of_blocks (by simp) (by simp)) p _

theorem takeItem_good (it : HopItem) : Good (takeItem p it s) := by
  unfold takeItem
  split
  · exact k.of_blocks rfl rfl
  · split
    · exact k.of_blocks rfl rfl
    · split
      · exact handleItem_good k p _ it
      · exact k.of_blocks rfl rfl

theorem doHopclear_good : Good (doHopclear p h s).1 := by
  unfold doHopclear
  dsimp only
  split
  · exact handCondition_good p (k.of_blocks rfl rfl)
  · exact k.of_blocks rfl rfl

theorem doHopset_good (r : HopsetReq) : Good (doHopset r p h s).1 := by
  unfold doHopset
  dsimp only
  split
  · exact handCondition_good p (k.of_blocks (by simp) (by simp))
  · exact k.of_blocks (by simp) (by simp)

theorem setTag_good (tagged : Bool) : Good (setTag tagged p h s).1 := by
  unfold setTag
  dsimp only
  split
  · exact handCondition_good p (k.of_blocks rfl rfl)
  · exact k.of_blocks rfl rfl

end hops

/-! ## Probes (R40, R41, R44 to R50) -/

section probes
variable {s : State} (k : Good s) (p : PathId)
include k

theorem modLatency_good (f : Latency → Latency) : Good (s.modPath p fun r => { r with latency := f r.latency }) :=
  (modPath_sameState s p (f := fun r => { r with latency := f r.latency }) fun _ => rfl).good k

theorem probeLost_good : Good (probeLost p s) := by
  have counted : Good (s.countPu p fun c => { c with losses := satInc c.losses }) := k.of_blocks rfl rfl
  unfold probeLost
  extract_lets s1 run
  split
  · exact rsLossLimit_good p (modLatency_good counted p fun l => { l with losses := 0 })
  · exact modLatency_good counted p fun l => { l with losses := run }

theorem launchProbe_good : Good (launchProbe p s) := by
  have room {u : State} (hu : Good u) : Good (makeRoomForRecord p u) := by
    unfold makeRoomForRecord
    split
    · refine probeLost_good (hu.of_blocks ?_ ?_) p <;> rfl
    · exact hu
  have numbered : Good (s.modPu p fun x => { x with number := x.number + 1, due := false }) := k.of_blocks rfl rfl
  unfold launchProbe
  exact (room numbered).of_blocks rfl rfl

theorem outlier_good (old x : Nat) : Good (outlier p old x s) := by
  have counted : Good (s.countPu p fun c => { c with outliers := satInc c.outliers }) := k.of_blocks rfl rfl
  unfold outlier
  dsimp only
  split
  · exact rsLatency_good p _ (counted.of_blocks (by simp) (by simp))
  · exact modLatency_good counted p fun l => { l with outlierRun := _ }

theorem withinGate_good (old x : Nat) : Good (withinGate p old x s) := by
  unfold withinGate
  dsimp only
  split
  · exact modLatency_good k p fun l => { l with outlierRun := 0 }
  · exact rsLatency_good p _ k

theorem takeSample_good (x : Nat) : Good (takeSample p x s) := by
  have counted : Good ((s.modPath p fun r => { r with latency := { r.latency with losses := 0 } }).countPu p
      fun c => { c with samples := satInc c.samples }) :=
    (modLatency_good k p fun l => { l with losses := 0 }).of_blocks rfl rfl
  unfold takeSample
  dsimp only
  split
  · exact rsLatency_good p _ counted
  · split
    · exact outlier_good counted p _ _
    · exact withinGate_good counted p _ _

theorem takeEcho_good (n : BitVec 8) (unchanged : Bool) (t1 t2 t3 : Stamp) (mark : Mark) (t4 : Capture) :
    Good (takeEcho p n unchanged t1 t2 t3 mark t4 s) := by
  have matched : Good (s.modPu p fun x => { x with records := x.records.eraseP (echoMatches n t1) }) := k.of_blocks rfl rfl
  unfold takeEcho
  split
  · exact k.of_blocks rfl rfl
  · dsimp only
    split
    · exact matched.of_blocks rfl rfl
    · split
      · exact matched.of_blocks rfl rfl
      · split
        · exact matched.of_blocks rfl rfl
        · split
          · exact matched.of_blocks rfl rfl
          · exact takeSample_good matched p _

theorem launchControl_good : Good (launchControl p s) := by
  unfold launchControl
  split
  · exact k.of_blocks (by simp) (by simp)
  · split
    · exact launchProbe_good (k.of_blocks (by simp) (by simp)) p
    · exact k.of_blocks (by simp) (by simp)

theorem takeControlCell_good (cell : Option ControlCell) : Good (takeControlCell p cell s) := by
  unfold takeControlCell
  split
  · exact k.of_blocks rfl rfl
  · exact k.of_blocks (by simp) (by simp)
  · exact takeEcho_good (k.of_blocks (by simp) (by simp)) p _ _ _ _ _ _ _
  · exact k.of_blocks rfl rfl

end probes

/-! ## Slots (R97, R113 to R116) -/

section slots
variable {s : State}

/-- An operation on one stream, of the part in which no path changes its state. -/
theorem StreamLocal.good {st : StreamId} {t : State} (h : StreamLocal st s t) (hpaths : t.rs.paths = s.rs.paths) (k : Good s)
    (hown : QueueFits (HeadFits (served s) (served s)) (t.stream st).queue) : Good t := by
  rw [Good, served_of hpaths]
  intro x
  by_cases hx : x = st
  · rw [hx]
    exact hown
  · rw [h.streams x hx]
    exact k x

theorem startIfRouted_good (st : StreamId) (k : Good s) : Good (startIfRouted st s) :=
  (startIfRouted_local st s).good (by simp) k (startIfRouted_queue (k st))

/-- The copy that a grant serves is launching once its head has started. -/
theorem startIfRouted_launching_copy {st : StreamId} {p : PathId} {name : CopyName} {m : Message} (hm : headOf s st = some m)
    (hserve : servableOn m p = some name) :
    ∃ m' c rest, ((startIfRouted st s).stream st).queue = m' :: rest ∧ getCopy m' name = some c ∧ c.state = .launching := by
  obtain ⟨c, hc, -, hcarries⟩ := servableOn_copy hserve
  have hq := queue_of_headOf hm
  rcases hcarries with hl | ⟨hl, hstate⟩
  · refine ⟨_, startCopy (routeLimit s st) c, _, by rw [startIfRouted_routed hq hl], ?_, rfl⟩
    cases name <;> exact congrArg (Option.map _) hc
  · exact ⟨m, c, _, by rw [startIfRouted_launching hq hl]; exact hq, hc, hstate⟩

theorem launchFragment_good {p : PathId} {st : StreamId} {name : CopyName} {m : Message} {c : Copy} {rest : List Message}
    (k : Good s) (hq : (s.stream st).queue = m :: rest) (hc : getCopy m name = some c) (hl : c.state = .launching) :
    Good (launchFragment p st name s) := by
  unfold launchFragment
  rw [headOf_of_queue hq]
  dsimp only
  rw [hc]
  dsimp only
  set u := (putCell p (encodeSlotCell (.data (dataCell s st m c.nextFrag))) s).countPort p
    fun x => { x with dataLaunched := satInc x.dataLaunched } with hu
  have ku : Good u := k.of_blocks rfl rfl
  exact (reportLaunch_local st name u).good (by simp) ku (reportLaunch_queue (ku st) hq hc hl)

theorem servableFirst_some {p : PathId} {l : List StreamId} {x : Spend} (h : servableFirst s p l = some x) :
    ∃ st m name, x = .data st name ∧ headOf s st = some m ∧ servableOn m p = some name := by
  rw [servableFirst_eq] at h
  obtain ⟨st, -, h⟩ := Option.bind_eq_some_iff.mp h
  obtain ⟨name, hname, rfl⟩ := Option.map_eq_some_iff.mp h
  obtain ⟨m, hm, hserve⟩ := Option.bind_eq_some_iff.mp hname
  exact ⟨st, m, name, rfl, hm, hserve⟩

/-- A DATA cell is of a stream whose head a grant serves. -/
theorem spendGrant_serves {w : TenantId} {p : PathId} {st : StreamId} {name : CopyName}
    (h : spendGrant s w p = some (.data st name)) : ∃ m, headOf s st = some m ∧ servableOn m p = some name := by
  unfold spendGrant at h
  split at h
  · next howed =>
    rw [owedFirst_eq] at howed
    obtain ⟨x, -, hx⟩ := Option.bind_eq_some_iff.mp howed
    obtain ⟨q, -, rfl⟩ := Option.map_eq_some_iff.mp hx
    cases h
  · obtain ⟨_, m, _, he, hm, hserve⟩ := servableFirst_some h
    cases he
    exact ⟨m, hm, hserve⟩

theorem modStream_sameQueue_good (k : Good s) (st : StreamId) {f : Stream → Stream} (hf : ∀ x, (f x).queue = x.queue) :
    Good (s.modStream st f) :=
  k.of_queues (fun x => by
    rw [State.stream_modStream]
    split
    · next e => rw [e]; exact hf _
    · rfl) fun _ hp => hp

theorem launchGrant_good (p : PathId) (w : TenantId) (k : Good s) : Good (launchGrant p w s) := by
  unfold launchGrant
  split
  · exact k.of_blocks rfl rfl
  · next st q _ =>
    have sent : Good ((putCell p (encodeSlotCell (.abort st q)) s).countPort p
        fun c => { c with abortLaunched := satInc c.abortLaunched }) := k.of_blocks rfl rfl
    exact modStream_sameQueue_good sent st (f := fun x => { x with owed := x.owed.set p none }) fun _ => rfl
  · next st name hspend =>
    obtain ⟨m, hm, hserve⟩ := spendGrant_serves hspend
    obtain ⟨m', c, rest, hq, hc, hl⟩ := startIfRouted_launching_copy hm hserve
    exact launchFragment_good (startIfRouted_good st k) hq hc hl

theorem launchSlot_good (p : PathId) (i : SlotId) (k : Good s) : Good (launchSlot p i s) := by
  have resolved : Good (resolveSlot p i s).2 := k.of_blocks (by simp) (by simp)
  unfold launchSlot
  split
  · next s1 hr =>
    rw [hr] at resolved
    exact resolved.of_blocks rfl rfl
  · next w s1 hr =>
    rw [hr] at resolved
    exact launchGrant_good p w resolved

theorem testSwap_good (p : PathId) (c : CycleNo) (k : Good s) : Good (testSwap p c s) := by
  unfold testSwap
  split
  · exact k
  · split
    · exact KeepsService.rechooseAll_good (.of_blocks (by simp) (by simp)) k
    · exact k

end slots

/-! ## Streams and tenants (R109, R111, R117, R163 to R165) -/

section streams
variable {s : State}

theorem doCarry_good (u : TenantId) (r : CarryReq) (k : Good s) : Good (doCarry u r s).1 := by
  unfold doCarry
  split
  · exact admitMessage_good _ _ _ _ _ k
  · exact k

theorem dropHead_good (st : StreamId) (m : Message) (cause : DropCause) (k : Good s) : Good (dropHead st m cause s) := by
  rw [Good, served_of (s := s) (by simp)]
  intro x
  by_cases hx : x = st
  · rw [hx]
    exact dropHead_queue m cause (k st)
  · rw [dropHead_streamsBut m cause x hx]
    exact k x

theorem stalling_copy {st : StreamId} {name : CopyName} (h : stalling s st name = true) :
    ∃ m c, headOf s st = some m ∧ getCopy m name = some c ∧ c.state = .launching := by
  unfold stalling at h
  split at h
  · cases h
  · next c hc =>
    obtain ⟨m, hm, hcopy⟩ := Option.bind_eq_some_iff.mp hc
    obtain ⟨hstate, -⟩ := Bool.and_eq_true_iff.mp h
    exact ⟨m, c, hm, hcopy, beq_iff_eq.mp hstate⟩

theorem stallExpired_good {st : StreamId} {name : CopyName} (h : stalling s st name = true) (k : Good s) :
    Good (settleCut st (cutCopy st name .stall s)) := by
  obtain ⟨m, c, hm, hc, hl⟩ := stalling_copy h
  have hq := queue_of_headOf hm
  set u := cutCopy st name .stall s with hu
  have hserved : served u = served s := served_of (by simp [hu])
  have hcut : QueueFits (HeadCuts (served u)) (u.stream st).queue := by
    have hfits := k st
    rw [hq] at hfits
    obtain ⟨hhead, hrest⟩ := queueFits_cons.mp hfits
    obtain ⟨hrelaunch, hstarted⟩ := cutHead_cuts hhead hc hl
    rw [hserved, hu, cutCopy_queue .stall hq hc hl]
    exact queueFits_cons.mpr ⟨⟨hrelaunch, hstarted.mono fun _ hq => hq.1⟩, hrest⟩
  rw [Good, served_of (s := u) (by simp)]
  intro x
  by_cases hx : x = st
  · rw [hx]
    exact settleCut_queue hcut
  · rw [settleCut_streamsBut st u x hx, hu, cutCopy_streamsBut st name .stall s x hx, hserved]
    exact k x

theorem doStreamset_good (u : TenantId) (r : StreamSettings) (k : Good s) : Good (doStreamset u r s).1 := by
  have stored : Good (s.modTenant u fun y => { y with settings := clampStream r }) := k.of_blocks rfl rfl
  unfold doStreamset
  dsimp only
  refine foldl_keeps (P := Good) (fun x c hx => hx.of_blocks (by simp) (by simp)) _ ?_
  split
  · exact stored
  · exact rechooseTenant_good u stored

theorem doTenantset_good (g : TenantGrant) (u : TenantId) (k : Good s) : Good (doTenantset g u s).1 := by
  have stored : Good (s.modTenant u fun x => { x with grant := g }) := k.of_blocks rfl rfl
  unfold doTenantset
  split
  · exact k
  · dsimp only
    split
    · exact rechooseTenant_good u stored
    · exact stored

theorem resetOf_queue (pp : Vector Port 6) (x : Stream) : (resetOf pp x).queue = [] := by
  unfold resetOf
  split <;> rfl

/-- A reset empties the streams of a tenant and leaves the others. -/
theorem doTenantreset_good (u : TenantId) (k : Good s) : Good (doTenantreset u s).1 := by
  have hserved : served (resetTenant u s) = served s := served_of (by rw [resetTenant_rest])
  rw [doTenantreset_eq, Good, hserved]
  intro st
  dsimp only
  rw [resetTenant_stream]
  split
  · rw [resetOf_queue]
    exact queueFits_nil
  · exact k st

theorem countclear_good (x : Unit) (k : Good s) : Good (doCountclear x s).1 :=
  k.of_queues (fun st => by rw [doCountclear, zeroCounters_stream]) fun p hp => by rw [served_of (s := s) (by simp)]; exact hp

theorem withdrawAborts_good (p : PathId) (k : Good s) : Good (withdrawAborts p s) :=
  foldl_keeps (P := Good) (fun x st hx => by
    split
    · exact (modStream_sameQueue_good hx st (f := fun y => { y with owed := y.owed.set p none }) fun _ => rfl).of_blocks rfl rfl
    · exact hx) _ k

/-- RESTART empties every queue. -/
theorem doRestart_good (x : Unit) (h : PathsOk s) : Good (doRestart x s).1 := fun st => by
  have hrow : (restarted s).stream st = {} := (State.stream_of (s := State.reset) (restarted_sq h) st).trans (afterReset_stream [] st)
  rw [doRestart_eq]
  dsimp only
  rw [hrow]
  exact queueFits_nil

end streams

/-! ## Every command -/

theorem good_ignoresOutput : IgnoresOutput Good := fun _ _ h k => k.of_blocks (by simp [h]) (by simp [h])

theorem pathsOk_ignoresOutput : IgnoresOutput PathsOk := fun s u h k p =>
  pathOk_of_rows (State.path_of (by simp [h]) p) (State.port_of (by simp [h]) p) (State.puPath_of (by simp [h]) p) (k p)

theorem onWhereServed_of_pathsOk {s : State} (h : PathsOk s) : OnWhereServed s := fun p hp => by
  cases hadmin : (s.path p).admin
  · have hoff := (h p).admin.mpr hadmin
    simp [served, hoff, inService] at hp
  · rfl

/-- An operator's request whose owner needs of the state what taking the request leaves. -/
theorem operatorRequest_leads {P Q : State → Prop} (hP : IgnoresOutput P) (hQ : IgnoresOutput Q) (hPQ : ∀ u, P u → Q u) (l : LaneId)
    (tag : Tag) (kind : Byte) {α : Type} {parsed : Option α} {act : α → State → State × Reply}
    (hact : ∀ x u, P u → Q (act x u).1) {s : State} (h : P s) : Q (operatorRequest l tag kind parsed act s) := by
  have counted := countRequest_keeps hP l h
  unfold operatorRequest
  split
  · unfold serve
    split
    · exact answer_keeps hQ l tag kind _ (hPQ _ counted)
    · exact answer_keeps hQ l tag kind _ (hact _ _ counted)
  · exact refuseAccess_keeps hQ l tag kind (hPQ _ counted)

section requests
variable {s : State} (l : LaneId) (tag : Tag) (kind : Byte) (k : Good s)
include k

/-- An operator's request whose owner leaves the streams and the path records. -/
theorem operatorRequest_good {α : Type} (parsed : Option α) {act : α → State → State × Reply}
    (hstreams : ∀ x u, (act x u).1.sq.streams = u.sq.streams) (hpaths : ∀ x u, (act x u).1.rs.paths = u.rs.paths) :
    Good (operatorRequest l tag kind parsed act s) :=
  operatorRequest_keeps good_ignoresOutput l tag kind (fun x _ u hu => hu.of_blocks (hstreams x u) (hpaths x u)) k

/-- An operator's request for an index. -/
theorem operatorRequest_atIndex_good {α : Type} (parsed : Option α) {n : Nat} {i : α → Nat}
    {act : α → Fin n → State → State × Reply} (hact : ∀ x j u, Good u → Good (act x j u).1) :
    Good (operatorRequest l tag kind parsed (fun x => atIndex (i x) (act x)) s) :=
  operatorRequest_keeps good_ignoresOutput l tag kind (fun x _ _ hu => atIndex_keeps (fun j v => hact x j v) hu) k

/-- An operator's request for a hop. -/
theorem operatorRequest_atHop_good {α : Type} (parsed : Option α) {i : α → Nat × Nat}
    {act : α → PathId → HopId → State → State × Reply} (hact : ∀ x p h u, Good u → Good (act x p h u).1) :
    Good (operatorRequest l tag kind parsed (fun x => atHop (i x) (act x)) s) :=
  operatorRequest_keeps good_ignoresOutput l tag kind (fun x _ _ hu => atHop_keeps (fun p h v => hact x p h v) hu) k

/-- A tenant's request. -/
theorem tenantRequest_good {α : Type} (parsed : Option α) {act : TenantId → α → State → State × Reply}
    (hact : ∀ w x u, Good u → Good (act w x u).1) : Good (tenantRequest l tag kind parsed act s) :=
  tenantRequest_keeps good_ignoresOutput l tag kind (fun w x _ u => hact w x u) k

end requests

theorem runWord_good (kind : WordKind) {run : State → State} (hstreams : ∀ x, (run x).sq.streams = x.sq.streams)
    (hpaths : ∀ x, (run x).rs.paths = x.rs.paths) (u : TenantId) (c : ChannelId) {s : State} (k : Good s) :
    Good (runWord kind run u c s) := by
  unfold runWord
  split
  · exact Good.of_blocks (k.of_blocks (by simp) (by simp)) (hstreams _) (hpaths _)
  · exact k

/-- The commands that write neither a stream nor a path record. -/
def idleForQueues : Instr → Bool
  | .cellArrival _ _ | .ppsArrival | .ppsMissing | .slewPeriodEnd | .compareFire _ _ | .timecfg _ _ _ | .timeset _ _ _ => true
  | .probeTimerExpiry _ | .leakPulse | .planset _ _ _ | .planswap _ _ _ | .budgetWindowExpiry => true
  | .submissionAnswer _ _ | .loadp _ _ _ | .loadt _ _ _ | .fire _ _ _ | .halt _ _ _ => true
  | .text _ _ | .patch _ _ | .wait _ _ | .mark _ _ | .undefinedOpWord _ _ | .reasmTimeout _ _ | .holdTimerExpiry _ => true
  | .query _ _ _ | .read _ _ _ | .tenanton _ _ _ | .tenantoff _ _ _ => true
  | .frameCheckError _ | .malformedMessage _ | .entrySent _ => true
  | _ => false

theorem exec_idle_good {i : Instr} (hi : idleForQueues i = true) {s t : State} (h : exec i s = .next t) (k : Good s) : Good t := by
  cases i <;> cases hi <;> cases h
  case timecfg | timeset | read => exact operatorRequest_good _ _ _ k _ (fun _ _ => by simp) fun _ _ => by simp
  case planset | planswap | tenanton | tenantoff =>
    exact operatorRequest_atIndex_good _ _ _ k _ fun _ _ _ hu => hu.of_blocks (by simp) (by simp)
  case loadp | loadt | halt | query => exact tenantRequest_good _ _ _ k _ fun _ _ _ hu => hu.of_blocks (by simp) (by simp)
  case fire | ppsArrival | submissionAnswer | reasmTimeout | entrySent | cellArrival =>
    split <;> exact k.of_blocks (by simp) (by simp)
  case text | patch | wait | mark => exact runWord_good _ (fun _ => by simp) (fun _ => by simp) _ _ k
  case undefinedOpWord u c =>
    split
    · exact runWord_good _ (fun _ => by simp) (fun _ => by simp) u c k
    · exact k
  case ppsMissing | slewPeriodEnd | compareFire | probeTimerExpiry | leakPulse | budgetWindowExpiry | frameCheckError |
      malformedMessage | holdTimerExpiry =>
    exact k.of_blocks (by simp) (by simp)

/-- The commands that may write a stream or a path record. -/
theorem exec_reaching_good {i : Instr} (hi : idleForQueues i = false) {s t : State} (h : exec i s = .next t) (hp : PathsOk s)
    (k : Good s) : Good t := by
  cases i <;> cases hi <;> cases h
  case powerOnReset =>
    change Good (afterReset s.pending)
    intro st
    rw [afterReset_stream]
    exact queueFits_nil
  case cycleStart p =>
    split
    · exact testSwap_good p _ (k.of_blocks rfl rfl)
    · exact k
  case controlOpportunity p =>
    split
    · exact launchControl_good (s := s.modPort p _) (k.of_blocks rfl rfl) p
    · exact k
  case slotOpportunity p =>
    split
    · split
      · exact launchSlot_good p _ (k.of_blocks rfl rfl)
      · exact k
      · exact k
    · exact k
  case controlCellArrival p cell =>
    split
    · split
      · exact takeControlCell_good k p _
      · exact k.of_blocks rfl rfl
    · exact k
  case hopReportFrame p frame =>
    split
    · split
      · exact k.of_blocks rfl rfl
      · exact foldl_keeps (P := Good) (fun x it hx => takeItem_good hx p it) _ (k.of_blocks rfl rfl)
    · exact k
  case portFault p =>
    split
    · have told : Good (rsPortFault p (s.modPort p faultPort)) := rsPortFault_good p (k.of_blocks rfl rfl)
      exact withdrawAborts_good p (told.of_blocks rfl rfl)
    · exact k
  case portRecovered p =>
    split
    · exact k
    · have told : Good (rsPortRecovered p (s.modPort p fun x => { x with faultState := .working })) :=
        rsPortRecovered_good p (k.of_blocks rfl rfl)
      exact told.of_blocks (by simp) (by simp)
  case probeExpiry p n =>
    split
    · exact probeLost_good (s := s.modPu p _) (k.of_blocks rfl rfl) p
    · exact k
  case reportTimeout p h =>
    split
    · exact handIfChanged_good (k.of_blocks (by simp) (by simp)) p _
    · exact k
  case dwellExpiry p h =>
    split
    · exact handIfChanged_good (k.of_blocks (by simp) (by simp)) p _
    · exact k
  case hopclear => exact operatorRequest_atHop_good _ _ _ k _ fun _ p h _ hu => doHopclear_good hu p h
  case hopset => exact operatorRequest_atHop_good _ _ _ k _ fun r p h _ hu => doHopset_good hu p h r
  case hoptag | hopuntag => exact operatorRequest_atHop_good _ _ _ k _ fun _ p h _ hu => setTag_good hu p h _
  case pathset => exact operatorRequest_atIndex_good _ _ _ k _ fun _ p _ hu => doPathset_good p _ hu
  case pathon =>
    exact operatorRequest_leads (P := fun u => PathsOk u ∧ Good u) (Q := Good)
      (fun a u ha ⟨hpaths, hgood⟩ => ⟨pathsOk_ignoresOutput a u ha hpaths, good_ignoresOutput a u ha hgood⟩) good_ignoresOutput
      (fun _ hu => hu.2) _ _ _ (fun i u ⟨hpaths, hgood⟩ => by
        unfold atIndex
        split
        · exact hgood
        · exact doPathon_good _ (onWhereServed_of_pathsOk hpaths) hgood) ⟨hp, k⟩
  case pathoff => exact operatorRequest_atIndex_good _ _ _ k _ fun _ p _ hu => doPathoff_good p hu
  case pathrestart => exact operatorRequest_atIndex_good _ _ _ k _ fun _ p _ hu => doPathrestart_good p hu
  case carry => exact tenantRequest_good _ _ _ k _ fun w r _ hu => doCarry_good w r hu
  case channelSubmission u c =>
    split
    · exact k
    · next m _ => exact (admitMessage_good (submissionStream u m) m.bytes _ _ (.channel c) k).of_blocks rfl rfl
  case resubmission u c =>
    split
    · exact k
    · next m _ =>
      split
      · have admitted := admitMessage_good (submissionStream u m) m.bytes m.originStamp m.originLock (.channel c)
          (s := s.modChannel u c fun x => { x with resubmissions := x.resubmissions - 1 }) (k.of_blocks rfl rfl)
        dsimp only
        split
        · exact admitted.of_blocks (by simp; rfl) (by simp)
        · exact admitted
      · exact k
  case routeWaitExpiry st =>
    split
    · exact k
    · exact dropHead_good st _ .expired k
  case stallExpiry st name =>
    split
    · next h => exact stallExpired_good h k
    · exact k
  case streamset => exact tenantRequest_good _ _ _ k _ fun w r _ hu => doStreamset_good w r hu
  case tenantset => exact operatorRequest_atIndex_good _ _ _ k _ fun _ w _ hu => doTenantset_good _ w hu
  case tenantreset => exact operatorRequest_atIndex_good _ _ _ k _ fun _ w _ hu => doTenantreset_good w hu
  case countclear => exact operatorRequest_keeps good_ignoresOutput _ _ _ (fun x _ _ hu => countclear_good x hu) k
  case restart =>
    exact operatorRequest_leads (P := fun u => PathsOk u ∧ Good u) (Q := Good)
      (fun a u ha ⟨hpaths, hgood⟩ => ⟨pathsOk_ignoresOutput a u ha hpaths, good_ignoresOutput a u ha hgood⟩) good_ignoresOutput
      (fun _ hu => hu.2) _ _ _ (fun x u ⟨hpaths, _⟩ => doRestart_good x hpaths) ⟨hp, k⟩

/-! ## Every step -/

/-- One tu of time shortens the timers of a message and leaves the rest. -/
theorem tickMessage_fits {routes carries : PathId → Prop} {m : Message} (h : HeadFits routes carries m) :
    HeadFits routes carries (tickMessage m) := by
  have copies {c : Copy} (hc : c ∈ copiesOf (tickMessage m)) : ∃ d ∈ copiesOf m, c = tickCopy d := by
    rcases mem_copiesOf.mp hc with hc | hc
    · obtain ⟨d, hd, rfl⟩ := Option.map_eq_some_iff.mp hc
      exact ⟨d, mem_copiesOf.mpr (.inl hd), rfl⟩
    · obtain ⟨d, hd, rfl⟩ := Option.map_eq_some_iff.mp hc
      exact ⟨d, mem_copiesOf.mpr (.inr hd), rfl⟩
  have apart (ha : Apart m) : Apart (tickMessage m) := fun a hc b hd => by
    obtain ⟨x, hx, rfl⟩ := Option.map_eq_some_iff.mp hc
    obtain ⟨y, hy, rfl⟩ := Option.map_eq_some_iff.mp hd
    exact ha x hx y hy
  obtain ⟨hrelaunch, hu | hr | ⟨hs, hany⟩⟩ := h
  · exact ⟨hrelaunch, .inl ⟨hu.life, by simp [tickMessage, hu.bareA], by simp [tickMessage, hu.bareB],
      by simp [tickMessage, Timer.tick, hu.waits]⟩⟩
  · refine ⟨hrelaunch, .inr (.inl ⟨hr.life, by simp [tickMessage, hr.first], fun c hc => ?_, fun c hc => ?_, apart hr.apart,
      by simp [tickMessage, Timer.tick, hr.waits]⟩)⟩
    · obtain ⟨d, hd, rfl⟩ := copies hc
      exact hr.idle d hd
    · obtain ⟨d, hd, rfl⟩ := copies hc
      exact hr.routes d hd
  · refine ⟨hrelaunch, .inr (.inr ⟨⟨hs.life, by simp [tickMessage, hs.first], hs.numbered, fun c hc => ?_, fun c hc hl => ?_,
      apart hs.apart, by simp [tickMessage, Timer.tick, hs.waits]⟩, ?_⟩)⟩
    · obtain ⟨d, hd, rfl⟩ := copies hc
      exact hs.begun d hd
    · obtain ⟨d, hd, rfl⟩ := copies hc
      exact hs.carries d hd hl
    · obtain ⟨d, hd, hl⟩ := anyCopy_iff.mp hany
      refine anyCopy_iff.mpr ⟨tickCopy d, ?_, hl⟩
      rcases mem_copiesOf.mp hd with hd | hd
      · exact mem_copiesOf.mpr (.inl (Option.map_eq_some_iff.mpr ⟨d, hd, rfl⟩))
      · exact mem_copiesOf.mpr (.inr (Option.map_eq_some_iff.mpr ⟨d, hd, rfl⟩))

theorem tickMessage_waiting {m : Message} (h : waitingAsAdmitted m) : waitingAsAdmitted (tickMessage m) := by
  obtain ⟨hlife, hseq, hcount, hflag, ha, hb⟩ := h
  exact ⟨hlife, hseq, hcount, hflag, by simp [tickMessage, ha], by simp [tickMessage, hb]⟩

theorem tick_stream (s : State) (st : StreamId) :
    (tick s).stream st = { s.stream st with queue := (s.stream st).queue.map tickMessage } := by
  simp only [State.stream, tick, mapAll_get]

theorem tick_good {s : State} (k : Good s) : Good (tick s) := fun st => by
  have hserved : served (tick s) = served s := served_of rfl
  rw [hserved, tick_stream]
  have hfits := k st
  cases hq : (s.stream st).queue with
  | nil => exact queueFits_nil
  | cons m rest =>
    rw [hq] at hfits
    obtain ⟨hm, hrest⟩ := queueFits_cons.mp hfits
    refine queueFits_cons.mpr ⟨tickMessage_fits hm, fun x hx => ?_⟩
    obtain ⟨y, hy, rfl⟩ := List.mem_map.mp hx
    exact tickMessage_waiting (hrest y hy)

theorem idleStep_good {s : State} (k : Good s) : Good (idleStep s) := by
  unfold idleStep
  split
  · exact k.of_blocks rfl rfl
  · exact k.of_blocks (by simp) (by simp)
  · exact tick_good k

/-- Settles O11: heads and copies together are kept by every command and by the part's own step. -/
theorem stepKeepsCopiesOnPathsInService : Obligations.StepKeepsCopiesOnPathsInService := by
  unfold Obligations.StepKeepsCopiesOnPathsInService
  intro s t hpaths hheads hcopies h
  have k : Good s := good_of_invariants hheads hcopies
  unfold step at h
  split at h
  · next i rest _ =>
    have kept : Good t := by
      cases hi : idleForQueues i
      · exact exec_reaching_good hi h (fun p => pathOk_of_rows (s := s) rfl rfl rfl (hpaths p)) (k.of_blocks rfl rfl)
      · exact exec_idle_good hi h (k.of_blocks rfl rfl)
    exact kept.copiesOk
  · cases h
    exact (idleStep_good k).copiesOk

end Sys2Proof.Proofs
end

