-- ==== Sys2Proof/Proofs/RouteCounters.lean ====
section
/-!
What a route choice counts (Table 5-3): one choice, the choices of a re-choice summed over its streams, and the choice for a message
that becomes head or relaunches.
-/

namespace Sys2Proof.Proofs

open Sys2Proof.Machine Sys2Proof.Claims

/-! ## Sums of choices -/

theorem choicesCounted_trans {first partner first' partner' : PathId → Nat} {n n' : Nat} {k t w : RouteSelector}
    (h : choicesCounted first partner n k t) (h' : choicesCounted first' partner' n' t w) :
    choicesCounted (fun p => first p + first' p) (fun p => partner p + partner' p) (n + n') k w := by
  obtain ⟨hrest, hrow⟩ := h
  obtain ⟨hrest', hrow'⟩ := h'
  refine ⟨?_, fun p => ?_⟩
  · rw [hrest', hrest]
    simp only [satAdd_satAdd]
  · rw [hrow', hrow]
    simp only [satAdd_satAdd]

theorem choicesCounted_refl (k : RouteSelector) : choicesCounted (fun _ => 0) (fun _ => 0) 0 k k :=
  ⟨by simp only [satAdd_zero], fun p => by simp only [satAdd_zero]⟩

/-- Only the copies that a message has count for a choice. -/
theorem headCounted_of_copies {m x : Message} {r : Option Route} {k t : RouteSelector} (h : headCounted x r k t)
    (ha : m.copyA = x.copyA) (hb : m.copyB = x.copyB) : headCounted m r k t := by
  unfold headCounted newFirst newPartner at h ⊢
  rw [ha, hb]
  exact h

/-! ## The unlaunched heads of some streams -/

section heads
variable {s : State} {st : StreamId} {f : StreamId → Message → Bool}

theorem headsWhere_cons (st : StreamId) (l : List StreamId) :
    headsWhere s (st :: l) f = headsWhere s [st] f + headsWhere s l f := by
  simp only [headsWhere, List.countP_cons, List.countP_nil]
  omega

theorem headsWhere_unlaunched {m : Message} (hm : headOf s st = some m) (h : unlaunched m) :
    headsWhere s [st] f = (f st m).toNat := by
  have hq : (s.stream st).queue.head? = some m := hm
  simp only [headsWhere, List.countP_cons, List.countP_nil, hq, decide_eq_true h, Bool.true_and]
  cases f st m <;> rfl

theorem headsWhere_launched (h : ∀ m ∈ headOf s st, ¬unlaunched m) : headsWhere s [st] f = 0 := by
  cases hq : (s.stream st).queue.head? with
  | none => simp [headsWhere, hq]
  | some m =>
    have hlife : decide (unlaunched m) = false := decide_eq_false (h m hq)
    simp only [headsWhere, List.countP_cons, List.countP_nil, hq, hlife, Bool.false_and, Bool.false_eq_true, if_false]

theorem headsWhere_congr {t : State} {g : StreamId → Message → Bool} {l : List StreamId}
    (h : ∀ x ∈ l, t.stream x = s.stream x ∧ g x = f x) : headsWhere t l g = headsWhere s l f :=
  List.countP_congr fun x hx => by
    obtain ⟨hrow, hg⟩ := h x hx
    rw [hrow, hg]

end heads

/-! ## A re-choice (R91) -/

/-- A re-choice for one head. -/
theorem applyRoute_recounted {st : StreamId} {m : Message} (r : Option Route) (s : State) :
    choicesCounted (fun p => (newFirst m r p).toNat) (fun p => (newPartner m r p).toNat)
      (decide (m.life = .headRouted ∧ r = none)).toNat s.rs (applyRoute false st m r s).rs := by
  cases r with
  | some rt =>
    have hcounted := applyRoute_counted st m (some rt) s
    have hlost : decide (m.life = .headRouted ∧ some rt = none) = decide (some rt = none) := by simp
    rw [hlost]
    exact hcounted
  | none =>
    by_cases hlife : m.life = .headRouted
    · have happly : (applyRoute false st m none s).rs = { s.rs with unroutedHeads := satInc s.rs.unroutedHeads } := by
        simp [applyRoute, hlife]
      rw [happly]
      exact ⟨by simp [hlife], fun p => by simp [newFirst, newPartner]⟩
    · have happly : (applyRoute false st m none s).rs = s.rs := by simp [applyRoute, hlife]
      rw [happly]
      exact ⟨by simp [hlife], fun p => by simp [newFirst, newPartner]⟩

theorem chooseFor_recounted (st : StreamId) (s : State) : rechoiceCounted s [st] s.rs (chooseFor false st s).rs := by
  by_cases h : ∃ m, headOf s st = some m ∧ unlaunched m
  · obtain ⟨m, hm, hlife⟩ := h
    rw [chooseFor_unlaunched hm hlife]
    simp only [rechoiceCounted, headsWhere_unlaunched hm hlife]
    exact applyRoute_recounted _ s
  · have stays : ∀ m ∈ headOf s st, ¬unlaunched m := fun m hm hlife => h ⟨m, hm, hlife⟩
    rw [chooseFor_launched stays]
    simp only [rechoiceCounted, headsWhere_launched stays]
    exact choicesCounted_refl s.rs

/-- What a re-choice counts depends on the streams' rows and what the choices read. -/
theorem rechoiceCounted_congr {s t : State} {l : List StreamId} (hchoices : SameChoices s t)
    (hrows : ∀ st ∈ l, t.stream st = s.stream st) : rechoiceCounted t l = rechoiceCounted s l := by
  have heads (g : Message → Option Route → Bool) :
      headsWhere t l (fun st m => g m (chooseRoute t st)) = headsWhere s l fun st m => g m (chooseRoute s st) :=
    headsWhere_congr fun st hst => ⟨hrows st hst, by rw [hchoices.chooseRoute (by rw [hrows st hst]) (by rw [hrows st hst])]⟩
  have first := funext fun p => heads fun m r => newFirst m r p
  have partner := funext fun p => heads fun m r => newPartner m r p
  have unrouted := heads fun m r => decide (m.life = .headRouted ∧ r = none)
  unfold rechoiceCounted
  rw [first, partner, unrouted]

theorem rechoose_counted {l : List StreamId} (hl : l.Nodup) (s : State) : rechoiceCounted s l s.rs (rechoose l s).rs := by
  induction l generalizing s with
  | nil => exact choicesCounted_refl s.rs
  | cons st l ih =>
    obtain ⟨hst, hl⟩ := List.nodup_cons.mp hl
    have hrest := ih hl (chooseFor false st s)
    rw [rechoiceCounted_congr (chooseFor_sameChoices false st s) fun x hx =>
      (chooseFor_local false st s).streams x fun e => hst (e ▸ hx)] at hrest
    have hall := choicesCounted_trans (chooseFor_recounted st s) hrest
    simp only [← headsWhere_cons] at hall
    exact hall

/-! ## The choice for a message that becomes head or relaunches (R110, R118) -/

section next
variable {s : State} {st : StreamId}

theorem becomeHead_sameChoices (st : StreamId) (s : State) : SameChoices s (becomeHead st s) := ⟨by simp, by simp, by simp⟩

/-- The route counted for a new head is the one its stream has after the choice. -/
theorem becomeHead_counted {m : Message} {rest : List Message} (hq : (s.stream st).queue = m :: rest) :
    headCounted m (chooseRoute (becomeHead st s) st) s.rs (becomeHead st s).rs := by
  obtain ⟨hrow, hcounted⟩ := becomeHead_next hq
  rw [(becomeHead_sameChoices st s).chooseRoute (by rw [hrow]) (by rw [hrow])]
  exact hcounted

/-- A head without a live copy launches again while its relaunches last (R118). -/
theorem settleCut_relaunches {m : Message} {rest : List Message} (hq : (s.stream st).queue = m :: rest) (hlife : m.life = .launching)
    (hcut : ∀ c ∈ copiesOf m, c.state = .cut) (hfew : m.relaunchCount < 2) :
    settleCut st s = chooseFor true st (withRelaunch st s) := by
  have hno {x : CopyState} (hx : x ≠ .cut) : anyCopy x m = false := anyCopy_false_iff.mpr fun c hc e => hx (e.symm.trans (hcut c hc))
  rw [settleCut_cons hq, if_neg (by simp [hlife, hno]), if_neg (by simp [doneTest, hno]), if_pos hfew]

theorem relaunch_counted {m : Message} {rest : List Message} (hq : (s.stream st).queue = m :: rest) :
    headCounted { m with copyA := none, copyB := none } (chooseRoute (chooseFor true st (withRelaunch st s)) st) s.rs
      (chooseFor true st (withRelaunch st s)).rs := by
  set u := withRelaunch st s with hu
  have hhead : headOf u st = some (relaunching (routeLimit s st) m) := headOf_of_queue (withRelaunch_queue hq)
  have hroute : chooseRoute (chooseFor true st u) st = chooseRoute u st := by
    refine (chooseFor_sameChoices true st u).chooseRoute ?_ ?_ <;> rw [chooseFor_stream]
  rw [hroute, chooseFor_unlaunched hhead (.inl rfl)]
  exact applyRoute_counted st (relaunching (routeLimit s st) m) (chooseRoute u st) u

end next

/-! ## The commands -/

/-- A tenant's request on its own lane whose body passes the tests of R172. -/
theorem tenantRequest_tenant {α : Type} {parsed : Option α} {x : α} (h : parsed = some x) (u : TenantId) (tag : Tag) (kind : Byte)
    (act : TenantId → α → State → State × Reply) (s : State) : tenantRequest (tenantLane u) tag kind parsed act s =
      answer (tenantLane u) tag kind (act u x (countRequest (tenantLane u) s)).2 (act u x (countRequest (tenantLane u) s)).1 := by
  rw [tenantRequest, laneTenant_tenantLane, h]
  rfl

theorem parseCarry_encoded {b : Byte} {cls : TClass} (hb : classOf b.toNat = some cls) {payload : List Byte}
    (h : payload.length ≤ 256) : parseCarry (b :: toBE 2 payload.length ++ payload) = some { cls := cls, payload := payload } := by
  have hlength : fieldNat (toBE 2 payload.length ++ payload) 0 2 = payload.length :=
    fieldNat_toBE payload (h.trans_lt (by norm_num))
  simp only [parseCarry, List.cons_append, nat1, byteAt_zero, hb, fieldNat_cons _ Nat.zero_lt_one, hlength]
  rw [if_pos ⟨by simp; omega, h⟩]
  simp

/-- A stream whose head is dropped. -/
def headDropped (cause : DropCause) (x : Stream) : Stream := { dropCounted cause x with queue := x.queue.tail }

theorem dropHead_becomes (st : StreamId) (m : Message) (cause : DropCause) (s : State) :
    (dropHead st m cause s).rs = (becomeHead st (s.modStream st (headDropped cause))).rs ∧
    SameChoices (becomeHead st (s.modStream st (headDropped cause))) (dropHead st m cause s) ∧
    (dropHead st m cause s).stream = (becomeHead st (s.modStream st (headDropped cause))).stream := by
  have h : removeHead st (s.modStream st (dropCounted cause)) = becomeHead st (s.modStream st (headDropped cause)) := by
    have hmoves : (s.modStream st (dropCounted cause)).modStream st (fun x => { x with queue := x.queue.tail }) =
        s.modStream st (headDropped cause) := by
      simp only [State.modStream, upd_upd]
      rfl
    rw [removeHead, hmoves]
  refine ⟨?_, ⟨?_, by simp, by simp⟩, ?_⟩
  · rw [← h]
    unfold dropHead dropCounted
    simp
  · rw [← h]
    unfold dropHead dropCounted
    simp
  · rw [dropHead_stream, h]

theorem exec_routeWaitExpiry {s : State} {st : StreamId} {m : Message} {rest : List Message} (hq : (s.stream st).queue = m :: rest)
    (hwaits : m.life ≠ .launching) (htimer : m.routeWait.isSome = true) :
    exec (.routeWaitExpiry st) s = .next (dropHead st m .expired s) := by
  have hwaiting : waitingHead s st = some m := by rw [waitingHead, headOf_of_queue hq]; exact if_pos ⟨hwaits, htimer⟩
  rw [exec, execRouteWaitExpiry, hwaiting]

theorem exec_stallExpiry {s : State} {st : StreamId} {m : Message} {rest : List Message} {name : CopyName} {c : Copy}
    (hq : (s.stream st).queue = m :: rest) (hc : getCopy m name = some c) (hl : c.state = .launching) (hstall : c.stall.isSome = true) :
    exec (.stallExpiry st name) s = .next (settleCut st (cutCopy st name .stall s)) := by
  have hstalling : stalling s st name = true := by simp [stalling, headOf_of_queue hq, hc, hl, hstall]
  rw [exec, execStallExpiry, if_pos hstalling]

/-- A submission that fits is admitted at the tail of its queue. -/
theorem admitMessage_fits {s : State} {st : StreamId} {bytes : List Byte} (hroom : (s.stream st).queue.length < queueCapacity st.cls)
    (hquota : occupancy s st.tenant + cellsFor bytes.length ≤ (s.tenant st.tenant).grant.quota) (stamp : Stamp) (lock : Bool)
    (source : Source) : (admitMessage st bytes stamp lock source s).1 = if (s.stream st).queue.isEmpty then
      becomeHead st (withMessage st bytes stamp lock source s) else withMessage st bytes stamp lock source s := by
  unfold admitMessage
  dsimp only
  rw [if_neg (Nat.not_le.mpr hroom), if_neg (Nat.not_lt.mpr hquota)]
  rfl

theorem admitMessage_first {s : State} {st : StreamId} {bytes : List Byte} (hempty : (s.stream st).queue = [])
    (hquota : occupancy s st.tenant + cellsFor bytes.length ≤ (s.tenant st.tenant).grant.quota) (stamp : Stamp) (lock : Bool)
    (source : Source) : (admitMessage st bytes stamp lock source s).1 = becomeHead st (withMessage st bytes stamp lock source s) := by
  have hroom : (s.stream st).queue.length < queueCapacity st.cls := by rw [hempty]; cases st.cls <;> decide
  rw [admitMessage_fits hroom hquota, hempty]
  rfl

/-- Settles O60: re-choices by their sums over the streams, the rest by the choice for the message that is head afterwards. -/
theorem routeChoicesAreCounted : Obligations.RouteChoicesAreCounted := by
  unfold Obligations.RouteChoicesAreCounted
  refine ⟨fun s => ⟨rechoose_counted allStreams_nodup s, fun u => rechoose_counted (streamsOf_nodup u) s⟩, ?_, ?_⟩
  · intro s u tag cls payload hlen st body henabled hempty hquota
    set v := countRequest (tenantLane u) s with hv
    set w := withMessage st payload (capture v).stamp (capture v).lock .carry v with hw
    have hadmitted : (doCarry u { cls := cls, payload := payload } v).1 = becomeHead st w := by
      have henabled : (v.tenant u).enabled = true := henabled
      rw [doCarry, if_pos henabled]
      exact admitMessage_first (s := v) (st := st) hempty hquota _ _ _
    have hexec : exec (.carry (tenantLane u) tag body) s = .next (answer (tenantLane u) tag 0x01
        (doCarry u { cls := cls, payload := payload } v).2 (becomeHead st w)) := by
      have hparsed : parseCarry body = some { cls := cls, payload := payload } := parseCarry_encoded (by cases cls <;> rfl) hlen
      rw [exec, execCarry, tenantRequest_tenant hparsed, ← hv, hadmitted]
    have hqueue : (w.stream st).queue = [admittedMessage payload (capture v).stamp (capture v).lock .carry v] := by
      have hempty : (v.stream st).queue = [] := hempty
      rw [hw, withMessage_stream, if_pos rfl, hempty]
      rfl
    set t := answer (tenantLane u) tag 0x01 (doCarry u { cls := cls, payload := payload } v).2 (becomeHead st w) with ht
    have hrow : t.stream st = (becomeHead st w).stream st := State.stream_of (by simp [ht]) st
    have hchoices : SameChoices (becomeHead st w) t := ⟨by simp [ht], by simp [ht], by simp [ht]⟩
    refine ⟨t, _, hexec, by rw [hrow, (becomeHead_next hqueue).1], ?_⟩
    rw [hchoices.chooseRoute (by rw [hrow]) (by rw [hrow]), show t.rs = (becomeHead st w).rs by simp [ht]]
    exact headCounted_of_copies (becomeHead_counted hqueue) rfl rfl
  · intro s st m rest hq
    refine ⟨fun hwaits htimer => ?_, fun name c hlife hl hstall hc hothers hfew => ?_⟩
    · obtain ⟨hrs, hchoices, hstream⟩ := dropHead_becomes st m .expired s
      have hgone : ((s.modStream st (headDropped .expired)).stream st).queue = rest := by
        rw [State.stream_modStream_same, headDropped, hq]
        rfl
      have hexec := exec_routeWaitExpiry hq hwaits htimer
      refine ⟨fun hlast => ⟨_, hexec, ?_⟩, fun m2 more hmore => ⟨_, hexec, ?_⟩⟩
      · rw [hrs, (becomeHead_empty (hgone.trans hlast)).2]
        rfl
      · rw [hrs, hchoices.chooseRoute (by rw [hstream]) (by rw [hstream])]
        exact becomeHead_counted (hgone.trans hmore)
    · have hcopy : getCopy m name = some c := by cases name <;> exact hc
      set u := cutCopy st name .stall s with hu
      have hcut : (u.stream st).queue = cutHead name m :: rest := cutCopy_queue .stall hq hcopy hl
      have hcopies : ∀ d ∈ copiesOf (cutHead name m), d.state = .cut := fun d hd => by
        rcases (mem_copiesOf_modCopy hcopy).mp hd with rfl | ho
        · rfl
        · exact hothers d (by cases name <;> exact ho)
      have hkept : (cutHead name m).life = m.life ∧ (cutHead name m).relaunchCount = m.relaunchCount := by
        cases name <;> exact ⟨rfl, rfl⟩
      have hsettled : settleCut st u = chooseFor true st (withRelaunch st u) :=
        settleCut_relaunches hcut (hkept.1.trans hlife) hcopies (hkept.2 ▸ hfew)
      refine ⟨_, (exec_stallExpiry hq hcopy hl hstall).trans (congrArg Host.Outcome.next hsettled), ?_⟩
      have hcounted := relaunch_counted hcut
      have hrs : u.rs = s.rs := by simp [hu]
      rw [hrs] at hcounted
      exact headCounted_of_copies hcounted rfl rfl

end Sys2Proof.Proofs
end

