-- ==== Sys2Proof/Proofs/PathNotices.lean ====
section
/-!
PATH_STATE notices lane by lane (R86), and what cutting a path leaves of the management lane and of RS's state counters.
-/

namespace Sys2Proof.Proofs

open Sys2Proof.Machine Sys2Proof.Claims

/-! ## One lane -/

section lane
variable {x y : State} {l : LaneId}

/-- What an entry makes of its lane depends on that lane only. -/
theorem pushEntry_lane_congr (h : x.lane l = y.lane l) (e : Entry) : (pushEntry l e x).lane l = (pushEntry l e y).lane l := by
  have hloss (z : State) (b : Bool) : (z.setLoss l b).lane l = z.lane l := by
    unfold State.setLoss
    split <;> rfl
  have hclear (z : State) : (clearPending l e z).lane l = z.lane l := State.lane_of (by simp) l
  unfold pushEntry
  rw [h]
  dsimp only
  split
  · rw [State.lane_modLane_same, State.lane_modLane_same, h]
  · split
    · rw [hloss, hloss, State.countLane, State.countLane, State.lane_modLane_same, State.lane_modLane_same, State.lane_modLane_same,
        State.lane_modLane_same, h]
    · rw [hclear, hclear]
      split
      · rw [hloss, hloss, State.countLane, State.countLane, State.lane_modLane_same, State.lane_modLane_same, h]
      · rw [State.countLane, State.countLane, State.lane_modLane_same, State.lane_modLane_same, h]

theorem pushNotice_lane_congr (htb : x.tb = y.tb) (h : x.lane l = y.lane l) (n : Notice) :
    (pushNotice l n x).lane l = (pushNotice l n y).lane l := by
  have hc : capture x = capture y := by simp only [capture, htb]
  rw [pushNotice, pushNotice, hc]
  exact pushEntry_lane_congr h _

theorem pushNotice_lane {k : LaneId} (hk : k ≠ l) (n : Notice) (s : State) : (pushNotice l n s).lane k = s.lane k :=
  pushEntry_lane hk _ s

end lane

theorem exists_tenantLane {l : LaneId} (h : l ≠ mgmtLane) : ∃ u, l = tenantLane u := by
  revert l
  decide

/-! ## A path's state told (R86) -/

/-- The enabled tenants whose masks hold the path. -/
def toldOf (s : State) (p : PathId) (u : TenantId) : Bool := (s.tenant u).enabled && inAnyMask (s.tenant u).grant p

/-- A notice to the tenants of a list that are to be told. -/
def tellTenants (p : PathId) (n : Notice) (us : List TenantId) (s : State) : State :=
  us.foldl (fun x u => if (x.tenant u).enabled && inAnyMask (x.tenant u).grant p then pushNotice (tenantLane u) n x else x) s

theorem notifyPath_eq (p : PathId) (old new : PathState) (cause : PathCause) (s : State) : notifyPath p old new cause s =
    tellTenants p (.pathState p old new cause (s.path p).cost (s.path p).hopCond.usable) allTenants
      (notifyOperator (.pathState p old new cause (s.path p).cost (s.path p).hopCond.usable) s) := rfl

theorem tellTenants_cons (p : PathId) (n : Notice) (u : TenantId) (us : List TenantId) (s : State) :
    tellTenants p n (u :: us) s = tellTenants p n us (if toldOf s p u then pushNotice (tenantLane u) n s else s) := rfl

/-- A lane that is none of theirs stands. -/
theorem tellTenants_other {l : LaneId} {us : List TenantId} (hl : ∀ u ∈ us, l ≠ tenantLane u) (p : PathId) (n : Notice) (s : State) :
    (tellTenants p n us s).lane l = s.lane l := by
  induction us generalizing s with
  | nil => rfl
  | cons u us ih =>
    obtain ⟨hu, hus⟩ := List.forall_mem_cons.mp hl
    rw [tellTenants_cons, ih hus]
    split
    · exact pushNotice_lane hu n s
    · rfl

theorem tellTenants_lane {us : List TenantId} (hnodup : us.Nodup) (p : PathId) (n : Notice) {u : TenantId} (hu : u ∈ us) (s : State) :
    (tellTenants p n us s).lane (tenantLane u) =
      if toldOf s p u then (pushNotice (tenantLane u) n s).lane (tenantLane u) else s.lane (tenantLane u) := by
  induction us generalizing s with
  | nil => exact absurd hu List.not_mem_nil
  | cons w us ih =>
    obtain ⟨hw, hrest⟩ := List.nodup_cons.mp hnodup
    have hne {v : TenantId} (h : v ≠ w) : tenantLane v ≠ tenantLane w := fun e => h ((tenantLane_inj v w).mp e)
    rw [tellTenants_cons]
    rcases List.mem_cons.mp hu with rfl | hus
    · rw [tellTenants_other fun v hv => (fun e => hw ((tenantLane_inj u v).mp e ▸ hv))]
      split <;> rfl
    · have huw : u ≠ w := fun e => hw (e ▸ hus)
      set x := if toldOf s p w then pushNotice (tenantLane w) n s else s with hx
      have htb : x.tb = s.tb := by rw [hx]; split <;> simp
      have hlane : x.lane (tenantLane u) = s.lane (tenantLane u) := by
        rw [hx]
        split
        · exact pushNotice_lane (hne huw) n s
        · rfl
      have htold : toldOf x p u = toldOf s p u := by
        rw [toldOf, toldOf, State.tenant_of (s := s) (t := x) (by rw [hx]; split <;> simp)]
      rw [ih hrest hus x, htold, hlane, pushNotice_lane_congr htb hlane]

theorem allTenants_nodup : allTenants.Nodup := by decide

theorem mem_inAnyMask {g : TenantGrant} {p : PathId} : inAnyMask g p = true ↔
    g.masks.u.getLsbD p.val = true ∨ g.masks.m.getLsbD p.val = true ∨ g.masks.b.getLsbD p.val = true := by
  simp [inAnyMask, allClasses, maskHas, PerClass.get]

theorem toldOf_iff {s : State} {p : PathId} {u : TenantId} : toldOf s p u = true ↔ (s.tenant u).enabled = true ∧
    ((s.tenant u).grant.masks.u.getLsbD p.val = true ∨ (s.tenant u).grant.masks.m.getLsbD p.val = true ∨
      (s.tenant u).grant.masks.b.getLsbD p.val = true) := by
  rw [toldOf, Bool.and_eq_true, mem_inAnyMask]

section notify
variable (p : PathId) (old new : PathState) (cause : PathCause) (s : State)

theorem notifyPath_mgmt : (notifyPath p old new cause s).lane mgmtLane =
    (notifyOperator (.pathState p old new cause (s.path p).cost (s.path p).hopCond.usable) s).lane mgmtLane := by
  rw [notifyPath_eq, tellTenants_other fun u _ => (tenantLane_ne_mgmt u).symm]

theorem notifyPath_tenant (u : TenantId) : (notifyPath p old new cause s).lane (tenantLane u) =
    if toldOf s p u then (pushNotice (tenantLane u) (.pathState p old new cause (s.path p).cost (s.path p).hopCond.usable) s).lane
      (tenantLane u)
    else s.lane (tenantLane u) := by
  rw [notifyPath_eq]
  generalize Notice.pathState p old new cause (s.path p).cost (s.path p).hopCond.usable = n
  have hlane : (notifyOperator n s).lane (tenantLane u) = s.lane (tenantLane u) := pushNotice_lane (tenantLane_ne_mgmt u) n s
  have htold : toldOf (notifyOperator n s) p u = toldOf s p u := by rw [toldOf, toldOf, State.tenant_of (s := s) (by simp)]
  rw [tellTenants_lane allTenants_nodup p n (mem_allTenants u), htold, hlane, pushNotice_lane_congr (notifyOperator_tb n s) hlane]

end notify

/-! ## What SQ's operations on a cut path tell -/

/-- No operation of SQ tells the operator. -/
theorem dropHead_mgmt (st : StreamId) (m : Message) (cause : DropCause) (s : State) :
    (dropHead st m cause s).lane mgmtLane = s.lane mgmtLane := by
  have htold (x : State) : (tellRoom st.tenant x).lane mgmtLane = x.lane mgmtLane := State.lane_of (by simp) mgmtLane
  have hremoved (x : State) : (removeHead st x).lane mgmtLane = x.lane mgmtLane := State.lane_of (by simp) mgmtLane
  unfold dropHead
  dsimp only
  rw [htold]
  split
  · rw [pushNotice_lane (mgmtLane_ne_tenantLane st.tenant), hremoved]
    rfl
  · rw [hremoved]
    rfl

theorem settleCut_mgmt (st : StreamId) (s : State) : (settleCut st s).lane mgmtLane = s.lane mgmtLane := by
  cases hq : (s.stream st).queue with
  | nil =>
    have hhead : headOf s st = none := by rw [headOf, hq]; rfl
    rw [settleCut, hhead]
  | cons m rest =>
    rw [settleCut_cons hq]
    split
    · rfl
    · split
      · exact State.lane_of (by simp) mgmtLane
      · split
        · exact State.lane_of (by simp [withRelaunch]) mgmtLane
        · exact dropHead_mgmt st m .relaunchLimit s

theorem cutPath_mgmt (p : PathId) (cause : CutCause) (s : State) : (cutPath p cause s).lane mgmtLane = s.lane mgmtLane := by
  have settled : ((hitStreams s p).foldl (fun x st => settleCut st x) ((hitStreams s p).foldl (fun x st => cutOn p cause st x) s)).lane
      mgmtLane = ((hitStreams s p).foldl (fun x st => cutOn p cause st x) s).lane mgmtLane :=
    foldl_keeps (P := fun x => x.lane mgmtLane = ((hitStreams s p).foldl (fun x st => cutOn p cause st x) s).lane mgmtLane)
      (fun x st hx => (settleCut_mgmt st x).trans hx) _ rfl
  have cut : ((hitStreams s p).foldl (fun x st => cutOn p cause st x) s).lane mgmtLane = s.lane mgmtLane :=
    foldl_keeps (P := fun x => x.lane mgmtLane = s.lane mgmtLane) (fun x st hx => (State.lane_of (by simp) mgmtLane).trans hx) _ rfl
  rw [cutPath_eq, settled, cut]

/-! ## RS's counters of path states (Table 5-3) -/

/-- The counters of a path that no route choice moves. -/
def stateCounts (c : RsCounters) : RsCounters := { c with firstChoices := 0, partnerChoices := 0 }

/-- Only first choices and partner choices are counted. -/
def OnlyChoices (s t : State) : Prop := ∀ p : PathId, stateCounts t.rs.counters[p] = stateCounts s.rs.counters[p]

section choices
variable {s t u : State}

theorem OnlyChoices.refl (s : State) : OnlyChoices s s := fun _ => rfl

theorem OnlyChoices.trans (h : OnlyChoices s t) (k : OnlyChoices t u) : OnlyChoices s u := fun p => (k p).trans (h p)

theorem OnlyChoices.of_rs (h : t.rs = s.rs) : OnlyChoices s t := fun p => by rw [h]

theorem OnlyChoices.of_counted {first partner : PathId → Nat} {n : Nat} (h : choicesCounted first partner n s.rs t.rs) :
    OnlyChoices s t := fun p => by rw [h.2 p]; rfl

theorem OnlyChoices.foldl {α : Type} {f : State → α → State} (h : ∀ s a, OnlyChoices s (f s a)) (l : List α) (s : State) :
    OnlyChoices s (l.foldl f s) :=
  foldl_keeps (P := OnlyChoices s) (fun x a hx => hx.trans (h x a)) l (.refl s)

theorem rechooseAll_onlyChoices (s : State) : OnlyChoices s (rechooseAll s) := .of_counted (rechoose_counted allStreams_nodup s)

theorem chooseFor_onlyChoices (st : StreamId) (s : State) : OnlyChoices s (chooseFor true st s) := by
  by_cases h : ∃ m, headOf s st = some m ∧ unlaunched m
  · obtain ⟨m, hm, hlife⟩ := h
    rw [chooseFor_unlaunched hm hlife]
    exact .of_counted (applyRoute_counted st m (chooseRoute s st) s)
  · rw [chooseFor_launched fun m hm hlife => h ⟨m, hm, hlife⟩]
    exact .refl s

theorem becomeHead_onlyChoices (st : StreamId) (s : State) : OnlyChoices s (becomeHead st s) :=
  OnlyChoices.trans (t := s.modHead st fun m => { m with life := .headUnrouted, routeWait := some (routeLimit s st) }) (.of_rs rfl)
    (chooseFor_onlyChoices st _)

theorem settleCut_onlyChoices (st : StreamId) (s : State) : OnlyChoices s (settleCut st s) := by
  cases hq : (s.stream st).queue with
  | nil =>
    have hhead : headOf s st = none := by rw [headOf, hq]; rfl
    rw [settleCut, hhead]
    exact .refl s
  | cons m rest =>
    rw [settleCut_cons hq]
    split
    · exact .refl s
    · split
      · rw [finishHead_eq]
        refine OnlyChoices.trans (t := becomeHead st (s.modStream st headDone)) ?_ (.of_rs (by simp))
        exact OnlyChoices.trans (t := s.modStream st headDone) (.of_rs rfl) (becomeHead_onlyChoices st _)
      · split
        · exact OnlyChoices.trans (t := withRelaunch st s) (.of_rs rfl) (chooseFor_onlyChoices st _)
        · obtain ⟨hrs, -, -⟩ := dropHead_becomes st m .relaunchLimit s
          refine OnlyChoices.trans (t := becomeHead st (s.modStream st (headDropped .relaunchLimit))) ?_ (.of_rs hrs)
          exact OnlyChoices.trans (t := s.modStream st (headDropped .relaunchLimit)) (.of_rs rfl) (becomeHead_onlyChoices st _)

theorem cutPath_onlyChoices (p : PathId) (cause : CutCause) (s : State) : OnlyChoices s (cutPath p cause s) := by
  rw [cutPath_eq]
  exact (OnlyChoices.foldl (fun x st => .of_rs (by simp)) _ s).trans (.foldl (fun x st => settleCut_onlyChoices st x) _ _)

end choices

end Sys2Proof.Proofs
end

