-- ==== Sys2Proof/Proofs/PathStates.lean ====
section
/-!
Table 5-2: what each input to RS makes of a path (R78 to R83), followed operation by operation from the state the input finds.
-/

namespace Sys2Proof.Proofs

open Sys2Proof.Machine Sys2Proof.Claims

/-! ## Heads that only take routes -/

theorem routedHead_unlaunched (r : Option Route) (m : Message) : unlaunched (routedHead r m) := by
  cases r
  · exact .inl rfl
  · exact .inr rfl

/-- A later route replaces an earlier one. -/
theorem routedHead_again (r q : Option Route) (m : Message) : routedHead r (routedHead q m) = routedHead r m := by
  cases r <;> cases q <;> rfl

/-- An unlaunched head is as it was, or has taken a route; the rest of its stream stands. -/
def HeadsRoute (s t : State) : Prop :=
  ∀ st m rest, (s.stream st).queue = m :: rest → unlaunched m →
    t.stream st = s.stream st ∨ ∃ r, t.stream st = { s.stream st with queue := routedHead r m :: rest }

/-- Every unlaunched head has the route of its stream (R91). -/
def Rechosen (s t : State) : Prop :=
  ∀ st m rest, (s.stream st).queue = m :: rest → unlaunched m →
    t.stream st = { s.stream st with queue := rerouted t st m :: rest }

section heads
variable {s t u : State}

theorem HeadsRoute.refl (s : State) : HeadsRoute s s := fun _ _ _ _ _ => .inl rfl

theorem HeadsRoute.trans (h : HeadsRoute s t) (k : HeadsRoute t u) : HeadsRoute s u := fun st m rest hq hm => by
  rcases h st m rest hq hm with e | ⟨r, e⟩
  · rw [← e]
    exact k st m rest (by rw [e, hq]) hm
  · refine .inr ?_
    rcases k st (routedHead r m) rest (by rw [e]) (routedHead_unlaunched r m) with e' | ⟨r', e'⟩
    · exact ⟨r, e'.trans e⟩
    · exact ⟨r', by rw [e', e, routedHead_again]⟩

theorem HeadsRoute.of_sq (h : t.sq = s.sq) : HeadsRoute s t := fun st _ _ _ _ => .inl (State.stream_of h st)

/-- A re-choice leaves each unlaunched head with the route chosen last. -/
theorem HeadsRoute.rechosen (h : HeadsRoute s t) : Rechosen s (rechooseAll t) := fun st m rest hq hm => by
  have hroute : chooseRoute (rechooseAll t) st = chooseRoute t st := rechoose_chooseRoute allStreams_nodup t st
  rw [rerouted_unlaunched hm, hroute, rechooseAll_stream]
  rcases h st m rest hq hm with e | ⟨r, e⟩
  · rw [e, hq, List.modifyHead_cons, rerouted_unlaunched hm]
  · rw [e, List.modifyHead_cons, rerouted_unlaunched (routedHead_unlaunched r m), routedHead_again]

theorem rechooseAll_headsRoute (s : State) : HeadsRoute s (rechooseAll s) := fun st m rest hq hm =>
  .inr ⟨chooseRoute s st, by rw [rechooseAll_stream, hq, List.modifyHead_cons, rerouted_unlaunched hm]⟩

/-- A cut reaches launching heads only. -/
theorem cutPath_headsRoute (p : PathId) (cause : CutCause) (s : State) : HeadsRoute s (cutPath p cause s) := fun st m rest hq hm => by
  refine .inl ((cutPath_stream p cause s st).1 ?_)
  have hlife : m.life ≠ .launching := by rcases hm with h | h <;> simp [h]
  rw [launchingOn, headOf_of_queue hq]
  exact if_neg hlife

end heads

/-! ## What RS reaches beside the path -/

/-- The other paths' records, the blocks that RS does not write, and the ABORTs. -/
structure RsFrame (p : PathId) (s t : State) : Prop where
  others : pathsBut p s t
  pp : t.pp = s.pp
  tb : t.tb = s.tb
  pu : t.pu = s.pu
  hs : t.hs = s.hs
  cs : t.cs = s.cs
  rd : t.rd = s.rd
  tenants : t.li.tenants = s.li.tenants
  aborts : SameAborts s t

theorem RsFrame.refl (p : PathId) (s : State) : RsFrame p s s := ⟨fun _ _ => rfl, rfl, rfl, rfl, rfl, rfl, rfl, rfl, .refl s⟩

theorem RsFrame.trans {p : PathId} {s t u : State} (h : RsFrame p s t) (k : RsFrame p t u) : RsFrame p s u where
  others q hq := (k.others q hq).trans (h.others q hq)
  pp := k.pp.trans h.pp
  tb := k.tb.trans h.tb
  pu := k.pu.trans h.pu
  hs := k.hs.trans h.hs
  cs := k.cs.trans h.cs
  rd := k.rd.trans h.rd
  tenants := k.tenants.trans h.tenants
  aborts := h.aborts.trans k.aborts

theorem modPath_rsFrame (p : PathId) (f : PathRecord → PathRecord) (s : State) : RsFrame p s (s.modPath p f) :=
  ⟨fun q hq => by rw [State.path_modPath, if_neg hq], rfl, rfl, rfl, rfl, rfl, rfl, rfl, .of_sq rfl⟩

theorem countRs_rsFrame (p : PathId) (f : RsCounters → RsCounters) (s : State) : RsFrame p s (s.countRs p f) :=
  ⟨fun _ _ => rfl, rfl, rfl, rfl, rfl, rfl, rfl, rfl, .of_sq rfl⟩

theorem notifyPath_rsFrame (p : PathId) (old new : PathState) (cause : PathCause) (s : State) :
    RsFrame p s (notifyPath p old new cause s) :=
  ⟨fun q _ => State.path_of (by simp) q, by simp, by simp, by simp, by simp, by simp, by simp, by simp, .of_sq (by simp)⟩

theorem rechooseAll_rsFrame (p : PathId) (s : State) : RsFrame p s (rechooseAll s) :=
  ⟨fun q _ => State.path_of (by simp) q, by simp, by simp, by simp, by simp, by simp, by simp, by simp,
    rechoose_sameAborts allStreams s⟩

theorem cutPath_rsFrame (p : PathId) (s : State) : RsFrame p s (cutPath p .service s) :=
  ⟨fun q _ => State.path_of (by simp) q, by simp, by simp, by simp, by simp, by simp, by simp, by simp,
    cutPath_service_sameAborts p s⟩

/-! ## One path followed through RS's operations -/

/-- What RS has made so far of an input that found `s`: the record, the counters of the path, and the notices told. -/
structure RsMoved (p : PathId) (r : PathRecord) (k : RsCounters → RsCounters) (ns : List Notice) (s t : State) : Prop where
  frame : RsFrame p s t
  row : t.path p = r
  counts : stateCounts t.rs.counters[p] = stateCounts (k s.rs.counters[p])
  mgmt : t.lane mgmtLane = (notified ns s).lane mgmtLane
  heads : HeadsRoute s t

/-- A count of path states that does not look at route choices. -/
def CountsStates (k : RsCounters → RsCounters) : Prop := ∀ a b, stateCounts a = stateCounts b → stateCounts (k a) = stateCounts (k b)

theorem stateCounts_iff {a b : RsCounters} : stateCounts a = stateCounts b ↔
    a.serviceEntries = b.serviceEntries ∧ a.downHop = b.downHop ∧ a.downProbe = b.downProbe ∧ a.downPort = b.downPort := by
  cases a
  cases b
  simp [stateCounts]

theorem countDown_countsStates (cause : PathCause) : CountsStates (countDown cause) := fun a b h => by
  obtain ⟨hentries, hhop, hprobe, hport⟩ := stateCounts_iff.mp h
  cases cause <;> simp [countDown, stateCounts_iff, hhop, hprobe, hport, hentries]

theorem countEntry_countsStates : CountsStates fun c => { c with serviceEntries := satInc c.serviceEntries } := fun a b h => by
  obtain ⟨hentries, hhop, hprobe, hport⟩ := stateCounts_iff.mp h
  simp [stateCounts_iff, hhop, hprobe, hport, hentries]

section moved
variable {p : PathId} {r : PathRecord} {k : RsCounters → RsCounters} {ns : List Notice} {s t : State}

theorem RsMoved.start (p : PathId) (s : State) : RsMoved p (s.path p) id [] s s := ⟨.refl p s, rfl, rfl, rfl, .refl s⟩

theorem RsMoved.write (h : RsMoved p r k ns s t) (f : PathRecord → PathRecord) : RsMoved p (f r) k ns s (t.modPath p f) where
  frame := h.frame.trans (modPath_rsFrame p f t)
  row := by rw [State.path_modPath_same, h.row]
  counts := h.counts
  mgmt := h.mgmt
  heads := h.heads.trans (.of_sq rfl)

theorem RsMoved.count (h : RsMoved p r id ns s t) (hk : CountsStates k) : RsMoved p r k ns s (t.countRs p k) where
  frame := h.frame.trans (countRs_rsFrame p k t)
  row := h.row
  counts := (congrArg stateCounts (upd_same t.rs.counters p k)).trans (hk _ _ h.counts)
  mgmt := h.mgmt
  heads := h.heads.trans (.of_sq rfl)

theorem RsMoved.notify (h : RsMoved p r k ns s t) (old new : PathState) (cause : PathCause) :
    RsMoved p r k (ns ++ [.pathState p old new cause r.cost r.hopCond.usable]) s (notifyPath p old new cause t) where
  frame := h.frame.trans (notifyPath_rsFrame p old new cause t)
  row := (State.path_of (by simp) p).trans h.row
  counts := (congrArg (fun x : RouteSelector => stateCounts x.counters[p]) (by simp : (notifyPath p old new cause t).rs = t.rs)).trans
    h.counts
  mgmt := by
    rw [notifyPath_mgmt, notified_append, h.row]
    exact pushNotice_lane_congr (h.frame.tb.trans (notified_tb ns s).symm) h.mgmt _
  heads := h.heads.trans (.of_sq (by simp))

theorem RsMoved.rechoose (h : RsMoved p r k ns s t) : RsMoved p r k ns s (rechooseAll t) where
  frame := h.frame.trans (rechooseAll_rsFrame p t)
  row := (State.path_of (by simp) p).trans h.row
  counts := (rechooseAll_onlyChoices t p).trans h.counts
  mgmt := (State.lane_of (by simp) mgmtLane).trans h.mgmt
  heads := h.heads.trans (rechooseAll_headsRoute t)

theorem RsMoved.cut (h : RsMoved p r k ns s t) : RsMoved p r k ns s (cutPath p .service t) where
  frame := h.frame.trans (cutPath_rsFrame p t)
  row := (State.path_of (by simp) p).trans h.row
  counts := (cutPath_onlyChoices p .service t p).trans h.counts
  mgmt := (cutPath_mgmt p .service t).trans h.mgmt
  heads := h.heads.trans (cutPath_headsRoute p .service t)

/-! ## What an input leaves -/

variable {moves : List (PathState × PathState × PathCause × Option Nat)}

/-- A move of a path, as the notice that tells of it. -/
def moveNotice (p : PathId) (usable : Nat) (m : PathState × PathState × PathCause × Option Nat) : Notice :=
  .pathState p m.1 m.2.1 m.2.2.1 m.2.2.2 usable

theorem RsMoved.leaves (h : RsMoved p r k (moves.map (moveNotice p r.hopCond.usable)) s t)
    (hstays : r.state = (s.path p).state → r.cost = (s.path p).cost → r.hopCond.usable = (s.path p).hopCond.usable → moves = [] →
      t.sq = s.sq)
    (hmoves : (r.state ≠ (s.path p).state ∨ r.cost ≠ (s.path p).cost ∨ r.hopCond.usable ≠ (s.path p).hopCond.usable) →
      Rechosen s t) : rsLeaves p r k moves s t := by
  obtain ⟨⟨hothers, hpp, htb, hpu, hhs, hcs, hrd, htenants, haborts, howed⟩, hrow, hcounts, hmgmt, -⟩ := h
  refine ⟨hothers, hrow, hpp, htb, hpu, hhs, hcs, hrd, htenants, haborts, howed, stateCounts_iff.mp hcounts, hmgmt,
    fun hsame hnone => ?_, hmoves⟩
  obtain ⟨hstate, hrest⟩ := not_or.mp hsame
  obtain ⟨hcost, husable⟩ := not_or.mp hrest
  exact hstays (not_not.mp hstate) (not_not.mp hcost) (not_not.mp husable) hnone

/-- An input that writes only what no choice reads. -/
theorem RsMoved.leaves_unmoved (h : RsMoved p r id [] s t) (hsq : t.sq = s.sq) (hstate : r.state = (s.path p).state)
    (hcost : r.cost = (s.path p).cost) (husable : r.hopCond.usable = (s.path p).hopCond.usable) : rsLeaves p r id [] s t :=
  RsMoved.leaves (moves := []) h (fun _ _ _ _ => hsq) fun hc => by simp [hstate, hcost, husable] at hc

/-- An input that ends with a re-choice after a move of the path. -/
theorem RsMoved.leaves_rechosen (h : RsMoved p r k (moves.map (moveNotice p r.hopCond.usable)) s t) (hmoves : moves ≠ []) :
    rsLeaves p r k moves s (rechooseAll t) :=
  h.rechoose.leaves (fun _ _ _ hnone => absurd hnone hmoves) fun _ => h.heads.rechosen

/-- An input that re-chooses where it has changed what a choice reads. -/
theorem RsMoved.leaves_ifChanged (h : RsMoved p r id [] s t) (hsq : t.sq = s.sq) :
    rsLeaves p r id [] s (rechooseIfChanged (s.path p) p t) := by
  unfold rechooseIfChanged
  dsimp only
  rw [h.row]
  split
  · next hsame =>
    obtain ⟨hstate, hcost, husable⟩ := hsame
    exact h.leaves_unmoved hsq hstate hcost husable
  · next hdiffer =>
    exact RsMoved.leaves (moves := []) h.rechoose (fun h1 h2 h3 _ => absurd ⟨h1, h2, h3⟩ hdiffer) fun _ => h.heads.rechosen

end moved

/-! ## Into and out of DOWN, and into service (R80 to R83) -/

theorem servesNow_iff {x : PathState} : servesNow x ↔ inService x = true := by
  cases x <;> simp [servesNow, inService]

theorem costFormula_eq : costFormula = pathCost := by
  funext r
  unfold costFormula pathCost
  cases r.latency.value with
  | none => rfl
  | some l =>
    rw [Option.map_some, min_comm]
    cases r.settings.kind <;> rfl

theorem serving_eq : serving = serviceState := by
  funext x
  cases x <;> rfl

/-- A path in DOWN that may leave it. -/
def mayLeave (x : PathRecord) : Prop := x.hopCond.worst ≠ .lost ∧ x.port = .working

/-- The record of a path that has gone DOWN. -/
def wentDown (x : PathRecord) : PathRecord := { x with state := .down, latency := {}, cost := none }

section inputs
variable {p : PathId} {r : PathRecord} {k : RsCounters → RsCounters} {ns : List Notice} {s t : State}

theorem RsMoved.ifChanged (h : RsMoved p r k ns s t) (before : PathRecord) :
    RsMoved p r k ns s (rechooseIfChanged before p t) := by
  unfold rechooseIfChanged
  dsimp only
  split
  · exact h
  · exact h.rechoose

theorem RsMoved.leaveDown_stays (h : RsMoved p r k ns s t) (hno : ¬(r.state = .down ∧ mayLeave r)) (cause : PathCause) :
    leaveDown p cause t = t := by
  unfold leaveDown
  rw [h.row]
  exact if_neg hno

theorem RsMoved.leaveDown_moves (h : RsMoved p r k ns s t) (hdown : r.state = .down) (hmay : mayLeave r) (cause : PathCause) :
    leaveDown p cause t = rechooseAll (notifyPath p .down .proving cause (setPathState p .proving t)) := by
  unfold leaveDown
  rw [h.row]
  exact if_pos ⟨hdown, hmay⟩

/-- The path out of service, its launching copies cut and its heads re-chosen, before R83. -/
theorem RsMoved.goDown (h : RsMoved p r id [] s t) (cause : PathCause) : ∃ u, enterDown p cause t = leaveDown p cause (rechooseAll u) ∧
    RsMoved p (wentDown r) (countDown cause) [.pathState p r.state .down cause none r.hopCond.usable] s u := by
  refine ⟨cutPath p .service (notifyPath p (t.path p).state .down cause ((clearLatency p (setPathState p .down t)).countRs p
    (countDown cause))), rfl, ?_⟩
  have written := (h.write fun x => { x with state := .down }).write fun x => { x with latency := {}, cost := none }
  have told := (written.count (countDown_countsStates cause)).notify r.state .down cause
  rw [h.row]
  exact told.cut

theorem enterDown_leaves (h : RsMoved p r id [] s t) (hno : ¬mayLeave r) (cause : PathCause) :
    rsLeaves p (wentDown r) (countDown cause) [(r.state, .down, cause, none)] s (enterDown p cause t) := by
  obtain ⟨u, heq, hu⟩ := h.goDown cause
  rw [heq, hu.rechoose.leaveDown_stays fun hc => hno hc.2]
  exact RsMoved.leaves_rechosen (moves := [(r.state, .down, cause, none)]) hu (List.cons_ne_nil _ _)

theorem enterDown_leaves_again (h : RsMoved p r id [] s t) (hmay : mayLeave r) (cause : PathCause) :
    rsLeaves p { wentDown r with state := .proving } (countDown cause)
      [(r.state, .down, cause, none), (.down, .proving, cause, none)] s (enterDown p cause t) := by
  obtain ⟨u, heq, hu⟩ := h.goDown cause
  rw [heq, hu.rechoose.leaveDown_moves rfl hmay]
  have told := (hu.rechoose.write fun x => { x with state := .proving }).notify .down .proving cause
  exact RsMoved.leaves_rechosen (moves := [(r.state, .down, cause, none), (.down, .proving, cause, none)]) told (List.cons_ne_nil _ _)

theorem leaveDown_leaves (h : RsMoved p r id [] s t) (hdown : r.state = .down) (hmay : mayLeave r) (cause : PathCause) :
    rsLeaves p { r with state := .proving } id [(.down, .proving, cause, r.cost)] s (leaveDown p cause t) := by
  rw [h.leaveDown_moves hdown hmay]
  have told := (h.write fun x => { x with state := .proving }).notify .down .proving cause
  exact RsMoved.leaves_rechosen (moves := [(.down, .proving, cause, r.cost)]) told (List.cons_ne_nil _ _)

theorem enterService_leaves (h : RsMoved p r id [] s t) (cause : PathCause) :
    rsLeaves p { r with state := serviceState r.hopCond.worst } (fun c => { c with serviceEntries := satInc c.serviceEntries })
      [(.proving, serviceState r.hopCond.worst, cause, r.cost)] s (enterService p cause t) := by
  have written := h.write fun x => { x with state := serviceState r.hopCond.worst }
  have told := (written.notify .proving (serviceState r.hopCond.worst) cause).count countEntry_countsStates
  unfold enterService
  rw [h.row]
  dsimp only
  rw [setPathState, written.row]
  exact RsMoved.leaves_rechosen (moves := [(.proving, serviceState r.hopCond.worst, cause, r.cost)]) told (List.cons_ne_nil _ _)

end inputs

/-! ## The inputs (R78) -/

section rs
variable {p : PathId} {s : State} {cond : HopCondition}

/-- RS with a new hop condition and its cost. -/
def hopTaken (p : PathId) (cond : HopCondition) (s : State) : State := recost p (s.modPath p fun r => { r with hopCond := cond })

theorem hopTaken_moved (p : PathId) (cond : HopCondition) (s : State) :
    RsMoved p (conditioned cond (s.path p)) id [] s (hopTaken p cond s) :=
  ((RsMoved.start p s).write fun r => { r with hopCond := cond }).write fun r => { r with cost := pathCost r }

theorem rsHop_eq (p : PathId) (cond : HopCondition) (s : State) : rsHop p cond s =
    if readyForService (conditioned cond (s.path p)) then enterService p .hop (hopTaken p cond s)
    else if inService (s.path p).state then
      if cond.worst = .lost then enterDown p .hop (hopTaken p cond s)
      else if serviceState cond.worst ≠ (s.path p).state then
        rechooseAll (notifyPath p (s.path p).state (serviceState cond.worst) .hop
          (setPathState p (serviceState cond.worst) (hopTaken p cond s)))
      else rechooseIfChanged (s.path p) p (hopTaken p cond s)
    else leaveDown p .hop (rechooseIfChanged (s.path p) p (hopTaken p cond s)) := by
  rw [← (hopTaken_moved p cond s).row]
  rfl

theorem notReady_of_state {r : PathRecord} (h : r.state ≠ .proving) : readyForService r = false := by
  simp [readyForService, h]

theorem readyForService_iff {r : PathRecord} :
    readyForService r = true ↔ r.state = .proving ∧ r.latency.fresh = true ∧ r.hopCond.worst ≠ .lost := by
  simp [readyForService, and_assoc]

theorem inService_ne_proving {x : PathState} (h : inService x = true) : x ≠ .proving := by
  rintro rfl
  cases h

/-- A hop condition that leaves a path where it is, out of service. -/
theorem rsHop_outside (hready : readyForService (conditioned cond (s.path p)) = false) (hout : inService (s.path p).state = false)
    (hno : ¬((s.path p).state = .down ∧ mayLeave (conditioned cond (s.path p)))) :
    rsLeaves p (conditioned cond (s.path p)) id [] s (rsHop p cond s) := by
  have taken := hopTaken_moved p cond s
  rw [rsHop_eq, hready, hout, if_neg Bool.false_ne_true, if_neg Bool.false_ne_true, (taken.ifChanged _).leaveDown_stays hno]
  exact taken.leaves_ifChanged rfl

theorem rsHop_ready (hready : readyForService (conditioned cond (s.path p)) = true) :
    rsLeaves p { conditioned cond (s.path p) with state := serviceState cond.worst }
      (fun c => { c with serviceEntries := satInc c.serviceEntries })
      [(.proving, serviceState cond.worst, .hop, (conditioned cond (s.path p)).cost)] s (rsHop p cond s) := by
  rw [rsHop_eq, if_pos hready]
  exact enterService_leaves (hopTaken_moved p cond s) .hop

theorem rsHop_leavesDown (hdown : (s.path p).state = .down) (hmay : mayLeave (conditioned cond (s.path p))) :
    rsLeaves p { conditioned cond (s.path p) with state := .proving } id
      [(.down, .proving, .hop, (conditioned cond (s.path p)).cost)] s (rsHop p cond s) := by
  have hready : readyForService (conditioned cond (s.path p)) = false :=
    notReady_of_state (by rw [show (conditioned cond (s.path p)).state = .down from hdown]; simp)
  have hout : inService (s.path p).state = false := by rw [hdown]; rfl
  rw [rsHop_eq, hready, hout, if_neg Bool.false_ne_true, if_neg Bool.false_ne_true]
  exact leaveDown_leaves ((hopTaken_moved p cond s).ifChanged _) hdown hmay .hop

section serving
variable (hin : inService (s.path p).state = true)
include hin

theorem rsHop_serving : rsHop p cond s = if cond.worst = .lost then enterDown p .hop (hopTaken p cond s)
    else if serviceState cond.worst ≠ (s.path p).state then
      rechooseAll (notifyPath p (s.path p).state (serviceState cond.worst) .hop
        (setPathState p (serviceState cond.worst) (hopTaken p cond s)))
    else rechooseIfChanged (s.path p) p (hopTaken p cond s) := by
  have hready : readyForService (conditioned cond (s.path p)) = false := notReady_of_state (inService_ne_proving hin)
  rw [rsHop_eq, hready, hin, if_neg Bool.false_ne_true, if_pos rfl]

theorem rsHop_stays (hlost : cond.worst ≠ .lost) (hsame : serviceState cond.worst = (s.path p).state) :
    rsLeaves p (conditioned cond (s.path p)) id [] s (rsHop p cond s) := by
  rw [rsHop_serving hin, if_neg hlost, if_neg (not_not.mpr hsame)]
  exact (hopTaken_moved p cond s).leaves_ifChanged rfl

theorem rsHop_changes (hlost : cond.worst ≠ .lost) (hother : serviceState cond.worst ≠ (s.path p).state) :
    rsLeaves p { conditioned cond (s.path p) with state := serviceState cond.worst } id
      [((s.path p).state, serviceState cond.worst, .hop, (conditioned cond (s.path p)).cost)] s (rsHop p cond s) := by
  rw [rsHop_serving hin, if_neg hlost, if_pos hother]
  have told := ((hopTaken_moved p cond s).write fun x => { x with state := serviceState cond.worst }).notify (s.path p).state
    (serviceState cond.worst) .hop
  exact RsMoved.leaves_rechosen (moves := [((s.path p).state, serviceState cond.worst, .hop, (conditioned cond (s.path p)).cost)])
    told (List.cons_ne_nil _ _)

theorem rsHop_lost (hlost : cond.worst = .lost) :
    rsLeaves p (wentDown (conditioned cond (s.path p))) (countDown .hop) [((s.path p).state, .down, .hop, none)] s
      (rsHop p cond s) := by
  rw [rsHop_serving hin, if_pos hlost]
  exact enterDown_leaves (hopTaken_moved p cond s) (fun hmay => hmay.1 hlost) .hop

end serving

/-- The record with a new L and its cost. -/
def latencyTaken (lat : Latency) (r : PathRecord) : PathRecord :=
  { r with latency := lat, cost := pathCost { r with latency := lat } }

theorem rsLatency_eq (p : PathId) (lat : Latency) (s : State) : ∃ u, RsMoved p (latencyTaken lat (s.path p)) id [] s u ∧
    u.sq = s.sq ∧ rsLatency p lat s = if readyForService (latencyTaken lat (s.path p)) then enterService p .latency u
      else rechooseIfChanged (s.path p) p u := by
  have taken : RsMoved p (latencyTaken lat (s.path p)) id [] s (recost p (s.modPath p fun r => { r with latency := lat })) :=
    ((RsMoved.start p s).write fun r => { r with latency := lat }).write fun r => { r with cost := pathCost r }
  refine ⟨_, taken, rfl, ?_⟩
  rw [← taken.row]
  rfl

end rs

/-- Settles O56: each input by the operations it runs, followed from the state it finds; the notices by the fold over the tenants. -/
theorem pathStatesFollowTable52 : Obligations.PathStatesFollowTable52 := by
  unfold Obligations.PathStatesFollowTable52
  rw [costFormula_eq, serving_eq]
  intro s p r quiet down leaves entered
  refine ⟨?hop, ?latency, ?lossLimit, ?portFault, ?portRecovered, ?notices⟩
  case hop =>
    intro cond x y into t
    refine ⟨?_, ?_, ?_, ?_, ?_, ?_, ?_, ?_⟩
    · intro hoff
      have hoff : (s.path p).state = .off := hoff
      exact rsHop_outside (notReady_of_state (by simp [conditioned, hoff])) (by rw [hoff]; rfl) (by simp [hoff])
    · intro hproving hquiet
      have hproving : (s.path p).state = .proving := hproving
      refine rsHop_outside (Bool.eq_false_iff.mpr fun hready => ?_) (by rw [hproving]; rfl) (by simp [hproving])
      obtain ⟨-, hfresh, hlost⟩ := readyForService_iff.mp hready
      rcases hquiet with h | h
      · exact Bool.false_ne_true (h.symm.trans hfresh)
      · exact hlost h
    · exact fun hproving hfresh hlost => rsHop_ready (readyForService_iff.mpr ⟨hproving, hfresh, hlost⟩)
    · exact fun hin hlost hsame => rsHop_stays (servesNow_iff.mp hin) hlost hsame
    · exact fun hin hlost hother => rsHop_changes (servesNow_iff.mp hin) hlost hother
    · exact fun hin hlost => rsHop_lost (servesNow_iff.mp hin) hlost
    · intro hdown hno
      have hdown : (s.path p).state = .down := hdown
      exact rsHop_outside (notReady_of_state (by simp [conditioned, hdown])) (by rw [hdown]; rfl) fun h => hno h.2
    · exact fun hdown hmay => rsHop_leavesDown hdown hmay
  case latency =>
    intro lat x y into t
    refine ⟨?_, ?_⟩
    · intro hquiet
      obtain ⟨u, taken, hsq, heq⟩ := rsLatency_eq p lat s
      have hready : ¬readyForService (latencyTaken lat (s.path p)) = true := fun hready => by
        obtain ⟨hproving, hfresh, hlost⟩ := readyForService_iff.mp hready
        rcases hquiet with h | h | h
        · exact h hproving
        · exact Bool.false_ne_true (h.symm.trans hfresh)
        · exact hlost h
      change rsLeaves p _ id [] s (rsLatency p lat s)
      rw [heq, if_neg hready]
      exact taken.leaves_ifChanged hsq
    · intro hproving hfresh hlost
      obtain ⟨u, taken, -, heq⟩ := rsLatency_eq p lat s
      change rsLeaves p _ entered _ s (rsLatency p lat s)
      rw [heq, if_pos ((readyForService_iff (r := latencyTaken lat (s.path p))).mpr ⟨hproving, hfresh, hlost⟩)]
      exact enterService_leaves taken .latency
  case lossLimit =>
    intro k
    refine ⟨?_, ?_, ?_⟩
    · intro hout
      exact if_neg (mt servesNow_iff.mpr hout)
    · intro hin hno
      rw [rsLossLimit, if_pos (servesNow_iff.mp hin)]
      exact enterDown_leaves (RsMoved.start p s) hno .probeLoss
    · intro hin hmay
      rw [rsLossLimit, if_pos (servesNow_iff.mp hin)]
      exact enterDown_leaves_again (RsMoved.start p s) hmay .probeLoss
  case portFault =>
    intro x
    refine ⟨?_, ?_, ?_⟩
    · intro hstate
      have hout : inService (s.path p).state = false := by
        rcases hstate with h | h
        · rw [show (s.path p).state = .off from h]; rfl
        · rw [show (s.path p).state = .down from h]; rfl
      have hproving : (s.path p).state ≠ .proving := by
        rcases hstate with h | h
        · rw [show (s.path p).state = .off from h]; simp
        · rw [show (s.path p).state = .down from h]; simp
      unfold rsPortFault
      dsimp only
      rw [hout, if_neg Bool.false_ne_true, if_neg hproving]
      exact ((RsMoved.start p s).write fun r => { r with port := .fault }).leaves_unmoved rfl rfl rfl rfl
    · intro hproving
      have hproving : (s.path p).state = .proving := hproving
      have hout : inService (s.path p).state = false := by rw [hproving]; rfl
      unfold rsPortFault
      dsimp only
      rw [hout, if_neg Bool.false_ne_true, if_pos hproving]
      exact RsMoved.leaves_ifChanged (((RsMoved.start p s).write fun r => { r with port := .fault }).write fun r =>
        { r with latency := {}, cost := none }) rfl
    · intro hin
      unfold rsPortFault
      dsimp only
      rw [if_pos (servesNow_iff.mp hin)]
      exact enterDown_leaves ((RsMoved.start p s).write fun r => { r with port := .fault }) (fun hmay => by simpa using hmay.2) .portFault
  case portRecovered =>
    intro x
    refine ⟨?_, ?_⟩
    · intro hstays
      have written := (RsMoved.start p s).write fun r => { r with port := .working }
      rw [rsPortRecovered, written.leaveDown_stays fun hc => by
        rcases hstays with h | h
        · exact h hc.1
        · exact hc.2.1 h]
      exact written.leaves_unmoved rfl rfl rfl rfl
    · intro hdown hlost
      exact leaveDown_leaves ((RsMoved.start p s).write fun r => { r with port := .working }) hdown ⟨hlost, rfl⟩ .portRecovered
  case notices =>
    intro old new cause l e told
    have hentry : pushEntry l e s = pushNotice l (.pathState p old new cause r.cost r.hopCond.usable) s := rfl
    rw [hentry]
    by_cases hl : l = mgmtLane
    · rw [hl]
      exact ⟨fun _ => notifyPath_mgmt p old new cause s, fun hno => absurd (.inl hl) hno⟩
    · obtain ⟨u, rfl⟩ := exists_tenantLane hl
      have htold : told ↔ toldOf s p u = true := by
        rw [toldOf_iff]
        refine ⟨fun h => ?_, fun h => .inr ⟨u, rfl, h⟩⟩
        obtain ⟨w, hw, h⟩ := h.resolve_left hl
        exact (tenantLane_inj u w).mp hw ▸ h
      rw [htold, notifyPath_tenant]
      exact ⟨fun h => if_pos h, fun h => if_neg h⟩

end Sys2Proof.Proofs
end

