-- ==== Sys2Proof/Proofs/PathSettings.lean ====
section
/-!
PATHSET: the settings that its body spells after clamping (Table 5-1), and when they are stored (R77).
-/

namespace Sys2Proof.Proofs

open Sys2Proof.Machine Sys2Proof.Claims

/-- The settings that a PATHSET body spells, clamped to Table 5-1. -/
def settingsOf (b : List Byte) : PathSettings :=
  let threshold (i : Nat) : Int := max (-1000) (min 1000 (fieldInt b i 2))
  { kind := if nat1 b 1 = 0 then .microwave else .wireline,
    hopCount := if nat1 b 1 = 0 then max 1 (min 12 (nat1 b 2)) else 0,
    filterShift := min 7 (nat1 b 3), outlierGate := fieldNat b 4 3,
    asymmetry := max (-2 ^ 20) (min (2 ^ 20) (fieldInt b 7 4)), watchPenalty := fieldNat b 11 3, fadePenalty := fieldNat b 14 3,
    suspectPenalty := fieldNat b 17 3, tagPenalty := fieldNat b 20 3, wirelineBias := fieldNat b 23 3,
    probeIntervalMs := max 1 (min 1000 (fieldNat b 26 2)), probeTimeoutMs := max 5 (min 2000 (fieldNat b 28 2)),
    lossLimit := max 1 (min 15 (nat1 b 30)), reasmTimeoutUs := max 100 (min 65000 (fieldNat b 31 2)),
    watchThreshold := threshold 33, fadeThreshold := threshold 35, lostThreshold := threshold 37,
    hysteresis := min 100 (nat1 b 39), dwellMs := min 60000 (fieldNat b 40 2) }

/-- A field of 3 bytes is within the range of its setting. -/
theorem clampNat_three_bytes (b : List Byte) (i : Nat) : clampNat 0 (2 ^ 24 - 1) (fieldNat b i 3) = fieldNat b i 3 := by
  have h : fieldNat b i 3 < 16777216 := fieldNat_lt b i 3
  unfold clampNat
  omega

theorem clampNat_zero (hi x : Nat) : clampNat 0 hi x = min hi x := Nat.zero_max _

theorem kindOf_zero {b : Byte} (h : b.toNat = 0) : kindOf b = some .microwave := by
  rw [kindOf, h]
  rfl

theorem kindOf_one {b : Byte} (h : b.toNat = 1) : kindOf b = some .wireline := by
  rw [kindOf, h]
  rfl

/-- Clamping the fields of a body gives its settings, for each kind. -/
theorem parsePathset_sized {b : List Byte} (h : b.length = 42) (hkind : nat1 b 1 ≤ 1) :
    ∃ r, parsePathset b = some r ∧ r.path = nat1 b 0 ∧ clampSettings r.settings = settingsOf b := by
  unfold parsePathset
  by_cases hzero : nat1 b 1 = 0
  · rw [kindOf_zero hzero]
    refine ⟨_, if_pos h, rfl, ?_⟩
    simp only [clampSettings, settingsOf, clampNat_three_bytes]
    simp only [clampNat_zero, hzero, if_true]
    rfl
  · rw [kindOf_one (b := byteAt b 1) (by unfold nat1 at hkind hzero; omega)]
    refine ⟨_, if_pos h, rfl, ?_⟩
    simp only [clampSettings, settingsOf, clampNat_three_bytes]
    simp only [clampNat_zero, hzero, if_false]
    rfl

theorem exec_pathset {b : List Byte} {r : PathsetReq} (h : parsePathset b = some r) (tag : Tag) (s : State) :
    exec (.pathset mgmtLane tag b) s = .next (answer mgmtLane tag 0x10
      (atIndex r.path (fun p => doPathset p (clampSettings r.settings)) (countRequest mgmtLane s)).2
      (atIndex r.path (fun p => doPathset p (clampSettings r.settings)) (countRequest mgmtLane s)).1) :=
  congrArg Host.Outcome.next (operatorRequest_mgmt h tag 0x10 _ s)

/-! ## The tests of PATHSET in order (R77) -/

section tests
variable {p : PathId} {x : PathSettings} {s : State}

theorem doPathset_busy (h : (s.path p).state ≠ .off) : doPathset p x s = (s, .refused .busy) := if_pos h

theorem doPathset_unordered (h : (s.path p).state = .off)
    (hx : ¬(x.fadeThreshold < x.watchThreshold ∧ x.lostThreshold < x.fadeThreshold)) : doPathset p x s = (s, .refused .badValue) := by
  rw [doPathset, if_neg (not_not.mpr h), if_neg hx]

theorem doPathset_stored (h : (s.path p).state = .off) (hx : x.fadeThreshold < x.watchThreshold ∧ x.lostThreshold < x.fadeThreshold) :
    doPathset p x s = (s.modPath p (fun r => { r with settings := x }), .accepted) := by
  rw [doPathset, if_neg (not_not.mpr h), if_pos hx]

end tests

/-- Settles O54: the body parses and clamps to the settings, and PATHSET's tests follow in order. -/
theorem pathsetWritesAnOffPath : Obligations.PathsetWritesAnOffPath := by
  unfold Obligations.PathsetWritesAnOffPath
  intro s tag body hlen hkind v replies three threshold x
  obtain ⟨r, hparsed, hpath, hsettings⟩ := parsePathset_sized hlen hkind
  have hsettings : clampSettings r.settings = x := hsettings
  have hexec := exec_pathset hparsed tag s
  rw [hpath, hsettings] at hexec
  refine ⟨fun hbeyond => ?_, fun p hp => ?_⟩
  · rw [atIndex_beyond hbeyond] at hexec
    exact hexec
  · rw [atIndex_val hp] at hexec
    refine ⟨fun hon => ?_, fun hoff hordered => ?_, fun hoff hordered => ⟨v.modPath p fun y => { y with settings := x }, ?_,
      fun q hq => ?_, ?_, rfl⟩⟩
    · rw [doPathset_busy (s := countRequest mgmtLane s) hon] at hexec
      exact hexec
    · rw [doPathset_unordered (s := countRequest mgmtLane s) hoff hordered] at hexec
      exact hexec
    · rw [doPathset_stored (s := countRequest mgmtLane s) hoff hordered] at hexec
      exact hexec
    · exact (State.path_modPath ..).trans (if_neg hq)
    · exact State.path_modPath_same ..

end Sys2Proof.Proofs
end

