-- ==== Sys2Proof/Proofs/StreamSettings.lean ====
section
/-!
STREAMSET: what its body spells, the re-choice of the tenant's heads, and the records of the classes whose delivery mode turns made
fresh (R151, R158, R165).
-/

namespace Sys2Proof.Proofs

open Sys2Proof.Machine Sys2Proof.Claims

/-! ## The body -/

/-- What the bytes of a STREAMSET body spell: the three modes, the limits, the delivery modes, the timeouts. -/
theorem parseStreamset_encoded {x : StreamSettings} (hfits : ∀ cls, x.routeWait.get cls < 65536 ∧ x.hold.get cls < 65536)
    {du dm tie mu mm mb : Byte} (hdu : dualOf du = some x.dualU) (hdm : dualOf dm = some x.dualM) (htie : tieOf tie = some x.tie)
    (hmu : deliveryOf mu = some x.delivery.u) (hmm : deliveryOf mm = some x.delivery.m) (hmb : deliveryOf mb = some x.delivery.b) :
    parseStreamset ([du, dm, tie] ++ toBE 2 x.routeWait.u ++ toBE 2 x.routeWait.m ++ toBE 2 x.routeWait.b ++ [mu, mm, mb] ++
      toBE 2 x.hold.u ++ toBE 2 x.hold.m ++ toBE 2 x.hold.b) = some x := by
  have word {n : Nat} (h : n < 65536) (l : List Byte) : fieldNat (toBE 2 n ++ l) 0 2 = n := fieldNat_toBE l (by simpa using h)
  have last {n : Nat} (h : n < 65536) : fieldNat (toBE 2 n) 0 2 = n := by simpa using word h []
  obtain ⟨hru, hhu⟩ := hfits .u
  obtain ⟨hrm, hhm⟩ := hfits .m
  obtain ⟨hrb, hhb⟩ := hfits .b
  change x.routeWait.u < 65536 at hru
  change x.routeWait.m < 65536 at hrm
  change x.routeWait.b < 65536 at hrb
  change x.hold.u < 65536 at hhu
  change x.hold.m < 65536 at hhm
  change x.hold.b < 65536 at hhb
  simp only [List.append_assoc, List.cons_append, List.nil_append]
  unfold parseStreamset
  simp [hdu, hdm, htie, hmu, hmm, hmb, perClass2, word, last, hru, hrm, hrb, hhu, hhm, hhb, sized]

/-! ## The settings -/

/-- Limits and timeouts are at least 1. -/
def atLeastOne (y : PerClass Nat) : PerClass Nat := { u := max 1 y.u, m := max 1 y.m, b := max 1 y.b }

theorem clampSteps_fits {y : PerClass Nat} (h : ∀ cls, y.get cls < 65536) : clampSteps y = atLeastOne y := by
  have clamp {n : Nat} (hn : n < 65536) : clampNat 1 65535 n = max 1 n := by
    unfold clampNat
    omega
  have hu : y.u < 65536 := h .u
  have hm : y.m < 65536 := h .m
  have hb : y.b < 65536 := h .b
  rw [clampSteps, clamp hu, clamp hm, clamp hb, atLeastOne]

theorem clampStream_fits {x : StreamSettings} (h : ∀ cls, x.routeWait.get cls < 65536 ∧ x.hold.get cls < 65536) :
    clampStream x = { x with routeWait := atLeastOne x.routeWait, hold := atLeastOne x.hold } := by
  rw [clampStream, clampSteps_fits fun cls => (h cls).1, clampSteps_fits fun cls => (h cls).2]

/-! ## The records that become fresh (R158) -/

section fresh
variable {u : TenantId} {old new : StreamSettings} {s : State}

/-- The class's delivery mode changes. -/
def modeTurned (old new : StreamSettings) (c : TClass) : Bool := decide (new.delivery.get c ≠ old.delivery.get c)

/-- The tenant's streams of some classes whose delivery mode changes. -/
def turnedStreams (u : TenantId) (old new : StreamSettings) (l : List TClass) : List StreamId :=
  (l.filter (modeTurned old new)).map fun c => { tenant := u, cls := c }

theorem mem_turnedStreams {l : List TClass} {st : StreamId} :
    st ∈ turnedStreams u old new l ↔ st.tenant = u ∧ st.cls ∈ l ∧ modeTurned old new st.cls = true := by
  unfold turnedStreams
  rw [List.mem_map]
  constructor
  · rintro ⟨c, hc, rfl⟩
    exact ⟨rfl, List.mem_filter.mp hc⟩
  · rintro ⟨rfl, hc⟩
    exact ⟨st.cls, List.mem_filter.mpr hc, rfl⟩

theorem mem_allClasses (c : TClass) : c ∈ allClasses := by
  cases c <;> decide

theorem turnedStreams_nodup : (turnedStreams u old new allClasses).Nodup := by
  have hclasses : allClasses.Nodup := by decide
  exact (hclasses.filter _).map fun _ _ h => (StreamId.mk.inj h).2

/-- The records whose mode turns are made fresh one after another. -/
theorem freshenIfChanged_foldl (l : List TClass) (h : (s.tenant u).settings = new) :
    l.foldl (fun y c => freshenIfChanged old u c y) s = freshenAll (turnedStreams u old new l) s := by
  induction l generalizing s with
  | nil => rfl
  | cons c l ih =>
    rw [List.foldl_cons, freshenIfChanged, h]
    by_cases hc : new.delivery.get c = old.delivery.get c
    · have hquiet : ¬modeTurned old new c = true := by simp [modeTurned, hc]
      rw [if_pos hc, ih h, turnedStreams, turnedStreams, List.filter_cons_of_neg hquiet]
    · have hturned : modeTurned old new c = true := by simp [modeTurned, hc]
      have hkept : ((freshenDelivering { tenant := u, cls := c } s).tenant u).settings = new := by
        rw [State.tenant_of (s := s) (by simp), h]
      rw [if_neg hc, ih hkept, turnedStreams, turnedStreams, List.filter_cons_of_pos hturned]
      rfl

theorem freshenAll_record (l : List StreamId) (st : StreamId) :
    (freshenAll l s).record st = if st ∈ l then freshRecord (s.record st) else s.record st := by
  induction l generalizing s with
  | nil => rfl
  | cons a l ih =>
    change (freshenAll l (freshenDelivering a s)).record st = _
    rw [ih, freshenDelivering_record]
    by_cases hst : st = a
    · subst hst
      simp only [List.mem_cons_self, if_true]
      split <;> rfl
    · simp only [List.mem_cons, hst, false_or, if_false]

theorem heldBy_turnedStreams (l : List TClass) : heldBy s (turnedStreams u old new l) =
    l.flatMap fun c => if modeTurned old new c then (s.record { tenant := u, cls := c }).hold else [] := by
  induction l with
  | nil => rfl
  | cons c l ih =>
    rw [List.flatMap_cons, ← ih, turnedStreams, List.filter_cons]
    split
    · rfl
    · rfl

end fresh

/-! ## STREAMSET (R165) -/

section streamset
variable (u : TenantId) (new : StreamSettings) (s : State)

/-- The settings stored. -/
def settingsStored : State := s.modTenant u fun y => { y with settings := new }

/-- Route choice reads a change of the settings. -/
abbrev choiceSettingsDiffer (old new : StreamSettings) : Prop :=
  new.dualU ≠ old.dualU ∨ new.dualM ≠ old.dualM ∨ new.tie ≠ old.tie

/-- The tenant's heads re-chosen where route choice reads the change. -/
def headsResettled : State :=
  if new.dualU = (s.tenant u).settings.dualU ∧ new.dualM = (s.tenant u).settings.dualM ∧ new.tie = (s.tenant u).settings.tie then
    settingsStored u new s
  else rechooseTenant u (settingsStored u new s)

variable {u new s}

theorem headsResettled_sameChoices : SameChoices (settingsStored u new s) (headsResettled u new s) := by
  unfold headsResettled
  split
  · exact .refl _
  · exact rechoose_sameChoices _ _

@[simp] theorem headsResettled_frame : OnlyRouteCountsStreams (settingsStored u new s) (headsResettled u new s) := by
  unfold headsResettled
  split <;> simp [OnlyRouteCountsStreams]

theorem headsResettled_stream (st : StreamId) :
    (headsResettled u new s).stream st = if st.tenant = u ∧ choiceSettingsDiffer (s.tenant u).settings new then
      { s.stream st with queue := (s.stream st).queue.modifyHead (rerouted (settingsStored u new s) st) } else s.stream st := by
  have hstored : (settingsStored u new s).stream st = s.stream st := rfl
  unfold headsResettled
  split
  · next hsame =>
    obtain ⟨hu, hm, ht⟩ := hsame
    rw [if_neg fun h => by simp [choiceSettingsDiffer, hu, hm, ht] at h]
    rfl
  · next hdiffer =>
    have hdiffer : choiceSettingsDiffer (s.tenant u).settings new := by tauto
    rw [rechooseTenant_stream, hstored]
    simp only [hdiffer, and_true]

theorem doStreamset_eq {x : StreamSettings} (h : clampStream x = new) : doStreamset u x s =
    (freshenAll (turnedStreams u (s.tenant u).settings new allClasses) (headsResettled u new s), .accepted) := by
  have hsettings : ((headsResettled u new s).tenant u).settings = new := by
    rw [State.tenant_of headsResettled_sameChoices.tenants, settingsStored, State.tenant_modTenant_same]
  rw [← freshenIfChanged_foldl allClasses hsettings, doStreamset, h]
  rfl

end streamset

/-- Settles O44: the body parses to the settings, the heads are re-chosen on the stored settings, and the turned records are made fresh
after that. -/
theorem streamsetStoresAndTakesEffect : Obligations.StreamsetStoresAndTakesEffect := by
  unfold Obligations.StreamsetStoresAndTakesEffect
  intro s u tag x hfits l v old dual mode body raised new turned held
  have hparsed : parseStreamset body = some x := by
    refine parseStreamset_encoded hfits ?_ ?_ ?_ ?_ ?_ ?_
    · cases x.dualU <;> rfl
    · cases x.dualM <;> rfl
    · cases x.tie <;> rfl
    · cases x.delivery.u <;> rfl
    · cases x.delivery.m <;> rfl
    · cases x.delivery.b <;> rfl
  set w := settingsStored u new v with hw
  set r := headsResettled u new v with hr
  set t := freshenAll (turnedStreams u old new allClasses) r with ht
  have hdone : doStreamset u x v = (t, .accepted) := doStreamset_eq (clampStream_fits hfits)
  have hexec : exec (.streamset l tag body) s = .next (answer l tag 0x06 .accepted t) := by
    have hserved := tenantRequest_tenant hparsed u tag 0x06 doStreamset s
    rw [show countRequest (tenantLane u) s = v from rfl, hdone] at hserved
    exact congrArg Host.Outcome.next hserved
  have hrd : r.rd = v.rd := (by simp [hr, hw] : r.rd = w.rd)
  have hheld : held = heldBy v (turnedStreams u old new allClasses) := (heldBy_turnedStreams allClasses).symm
  have halike : DeliversAlike t (deliverAll held w) := by
    rw [hheld]
    exact freshenAll_alike turnedStreams_nodup ⟨by simp [hr, hw], congrArg Receiver.streamCounters hrd⟩ fun st _ =>
      State.record_of hrd st
  have hstream (st : StreamId) : t.stream st = r.stream st := State.stream_of (by simp [ht]) st
  have hroute (st : StreamId) : chooseRoute t st = chooseRoute w st := by
    have hsame : SameChoices r t := ⟨by simp [ht], by simp [ht], by simp [ht]⟩
    refine (headsResettled_sameChoices.trans hsame).chooseRoute ?_ ?_ <;> rw [hstream, headsResettled_stream] <;> split <;> rfl
  refine ⟨t, w, hexec, fun q hq => ?_, ?_, rfl, halike.1, fun st => ?_, fun st => ?_, halike.2, ?_⟩
  · exact (State.tenant_modTenant ..).trans (if_neg hq)
  · exact State.tenant_modTenant_same ..
  · rw [hstream, headsResettled_stream, rerouted_congr (hroute st)]
    rfl
  · rw [ht, freshenAll_record, State.record_of hrd]
    simp only [mem_turnedStreams, mem_allClasses, true_and]
    rfl
  · refine state_ext ?_
    simp [ht, hr, freshenAll_pe, settingsStored, v]

end Sys2Proof.Proofs
end

