-- ==== Sys2Proof/Proofs/TenantGrants.lean ====
section
/-!
TENANTSET by its tests (R163), TENANTON and TENANTOFF (R164): the grant that a body spells, what the tests say, and the channels that a
disabled tenant loses (R143).
-/

namespace Sys2Proof.Proofs

open Sys2Proof.Machine Sys2Proof.Claims

/-! ## The body of TENANTSET -/

/-- The grant that a TENANTSET body spells, clamped. -/
def grantOf (b : List Byte) : TenantGrant :=
  let mask (i : Nat) : BitVec 6 := BitVec.ofNat 6 (nat1 b i)
  let budget (i : Nat) : Nat := min 4095 (fieldNat b i 2)
  { programBase := fieldNat b 1 2, programSize := fieldNat b 3 2, templateBase := fieldNat b 5 2, templateSize := fieldNat b 7 2,
    quota := min 2048 (fieldNat b 9 2), masks := { u := mask 11, m := mask 12, b := mask 13 },
    fallbackU := (byteAt b 14).getLsbD 0, fallbackM := (byteAt b 14).getLsbD 1, openAccess := mask 15,
    budgets := Vector.ofFn fun p =>
      { clear := budget (16 + 6 * p.val), watch := budget (18 + 6 * p.val), fading := budget (20 + 6 * p.val) } }

/-- A mask takes the low bits of its byte. -/
theorem setWidth_byte (b : List Byte) (i : Nat) : (byteAt b i).setWidth 6 = BitVec.ofNat 6 (nat1 b i) := by
  refine BitVec.eq_of_toNat_eq ?_
  rw [BitVec.toNat_setWidth, BitVec.toNat_ofNat, nat1]

theorem parseTenantset_sized {b : List Byte} (h : b.length = 52) :
    parseTenantset b = some { tenant := nat1 b 0, grant := grantOf b } := by
  unfold parseTenantset grantOf
  simp only [setWidth_byte, clampNat_zero]
  exact if_pos h

theorem parseByte_sized {b : List Byte} (h : b.length = 1) : parseByte b = some (nat1 b 0) := if_pos h

/-! ## The tests of TENANTSET (R163) -/

theorem overlap_iff {a n b m : Nat} : overlap a n b m = true ↔ share a n b m := by
  simp only [overlap, share, Bool.and_eq_true, decide_eq_true_iff]
  constructor
  · rintro ⟨⟨⟨hn, hm⟩, ha⟩, hb⟩
    exact ⟨max a b, by omega, by omega, by omega, by omega⟩
  · rintro ⟨k, h1, h2, h3, h4⟩
    exact ⟨⟨⟨by omega, by omega⟩, by omega⟩, by omega⟩

section tests
variable {s : State} {u : TenantId} {g old : TenantGrant}

theorem beyondStores_iff : beyondStores g = true ↔
    4096 < g.programBase + g.programSize ∨ 1024 < g.templateBase + g.templateSize := by
  rw [beyondStores, Bool.or_eq_true, decide_eq_true_iff, decide_eq_true_iff]
  rfl

theorem overlapsOther_iff : overlapsOther s u g = true ↔ ∃ y, y ≠ u ∧
    (share g.programBase g.programSize (s.tenant y).grant.programBase (s.tenant y).grant.programSize ∨
      share g.templateBase g.templateSize (s.tenant y).grant.templateBase (s.tenant y).grant.templateSize) := by
  simp only [overlapsOther, List.any_eq_true, mem_allTenants, true_and, Bool.and_eq_true, bne_iff_ne, Bool.or_eq_true, overlap_iff]

theorem partitionsChange_iff : partitionsChange old g = true ↔ ¬(g.programBase = old.programBase ∧ g.programSize = old.programSize ∧
    g.templateBase = old.templateBase ∧ g.templateSize = old.templateSize) := by
  simp only [partitionsChange, Bool.or_eq_true, bne_iff_ne]
  omega

theorem anyRunning_iff : anyRunning s u = true ↔ ∃ c, (s.channel u c).state ≠ .idle := by
  simp only [anyRunning, List.any_eq_true, mem_allChannels, true_and, bne_iff_ne]

theorem routeFieldsChange_iff : routeFieldsChange old g = true ↔ ¬(g.masks = old.masks ∧ g.fallbackU = old.fallbackU ∧
    g.fallbackM = old.fallbackM ∧ g.openAccess = old.openAccess) := by
  simp only [routeFieldsChange, Bool.or_eq_true, bne_iff_ne, ne_comm (a := old.masks), ne_comm (a := old.fallbackU),
    ne_comm (a := old.fallbackM), ne_comm (a := old.openAccess)]
  tauto

theorem tenantsetRefusal_range (h : beyondStores g = true) : tenantsetRefusal s u g = some .range := if_pos h

section within
variable (hin : ¬beyondStores g = true)
include hin

theorem tenantsetRefusal_overlap (h : overlapsOther s u g = true) : tenantsetRefusal s u g = some .overlap := by
  rw [tenantsetRefusal, if_neg hin, if_pos h]

variable (happart : ¬overlapsOther s u g = true)
include happart

theorem tenantsetRefusal_busy (h : partitionsChange (s.tenant u).grant g = true ∧ anyRunning s u = true) :
    tenantsetRefusal s u g = some .busy := by
  rw [tenantsetRefusal, if_neg hin, if_neg happart, if_pos (Bool.and_eq_true_iff.mpr h)]

variable (hquiet : ¬(partitionsChange (s.tenant u).grant g = true ∧ anyRunning s u = true))
include hquiet

theorem tenantsetRefusal_quota (h : 2048 < quotaSum s u g.quota ∨ g.quota < occupancy s u) :
    tenantsetRefusal s u g = some .quota := by
  rw [tenantsetRefusal, if_neg hin, if_neg happart, if_neg (mt Bool.and_eq_true_iff.mp hquiet)]
  rcases h with h | h
  · exact if_pos h
  · rw [if_pos h, ite_self]

theorem tenantsetRefusal_none (h : ¬(2048 < quotaSum s u g.quota ∨ g.quota < occupancy s u)) : tenantsetRefusal s u g = none := by
  obtain ⟨hsum, hown⟩ := not_or.mp h
  rw [tenantsetRefusal, if_neg hin, if_neg happart, if_neg (mt Bool.and_eq_true_iff.mp hquiet), if_neg hown]
  exact if_neg hsum

end within

theorem doTenantset_refused {code : RefusalCode} (h : tenantsetRefusal s u g = some code) : doTenantset g u s = (s, .refused code) := by
  rw [doTenantset, h]

/-- The grant stored. -/
def granted (g : TenantGrant) (u : TenantId) (s : State) : State := s.modTenant u fun x => { x with grant := g }

theorem doTenantset_granted (h : tenantsetRefusal s u g = none) : doTenantset g u s =
    (if routeFieldsChange (s.tenant u).grant g then rechooseTenant u (granted g u s) else granted g u s, .accepted) := by
  rw [doTenantset, h]
  rfl

end tests

/-! ## TENANTOFF (R143, R164) -/

section off
variable {u : TenantId} {c : ChannelId} {s : State}

/-- A channel of a tenant that is switched off. -/
def offRow (x : Channel) : Channel := { (if x.state = .idle then x else stopContext x) with reportPending := false }

theorem offRow_idle {x : Channel} (h : x.state = .idle) : offRow x = { x with reportPending := false } := by
  rw [offRow, if_pos h]

theorem offRow_runs {x : Channel} (h : x.state ≠ .idle) : offRow x = { x with
    state := .idle, word := none, finished := false, prefetched := none, buffer := [], held := none, resubmissions := 0,
    discarded := min 256 (x.discarded + bytesLost x), reportPending := false,
    outstanding := if (notTaken x).isSome then none else x.outstanding } := by
  rw [offRow, if_neg h, stopContext_eq]
  rfl

theorem stopChannel_channel (y : TenantId) (d : ChannelId) : (stopChannel u c s).channel y d =
    if y = u ∧ d = c then stopContext (s.channel u c) else s.channel y d :=
  (State.channel_of rfl y d).trans (State.channel_modChannel ..)

theorem stopChannel_target (y : TenantId) (d : ChannelId) : (stopChannel u c s).target y d =
    if y = u ∧ d = c then none else s.target y d := State.target_setTarget ..

theorem offChannel_channel (y : TenantId) (d : ChannelId) : (offChannel u c s).channel y d =
    if y = u ∧ d = c then offRow (s.channel u c) else s.channel y d := by
  unfold offChannel offRow
  dsimp only
  rw [State.channel_modChannel]
  by_cases hidle : (s.channel u c).state = .idle
  · rw [if_pos hidle, if_pos hidle]
  · rw [if_neg hidle, if_neg hidle]
    split
    · rw [stopChannel_channel, if_pos ⟨rfl, rfl⟩]
    · next hother => rw [stopChannel_channel, if_neg hother]

theorem offChannel_target (y : TenantId) (d : ChannelId) : (offChannel u c s).target y d =
    if y = u ∧ d = c ∧ (s.channel u c).state ≠ .idle then none else s.target y d := by
  have hkept (x : State) : (x.modChannel u c fun z => { z with reportPending := false }).target y d = x.target y d :=
    State.target_of rfl y d
  unfold offChannel
  dsimp only
  rw [hkept]
  split
  · next hidle => simp [hidle]
  · next hruns =>
    rw [stopChannel_target]
    simp [hruns]

/-- TENANTOFF on each channel of a list. -/
theorem offChannels_rows {l : List ChannelId} (hl : l.Nodup) (y : TenantId) (d : ChannelId) :
    (l.foldl (fun x c => offChannel u c x) s).channel y d = (if y = u ∧ d ∈ l then offRow (s.channel y d) else s.channel y d) ∧
    (l.foldl (fun x c => offChannel u c x) s).target y d =
      if y = u ∧ d ∈ l ∧ (s.channel y d).state ≠ .idle then none else s.target y d := by
  induction l generalizing s with
  | nil => simp
  | cons c l ih =>
    obtain ⟨hc, hl⟩ := List.nodup_cons.mp hl
    obtain ⟨hchannel, htarget⟩ := ih (s := offChannel u c s) hl
    rw [List.foldl_cons, hchannel, htarget, offChannel_channel, offChannel_target]
    by_cases hy : y = u
    · by_cases hd : d = c
      · subst hy hd
        simp [hc]
      · simp [hy, hd]
    · simp [hy]

/-- Only compare entries and channels move. -/
def OnlyRuns (s t : State) : Prop :=
  t = { s with tb := { s.tb with compare := t.tb.compare }, pe := { s.pe with channels := t.pe.channels } }

theorem OnlyRuns.trans {t v : State} (h : OnlyRuns s t) (k : OnlyRuns t v) : OnlyRuns s v := by
  unfold OnlyRuns at h k
  rw [k, h]
  rfl

theorem offChannel_onlyRuns (u : TenantId) (c : ChannelId) (s : State) : OnlyRuns s (offChannel u c s) := by
  unfold offChannel
  dsimp only
  split <;> rfl

theorem offChannels_onlyRuns (u : TenantId) (l : List ChannelId) (s : State) :
    OnlyRuns s (l.foldl (fun x c => offChannel u c x) s) :=
  foldl_keeps (P := OnlyRuns s) (fun x c hx => hx.trans (offChannel_onlyRuns u c x)) l rfl

end off

/-! ## The requests -/

section requests
variable {s : State} {tag : Tag} {b : List Byte}

theorem exec_tenantset (h : b.length = 52) : exec (.tenantset mgmtLane tag b) s = .next (answer mgmtLane tag 0x1A
    (atIndex (nat1 b 0) (doTenantset (grantOf b)) (countRequest mgmtLane s)).2
    (atIndex (nat1 b 0) (doTenantset (grantOf b)) (countRequest mgmtLane s)).1) :=
  congrArg Host.Outcome.next (operatorRequest_mgmt (parseTenantset_sized h) tag 0x1A _ s)

theorem exec_tenanton (h : b.length = 1) : exec (.tenanton mgmtLane tag b) s = .next (answer mgmtLane tag 0x1B
    (atIndex (nat1 b 0) doTenanton (countRequest mgmtLane s)).2 (atIndex (nat1 b 0) doTenanton (countRequest mgmtLane s)).1) :=
  congrArg Host.Outcome.next (operatorRequest_mgmt (parseByte_sized h) tag 0x1B _ s)

theorem exec_tenantoff (h : b.length = 1) : exec (.tenantoff mgmtLane tag b) s = .next (answer mgmtLane tag 0x1C
    (atIndex (nat1 b 0) doTenantoff (countRequest mgmtLane s)).2 (atIndex (nat1 b 0) doTenantoff (countRequest mgmtLane s)).1) :=
  congrArg Host.Outcome.next (operatorRequest_mgmt (parseByte_sized h) tag 0x1C _ s)

end requests

/-- What TENANTOFF of an enabled tenant makes of the part. -/
structure SwitchedOff (u : TenantId) (s t : State) : Prop where
  tenants : ∀ y, t.tenant y = if y = u then { s.tenant u with enabled := false } else s.tenant y
  lanes : ∀ k, t.lane k = if k = tenantLane u then { s.lane k with queue := (s.lane k).queue.map unmark } else s.lane k
  channels : ∀ y c, t.channel y c = if y = u then offRow (s.channel y c) else s.channel y c
  targets : ∀ y c, t.target y c = if y = u ∧ (s.channel y c).state ≠ .idle then none else s.target y c
  rest : t = { s with tb := { s.tb with compare := t.tb.compare }, pe := { s.pe with channels := t.pe.channels },
                      li := { s.li with tenants := t.li.tenants, lanes := t.li.lanes } }

theorem doTenantoff_enabled {u : TenantId} {s : State} (h : (s.tenant u).enabled = true) :
    ∃ t, doTenantoff u s = (t, .accepted) ∧ SwitchedOff u s t := by
  set a := s.modTenant u fun x => { x with enabled := false } with ha
  have hnodup : allChannels.Nodup := by decide
  have hrows (y : TenantId) (c : ChannelId) := offChannels_rows (u := u) (s := a) hnodup y c
  have hruns := offChannels_onlyRuns u allChannels a
  refine ⟨_, if_pos h, ?_⟩
  rw [← ha]
  generalize allChannels.foldl (fun x c => offChannel u c x) a = z at hrows hruns ⊢
  have hli : z.li = a.li := by rw [hruns]
  refine ⟨fun y => ?_, fun k => ?_, fun y c => ?_, fun y c => ?_, ?_⟩
  · have hz : z.tenant y = a.tenant y := State.tenant_of (by rw [hli]) y
    exact hz.trans (State.tenant_modTenant ..)
  · have hz : z.lane k = s.lane k := State.lane_of hli k
    rw [State.lane_modLane]
    split
    · next hk => rw [← hk, hz]
    · exact hz
  · have hz := (hrows y c).1
    simp only [mem_allChannels, and_true] at hz
    exact hz
  · have hz := (hrows y c).2
    simp only [mem_allChannels, true_and] at hz
    exact hz
  · rw [hruns]
    rfl

theorem doTenantoff_disabled {u : TenantId} {s : State} (h : (s.tenant u).enabled = false) : doTenantoff u s = (s, .accepted) :=
  if_neg (by simp [h])

/-- What a grant makes of the part. -/
structure Granted (g : TenantGrant) (u : TenantId) (s t : State) : Prop where
  others : tenantsBut u s t
  grant : t.tenant u = { s.tenant u with grant := g }
  chosen : routeFieldsChange (s.tenant u).grant g = true → ∀ st, t.stream st = if st.tenant = u then
    { s.stream st with queue := (s.stream st).queue.modifyHead (rerouted t st) } else s.stream st
  stands : ¬routeFieldsChange (s.tenant u).grant g = true → t.sq = s.sq ∧ t.rs = s.rs
  rest : t = { s with sq := { s.sq with streams := t.sq.streams }, rs := { t.rs with paths := s.rs.paths },
                      li := { s.li with tenants := t.li.tenants } }

theorem doTenantset_grants {g : TenantGrant} {u : TenantId} {s : State} (h : tenantsetRefusal s u g = none) :
    ∃ t, doTenantset g u s = (t, .accepted) ∧ Granted g u s t := by
  refine ⟨_, doTenantset_granted h, ?_⟩
  have hgrant : (granted g u s).tenant u = { s.tenant u with grant := g } := State.tenant_modTenant_same ..
  have hothers : tenantsBut u s (granted g u s) := fun y hy => (State.tenant_modTenant ..).trans (if_neg hy)
  split
  · next hchange =>
    have htenants (y : TenantId) : (rechooseTenant u (granted g u s)).tenant y = (granted g u s).tenant y := State.tenant_of (by simp) y
    refine ⟨fun y hy => (htenants y).trans (hothers y hy), (htenants u).trans hgrant, fun _ st => ?_, fun hno => absurd hchange hno,
      state_ext (by simp [granted])⟩
    have hroute : chooseRoute (rechooseTenant u (granted g u s)) st = chooseRoute (granted g u s) st :=
      rechoose_chooseRoute (streamsOf_nodup u) (granted g u s) st
    rw [rechooseTenant_stream, rerouted_congr hroute]
    rfl
  · next hsame => exact ⟨hothers, hgrant, fun hchange => absurd hchange hsame, fun _ => ⟨rfl, rfl⟩, rfl⟩

/-- Settles O45: TENANTSET by its tests in order and then the grant; TENANTON and TENANTOFF by the flag, the channels and the lane. -/
theorem tenantsAreSetAndSwitched : Obligations.TenantsAreSetAndSwitched := by
  unfold Obligations.TenantsAreSetAndSwitched
  intro s tag body v field mask budget g u8
  have hg : grantOf body = g := rfl
  refine ⟨fun hlen => ?set, fun hlen hbeyond => ?beyond, fun u hlen hu => ⟨?on, fun hdisabled => ?offAlready, fun henabled => ?off⟩⟩
  case set =>
    have hexec := exec_tenantset (s := s) (tag := tag) hlen
    rw [hg] at hexec
    refine ⟨fun hbeyond => ?_, fun u hu => ?_⟩
    · rw [atIndex_beyond hbeyond] at hexec
      exact hexec
    · intro old beyond overlaps moves busy quotas routed
      rw [atIndex_val hu] at hexec
      have hbeyond : beyondStores g = true ↔ beyond := beyondStores_iff
      have hoverlaps : overlapsOther v u g = true ↔ overlaps := overlapsOther_iff
      have hbusy : (partitionsChange (v.tenant u).grant g = true ∧ anyRunning v u = true) ↔ busy :=
        and_congr partitionsChange_iff anyRunning_iff
      have refused {code : RefusalCode} (h : tenantsetRefusal v u g = some code) :
          exec (.tenantset mgmtLane tag body) s = .next (answer mgmtLane tag 0x1A (.refused code) v) := by
        rw [doTenantset_refused h] at hexec
        exact hexec
      rw [← hbeyond, ← hoverlaps, ← hbusy]
      refine ⟨fun h => refused (tenantsetRefusal_range h), fun hin h => refused (tenantsetRefusal_overlap hin h),
        fun hin hno h => refused (tenantsetRefusal_busy hin hno h),
        fun hin hno hquiet h => refused (tenantsetRefusal_quota hin hno hquiet h),
        fun hin hno hquiet h => ?_⟩
      obtain ⟨t, hdone, hgranted⟩ := doTenantset_grants (tenantsetRefusal_none hin hno hquiet h)
      rw [hdone] at hexec
      have hrouted : routeFieldsChange old g = true ↔ routed := routeFieldsChange_iff
      exact ⟨t, hexec, hgranted.others, hgranted.grant, fun hr => hgranted.chosen (hrouted.mpr hr),
        fun hr => hgranted.stands (mt hrouted.mp hr), hgranted.rest⟩
  case beyond =>
    have hon := exec_tenanton (s := s) (tag := tag) hlen
    have hoff := exec_tenantoff (s := s) (tag := tag) hlen
    rw [atIndex_beyond hbeyond] at hon hoff
    exact ⟨hon, hoff⟩
  case on =>
    have hon := exec_tenanton (s := s) (tag := tag) hlen
    rw [atIndex_val hu] at hon
    refine ⟨_, hon, fun y hy => (State.tenant_modTenant ..).trans (if_neg hy), State.tenant_modTenant_same .., rfl⟩
  case offAlready =>
    have hoff := exec_tenantoff (s := s) (tag := tag) hlen
    rw [atIndex_val hu, doTenantoff_disabled (s := countRequest mgmtLane s) hdisabled] at hoff
    exact hoff
  case off =>
    have hoff := exec_tenantoff (s := s) (tag := tag) hlen
    obtain ⟨t, hdone, off⟩ := doTenantoff_enabled (u := u) (s := v) henabled
    rw [atIndex_val hu, show countRequest mgmtLane s = v from rfl, hdone] at hoff
    refine ⟨t, hoff, fun y hy => (off.tenants y).trans (if_neg hy), (off.tenants u).trans (if_pos rfl), off.rest,
      fun k hk => (off.lanes k).trans (if_neg hk), ?lane, fun y c hy => ⟨(off.channels y c).trans (if_neg hy),
        (off.targets y c).trans (if_neg fun h => hy h.1)⟩, fun c => ?channel⟩
    case lane =>
      rw [off.lanes, if_pos rfl]
      dsimp only
      congr 1
      refine List.map_congr_left fun e _ => ?_
      cases e <;> rfl
    case channel =>
      intro x
      have hrow : t.channel u c = offRow x := (off.channels u c).trans (if_pos rfl)
      refine ⟨fun hidle => ⟨hrow.trans (offRow_idle hidle), (off.targets u c).trans (if_neg fun h => h.2 hidle)⟩, fun hruns => ?_⟩
      exact ⟨(off.targets u c).trans (if_pos ⟨rfl, hruns⟩), hrow.trans (offRow_runs hruns)⟩

end Sys2Proof.Proofs
end
